-- ==== Sys2Proof/Word.lean ====
section
/-! DEFINITION. The word types of the KS612 and the bank: a fixed number of like things, one for each unit of
the part (four channels, eight ports, 512 cache places). A bank carries its size with it, so a bank of the wrong
size cannot be built. -/

namespace Sys2Proof

/-- One byte of a Prompt Area structure. -/
abbrev Byte := BitVec 8
/-- A 32-bit word: generation words, frame numbers, report arguments, register values (spec/00_scope.md 1.4). -/
abbrev Word := BitVec 32
/-- A 64-bit host-memory address (spec/00_scope.md 1.4). -/
abbrev Addr := BitVec 64
/-- A 16-bit line key (R13). -/
abbrev Key := BitVec 16

/-- `n` like things, held in order. -/
structure Bank (n : Nat) (α : Type) where
  items : List α
  size : items.length = n
  deriving DecidableEq, Repr

/-- The `i`-th thing of a bank. -/
def Bank.get {n : Nat} {α : Type} (b : Bank n α) (i : Fin n) : α :=
  b.items[i.val]'(by rw [b.size]; exact i.isLt)

/-- A bank with its `i`-th thing replaced. -/
def Bank.set {n : Nat} {α : Type} (b : Bank n α) (i : Fin n) (x : α) : Bank n α :=
  ⟨b.items.set i.val x, by rw [List.length_set]; exact b.size⟩

/-- A bank whose things are all `x`. -/
def Bank.fill (n : Nat) {α : Type} (x : α) : Bank n α :=
  ⟨List.replicate n x, List.length_replicate⟩

/-- A bank with `f` applied to each thing. -/
def Bank.map {n : Nat} {α β : Type} (f : α → β) (b : Bank n α) : Bank n β :=
  ⟨b.items.map f, by rw [List.length_map]; exact b.size⟩

/-- The bank whose `i`-th thing is `f i`. -/
def Bank.ofFn {n : Nat} {α : Type} (f : Fin n → α) : Bank n α :=
  ⟨List.ofFn f, List.length_ofFn⟩

end Sys2Proof
end

