-- ==== Sys2Proof/Syntax.lean ====
section
/-! DEFINITION. The commands that reach the KS612: one constructor of `Instr` for each row of
spec/opcode_table.json, with the operands the row's event carries. Host-memory data enters as the bytes a read
brought (the byte layouts of spec/12_record_layouts.md), never as decoded fields. -/

namespace Sys2Proof

/-- A scroll channel SC0..SC3. -/
abbrev Chan := Fin 4
/-- A hand port HP0..HP7. -/
abbrev PortId := Fin 8
/-- A display head H0..H5. -/
abbrev HeadId := Fin 6
/-- A lamp group LG0..LG3. -/
abbrev GroupId := Fin 4
/-- A mark line M0..M15. -/
abbrev MarkId := Fin 16
/-- A story slot 0..255. -/
abbrev Slot := Fin 256
/-- A command slot CS0..CS3. -/
abbrev CmdSlot := Fin 4

/-- A button line of a hand port (R94). -/
inductive LineId | a | b | c
  deriving DecidableEq, Repr, Inhabited

/-- One thing for each of the lines A, B and C of a hand port. -/
structure Trio (α : Type) where
  a : α
  b : α
  c : α
  deriving DecidableEq, Repr

/-- The thing of one line. -/
def Trio.get {α : Type} (t : Trio α) : LineId → α
  | .a => t.a
  | .b => t.b
  | .c => t.c

/-- The three things with one line's replaced. -/
def Trio.set {α : Type} (t : Trio α) (l : LineId) (x : α) : Trio α :=
  match l with
  | .a => { t with a := x }
  | .b => { t with b := x }
  | .c => { t with c := x }

/-- The same thing on every line. -/
def Trio.fill {α : Type} (x : α) : Trio α := ⟨x, x, x⟩

/-- The input levels of one port's lines as they stand at the pins, before polarity (R94): `true` is high. -/
abbrev Lines := Trio Bool

/-- How a host-memory read ended: the bytes it brought, or a bus error. -/
inductive ReadResult
  | data (bytes : List Byte)
  | busError
  deriving DecidableEq, Repr

/-- A read's bytes, when it brought any, are `n`. -/
def ReadResult.hasLength (n : Nat) : ReadResult → Bool
  | .data bytes => bytes.length == n
  | .busError => true

/-- How a host-memory write ended. -/
inductive WriteResult
  | written
  | busError
  deriving DecidableEq, Repr

/-- Everything the full take read (R152 step 4): the Rundown header (R175), the 256 story entries (R176) in slot
order, and the four command slots (R178) in slot order. -/
structure FullTakeData where
  rundown : List Byte
  entries : List (List Byte)
  slots : List (List Byte)
  deriving DecidableEq, Repr

/-- Everything an ordinary scan read (R156): the rundown request generation (4 bytes) and the 256 story entries,
each of which may have failed alone (R157), the settings generation (4 bytes), the settings block (used when the
generation differs from the taken one) and the four command slots. -/
structure ScanData where
  rundownRequest : ReadResult
  entries : List ReadResult
  settingsGeneration : List Byte
  settingsBlock : List Byte
  slots : List (List Byte)
  deriving DecidableEq, Repr

/-- The scan read that ended in a bus error and halts the engine (R157). -/
inductive ScanRead
  | settingsGeneration
  | settingsBlock
  | commandSlot (n : CmdSlot)
  deriving DecidableEq, Repr

/-- The commands of the KS612, in the order of spec/opcode_table.json. A `tag` names the read or write that the
event completes, as the part issued it (notes/assumptions/3.md). The rows that are one case of a larger event
carry the larger event's operands (notes/assumptions/2.md). -/
inductive Instr
  /-- RESET# driven low and then high (R155). -/
  | powerOnReset
  /-- ENGINE_CTL write with RUN 1 and SOFT_RESET 0 (R150, R152). -/
  | startSequence (lookNow : Bool)
  /-- ENGINE_CTL write with RUN 0 and SOFT_RESET 0 (R150, R153). -/
  | stop (lookNow : Bool)
  /-- ENGINE_CTL write with SOFT_RESET 1 (R150, R155). -/
  | softReset (run lookNow : Bool)
  /-- ENGINE_CTL write with LOOK_NOW 1 and SOFT_RESET 0 (R150). -/
  | lookNow (run : Bool)
  /-- A 32-bit write to AREA_LO (R149). -/
  | areaLoWrite (value : Word)
  /-- A 32-bit write to AREA_HI (R149). -/
  | areaHiWrite (value : Word)
  /-- A 32-bit write to IRQ_CAUSE (R169). -/
  | irqCauseWrite (value : Word)
  /-- A register-window write of `size` bytes at `offset` that the part ignores (R182). -/
  | registerWriteIgnored (offset size : Nat) (value : Word)
  /-- The Area header read completes (R152 step 1). -/
  | areaHeaderReadDone (tag : Nat) (bytes : List Byte)
  /-- A read of the glyph table completes (R131): the 16-byte head, or one image. -/
  | glyphStoreLoadReadDone (tag : Nat) (bytes : List Byte)
  /-- The settings block read of the start sequence completes (R152 step 3). -/
  | startSettingsReadDone (tag : Nat) (bytes : List Byte)
  /-- A read of the start sequence ends in a bus error (R152). -/
  | startReadFault (tag : Nat)
  /-- The last read of the full take completes (R2). -/
  | fullTake (tag : Nat) (d : FullTakeData)
  /-- A free-running frame period ends (R124). -/
  | frameEvent
  /-- A rising edge on REF (R126, R127). -/
  | refEdge
  /-- The rising edge on REF that brings the qualifying run to 8 (R126). -/
  | refLock
  /-- The window of a LOCKED period closes without an edge (R127). -/
  | refWindowClose
  /-- The window close that brings the missed count to 2 (R127). -/
  | refLossMissed
  /-- The 1 ms sample event (R123), with the level of every port line. -/
  | sampleEvent (levels : Bank 8 Lines)
  /-- The 50 microsecond sample of lines A and B of one wheel port (R100). -/
  | quadratureSample (p : PortId) (a b : Bool)
  /-- An edge on line A of a port, to `level` at the pin (R97). -/
  | leverEdge (p : PortId) (level : Bool)
  /-- The rising edge whose valid sample brings the valid run to 4 in ACQUIRING or LOST (R99). -/
  | leverAcquired (p : PortId)
  /-- The rising edge whose invalid sample brings the invalid run to 8 in ACTIVE or RECENTER (R99). -/
  | leverInvalidLost (p : PortId)
  /-- The sample event at which the edge age of an ACTIVE or RECENTER port stands at or above its loss limit (R99). -/
  | leverLossTimeout (p : PortId) (levels : Bank 8 Lines)
  /-- The sample event at which a button line's accepted level changes (R102). -/
  | buttonDebounceAccept (p : PortId) (line : LineId) (levels : Bank 8 Lines)
  /-- The sample event at which a channel's strobe timer counts down to 0 (R144). -/
  | strobeExpiry (c : Chan) (levels : Bank 8 Lines)
  /-- The frame event at which a channel's holder releases by quiet time (R114). -/
  | quietRelease (c : Chan)
  /-- The first waiting entry of the Fetch Queue is issued (R82). -/
  | fetchIssue
  /-- A line read completes (R83, R84, R85). -/
  | fetchCompletion (tag : Nat) (r : ReadResult)
  /-- A status record write completes (R161). -/
  | statusWriteComplete (tag : Nat) (r : WriteResult)
  /-- Every read of a frame scan has completed (R156). -/
  | scanCompletion (tag : Nat) (d : ScanData)
  /-- A scan read whose failure ends the scan completes with a bus error (R157). -/
  | scanReadFault (tag : Nat) (which : ScanRead)
  /-- The write of the taken generation completes (R158). -/
  | settingsWriteComplete (tag : Nat) (r : WriteResult)
  /-- A fresh JUMP command of a command slot is executed (R35, R159). -/
  | jump (slot : CmdSlot) (request channel story line : Word)
  /-- A fresh NUDGE command is executed (R120, R159). -/
  | nudge (slot : CmdSlot) (request channel rows : Word)
  /-- A fresh SET_DEMAND command is executed (R120, R159). -/
  | setDemand (slot : CmdSlot) (request channel demand : Word)
  /-- A fresh GO command is executed (R34, R159). -/
  | go (slot : CmdSlot) (request channel : Word)
  /-- A fresh FREEZE command is executed (R32, R159). -/
  | freeze (slot : CmdSlot) (request channel on : Word)
  /-- A fresh HEAD_BLANK command is executed (R132, R159). -/
  | headBlank (slot : CmdSlot) (request head on : Word)
  /-- A fresh REFRESH_STORY command is executed (R88, R159). -/
  | refreshStory (slot : CmdSlot) (request story : Word)
  /-- A fresh command whose code is none of the seven is executed (R160). -/
  | unknownCommand (slot : CmdSlot) (request code : Word)
  /-- The done and result write of a command slot completes (R159). -/
  | commandResultWriteDone (tag : Nat) (r : WriteResult)
  /-- The version read of a direct take completes (R63). -/
  | directTakeReadDone (tag : Nat) (r : ReadResult)
  /-- The version read of the key search completes (R67). -/
  | searchVersionReadDone (tag : Nat) (r : ReadResult)
  /-- A line key read of the key search completes (R67). -/
  | keyReadDone (tag : Nat) (r : ReadResult)
  /-- The write of a story's part-written fields completes (R65). -/
  | exchangeWriteDone (tag : Nat) (r : WriteResult)
  /-- A read of the order list take of a rundown exchange completes (R5, R74): the length (4 bytes), or the slot
  numbers that the length counts. -/
  | rundownListReadDone (tag : Nat) (r : ReadResult)
  /-- The Rundown header write of a rundown exchange completes (R74). -/
  | rundownWriteDone (tag : Nat) (r : WriteResult)
  /-- The oldest post begins and its slot read is issued (R166). -/
  | postBegin
  /-- The slot read of the post in progress completes (R166). -/
  | postReadDone (tag : Nat) (r : ReadResult)
  /-- The report write of the post in progress completes (R166). -/
  | postWriteDone (tag : Nat) (r : WriteResult)
  deriving DecidableEq, Repr

end Sys2Proof
end

