-- ==== Sys2Proof/Decode.lean ====
section
/-! DEFINITION. The reading of a command from a word of spec/opcode_table.json. The table gives no row any bits: a
command of this part is an event, not a word, and no word spells one. -/

namespace Sys2Proof

/-- The command that a word of `nbits` bits spells: none, for every word. -/
def decodeTableWord (_nbits _w : Nat) : Option Instr := none

end Sys2Proof
end

