-- ==== Sys2Proof/Machine/State.lean ====
section
/-! DEFINITION. The state of the KS612, block by block, as plain data, with its value after power-on reset. Every
item is named by a rule of spec/; the model's own items (`pending`, `nextTag`, and the identities of transactions
in flight) say so. INVENTORY.md lists them all. -/

namespace Sys2Proof.Machine

/-! ### Enumerations (R183) -/

inductive EngineState | stopped | starting | running | halted
  deriving DecidableEq, Repr, Inhabited
inductive HaltCause | none | badArea | areaReadFault | statusWriteFault | reportWriteFault
  deriving DecidableEq, Repr, Inhabited
/-- A side of a story, or an order list (R4, R9). -/
inductive Side | a | b
  deriving DecidableEq, Repr, Inhabited
inductive ExchangeMode | clear | now
  deriving DecidableEq, Repr, Inhabited
inductive Style | normal | emphasis | direction | slug
  deriving DecidableEq, Repr, Inhabited
inductive CueCode | none | stop | signal | stopSignal
  deriving DecidableEq, Repr, Inhabited
inductive ChannelMode | off | live | follow
  deriving DecidableEq, Repr, Inhabited
inductive AuthMode | operator | presenter | takeover
  deriving DecidableEq, Repr, Inhabited
inductive PortMode | off | lever | wheel | keys
  deriving DecidableEq, Repr, Inhabited
inductive PortPhase | off | acquiring | recenter | active | lost
  deriving DecidableEq, Repr, Inhabited
inductive Role | presenter | operator
  deriving DecidableEq, Repr, Inhabited
inductive Action
  | none | go | freezeHold | freezeToggle | reverseHold | storyNext | storyPrev | take | mark | zero
  deriving DecidableEq, Repr, Inhabited
inductive WheelFunction | jog | speed
  deriving DecidableEq, Repr, Inhabited
inductive ButtonLevel | unset | released | pressed
  deriving DecidableEq, Repr, Inhabited
inductive LampSelect | off | on | authority | hold | strobe
  deriving DecidableEq, Repr, Inhabited
inductive MarkSelect | undriven | low | high | bit | bitInv | hold | strobe
  deriving DecidableEq, Repr, Inhabited
inductive GroupMode | latch | span
  deriving DecidableEq, Repr, Inhabited
inductive FrameRate | fps24 | fps25 | fps50 | fps5994 | fps60
  deriving DecidableEq, Repr, Inhabited
inductive RefSelect | internal | ref
  deriving DecidableEq, Repr, Inhabited
inductive LockState | free | locked
  deriving DecidableEq, Repr, Inhabited
inductive Marker | arrow | bar | none
  deriving DecidableEq, Repr, Inhabited
inductive CommandResult
  | ok | clamped | badTarget | wrongState | frozen | busy | noAuthority | unknown
  deriving DecidableEq, Repr, Inhabited
inductive Direction | forward | backward | landing
  deriving DecidableEq, Repr, Inhabited
inductive ScanOrigin | frame | lookNow
  deriving DecidableEq, Repr, Inhabited
inductive StoryJump | next | prev
  deriving DecidableEq, Repr, Inhabited
inductive AuthorityCause
  | claim | takeover | quiet | portLost | portSettings | authoritySettings | channelMode
  deriving DecidableEq, Repr, Inhabited
/-- The report codes of R171. -/
inductive ReportCode
  | portLost | portRestored | mark | jumpRefused | cueReached | cuePassed | endReached | starved
  | anchorMoved | boundaryHeld | authorityChanged | duplicateSlot | nullBlock | entryReadFault
  | malformedLine | fetchFailed | exchangeDone | exchangeFailed | commandDone | refLocked | refLost
  | scanOverrun | settingsTaken | started
  deriving DecidableEq, Repr, Inhabited
/-- The classes of reports (R163). -/
inductive ReportClass | input | motion | script | control | timing
  deriving DecidableEq, Repr, Inhabited

/-! ### Settings shadow (R158) -/

/-- The settings of one scroll channel (R21, R41, R110). `mode` is the mode the channel has (R20): the FOLLOW check
has been made. -/
structure ChannelSettings where
  mode : ChannelMode
  leader : Chan
  offset : Int
  vmax : Nat
  accel : Nat
  approach : Nat
  crawl : Nat
  curve : Bank 17 Nat
  authMode : AuthMode
  releaseTime : Nat
  deriving DecidableEq, Repr

/-- The settings of one hand port (R93). -/
structure PortSettings where
  mode : PortMode
  channel : Chan
  role : Role
  invert : Trio Bool
  debounce : Nat
  action : Trio Action
  center : Nat
  deadband : Nat
  span : Nat
  reverse : Bool
  lossLimit : Nat
  wheelFunction : WheelFunction
  jogScale : Nat
  demandStep : Nat
  lampSelect : LampSelect
  deriving DecidableEq, Repr

/-- A colour (R132), and a pixel of a raster. -/
structure Rgb where
  red : Byte
  green : Byte
  blue : Byte
  deriving DecidableEq, Repr

/-- The colours of one style (R132). -/
structure ColourPair where
  foreground : Rgb
  background : Rgb
  deriving DecidableEq, Repr

/-- The settings of one head (R132). -/
structure HeadSettings where
  enable : Bool
  channel : Chan
  rows : Nat
  readingRow : Nat
  columns : Nat
  mirror : Bool
  flip : Bool
  marker : Marker
  normal : ColourPair
  emphasis : ColourPair
  direction : ColourPair
  slug : ColourPair
  deriving DecidableEq, Repr

/-- One flag for each report class (R164). -/
structure ClassFlags where
  input : Bool
  motion : Bool
  script : Bool
  control : Bool
  timing : Bool
  deriving DecidableEq, Repr

/-- The settings shadow. -/
structure Settings where
  channels : Bank 4 ChannelSettings
  ports : Bank 8 PortSettings
  frameRate : FrameRate
  refSelect : RefSelect
  heads : Bank 6 HeadSettings
  groupChannel : Bank 4 Chan
  groupMode : Bank 4 GroupMode
  markSelect : Bank 16 MarkSelect
  enables : ClassFlags
  deriving DecidableEq, Repr

/-! ### Script shadows (R1) and views (R17) -/

/-- The shadow of one story entry (R1). `result` is the exchange result word as found or as written (R11). -/
structure Story where
  present : Bool
  ready : Bool
  mask : BitVec 4
  storyId : Word
  request : Word
  mode : ExchangeMode
  side : Side
  done : Word
  result : Word
  address : Addr
  count : Nat
  deriving DecidableEq, Repr

/-- The rundown shadow (R1). -/
structure Rundown where
  order : List Slot
  selector : Side
  request : Word
  done : Word
  deriving DecidableEq, Repr

/-- One entry of a view (R17). -/
structure ViewEntry where
  slot : Slot
  count : Nat
  ready : Bool
  deriving DecidableEq, Repr

/-! ### Scroll channels (R20) -/

/-- The line at a channel's reading line (R24). -/
structure Anchor where
  slot : Slot
  line : Nat
  deriving DecidableEq, Repr

/-- A subset of the four holds (R29). -/
structure HoldSet where
  cue : Bool
  boundary : Bool
  freeze : Bool
  exchange : Bool
  deriving DecidableEq, Repr

/-- A source of demand and jog (R112). -/
inductive Source
  | port (p : PortId)
  | console
  deriving DecidableEq, Repr

/-- What a channel published at its last frame event (R39). `view` is the view the channel took at that publication,
which the window of a head is counted through (R62). -/
structure Published where
  mode : ChannelMode
  leader : Chan
  anchor : Option Anchor
  fraction : Nat
  key : Option Key
  speed : Int
  demand : Int
  holds : HoldSet
  latch : Bool
  atEnd : Bool
  starve : Bool
  starveCount : Nat
  holder : Option Source
  frame : Word
  view : List ViewEntry
  deriving DecidableEq, Repr

/-- The state of one scroll channel (R20). The mode stands in the settings shadow. FREEZE is in the hold set while
`latch` is on or `pressed` is not empty (R32), so it is computed from them; the other three holds are held here.
`view` is the view taken at the last frame event, which is the former view at the next one (R25). `placed` is the
Placed item of the crossing record being formed (R140). -/
structure Channel where
  anchor : Option Anchor
  fraction : Nat
  key : Option Key
  cue : Bool
  boundary : Bool
  exchange : Bool
  latch : Bool
  pressed : Bank 8 (Trio Bool)
  speed : Int
  demand : Int
  starve : Bool
  starveCount : Nat
  atEnd : Bool
  view : List ViewEntry
  placed : Bool
  pub : Published
  deriving DecidableEq, Repr

/-! ### Hand ports (R95) and the Authority Arbiter (R111) -/

/-- The debounce state of one button line (R95, R102). -/
structure Button where
  level : ButtonLevel
  run : Nat
  deriving DecidableEq, Repr

/-- The state of one hand port (R95). -/
structure Port where
  phase : PortPhase
  periodStart : Option Word
  highTime : Option Nat
  lastHigh : Nat
  lastPeriod : Nat
  position : Nat
  value : Int
  validRun : Nat
  invalidRun : Nat
  edgeAge : Nat
  timeLost : Nat
  lostCount : Nat
  quad : Option (Bool × Bool)
  errorCount : Nat
  jog : Int
  standing : Int
  buttons : Trio Button
  reverseSet : Trio Bool
  take : Bool
  jump : Option (StoryJump × LineId)
  deriving DecidableEq, Repr

/-- The arbiter's state for one channel (R111). -/
structure Authority where
  holder : Option Source
  quiet : Nat
  consoleDemand : Int
  consoleJog : Int
  deriving DecidableEq, Repr

/-! ### Line Cache and Fetch Queue (R76) -/

/-- A line record as decoded into the cache (R14, R15): `pattern` is none where the line has no pattern. -/
structure LineRecord where
  key : Key
  textLength : Nat
  style : Style
  cue : CueCode
  pattern : Option (BitVec 4)
  text : List Byte
  deriving DecidableEq, Repr

/-- The state of a cache entry (R79): the record is present in RESIDENT, the failure frame in FAILED. -/
inductive EntryState
  | filling
  | resident (record : LineRecord)
  | failed (frame : Word)
  deriving DecidableEq, Repr

/-- An entry of the Line Cache (R79). -/
structure CacheEntry where
  slot : Slot
  line : Nat
  state : EntryState
  malformed : Bool
  lastNeeded : Word
  failures : Nat
  deriving DecidableEq, Repr

/-- A place of the Line Cache (R76): free, holding an entry, or withdrawn (R85). -/
inductive Place
  | free
  | held (e : CacheEntry)
  | withdrawn
  deriving DecidableEq, Repr

/-- The rank of a needed line (R78). `behind` is the direction: a line behind the anchor line. -/
structure Rank where
  cls : Nat
  distance : Nat
  channel : Chan
  behind : Bool
  deriving DecidableEq, Repr

/-- A line of a channel's need (R77). -/
structure Need where
  slot : Slot
  line : Nat
  rank : Rank
  deriving DecidableEq, Repr

/-- A host-memory access in flight: the model's own name for it, and where it reads or writes. -/
structure Request where
  tag : Nat
  address : Addr
  length : Nat
  deriving DecidableEq, Repr

/-- The state of a Fetch Queue entry (R80): the read of an ISSUED entry, and the cache place it fills. -/
inductive QueueState
  | waiting
  | issued (request : Request) (place : Fin 512) (stale : Bool)
  deriving DecidableEq, Repr

/-- An entry of the Fetch Queue (R80). Its class is its rank's class. -/
structure QueueEntry where
  slot : Slot
  line : Nat
  rank : Rank
  state : QueueState
  deriving DecidableEq, Repr

/-- The Fetch Unit (R76). The issued count is the number of ISSUED entries of the queue. -/
structure Fetch where
  cache : Bank 512 Place
  queue : List QueueEntry
  needs : Bank 4 (List Need)
  deriving DecidableEq, Repr

/-! ### Exchange Unit (R59) -/

/-- The take record of a story in TAKING (R63). -/
structure DirectTake where
  slot : Slot
  generation : Word
  mode : ExchangeMode
  request : Request
  deriving DecidableEq, Repr

/-- A channel of a key search (R59). `late` marks a channel that joined after the read in flight was issued (R67). -/
structure SearchMember where
  channel : Chan
  target : Option Key
  found : Option Nat
  late : Bool
  deriving DecidableEq, Repr

/-- The phase of the key search (R67), with the read in flight. In KEYS: the new version's address and count, the
index of the key read in flight, and whether a joining channel has set the next index back to 0. -/
inductive SearchPhase
  | versionRead (request : Request)
  | keys (request : Request) (address : Addr) (count : Nat) (index : Nat) (setBack : Bool)
  deriving DecidableEq, Repr

/-- The running searcher (R59). -/
structure Searcher where
  slot : Slot
  generation : Word
  mode : ExchangeMode
  phase : SearchPhase
  members : List SearchMember
  deriving DecidableEq, Repr

/-- What a rundown take reads (R5): the length of its list, and then the slot numbers that the length counts. -/
inductive RundownRead
  | length
  | slots
  deriving DecidableEq, Repr

/-- A rundown take in READING (R73), with the read in flight. -/
structure RundownTake where
  generation : Word
  list : Side
  reading : RundownRead
  request : Request
  deriving DecidableEq, Repr

/-- The Exchange Unit: the stories in TAKING, the searcher and the rundown take (IDLE is `none`). -/
structure Exchange where
  takes : List DirectTake
  searcher : Option Searcher
  rundown : Option RundownTake
  deriving DecidableEq, Repr

/-! ### Timebase (R122) -/

/-- The timebase (R122, R123, R124). `periodStart` is the capture count of the frame event that began the period in
progress; `runRate`, `runIndex` and `periodLength` are the run of free-running periods it belongs to, its index in
the run and its length (R124). `announceLock` is set while a lock in force at the entry to RUNNING has not been
announced (R129). -/
structure Timebase where
  lock : LockState
  qualifyingRun : Nat
  lastEdge : Option Word
  lastPeriod : Nat
  missed : Nat
  lockedFrames : Nat
  frameCounter : Word
  captureCount : Word
  periodStart : Word
  runRate : FrameRate
  runIndex : Nat
  periodLength : Nat
  announceLock : Bool
  deriving DecidableEq, Repr

/-! ### Heads and the glyph store (R131, R132) -/

/-- A raster: `rows` from the top, each row's pixels from the left. -/
structure Raster where
  width : Nat
  height : Nat
  rows : List (List Rgb)
  deriving DecidableEq, Repr

/-- The state of one head (R132, R138): `composed` is the raster composed at the last frame event (none in OFF) and
`output` the raster being sent in the frame period in progress. -/
structure Head where
  blank : Bool
  lastComposed : Raster
  composed : Option Raster
  output : Option Raster
  deriving DecidableEq, Repr

/-- The glyph store (R131). -/
structure GlyphStore where
  width : Nat
  height : Nat
  images : Bank 256 (List Byte)
  deriving DecidableEq, Repr

/-! ### Lamp Unit (R139) -/

/-- The Lamp Unit. -/
structure Lamps where
  pattern : Bank 4 (BitVec 4)
  strobe : Bank 4 Nat
  driven : Bool
  deriving DecidableEq, Repr

/-! ### Area Port (R155) -/

/-- The Area header copy (R152). -/
structure HeaderCopy where
  settings : Word
  rundown : Word
  stories : Word
  commands : Word
  channelStatus : Word
  portStatus : Word
  reports : Word
  glyphTable : Addr
  deriving DecidableEq, Repr

/-- A run of host-memory bytes that the part reads. -/
structure Extent where
  address : Addr
  length : Nat
  deriving DecidableEq, Repr

/-- Reads issued together, whose last completion is one event: they carry one name (notes/assumptions/22.md). -/
structure ReadGroup where
  tag : Nat
  reads : List Extent
  deriving DecidableEq, Repr

/-- The step the start sequence has reached (R152), with its reads in flight. -/
inductive StartStep
  | header (request : Request)
  | glyphHead (request : Request)
  | glyphImages (reads : List (Request × Fin 256))
  | settings (request : Request)
  | fullTake (group : ReadGroup)
  deriving DecidableEq, Repr

/-- A frame scan in progress (R156): the reads every scan makes, and the read of the settings block that it makes
besides when the settings generation read differs from the one taken. -/
structure Scan where
  origin : ScanOrigin
  skipped : Nat
  group : ReadGroup
  block : Extent
  deriving DecidableEq, Repr

/-- What a write of the part goes to. -/
inductive WriteTarget
  | channelStatus (c : Chan)
  | portStatus (p : PortId)
  | takenGeneration
  | commandResult (n : CmdSlot)
  | storyFields (s : Slot)
  | rundownFields
  deriving DecidableEq, Repr

/-- A report to be raised: its slot, code and arguments (R165). -/
structure Report where
  slot : Fin 18
  code : ReportCode
  arg1 : Word
  arg2 : Word
  arg3 : Word
  arg4 : Word
  deriving DecidableEq, Repr

/-- A write issued and not yet complete: its bytes, and the report its completion raises (R65, R159). -/
structure Write where
  tag : Nat
  target : WriteTarget
  address : Addr
  bytes : List Byte
  report : Option Report
  deriving DecidableEq, Repr

/-- The Area Port. `baseInForce` is the Area base of the run (R149, R164). -/
structure Area where
  areaLo : Word
  areaHi : Word
  engine : EngineState
  haltCause : HaltCause
  start : Option StartStep
  scan : Option Scan
  takenGeneration : Word
  commandDone : Bank 4 Word
  header : HeaderCopy
  baseInForce : Addr
  deriving DecidableEq, Repr

/-! ### Report Unit (R164) -/

/-- A post entry (R165): a report and the frame number at which it was raised. -/
structure Post where
  report : Report
  frame : Word
  deriving DecidableEq, Repr

/-- The phase of the post in progress (R166), with the access in flight. -/
inductive PostPhase
  | read (request : Request)
  | write (request : Request) (bytes : List Byte) (count : Word)
  deriving DecidableEq, Repr

/-- The post in progress (R166). -/
structure PostInProgress where
  post : Post
  phase : PostPhase
  deriving DecidableEq, Repr

/-- The Report Unit (R164): IRQ_CAUSE is `causes` and `halt`. -/
structure Reports where
  heldCount : Bank 18 Word
  queue : List Post
  current : Option PostInProgress
  causes : ClassFlags
  halt : Bool
  postponed : ClassFlags
  dropped : Nat
  deriving DecidableEq, Repr

/-! ### The whole machine -/

/-- The state of the KS612. `writes` are the writes in flight, oldest first. `nextTag` and `pending` are the model's
own: the name of the next access, and the commands that wait, first in, first out. -/
structure State where
  area : Area
  writes : List Write
  settings : Settings
  stories : Bank 256 Story
  rundown : Rundown
  exchange : Exchange
  fetch : Fetch
  channels : Bank 4 Channel
  ports : Bank 8 Port
  authority : Bank 4 Authority
  armed : Bank 8 Bool
  timebase : Timebase
  glyphs : GlyphStore
  heads : Bank 6 Head
  lamps : Lamps
  reports : Reports
  nextTag : Nat
  pending : List Instr
  deriving DecidableEq, Repr

/-- Reasons to stop with a fault: there is none. The spec gives every event of the part an effect in every state, and
its bus errors and halts are effects on the state (R151). The type is empty, so no step can answer with a fault;
an empty type is neither safe nor unsafe. -/
inductive Fault
  deriving DecidableEq, Repr

/-- Reasons to refuse. -/
inductive Refusal
  /-- Raised by `exec` alone, for a row of spec/opcode_table.json that has no meaning yet; no arm of this model raises
  it. Safe: the machine stops where the part would go on. -/
  | notModelled (mnemonic : String)
  deriving DecidableEq, Repr

/-! ### Values after power-on reset -/

def HoldSet.empty : HoldSet := ⟨false, false, false, false⟩

def ClassFlags.none : ClassFlags := ⟨false, false, false, false, false⟩

/-- Channel settings after reset (R21, R41, R110). -/
def ChannelSettings.reset : ChannelSettings where
  mode := .off
  leader := 0
  offset := 0
  vmax := 1024
  accel := 32
  approach := 8
  crawl := 64
  curve := Bank.fill 17 0
  authMode := .takeover
  releaseTime := 25

/-- Port settings after reset (R93). -/
def PortSettings.reset : PortSettings where
  mode := .off
  channel := 0
  role := .presenter
  invert := Trio.fill false
  debounce := 5
  action := Trio.fill .none
  center := 2048
  deadband := 64
  span := 1536
  reverse := false
  lossLimit := 50
  wheelFunction := .jog
  jogScale := 256
  demandStep := 8
  lampSelect := .off

def Rgb.black : Rgb := ⟨0, 0, 0⟩
def Rgb.white : Rgb := ⟨255, 255, 255⟩

/-- The colours of every style after reset (R132). -/
def ColourPair.reset : ColourPair := ⟨.white, .black⟩

/-- Head settings after reset (R132). -/
def HeadSettings.reset : HeadSettings where
  enable := false
  channel := 0
  rows := 16
  readingRow := 4
  columns := 40
  mirror := false
  flip := false
  marker := .arrow
  normal := .reset
  emphasis := .reset
  direction := .reset
  slug := .reset

/-- The settings shadow after reset (R155). -/
def Settings.reset : Settings where
  channels := Bank.fill 4 .reset
  ports := Bank.fill 8 .reset
  frameRate := .fps25
  refSelect := .internal
  heads := Bank.fill 6 .reset
  groupChannel := Bank.fill 4 0
  groupMode := Bank.fill 4 .latch
  markSelect := Bank.fill 16 .undriven
  enables := .none

/-- A story shadow after reset (R1). -/
def Story.reset : Story where
  present := false
  ready := false
  mask := 0
  storyId := 0
  request := 0
  mode := .clear
  side := .a
  done := 0
  result := 0
  address := 0
  count := 0

/-- The rundown shadow after reset (R1). -/
def Rundown.reset : Rundown := ⟨[], .a, 0, 0⟩

/-- Nothing published yet: the publication of an OFF channel (R20, R39). -/
def Published.reset : Published where
  mode := .off
  leader := 0
  anchor := none
  fraction := 0
  key := none
  speed := 0
  demand := 0
  holds := .empty
  latch := false
  atEnd := false
  starve := false
  starveCount := 0
  holder := none
  frame := 0
  view := []

/-- A channel after reset (R20). -/
def Channel.reset : Channel where
  anchor := none
  fraction := 0
  key := none
  cue := false
  boundary := false
  exchange := false
  latch := false
  pressed := Bank.fill 8 (Trio.fill false)
  speed := 0
  demand := 0
  starve := false
  starveCount := 0
  atEnd := false
  view := []
  placed := false
  pub := .reset

def Button.reset : Button := ⟨.unset, 0⟩

/-- A port after reset (R95). -/
def Port.reset : Port where
  phase := .off
  periodStart := none
  highTime := none
  lastHigh := 0
  lastPeriod := 0
  position := 0
  value := 0
  validRun := 0
  invalidRun := 0
  edgeAge := 0
  timeLost := 0
  lostCount := 0
  quad := none
  errorCount := 0
  jog := 0
  standing := 0
  buttons := Trio.fill .reset
  reverseSet := Trio.fill false
  take := false
  jump := none

/-- The arbiter's state for a channel after reset (R111). -/
def Authority.reset : Authority := ⟨none, 0, 0, 0⟩

/-- The Fetch Unit after reset (R76). -/
def Fetch.reset : Fetch := ⟨Bank.fill 512 .free, [], Bank.fill 4 []⟩

/-- The Exchange Unit after reset (R59), and with its work abandoned (R72). -/
def Exchange.idle : Exchange := ⟨[], none, none⟩

/-- The timebase after reset (R122), at capture count 0. -/
def Timebase.reset : Timebase where
  lock := .free
  qualifyingRun := 0
  lastEdge := none
  lastPeriod := 0
  missed := 0
  lockedFrames := 0
  frameCounter := 0
  captureCount := 0
  periodStart := 0
  runRate := .fps25
  runIndex := 0
  periodLength := 40000
  announceLock := false

/-- The glyph store after reset (R131): 12 by 20, every image all background. -/
def GlyphStore.reset : GlyphStore := ⟨12, 20, Bank.fill 256 (List.replicate 40 0)⟩

/-- An all-black raster. -/
def Raster.black (width height : Nat) : Raster :=
  ⟨width, height, List.replicate height (List.replicate width .black)⟩

/-- A head after reset (R132). The all-black frame has the size that the reset settings and the reset cell give
(R134): 41 cells of 12 by 16 rows of 20. -/
def Head.reset : Head := ⟨false, Raster.black 492 320, none, none⟩

/-- The Lamp Unit after reset (R139). -/
def Lamps.reset : Lamps := ⟨Bank.fill 4 0, Bank.fill 4 0, false⟩

/-- The Area header copy after reset (R155). -/
def HeaderCopy.reset : HeaderCopy := ⟨0, 0, 0, 0, 0, 0, 0, 0⟩

/-- The Area Port after power-on reset (R149, R155). -/
def Area.reset : Area where
  areaLo := 0
  areaHi := 0
  engine := .stopped
  haltCause := .none
  start := none
  scan := none
  takenGeneration := 0
  commandDone := Bank.fill 4 0
  header := .reset
  baseInForce := 0

/-- The Report Unit after reset (R164). -/
def Reports.reset : Reports := ⟨Bank.fill 18 0, [], none, .none, false, .none, 0⟩

/-- The machine right after power-on reset (R155). -/
def State.reset : State where
  area := .reset
  writes := []
  settings := .reset
  stories := Bank.fill 256 .reset
  rundown := .reset
  exchange := .idle
  fetch := .reset
  channels := Bank.fill 4 .reset
  ports := Bank.fill 8 .reset
  authority := Bank.fill 4 .reset
  armed := Bank.fill 8 false
  timebase := .reset
  glyphs := .reset
  heads := Bank.fill 6 .reset
  lamps := .reset
  reports := .reset
  nextTag := 0
  pending := []

end Sys2Proof.Machine
end

