-- ==== Sys2Proof/Config.lean ====
section
/-! DEFINITION. The values the manual leaves open: opaque constants with no body, so that no proof can rest on
what one of them is (notes/assumptions/20.md, 21.md). -/

namespace Sys2Proof.Config

/-- The side a full take adopts from an active side field that holds neither A (0) nor B (1): R2 takes the field as
found and R183 names two values only. -/
opaque unstatedSide : Word → Machine.Side

/-- Whether a pixel of the marker cell that the edge of the ARROW triangle passes through is drawn (R136): the manual
gives the shape, not its raster. The arguments are the cell's width and height and the pixel's column and row. -/
opaque arrowEdgePixel : Nat → Nat → Nat → Nat → Bool

/-- Whether a pixel inside the ARROW triangle, away from its base, belongs to the two-pixel outline of its slanted
edges (R136). The arguments are as for `arrowEdgePixel`. -/
opaque arrowOutlinePixel : Nat → Nat → Nat → Nat → Bool

/-- Whether a pixel row that lies partly in the middle third of the cell's height belongs to the band of a BARRED
marker (R136). The arguments are the cell's height and the row. -/
opaque bandEdgeRow : Nat → Nat → Bool

end Sys2Proof.Config
end

