-- ==== Sys2Proof/Machine/Layout.lean ====
section
/-! DEFINITION. The byte layouts of spec/12_record_layouts.md: little-endian fields (R172), the enumerated values
(R183), and the decoding of each structure the part reads. A byte beyond the end of a list reads as 0. -/

namespace Sys2Proof.Machine

/-! ### Fields (R172) -/

def byteAt (bytes : List Byte) (i : Nat) : Byte := bytes.getD i 0

def half (bytes : List Byte) (i : Nat) : BitVec 16 := byteAt bytes (i + 1) ++ byteAt bytes i

def word (bytes : List Byte) (i : Nat) : Word := half bytes (i + 2) ++ half bytes i

def long (bytes : List Byte) (i : Nat) : Addr := word bytes (i + 4) ++ word bytes i

def halfBytes (v : BitVec 16) : List Byte := [v.extractLsb' 0 8, v.extractLsb' 8 8]

def wordBytes (v : Word) : List Byte :=
  [v.extractLsb' 0 8, v.extractLsb' 8 8, v.extractLsb' 16 8, v.extractLsb' 24 8]

def natByte (n : Nat) : Byte := BitVec.ofNat 8 n
def natHalf (n : Nat) : BitVec 16 := BitVec.ofNat 16 n
def natWord (n : Nat) : Word := BitVec.ofNat 32 n
/-- A signed value across 32 bits (R172). -/
def intWord (i : Int) : Word := BitVec.ofInt 32 i
def intHalf (i : Int) : BitVec 16 := BitVec.ofInt 16 i
def zeros (n : Nat) : List Byte := List.replicate n 0
/-- NONE in a 32-bit field: all ones (R172). -/
def noneWord : Word := 0xFFFFFFFF

def boolBit (b : Bool) (weight : Nat) : Nat := if b then weight else 0
def boolWord (b : Bool) : Word := if b then 1 else 0

/-! ### Enumerated values (R183) -/

def EngineState.code : EngineState → Nat
  | .stopped => 0 | .starting => 1 | .running => 2 | .halted => 3

def HaltCause.code : HaltCause → Nat
  | .none => 0 | .badArea => 1 | .areaReadFault => 2 | .statusWriteFault => 3 | .reportWriteFault => 4

def Side.code : Side → Nat
  | .a => 0 | .b => 1

/-- The side or list that is not this one. -/
def Side.other : Side → Side
  | .a => .b | .b => .a

def CueCode.code : CueCode → Nat
  | .none => 0 | .stop => 1 | .signal => 2 | .stopSignal => 3

def ChannelMode.code : ChannelMode → Nat
  | .off => 0 | .live => 1 | .follow => 2

def AuthMode.code : AuthMode → Nat
  | .operator => 0 | .presenter => 1 | .takeover => 2

def PortMode.code : PortMode → Nat
  | .off => 0 | .lever => 1 | .wheel => 2 | .keys => 3

def PortPhase.code : PortPhase → Nat
  | .off => 0 | .acquiring => 1 | .recenter => 2 | .active => 3 | .lost => 4

def Role.code : Role → Nat
  | .presenter => 0 | .operator => 1

def ButtonLevel.code : ButtonLevel → Nat
  | .unset => 0 | .released => 1 | .pressed => 2

def lineCode : LineId → Nat
  | .a => 0 | .b => 1 | .c => 2

def FrameRate.code : FrameRate → Nat
  | .fps24 => 0 | .fps25 => 1 | .fps50 => 2 | .fps5994 => 3 | .fps60 => 4

def LockState.code : LockState → Nat
  | .free => 0 | .locked => 1

def CommandResult.code : CommandResult → Nat
  | .ok => 0 | .clamped => 1 | .badTarget => 2 | .wrongState => 3
  | .frozen => 4 | .busy => 5 | .noAuthority => 6 | .unknown => 7

def Direction.code : Direction → Nat
  | .forward => 1 | .backward => 2 | .landing => 3

def ScanOrigin.code : ScanOrigin → Nat
  | .frame => 1 | .lookNow => 2

/-- A story-jump action is written as its value in the Action enumeration. -/
def StoryJump.code : StoryJump → Nat
  | .next => 5 | .prev => 6

def AuthorityCause.code : AuthorityCause → Nat
  | .claim => 1 | .takeover => 2 | .quiet => 3 | .portLost => 4
  | .portSettings => 5 | .authoritySettings => 6 | .channelMode => 7

/-- The value of a report code (R171). -/
def ReportCode.code : ReportCode → Nat
  | .portLost => 1 | .portRestored => 2 | .mark => 3 | .jumpRefused => 4 | .cueReached => 5
  | .cuePassed => 6 | .endReached => 7 | .starved => 8 | .anchorMoved => 9 | .boundaryHeld => 10
  | .authorityChanged => 11 | .duplicateSlot => 12 | .nullBlock => 13 | .entryReadFault => 14
  | .malformedLine => 15 | .fetchFailed => 16 | .exchangeDone => 17 | .exchangeFailed => 18
  | .commandDone => 19 | .refLocked => 20 | .refLost => 21 | .scanOverrun => 22
  | .settingsTaken => 23 | .started => 24

/-- A holder in a report argument: 0..8, or NONE (R183). -/
def holderWord : Option Source → Word
  | some (.port p) => natWord p.val
  | some .console => 8
  | none => noneWord

/-- A holder in a status record byte (R180). -/
def holderByte : Option Source → Byte
  | some (.port p) => natByte p.val
  | some .console => 8
  | none => 0xFF

def slotWord (s : Slot) : Word := natWord s.val

/-- An anchor's story slot in a report argument, or NONE. -/
def anchorSlotWord : Option Anchor → Word
  | some a => slotWord a.slot
  | none => noneWord

/-- An anchor's line index: 0 when the anchor is NONE (R39, R105). -/
def anchorLine : Option Anchor → Nat
  | some a => a.line
  | none => 0

/-! ### Exchange results (R183) -/

def resultNone : Word := 0
def resultDone : Word := 1
def resultFailed : Word := 2

/-! ### Report classes (R163) -/

/-- The class of a report slot. -/
def slotClass (s : Fin 18) : ReportClass :=
  if s.val < 8 then .input
  else if s.val < 12 then .motion
  else if s.val < 14 then .script
  else if s.val = 15 then .timing
  else .control

def ClassFlags.get (f : ClassFlags) : ReportClass → Bool
  | .input => f.input
  | .motion => f.motion
  | .script => f.script
  | .control => f.control
  | .timing => f.timing

/-- The flags with one class's flag set. -/
def ClassFlags.add (f : ClassFlags) : ReportClass → ClassFlags
  | .input => { f with input := true }
  | .motion => { f with motion := true }
  | .script => { f with script := true }
  | .control => { f with control := true }
  | .timing => { f with timing := true }

/-- `op` applied class by class. -/
def ClassFlags.zip (op : Bool → Bool → Bool) (f g : ClassFlags) : ClassFlags :=
  ⟨op f.input g.input, op f.motion g.motion, op f.script g.script, op f.control g.control,
    op f.timing g.timing⟩

/-- The flags as bits 0 to 4, in IRQ_CAUSE order (R182). -/
def ClassFlags.bits (f : ClassFlags) : Nat :=
  boolBit f.input 1 + boolBit f.motion 2 + boolBit f.script 4 + boolBit f.control 8
    + boolBit f.timing 16

def ClassFlags.any (f : ClassFlags) : Bool :=
  f.input || f.motion || f.script || f.control || f.timing

/-- Report slot `p` of a hand port. -/
def portSlot (p : PortId) : Fin 18 := ⟨p.val, by omega⟩
/-- Report slot `8 + c` of a channel. -/
def channelSlot (c : Chan) : Fin 18 := ⟨8 + c.val, by omega⟩
def scriptSlot : Fin 18 := 12
def exchangeSlot : Fin 18 := 13
def commandSlot : Fin 18 := 14
def timingSlot : Fin 18 := 15
def settingsSlot : Fin 18 := 16
def engineSlot : Fin 18 := 17

/-! ### Area header (R173) -/

/-- An offset of the header, taken with its low 4 bits as 0. -/
def takenOffset (w : Word) : Word := w &&& 0xFFFFFFF0

/-- An address taken with its low 4 bits as 0 (R9, R130). -/
def takenAddress (a : Addr) : Addr := a &&& 0xFFFFFFFFFFFFFFF0

/-- The header is good: the signature bytes 4Bh, 53h, 50h, 41h and the layout version 1 (R152, R173). -/
def headerGood (bytes : List Byte) : Bool :=
  byteAt bytes 0 == 0x4B && byteAt bytes 1 == 0x53 && byteAt bytes 2 == 0x50 && byteAt bytes 3 == 0x41
    && word bytes 4 == 1

/-- The copy taken from a good header. -/
def headerCopy (bytes : List Byte) : HeaderCopy where
  settings := takenOffset (word bytes 8)
  rundown := takenOffset (word bytes 12)
  stories := takenOffset (word bytes 16)
  commands := takenOffset (word bytes 20)
  channelStatus := takenOffset (word bytes 24)
  portStatus := takenOffset (word bytes 28)
  reports := takenOffset (word bytes 32)
  glyphTable := takenAddress (long bytes 40)

/-! ### Story entries (R176) -/

/-- A selector read by the full take: other than A or B is taken as A (R4). -/
def selectorOf (w : Word) : Side := if w = 1 then .b else .a

/-- The active side field of a story entry: a value that names no side is open (notes/assumptions/20.md). -/
def sideOf (w : Word) : Side := if w = 0 then .a else if w = 1 then .b else Config.unstatedSide w

/-- An exchange mode other than CLEAR or NOW is taken as CLEAR (R10). -/
def exchangeModeOf (w : Word) : ExchangeMode := if w = 1 then .now else .clear

/-- A version as read from a story entry: the address and the count as found. -/
structure RawVersion where
  address : Addr
  count : Word
  deriving DecidableEq, Repr

/-- The 12 bytes of one version (R176). -/
def rawVersion (bytes : List Byte) : RawVersion := ⟨long bytes 0, word bytes 8⟩

/-- The bytes of a story entry's version of one side: 16 to 27, or 32 to 43. -/
def versionBytes (entry : List Byte) : Side → List Byte
  | .a => (entry.drop 16).take 12
  | .b => (entry.drop 32).take 12

/-- The version take of R9: the address and count taken, and whether NULL_BLOCK is reported. -/
structure TakenVersion where
  address : Addr
  count : Nat
  nullBlock : Bool
  deriving DecidableEq, Repr

/-- R9's degradations, in order. -/
def takeVersion (v : RawVersion) : TakenVersion :=
  let address := takenAddress v.address
  let count := min v.count.toNat 4096
  if address = 0 ∧ 0 < count then ⟨address, 0, true⟩ else ⟨address, count, false⟩

/-- The fields of a story entry that every ordinary scan takes (R3, R7, R10). -/
def scannedStory (bytes : List Byte) (old : Story) : Story :=
  { old with
    present := byteAt bytes 0 != 0
    ready := byteAt bytes 1 != 0
    mask := (byteAt bytes 2).extractLsb' 0 4
    storyId := word bytes 4
    request := word bytes 8
    mode := exchangeModeOf (word bytes 12) }

/-- A story entry as the full take adopts it (R2), with its taken version. -/
def adoptedStory (bytes : List Byte) : Story × TakenVersion :=
  let side := sideOf (word bytes 48)
  let v := takeVersion (rawVersion (versionBytes bytes side))
  ({ scannedStory bytes Story.reset with
      side := side
      done := word bytes 52
      result := word bytes 56
      address := v.address
      count := v.count }, v)

/-! ### Order lists (R5, R175) -/

/-- R5 step 1: a length above 256 is taken as 256. -/
def listLength (length : Word) : Nat := min length.toNat 256

/-- The slot numbers that an order list's bytes name: every byte is one. -/
def listedSlots (bytes : List Byte) : List Slot := bytes.map (·.toFin)

/-- A taken order list: the kept slots, the number of occurrences ignored, and the first one ignored with its
position. -/
structure TakenList where
  kept : List Slot
  ignored : Nat
  first : Option (Slot × Nat)
  deriving DecidableEq, Repr

/-- R5 step 3: walk the list, keeping the first occurrence of each slot number. `position` is the position of the
next slot number. -/
def walkList : List Slot → Nat → TakenList → TakenList
  | [], _, t => t
  | s :: rest, position, t =>
    if s ∈ t.kept then
      walkList rest (position + 1)
        ⟨t.kept, t.ignored + 1, t.first.or (some (s, position))⟩
    else walkList rest (position + 1) { t with kept := t.kept ++ [s] }

/-- The order list take of R5 on the slot number bytes that the length counts. -/
def takeList (bytes : List Byte) : TakenList := walkList (listedSlots bytes) 0 ⟨[], 0, none⟩

/-! ### Line records (R14, R15, R177) -/

def styleOf (b : Byte) : Style :=
  if b = 1 then .emphasis else if b = 2 then .direction else if b = 3 then .slug else .normal

def cueOf (b : Byte) : CueCode :=
  if b = 1 then .stop else if b = 2 then .signal else if b = 3 then .stopSignal else .none

/-- A record's text length exceeds 80 (R15). -/
def isMalformed (bytes : List Byte) : Bool := 80 < (byteAt bytes 2).toNat

/-- A record as it enters the cache (R14); the cue of a malformed record is NONE and its pattern absent (R15). -/
def lineRecord (bytes : List Byte) : LineRecord where
  key := half bytes 0
  textLength := (byteAt bytes 2).toNat
  style := styleOf (byteAt bytes 3)
  cue := if isMalformed bytes then .none else cueOf (byteAt bytes 4)
  pattern := if isMalformed bytes || byteAt bytes 5 == 0 then none
    else some ((byteAt bytes 6).extractLsb' 0 4)
  text := (List.range 80).map fun k => byteAt bytes (16 + k)

def CueCode.stopping : CueCode → Bool
  | .stop => true
  | .stopSignal => true
  | .none => false
  | .signal => false

def CueCode.signalling : CueCode → Bool
  | .signal => true
  | .stopSignal => true
  | .none => false
  | .stop => false

/-! ### Command slots (R178) -/

/-- A command as a scan reads it. -/
structure Command where
  request : Word
  code : Word
  op1 : Word
  op2 : Word
  op3 : Word
  deriving DecidableEq, Repr

def commandOf (bytes : List Byte) : Command :=
  ⟨word bytes 0, word bytes 4, word bytes 8, word bytes 12, word bytes 16⟩

/-- The done generation found in a command slot. -/
def commandDoneOf (bytes : List Byte) : Word := word bytes 20

end Sys2Proof.Machine
end

