-- ==== Sys2Proof/Machine/Ops.lean ====
section
/-! DEFINITION. The shared operations: reading and changing one unit of a bank, raising a report (R165), naming and
issuing host-memory accesses, and matching the completion of a write. -/

namespace Sys2Proof.Machine

/-! ### One unit at a time -/

def State.chan (s : State) (c : Chan) : Channel := s.channels.get c
def State.modChan (s : State) (c : Chan) (f : Channel → Channel) : State :=
  { s with channels := s.channels.set c (f (s.channels.get c)) }

def State.port (s : State) (p : PortId) : Port := s.ports.get p
def State.modPort (s : State) (p : PortId) (f : Port → Port) : State :=
  { s with ports := s.ports.set p (f (s.ports.get p)) }

def State.story (s : State) (k : Slot) : Story := s.stories.get k
def State.modStory (s : State) (k : Slot) (f : Story → Story) : State :=
  { s with stories := s.stories.set k (f (s.stories.get k)) }

def State.auth (s : State) (c : Chan) : Authority := s.authority.get c
def State.modAuth (s : State) (c : Chan) (f : Authority → Authority) : State :=
  { s with authority := s.authority.set c (f (s.authority.get c)) }

def State.head (s : State) (h : HeadId) : Head := s.heads.get h
def State.modHead (s : State) (h : HeadId) (f : Head → Head) : State :=
  { s with heads := s.heads.set h (f (s.heads.get h)) }

def State.setArmed (s : State) (p : PortId) (b : Bool) : State :=
  { s with armed := s.armed.set p b }

/-- The settings of a channel, a port, a head, as the settings shadow holds them. -/
def State.chanSet (s : State) (c : Chan) : ChannelSettings := s.settings.channels.get c
def State.portSet (s : State) (p : PortId) : PortSettings := s.settings.ports.get p
def State.headSet (s : State) (h : HeadId) : HeadSettings := s.settings.heads.get h

/-- The mode of a channel (R20). -/
def State.mode (s : State) (c : Chan) : ChannelMode := (s.chanSet c).mode
def State.isLive (s : State) (c : Chan) : Bool := s.mode c == .live

def State.engine (s : State) : EngineState := s.area.engine
def State.running (s : State) : Bool := s.engine == .running
def State.halted (s : State) : Bool := s.engine == .halted

/-- The frame number of the last frame event (R125). -/
def State.frame (s : State) : Word := s.timebase.frameCounter

/-! ### The hold set (R29, R32) -/

/-- FREEZE is held while the latch is on or the pressed-line set is not empty (R32). -/
def Channel.freeze (ch : Channel) : Bool :=
  ch.latch || ch.pressed.items.any fun t => t.a || t.b || t.c

def Channel.holds (ch : Channel) : HoldSet := ⟨ch.cue, ch.boundary, ch.freeze, ch.exchange⟩

/-- FREEZE or EXCHANGE is held: the full holds (R43). -/
def Channel.fullHold (ch : Channel) : Bool := ch.freeze || ch.exchange

def HoldSet.any (h : HoldSet) : Bool := h.cue || h.boundary || h.freeze || h.exchange

/-! ### Reports (R165, R167) -/

/-- Raise a report: it joins the Post Queue, or is dropped and counted when the queue holds 16. In HALTED it is
dropped without being counted (R167). -/
def raise (r : Report) (s : State) : State :=
  if s.halted then s
  else if s.reports.queue.length < 16 then
    { s with reports := { s.reports with queue := s.reports.queue ++ [⟨r, s.frame⟩] } }
  else
    { s with reports := { s.reports with dropped := min (s.reports.dropped + 1) 65535 } }

/-- Raise a report that is posted while the engine is RUNNING only. -/
def raiseRunning (r : Report) (s : State) : State := if s.running then raise r s else s

/-! ### Host-memory accesses -/

/-- The request of the next access, and the state in which its name is used up. -/
def newRequest (address : Addr) (length : Nat) (s : State) : Request × State :=
  (⟨s.nextTag, address, length⟩, { s with nextTag := s.nextTag + 1 })

/-- Issue a write: it joins the writes in flight. -/
def issueWrite (target : WriteTarget) (address : Addr) (bytes : List Byte) (report : Option Report)
    (s : State) : State :=
  { s with
    writes := s.writes ++ [⟨s.nextTag, target, address, bytes, report⟩]
    nextTag := s.nextTag + 1 }

/-- The write in flight that the completion of `tag` completes. Writes to one target complete in the order they were
issued (R65, R74, R158, R159, R161), so an older write to the same target is not passed over. -/
def completedWrite (tag : Nat) (mine : WriteTarget → Bool) (s : State) : Option Write :=
  match s.writes.find? (·.tag == tag) with
  | none => none
  | some w =>
    if mine w.target && (s.writes.find? (·.target == w.target)).any (·.tag == tag) then some w else none

/-- The write is no longer in flight. -/
def dropWrite (tag : Nat) (s : State) : State :=
  { s with writes := s.writes.filter (·.tag != tag) }

/-- The Area base the two registers form (R149). -/
def Area.base (a : Area) : Addr := a.areaHi ++ a.areaLo

/-- The host address of a Prompt Area structure: the base in force, plus a header offset, plus a byte offset. -/
def State.areaAddress (s : State) (offset : Word) (i : Nat) : Addr :=
  s.area.baseInForce + offset.setWidth 64 + BitVec.ofNat 64 i

/-- Story slot `k`'s entry (R173). -/
def State.entryAddress (s : State) (k : Slot) (i : Nat) : Addr :=
  s.areaAddress s.area.header.stories (64 * k.val + i)

/-- Where the version of a side stands in a story entry (R176). -/
def versionOffset : Side → Nat
  | .a => 16
  | .b => 32

/-- All the channels, ports, slots, heads and groups, in order. -/
def allChans : List Chan := List.finRange 4
def allPorts : List PortId := List.finRange 8
def allHeads : List HeadId := List.finRange 6
def allLines : List LineId := [.a, .b, .c]

/-- `f` done for each thing of a list in turn. -/
def forEach {α : Type} (xs : List α) (f : α → State → State) (s : State) : State :=
  xs.foldl (fun t x => f x t) s

end Sys2Proof.Machine
end

