-- ==== Sys2Proof/Machine/View.lean ====
section
/-! DEFINITION. Channel views (R17, R18, R25), view rows (R19) and residency as the other blocks see it (R89). The
view the Script View logic holds for a channel is computed from the shadows, so it is recomputed whenever an input
of it changes (R18). -/

namespace Sys2Proof.Machine

/-! ### The view the Script View logic holds -/

/-- The story of the running key search, which is kept in the view of a channel that holds EXCHANGE (R25). -/
def keptInView (s : State) (c : Chan) (k : Slot) : Bool :=
  (s.chan c).exchange && (s.exchange.searcher).any (·.slot == k)

/-- A story slot is in channel `c`'s own view (R17). -/
def inOwnView (s : State) (c : Chan) (k : Slot) : Bool :=
  let st := s.story k
  (st.present && st.mask.getLsbD c.val && decide (0 < st.count)) || keptInView s c k

/-- The view formed from a channel's own mask bit (R17). -/
def ownView (s : State) (c : Chan) : List ViewEntry :=
  (s.rundown.order.filter (inOwnView s c)).map fun k => ⟨k, (s.story k).count, (s.story k).ready⟩

/-- The view the Script View logic holds for a channel, by its mode (R17). -/
def scriptView (s : State) (c : Chan) : List ViewEntry :=
  match s.mode c with
  | .off => []
  | .live => ownView s c
  | .follow => if s.isLive (s.chanSet c).leader then ownView s (s.chanSet c).leader else []

/-! ### View rows (R19) -/

/-- The number of rows of a view. -/
def viewSize (v : List ViewEntry) : Nat := (v.map (·.count)).sum

/-- The view row of a line, where it stands in the view. -/
def viewRow : List ViewEntry → Anchor → Option Nat
  | [], _ => none
  | e :: rest, a =>
    if e.slot = a.slot then (if a.line < e.count then some a.line else none)
    else (viewRow rest a).map (e.count + ·)

/-- The line at a view row: its story's entry and its line index. -/
def lineAtRow : List ViewEntry → Nat → Option (ViewEntry × Nat)
  | [], _ => none
  | e :: rest, r => if r < e.count then some (e, r) else lineAtRow rest (r - e.count)

/-- The anchor at a view row. -/
def anchorAtRow (v : List ViewEntry) (r : Nat) : Option Anchor :=
  (lineAtRow v r).map fun x => ⟨x.1.slot, x.2⟩

/-- A story's entry in a view. -/
def entryOf (v : List ViewEntry) (k : Slot) : Option ViewEntry := v.find? (·.slot == k)

/-- The stories after a story in a view, nearest first; none when it is not there. -/
def storiesAfter : List ViewEntry → Slot → List ViewEntry
  | [], _ => []
  | e :: rest, k => if e.slot = k then rest else storiesAfter rest k

/-- The stories before a story in a view, nearest first; none when it is not there. -/
def storiesBefore (v : List ViewEntry) (k : Slot) : List ViewEntry :=
  storiesAfter v.reverse k

def nextStory (v : List ViewEntry) (k : Slot) : Option ViewEntry := (storiesAfter v k).head?
def prevStory (v : List ViewEntry) (k : Slot) : Option ViewEntry := (storiesBefore v k).head?

/-- A position is the bottom limit of a view: its last line with fraction 1023 (R19). -/
def atBottom (v : List ViewEntry) (a : Option Anchor) (fraction : Nat) : Bool :=
  match a with
  | none => false
  | some a => fraction == 1023 && viewRow v a == some (viewSize v - 1)

/-! ### Residency (R79, R89) -/

/-- The entry of a line in a cache place. -/
def Place.entryFor (k : Slot) (line : Nat) : Place → Option CacheEntry
  | .held e => if e.slot = k ∧ e.line = line then some e else none
  | .free => none
  | .withdrawn => none

/-- The cache entry of a line. -/
def Fetch.lookup (f : Fetch) (k : Slot) (line : Nat) : Option CacheEntry :=
  f.cache.items.findSome? (Place.entryFor k line)

def CacheEntry.record (e : CacheEntry) : Option LineRecord :=
  match e.state with
  | .resident r => some r
  | .filling => none
  | .failed _ => none

/-- The record of a resident line. -/
def Fetch.record (f : Fetch) (k : Slot) (line : Nat) : Option LineRecord :=
  (f.lookup k line).bind CacheEntry.record

def Fetch.resident (f : Fetch) (k : Slot) (line : Nat) : Bool := (f.record k line).isSome

/-- The anchor key that a line gives: its key if it is resident, else absent (R24). -/
def Fetch.keyOf (f : Fetch) (a : Option Anchor) : Option Key :=
  match a with
  | none => none
  | some a => (f.record a.slot a.line).map (·.key)

end Sys2Proof.Machine
end

