-- ==== Sys2Proof/Machine/Fetch.lean ====
section
/-! DEFINITION. The Fetch Unit (spec/05_line_fetch_and_the_line_cache.md): the needs of the channels, the Fetch Queue,
issuing, completion, invalidation and staleness. -/

namespace Sys2Proof.Machine

/-! ### Ranks (R78) -/

/-- Rank `a` comes before rank `b`: class, distance, channel, direction, in that order. -/
def Rank.before (a b : Rank) : Bool :=
  if a.cls != b.cls then a.cls < b.cls
  else if a.distance != b.distance then a.distance < b.distance
  else if a.channel != b.channel then a.channel < b.channel
  else !a.behind && b.behind

/-- Insert by rank, after the equal ones. -/
def insertNeed (n : Need) : List Need → List Need
  | [] => [n]
  | m :: rest => if n.rank.before m.rank then n :: m :: rest else m :: insertNeed n rest

def sortNeeds (ns : List Need) : List Need := ns.foldl (fun acc n => insertNeed n acc) []

/-- Keep the first of each line. -/
def firstOfEachLine (ns : List Need) : List Need :=
  ns.foldl (fun acc n =>
    if acc.any (fun m => m.slot == n.slot && m.line == n.line) then acc else acc ++ [n]) []

/-- The need set: every needed line once, with the best of its ranks, best first (R78). -/
def Fetch.needSet (f : Fetch) : List Need :=
  firstOfEachLine (sortNeeds (f.needs.items.flatten))

/-- A line is needed while it stands in the need set. -/
def Fetch.isNeeded (f : Fetch) (k : Slot) (line : Nat) : Bool :=
  f.needs.items.any fun ns => ns.any fun n => n.slot == k && n.line == line

/-! ### What a channel needs (R77) -/

/-- The view rows of a channel's need with their classes: the lookahead of row `a`, then the windows, then the
margins of the heads. `extra` is 1 when the published fraction is not 0. -/
def needRows (a extra : Nat) (heads : List HeadSettings) : List (Int × Nat) :=
  (List.range 33).map (fun i => ((a : Int) + i, 1))
    ++ heads.flatMap (fun h =>
        (List.range (h.rows + extra)).map fun i => ((a : Int) - h.readingRow + i, 2))
    ++ heads.flatMap (fun h =>
        (List.range 4).map (fun i => ((a : Int) - h.readingRow - 1 - i, 3))
          ++ (List.range 4).map fun i => ((a : Int) - h.readingRow + h.rows + extra + i, 3))

/-- The line of a need row, with its rank; a row outside the view names no line. -/
def needOfRow (v : List ViewEntry) (c : Chan) (a : Nat) (row : Int × Nat) : Option Need :=
  if row.1 < 0 then none
  else (lineAtRow v row.1.toNat).map fun x =>
    ⟨x.1.slot, x.2, ⟨row.2, (row.1 - a).natAbs, c, decide (row.1 < a)⟩⟩

/-- The enabled heads bound to a channel. -/
def State.boundHeads (s : State) (c : Chan) : List HeadSettings :=
  s.settings.heads.items.filter fun h => h.enable && h.channel == c

/-- The need of a channel from its publication and the view it took (R77). The classes are formed lowest first, so
the first of each line has the lowest class. -/
def channelNeed (s : State) (c : Chan) : List Need :=
  let ch := s.chan c
  match ch.pub.mode, ch.pub.anchor with
  | .off, _ => []
  | _, none => []
  | _, some anchor =>
    match viewRow ch.view anchor with
    | none => []
    | some a =>
      let extra := if ch.pub.fraction = 0 then 0 else 1
      firstOfEachLine ((needRows a extra (s.boundHeads c)).filterMap (needOfRow ch.view c a))

/-! ### The Fetch Queue (R80, R81) -/

def QueueEntry.isIssued (q : QueueEntry) : Bool :=
  match q.state with
  | .issued _ _ _ => true
  | .waiting => false

def QueueEntry.isWaiting (q : QueueEntry) : Bool := !q.isIssued

def Fetch.issuedCount (f : Fetch) : Nat := (f.queue.filter QueueEntry.isIssued).length

/-- Insert a waiting entry at its place by rank. -/
def insertEntry (q : QueueEntry) : List QueueEntry → List QueueEntry
  | [] => [q]
  | p :: rest => if q.rank.before p.rank then q :: p :: rest else p :: insertEntry q rest

/-- R81 step 1: the waiting entries that are still needed, with their ranks in the need set, in order. -/
def keptWaiting (needs : List Need) (queue : List QueueEntry) : List QueueEntry :=
  (queue.filter QueueEntry.isWaiting).foldl (fun acc q =>
    match needs.find? (fun n => n.slot == q.slot && n.line == q.line) with
    | none => acc
    | some n => insertEntry { q with rank := n.rank } acc) []

/-- A needed FAILED line is due for retry 64 frames after its failure (R86). -/
def retryDue (frame : Word) (e : CacheEntry) : Bool :=
  match e.state with
  | .failed at_ => 64 ≤ (frame - at_).toNat
  | .filling => false
  | .resident _ => false

/-- R81 step 2: a needed line is to be inserted when it has no cache entry, or a FAILED one that is due. -/
def wantsRead (f : Fetch) (frame : Word) (n : Need) : Bool :=
  match f.lookup n.slot n.line with
  | none => true
  | some e => retryDue frame e

/-- Remove the last waiting entry of class 2 or 3, if there is one (R81 step 3). -/
def displace (waiting : List QueueEntry) : Option (List QueueEntry) :=
  if waiting.any (fun q => 1 < q.rank.cls) then
    some (waiting.reverse.eraseP (fun q => 1 < q.rank.cls)).reverse
  else none

/-- R81 steps 2 and 3 for one needed line, with `issued` ISSUED entries in the queue. -/
def insertLine (issued : Nat) (waiting : List QueueEntry) (n : Need) : List QueueEntry :=
  let entry : QueueEntry := ⟨n.slot, n.line, n.rank, .waiting⟩
  if issued + waiting.length < 32 then insertEntry entry waiting
  else if n.rank.cls = 1 then
    match displace waiting with
    | some rest => insertEntry entry rest
    | none => waiting
  else waiting

/-- A line of a story's active version: a line index at or above the taken count exists for no block (R9). -/
def State.lineExists (s : State) (k : Slot) (line : Nat) : Bool := line < (s.story k).count

/-- R81: the queue update, on the needed lines that exist (R9). -/
def Fetch.updateQueue (f : Fetch) (lines : Slot → Nat → Bool) (frame : Word) : Fetch :=
  let needs := f.needSet.filter fun n => lines n.slot n.line
  let issued := f.queue.filter QueueEntry.isIssued
  let kept := keptWaiting needs f.queue
  let wanted := needs.filter fun n =>
    wantsRead f frame n && !(issued ++ kept).any (fun q => q.slot == n.slot && q.line == n.line)
  { f with queue := issued ++ wanted.foldl (insertLine issued.length) kept }

/-! ### Issuing (R82) -/

def Place.isFree : Place → Bool
  | .free => true
  | .held _ => false
  | .withdrawn => false

/-- The failure count of a line's own FAILED entry. -/
def Place.ownFailure (k : Slot) (line : Nat) : Place → Option Nat
  | .held e =>
    match e.state with
    | .failed _ => if e.slot = k ∧ e.line = line then some e.failures else none
    | .filling => none
    | .resident _ => none
  | .free => none
  | .withdrawn => none

/-- A place's entry may be evicted: RESIDENT or FAILED, and not needed. Its age in frames. -/
def Fetch.evictable (f : Fetch) (frame : Word) : Place → Option Nat
  | .held e =>
    match e.state with
    | .filling => none
    | .resident _ => if f.isNeeded e.slot e.line then none else some (frame - e.lastNeeded).toNat
    | .failed _ => if f.isNeeded e.slot e.line then none else some (frame - e.lastNeeded).toNat
  | .free => none
  | .withdrawn => none

/-- The place with the greatest age, the lowest-numbered among equals. -/
def Fetch.victim (f : Fetch) (frame : Word) : Option (Fin 512) :=
  ((List.finRange 512).foldl (fun best i =>
    match f.evictable frame (f.cache.get i) with
    | none => best
    | some age =>
      match best with
      | none => some (i, age)
      | some (_, old) => if old < age then some (i, age) else best) none).map (·.1)

/-- The place for a line's read, and the failure count its entry keeps: its own FAILED entry, else the lowest free
place, else the place of an evicted entry, else none. -/
def Fetch.choosePlace (f : Fetch) (frame : Word) (k : Slot) (line : Nat) : Option (Fin 512 × Nat) :=
  match (List.finRange 512).find? (fun i => ((f.cache.get i).ownFailure k line).isSome) with
  | some i => some (i, ((f.cache.get i).ownFailure k line).getD 0)
  | none =>
    match (List.finRange 512).find? (fun i => (f.cache.get i).isFree) with
    | some i => some (i, 0)
    | none => (f.victim frame).map fun i => (i, 0)

/-- The host address of a line of a story's active version (R9). -/
def State.lineAddress (s : State) (k : Slot) (line : Nat) : Addr :=
  (s.story k).address + BitVec.ofNat 64 (96 * line)

/-- Issue the first waiting entry into a place (R82). -/
def issueInto (q : QueueEntry) (i : Fin 512) (failures : Nat) (s : State) : State :=
  let request : Request := ⟨s.nextTag, s.lineAddress q.slot q.line, 96⟩
  let entry : CacheEntry := ⟨q.slot, q.line, .filling, false, s.frame, failures⟩
  let issued := s.fetch.queue.filter QueueEntry.isIssued
  let waiting := (s.fetch.queue.filter QueueEntry.isWaiting).tail
  { s with
    fetch := { s.fetch with
      cache := s.fetch.cache.set i (.held entry)
      queue := issued ++ { q with state := .issued request i false } :: waiting }
    nextTag := s.nextTag + 1 }

/-- One issue, when R82 makes one: the engine RUNNING, fewer than 8 issued, a waiting entry and a place for it. -/
def issueOne (s : State) : Option State :=
  if s.running && s.fetch.issuedCount < 8 then
    match s.fetch.queue.find? QueueEntry.isWaiting with
    | none => none
    | some q => (s.fetch.choosePlace s.frame q.slot q.line).map fun x => issueInto q x.1 x.2 s
  else none

/-- Issue until R82 makes no further issue, `n` times at most. -/
def issueUpTo : Nat → State → State
  | 0, s => s
  | n + 1, s =>
    match issueOne s with
    | none => s
    | some t => issueUpTo n t

/-- Issuing follows an event of R82. No more than 8 reads can be issued in one go. -/
def issueAll (s : State) : State := issueUpTo 8 s

/-! ### Publication (R77, R78, R81) -/

/-- Set the last frame needed of an entry whose line is in a need (R78). -/
def Place.markNeeded (frame : Word) (ns : List Need) : Place → Place
  | .held e =>
    if ns.any (fun n => n.slot == e.slot && n.line == e.line) then .held { e with lastNeeded := frame }
    else .held e
  | .free => .free
  | .withdrawn => .withdrawn

/-- A channel's publication reaches the Fetch Unit: its need is replaced, the queue is updated, and issuing
follows. -/
def needUpdate (c : Chan) (s : State) : State :=
  let ns := channelNeed s c
  let f : Fetch := { s.fetch with
    needs := s.fetch.needs.set c ns
    cache := s.fetch.cache.map (Place.markNeeded s.frame ns) }
  issueAll { s with fetch := f.updateQueue s.lineExists s.frame }

/-! ### Completion (R83, R84, R85) -/

/-- The queue entry whose read is `tag`. -/
def Fetch.issuedEntry (f : Fetch) (tag : Nat) : Option QueueEntry :=
  f.queue.find? fun q =>
    match q.state with
    | .issued r _ _ => r.tag == tag
    | .waiting => false

/-- The queue without the entry whose read is `tag`. -/
def Fetch.dropIssued (f : Fetch) (tag : Nat) : List QueueEntry :=
  f.queue.filter fun q =>
    match q.state with
    | .issued r _ _ => r.tag != tag
    | .waiting => true

/-- The cache entry after a completed read of it. -/
def filledEntry (frame : Word) (r : ReadResult) (e : CacheEntry) : CacheEntry :=
  match r with
  | .data bytes =>
    { e with state := .resident (lineRecord bytes), malformed := isMalformed bytes, failures := 0 }
  | .busError => { e with state := .failed frame, failures := min (e.failures + 1) 255 }

/-- The reports of a completed read that is not stale (R92). -/
def fetchReport (s : State) (k : Slot) (line : Nat) (failures : Nat) : ReadResult → State → State
  | .data bytes =>
    if isMalformed bytes then
      raise ⟨scriptSlot, .malformedLine, slotWord k, natWord line,
        (byteAt bytes 2).setWidth 32, (s.story k).storyId⟩
    else id
  | .busError =>
    raise ⟨scriptSlot, .fetchFailed, slotWord k, natWord line, natWord failures,
      (s.story k).storyId⟩

/-- A read that is not stale fills its place. -/
def fillPlace (i : Fin 512) (r : ReadResult) (s : State) : State :=
  match s.fetch.cache.get i with
  | .held e =>
    let e' := filledEntry s.frame r e
    fetchReport s e.slot e.line e'.failures r
      { s with fetch := { s.fetch with cache := s.fetch.cache.set i (.held e') } }
  | .free => s
  | .withdrawn => s

/-- A line read completes. A read the Fetch Unit does not have in flight was issued before a reset, and is ignored
(R91). -/
def fetchComplete (tag : Nat) (r : ReadResult) (s : State) : State :=
  match s.fetch.issuedEntry tag with
  | none => s
  | some q =>
    match q.state with
    | .waiting => s
    | .issued _ i stale =>
      let t := { s with fetch := { s.fetch with queue := s.fetch.dropIssued tag } }
      if stale then
        issueAll { t with fetch := { t.fetch with cache := t.fetch.cache.set i .free } }
      else issueAll (fillPlace i r t)

/-! ### Staleness and invalidation (R85, R87, R90, R91) -/

/-- An ISSUED entry takes the stale flag. -/
def QueueEntry.makeStale (q : QueueEntry) : QueueEntry :=
  match q.state with
  | .issued r i _ => { q with state := .issued r i true }
  | .waiting => q

/-- A FILLING entry of a chosen story is withdrawn; a RESIDENT or FAILED one is freed when `freeing`. -/
def Place.invalidate (chosen : Slot → Bool) (freeing : Bool) : Place → Place
  | .held e =>
    if chosen e.slot then
      match e.state with
      | .filling => .withdrawn
      | .resident _ => if freeing then .free else .held e
      | .failed _ => if freeing then .free else .held e
    else .held e
  | .free => .free
  | .withdrawn => .withdrawn

/-- R87, on the stories chosen: entries freed, reads in flight made stale, waiting entries removed. -/
def Fetch.invalidate (f : Fetch) (chosen : Slot → Bool) : Fetch :=
  { f with
    cache := f.cache.map (Place.invalidate chosen true)
    queue := (f.queue.filter fun q => q.isIssued || !chosen q.slot).map fun q =>
      if chosen q.slot then q.makeStale else q }

/-- R87 for one story; issuing follows. -/
def invalidateStory (k : Slot) (s : State) : State :=
  issueAll { s with fetch := s.fetch.invalidate (· == k) }

/-- Every issued read becomes stale and every waiting entry is removed (R90, R91). -/
def Fetch.abandon (f : Fetch) : Fetch :=
  { f with
    cache := f.cache.map (Place.invalidate (fun _ => true) false)
    queue := (f.queue.filter QueueEntry.isIssued).map QueueEntry.makeStale }

/-- The Fetch Unit at a stop: its reads stale, its needs empty (R90). -/
def Fetch.stopped (f : Fetch) : Fetch := { f.abandon with needs := Bank.fill 4 [] }

/-- The frames of a kept entry set to 0 at the beginning of a start (R90). -/
def Place.zeroFrames : Place → Place
  | .held e =>
    .held { e with
      lastNeeded := 0
      state := match e.state with
        | .failed _ => .failed 0
        | .filling => .filling
        | .resident r => .resident r }
  | .free => .free
  | .withdrawn => .withdrawn

def Fetch.started (f : Fetch) : Fetch := { f with cache := f.cache.map Place.zeroFrames }

end Sys2Proof.Machine
end

