-- ==== Sys2Proof/Machine/Motion.lean ====
section
/-! DEFINITION. The arithmetic of one advance (spec/03_motion_arithmetic.md), as functions of the settings in force,
the taken view and the Line Cache. They change no state: spec/02's stages (Machine/Channels.lean) apply the result. -/

namespace Sys2Proof.Machine

/-- `x` clamped to `lo..hi` (spec/00_scope.md 1.4). -/
def clampInt (lo hi x : Int) : Int := if x < lo then lo else if hi < x then hi else x

/-! ### Target, slew and cap (R44 to R46, R49) -/

/-- The curve speed M of a demand (R44). -/
def curveSpeed (cs : ChannelSettings) (demand : Int) : Int :=
  let size := demand.natAbs
  let k := size / 64
  let r := size % 64
  let point : Int :=
    if h : k < 16 then
      let low : Int := cs.curve.get ⟨k, by omega⟩
      let high : Int := cs.curve.get ⟨k + 1, by omega⟩
      low + ((high - low) * r).tdiv 64
    else cs.curve.get ⟨16, by omega⟩
  clampInt 0 cs.vmax point

/-- The target speed T (R45). -/
def targetSpeed (cs : ChannelSettings) (holds : HoldSet) (demand : Int) : Int :=
  let t := demand.sign * curveSpeed cs demand
  if 0 < t ∧ (holds.cue || holds.boundary) then 0 else t

/-- The slewed speed S' (R46): slew by the acceleration limit, then the cut to Vmax. -/
def slewedSpeed (cs : ChannelSettings) (speed target : Int) : Int :=
  let s := if (target - speed).natAbs ≤ cs.accel then target
    else speed + cs.accel * (target - speed).sign
  clampInt (-cs.vmax) cs.vmax s

/-- The approach cap C at distance `d` (R49). -/
def approachCap (cs : ChannelSettings) (d : Nat) : Nat := max cs.crawl (d / cs.approach)

/-- The effective jog of the frame (R42). -/
def effectiveJog (holds : HoldSet) (jog : Int) : Int :=
  let j := clampInt (-65536) 65536 jog
  if holds.boundary ∧ 0 < j then 0 else j

/-! ### The walk (R52 to R56) -/

/-- The story at a view row is ready. -/
def rowReady (v : List ViewEntry) (row : Nat) : Bool := (lineAtRow v row).any (·.1.ready)

/-- A line that a walk entered, with its lamp pattern (R140). -/
structure Entered where
  line : Anchor
  pattern : Option (BitVec 4)
  deriving DecidableEq, Repr

/-- A signalling crossing (R140). -/
structure Crossing where
  line : Anchor
  direction : Direction
  deriving DecidableEq, Repr

/-- How a walk ends: at its target, or at one of the stops. -/
inductive WalkEnd
  | reached
  | horizon (line : Anchor)
  | boundary (next : Slot)
  | bottom
  | top
  deriving DecidableEq, Repr

/-- The result of a walk: the view row and fraction it ends at, and its record. -/
structure Walk where
  row : Nat
  fraction : Nat
  entered : List Entered
  crossings : List Crossing
  stop : WalkEnd
  deriving DecidableEq, Repr

/-- The crossing of a line's top, when its cue is a signalling one. -/
def crossingOf (line : Anchor) (r : LineRecord) (d : Direction) : List Crossing :=
  if r.cue.signalling then [⟨line, d⟩] else []

/-- A forward walk that ends in row `row` at its target: at fraction 1023 the end stop and the boundary stop are
made too (R54, R55). -/
def endForward (v : List ViewEntry) (row fraction : Nat) (entered : List Entered)
    (crossings : List Crossing) : Walk :=
  let stop := if fraction = 1023 then
      match lineAtRow v (row + 1) with
      | none => .bottom
      | some x => if x.1.ready then .reached else .boundary x.1.slot
    else .reached
  ⟨row, fraction, entered, crossings, stop⟩

/-- The forward walk of R52 from row `row` toward the position value `target`, at most `fuel` lines on. -/
def walkForward (v : List ViewEntry) (f : Fetch) (target : Nat) :
    Nat → Nat → List Entered → List Crossing → Walk
  | 0, row, entered, crossings => ⟨row, min (target - row * 1024) 1023, entered, crossings, .reached⟩
  | fuel + 1, row, entered, crossings =>
    if target < (row + 1) * 1024 then endForward v row (target - row * 1024) entered crossings
    else
      match lineAtRow v (row + 1) with
      | none => ⟨row, 1023, entered, crossings, .bottom⟩
      | some (e, line) =>
        if !(rowReady v row && e.ready) then ⟨row, 1023, entered, crossings, .boundary e.slot⟩
        else
          match f.record e.slot line with
          | none => ⟨row, 1023, entered, crossings, .horizon ⟨e.slot, line⟩⟩
          | some r =>
            walkForward v f target fuel (row + 1) (entered ++ [⟨⟨e.slot, line⟩, r.pattern⟩])
              (crossings ++ crossingOf ⟨e.slot, line⟩ r .forward)

/-- The previous line of row `row` lies in an earlier story that is not ready (R52, R56). -/
def upperBoundary (v : List ViewEntry) (row : Nat) : Bool :=
  match lineAtRow v (row - 1), lineAtRow v row with
  | some (p, _), some (e, _) => p.slot != e.slot && !p.ready
  | _, _ => false

/-- A backward walk that ends in row `row` at its target: at fraction 0 the top stop and the upper boundary stop are
made too (R56). -/
def endBackward (v : List ViewEntry) (row fraction : Nat) (entered : List Entered)
    (crossings : List Crossing) : Walk :=
  let stop := if fraction = 0 ∧ (row = 0 ∨ upperBoundary v row) then .top else .reached
  ⟨row, fraction, entered, crossings, stop⟩

/-- The crossing of the top of the line that a backward walk leaves: its cue is known while it is resident. -/
def leftCrossing (v : List ViewEntry) (f : Fetch) (row : Nat) : List Crossing :=
  match lineAtRow v row with
  | none => []
  | some (e, line) =>
    match f.record e.slot line with
    | none => []
    | some r => crossingOf ⟨e.slot, line⟩ r .backward

/-- The backward walk of R52 from row `row` toward the position value `target`, at most `fuel` lines back. -/
def walkBackward (v : List ViewEntry) (f : Fetch) (target : Int) :
    Nat → Nat → List Entered → List Crossing → Walk
  | 0, row, entered, crossings => ⟨row, 0, entered, crossings, .reached⟩
  | fuel + 1, row, entered, crossings =>
    if (row : Int) * 1024 ≤ target then
      endBackward v row (target - (row : Int) * 1024).toNat entered crossings
    else if row = 0 then ⟨row, 0, entered, crossings, .top⟩
    else if upperBoundary v row then ⟨row, 0, entered, crossings, .top⟩
    else
      match lineAtRow v (row - 1) with
      | none => ⟨row, 0, entered, crossings, .top⟩
      | some (e, line) =>
        match f.record e.slot line with
        | none => ⟨row, 0, entered, crossings, .horizon ⟨e.slot, line⟩⟩
        | some r =>
          walkBackward v f target fuel (row - 1) (entered ++ [⟨⟨e.slot, line⟩, r.pattern⟩])
            (crossings ++ leftCrossing v f row)

/-! ### Cue search and landing (R48, R50) -/

/-- The view row of the nearest stopping cue in the reach, at most `fuel` rows ahead of row `row` (R48). -/
def cueSearch (v : List ViewEntry) (f : Fetch) : Nat → Nat → Option Nat
  | 0, _ => none
  | fuel + 1, row =>
    match lineAtRow v (row + 1) with
    | none => none
    | some (e, line) =>
      if !(rowReady v row && e.ready) then none
      else
        match f.record e.slot line with
        | none => none
        | some r => if r.cue.stopping then some (row + 1) else cueSearch v f fuel (row + 1)

/-- A landing counts the cue line as LANDING and not as FORWARD (R140). -/
def landingCrossing (cue : Anchor) (x : Crossing) : Crossing :=
  if x.line = cue then { x with direction := .landing } else x

/-! ### The advance (R42 to R57) -/

/-- What an advance does: the position it ends at, the speed stored, the walk's record, and how it ended. `landed` is
the cue line of a landing. -/
structure Advance where
  row : Nat
  fraction : Nat
  speed : Int
  entered : List Entered
  crossings : List Crossing
  stop : WalkEnd
  landed : Option Anchor
  deriving DecidableEq, Repr

/-- An advance that leaves the position where it is. -/
def stillAdvance (row fraction : Nat) (speed : Int) : Advance :=
  ⟨row, fraction, speed, [], [], .reached, none⟩

/-- The speed stored after a walk (R57): a horizon stop and a reached target keep S'. -/
def storedSpeed (speed : Int) : WalkEnd → Int
  | .reached => speed
  | .horizon _ => speed
  | .boundary _ => 0
  | .bottom => 0
  | .top => 0

/-- The walk of an advance by distance `delta` (R51, R52). -/
def walkBy (v : List ViewEntry) (f : Fetch) (row fraction : Nat) (delta : Int) : Walk :=
  let start := row * 1024 + fraction
  if 0 < delta then walkForward v f (start + delta.toNat) (delta.natAbs / 1024 + 2) row [] []
  else walkBackward v f (start + delta) (delta.natAbs / 1024 + 2) row [] []

/-- An advance that moves by `delta` with slewed speed `speed` (R51 to R57). -/
def moveAdvance (v : List ViewEntry) (f : Fetch) (row fraction : Nat) (speed delta : Int) : Advance :=
  if delta = 0 then stillAdvance row fraction speed
  else
    let w := walkBy v f row fraction delta
    ⟨w.row, w.fraction, storedSpeed speed w.stop, w.entered, w.crossings, w.stop, none⟩

/-- A landing on the cue line at view row `cueRow` (R50). -/
def landAdvance (v : List ViewEntry) (f : Fetch) (row cueRow : Nat) : Advance :=
  let w := walkForward v f (cueRow * 1024) (cueRow - row + 1) row [] []
  let cue := anchorAtRow v cueRow
  ⟨cueRow, 0, 0, w.entered,
    match cue with
    | some a => w.crossings.map (landingCrossing a)
    | none => w.crossings,
    .reached, cue⟩

/-- The advance of R42 to R57 from view row `row` and `fraction`, with stored speed `speed`, the hold set after stage
3, the demand D and the jog J handed. -/
def advance (cs : ChannelSettings) (v : List ViewEntry) (f : Fetch) (row fraction : Nat) (speed : Int)
    (holds : HoldSet) (demand jog : Int) : Advance :=
  if holds.freeze || holds.exchange then stillAdvance row fraction 0
  else
    let j := effectiveJog holds jog
    let s := slewedSpeed cs speed (targetSpeed cs holds demand)
    match (if 0 < s ∧ j = 0 then cueSearch v f 32 row else none) with
    | none => moveAdvance v f row fraction s (s + j)
    | some cueRow =>
      let d := (cueRow - row) * 1024 - fraction
      let s := min s (approachCap cs d)
      if d ≤ s then landAdvance v f row cueRow else moveAdvance v f row fraction s s

end Sys2Proof.Machine
end

