-- ==== Sys2Proof/Machine/Ports.lean ====
section
/-! DEFINITION. Hand ports (spec/06_hand_ports.md): lines and polarity, the lever, the wheel, the buttons and their
actions, the sample event and what a port hands on. -/

namespace Sys2Proof.Machine

/-! ### Lines (R94) -/

/-- The mode uses a line as a button. -/
def isButton : PortMode → LineId → Bool
  | .off, _ => false
  | .lever, .a => false
  | .lever, .b => true
  | .lever, .c => true
  | .wheel, .a => false
  | .wheel, .b => false
  | .wheel, .c => true
  | .keys, _ => true

/-- A line's level after polarity. -/
def State.polarised (s : State) (p : PortId) (l : LineId) (level : Bool) : Bool :=
  xor ((s.portSet p).invert.get l) level

/-! ### Holders released at a port event (R117) -/

/-- The AUTHORITY_CHANGED report of a change of a channel's holder (R121). -/
def authorityReport (s : State) (c : Chan) (new old : Option Source) (cause : AuthorityCause) : Report :=
  ⟨channelSlot c, .authorityChanged, holderWord new, holderWord old, natWord cause.code,
    natWord (s.chanSet c).authMode.code⟩

/-- A release between frame events: the holder becomes NONE, the quiet count 0, and the change is posted while
RUNNING. A channel without a holder has nothing to release. -/
def releaseHolder (c : Chan) (cause : AuthorityCause) (s : State) : State :=
  match (s.auth c).holder with
  | none => s
  | some h =>
    raiseRunning (authorityReport s c none (some h) cause)
      (s.modAuth c fun a => { a with holder := none, quiet := 0 })

/-- The port is its channel's authority holder. -/
def State.holds (s : State) (p : PortId) : Bool :=
  (s.auth (s.portSet p).channel).holder == some (.port p)

/-- Release the port's channel when the port is its holder. -/
def releasePort (p : PortId) (cause : AuthorityCause) (s : State) : State :=
  if s.holds p then releaseHolder (s.portSet p).channel cause s else s

/-! ### The lever (R97 to R99) -/

/-- A sample is valid (R98). -/
def validSample (h p : Nat) : Bool := 1000 ≤ p && p ≤ 4000 && 0 < h && h < p

/-- The lever position of a valid sample (R98 step 1). -/
def leverPosition (h p : Nat) : Nat := min (h * 4096 / p) 4095

/-- The computed demand of a lever position (R98 steps 2 to 4). -/
def leverDemand (ps : PortSettings) (position : Nat) : Int :=
  let x : Int := (position : Int) - ps.center
  let d : Int := if x.natAbs ≤ ps.deadband then 0
    else x.sign * (min 1024 ((x.natAbs - ps.deadband) * 1024 / ps.span) : Nat)
  if ps.reverse then -d else d

/-- Why a port enters LOST (R109). -/
inductive LossCause | invalid | timeout
  deriving DecidableEq, Repr

def LossCause.code : LossCause → Nat
  | .invalid => 1 | .timeout => 2

/-- Entry to LOST from ACTIVE or RECENTER (R99): runs and time, the lost count, PORT_LOST, and the release. -/
def enterLost (p : PortId) (cause : LossCause) (s : State) : State :=
  let old := s.port p
  let lost := min (old.lostCount + 1) 65535
  let t := s.modPort p fun q =>
    { q with phase := .lost, validRun := 0, timeLost := 0, lostCount := lost }
  releasePort p .portLost
    (raiseRunning ⟨portSlot p, .portLost, natWord cause.code, natWord old.phase.code, intWord old.value,
      natWord lost⟩ t)

/-- What the port state machine does at a valid sample (R99). -/
def afterValid (p : PortId) (s : State) : State :=
  let q := s.port p
  match q.phase with
  | .acquiring =>
    if q.validRun = 4 then s.modPort p fun q => { q with phase := .recenter, validRun := 0 } else s
  | .recenter => if q.value = 0 then s.modPort p fun q => { q with phase := .active } else s
  | .lost =>
    if q.validRun = 4 then
      raiseRunning ⟨portSlot p, .portRestored, natWord q.timeLost, intWord q.value, natWord q.position,
        natWord q.lostCount⟩
        (s.modPort p fun q => { q with phase := .recenter, validRun := 0 })
    else s
  | .active => s
  | .off => s

/-- What the port state machine does at an invalid sample (R99). -/
def afterInvalid (p : PortId) (s : State) : State :=
  let q := s.port p
  match q.phase with
  | .active => if q.invalidRun = 8 then enterLost p .invalid s else s
  | .recenter => if q.invalidRun = 8 then enterLost p .invalid s else s
  | .acquiring => s
  | .lost => s
  | .off => s

/-- A valid sample updates the lever position and value and the runs (R98). -/
def Port.takeValid (ps : PortSettings) (h p : Nat) (q : Port) : Port :=
  { q with
    position := leverPosition h p
    value := leverDemand ps (leverPosition h p)
    validRun := min (q.validRun + 1) 4
    invalidRun := 0 }

/-- An invalid sample updates the runs (R98). -/
def Port.takeInvalid (q : Port) : Port :=
  { q with validRun := 0, invalidRun := min (q.invalidRun + 1) 8 }

/-- The h and p of a period that a rising edge completes now (R97). -/
def State.completedPeriod (s : State) (p : PortId) : Option (Nat × Nat) :=
  let q := s.port p
  q.periodStart.map fun start => (q.highTime.getD 0, (s.timebase.captureCount - start).toNat)

/-- A period completion (R97, R98, R99). -/
def periodCompletion (p : PortId) (h width : Nat) (s : State) : State :=
  let t := s.modPort p fun q => { q with lastHigh := min h 65535, lastPeriod := min width 65535 }
  if validSample h width then
    afterValid p (t.modPort p (Port.takeValid (s.portSet p) h width))
  else afterInvalid p (t.modPort p Port.takeInvalid)

/-- A rising edge on line A of a LEVER port: it completes the period in progress, if there is one, and starts the
next (R97). -/
def leverRising (p : PortId) (s : State) : State :=
  let now := s.timebase.captureCount
  let t := match s.completedPeriod p with
    | none => s
    | some (h, width) => periodCompletion p h width s
  t.modPort p fun q => { q with periodStart := some now, highTime := none }

/-- A falling edge on line A of a LEVER port (R97). -/
def leverFalling (p : PortId) (s : State) : State :=
  let now := s.timebase.captureCount
  s.modPort p fun q =>
    match q.periodStart, q.highTime with
    | some start, none => { q with highTime := some (now - start).toNat }
    | _, _ => q

/-- An edge on line A to `level` at the pin. A port in another mode does not capture the line. -/
def leverEdgeAt (p : PortId) (level : Bool) (s : State) : State :=
  if (s.portSet p).mode = .lever then
    let t := s.modPort p fun q => { q with edgeAge := 0 }
    if s.polarised p .a level then leverRising p t else leverFalling p t
  else s

/-- The sample that a rising edge now would give, with the runs it would bring. -/
def State.nextSample (s : State) (p : PortId) : Option Bool :=
  if (s.portSet p).mode = .lever then (s.completedPeriod p).map fun x => validSample x.1 x.2 else none

/-- The pin level of line A that is high after polarity. -/
def State.highPin (s : State) (p : PortId) : Bool := !(s.portSet p).invert.a

/-! ### The wheel (R100, R101) -/

/-- The step from one pair of levels to the next: a count of +1 or -1, no count, or an error. -/
inductive QuadStep | none | forward | backward | error
  deriving DecidableEq, Repr

/-- R100: +1 follows the order (low, low), (high, low), (high, high), (low, high). -/
def quadStep (old new : Bool × Bool) : QuadStep :=
  if old = new then .none
  else if old.1 ≠ new.1 ∧ old.2 ≠ new.2 then .error
  else if (old, new) ∈ [((false, false), (true, false)), ((true, false), (true, true)),
      ((true, true), (false, true)), ((false, true), (false, false))] then .forward
  else .backward

/-- A count used by the wheel function (R101). -/
def Port.count (ps : PortSettings) (n : Int) (q : Port) : Port :=
  match ps.wheelFunction with
  | .jog => { q with jog := clampInt (-65536) 65536 (q.jog + n * ps.jogScale) }
  | .speed => { q with standing := clampInt (-1024) 1024 (q.standing + n * ps.demandStep) }

/-- The quadrature sample of a WHEEL port with the levels at the pins (R100). -/
def quadratureAt (p : PortId) (a b : Bool) (s : State) : State :=
  if (s.portSet p).mode = .wheel then
    let new := (s.polarised p .a a, s.polarised p .b b)
    let ps := s.portSet p
    let used := s.running
    s.modPort p fun q =>
      let step := match q.quad with
        | none => QuadStep.none
        | some old => quadStep old new
      let q := match step with
        | .none => q
        | .forward => if used then q.count ps 1 else q
        | .backward => if used then q.count ps (-1) else q
        | .error => { q with errorCount := min (q.errorCount + 1) 65535 }
      { q with quad := some new }
  else s

/-! ### Buttons (R102 to R105) -/

/-- A change of an accepted level (R102). -/
inductive ButtonEdge | none | press | release
  deriving DecidableEq, Repr

/-- One sample of a button line: its new state, and the press or release it gives (R102). -/
def Button.sample (debounce : Nat) (high : Bool) (b : Button) : Button × ButtonEdge :=
  let level : ButtonLevel := if high then .pressed else .released
  if b.level = .unset then (⟨level, 0⟩, .none)
  else if b.level = level then (⟨b.level, 0⟩, .none)
  else if debounce ≤ b.run + 1 then (⟨level, 0⟩, if high then .press else .release)
  else (⟨b.level, min (b.run + 1) 31⟩, .none)

/-- Add a line to, or remove it from, a channel's pressed-line set (R32). -/
def setPressed (c : Chan) (p : PortId) (l : LineId) (on : Bool) (s : State) : State :=
  s.modChan c fun ch => { ch with pressed := ch.pressed.set p ((ch.pressed.get p).set l on) }

/-- GO removes CUE from a LIVE channel's hold set (R34). -/
def goChannel (c : Chan) (s : State) : State :=
  if s.isLive c then s.modChan c fun ch => { ch with cue := false } else s

/-- The MARK report (R105): the channel's anchor is that of its last publication. -/
def markReport (s : State) (p : PortId) (l : LineId) : Report :=
  let c := (s.portSet p).channel
  let pub := (s.chan c).pub
  ⟨portSlot p, .mark, natWord c.val, anchorSlotWord pub.anchor, natWord (anchorLine pub.anchor),
    natWord (lineCode l)⟩

/-- A press performs the action of its line (R102); it acts while the engine is RUNNING only.
DESIGN CHOICE (notes/assumptions/43.md): a STORY_NEXT or STORY_PREV press on a port of a channel that is not LIVE sets
the port's pending story jump all the same. Unsafe. -/
def press (p : PortId) (l : LineId) (s : State) : State :=
  let c := (s.portSet p).channel
  if s.running then
    match (s.portSet p).action.get l with
    | .none => s
    | .go => goChannel c s
    | .freezeHold => if s.isLive c then setPressed c p l true s else s
    | .freezeToggle => if s.isLive c then s.modChan c fun ch => { ch with latch := !ch.latch } else s
    | .reverseHold => s.modPort p fun q => { q with reverseSet := q.reverseSet.set l true }
    | .storyNext => s.modPort p fun q => { q with jump := some (.next, l) }
    | .storyPrev => s.modPort p fun q => { q with jump := some (.prev, l) }
    | .take => s.modPort p fun q => { q with take := true }
    | .mark => raise (markReport s p l) s
    | .zero =>
      if (s.portSet p).mode = .wheel then s.modPort p fun q => { q with standing := 0 } else s
  else s

/-- A release removes its line from the reverse set, in every engine state, and from the pressed-line set, but in
HALTED (R32, R102). -/
def release (p : PortId) (l : LineId) (s : State) : State :=
  let c := (s.portSet p).channel
  match (s.portSet p).action.get l with
  | .freezeHold => if s.halted then s else setPressed c p l false s
  | .reverseHold => s.modPort p fun q => { q with reverseSet := q.reverseSet.set l false }
  | .none => s
  | .go => s
  | .freezeToggle => s
  | .storyNext => s
  | .storyPrev => s
  | .take => s
  | .mark => s
  | .zero => s

/-- One sample of one line of a port at a sample event. -/
def sampleButton (p : PortId) (levels : Lines) (l : LineId) (s : State) : State :=
  if isButton (s.portSet p).mode l then
    let b := ((s.port p).buttons.get l).sample (s.portSet p).debounce (s.polarised p l (levels.get l))
    let t := s.modPort p fun q => { q with buttons := q.buttons.set l b.1 }
    match b.2 with
    | .none => t
    | .press => press p l t
    | .release => release p l t
  else s

/-- The accepted level of a line changes at a sample event with these levels. -/
def accepts (s : State) (p : PortId) (l : LineId) (levels : Lines) : Bool :=
  isButton (s.portSet p).mode l &&
    (((s.port p).buttons.get l).sample (s.portSet p).debounce
      (s.polarised p l (levels.get l))).2 != .none

/-! ### The sample event (R99, R102, R144) -/

/-- The sample event brings the edge age of an ACTIVE or RECENTER port to its loss limit or above it (R99). -/
def timesOut (s : State) (p : PortId) : Bool :=
  (s.portSet p).mode == .lever
    && ((s.port p).phase == .active || (s.port p).phase == .recenter)
    && decide ((s.portSet p).lossLimit ≤ min ((s.port p).edgeAge + 1) 255)

/-- The lever timers of a port at a sample event (R99). -/
def sampleLever (p : PortId) (s : State) : State :=
  if (s.portSet p).mode = .lever then
    let t := s.modPort p fun q =>
      { q with
        edgeAge := min (q.edgeAge + 1) 255
        timeLost := if q.phase = .lost then min (q.timeLost + 1) 65535 else q.timeLost }
    if timesOut s p then enterLost p .timeout t else t
  else s

/-- A port at a sample event: its lever timers, then its lines A, B and C. -/
def samplePort (levels : Bank 8 Lines) (p : PortId) (s : State) : State :=
  forEach allLines (sampleButton p (levels.get p)) (sampleLever p s)

/-- The strobe timers at a sample event (R144). -/
def sampleStrobes (s : State) : State :=
  { s with lamps := { s.lamps with strobe := s.lamps.strobe.map (· - 1) } }

/-- The sample event: the ports in order, then the strobe timers. -/
def sampleAll (levels : Bank 8 Lines) (s : State) : State :=
  sampleStrobes (forEach allPorts (samplePort levels) s)

/-! ### What a port hands on (R106) -/

/-- The items a port hands the Authority Arbiter at a frame event. -/
structure Handed where
  demand : Int
  jog : Int
  take : Bool
  jump : Option StoryJump
  deriving DecidableEq, Repr

/-- The reverse set is not empty. -/
def Port.reversed (q : Port) : Bool := q.reverseSet.a || q.reverseSet.b || q.reverseSet.c

/-- The port demand of R106. -/
def portDemand (ps : PortSettings) (q : Port) : Int :=
  match ps.mode with
  | .lever => if q.phase = .active then (if q.reversed then -q.value else q.value) else 0
  | .wheel =>
    match ps.wheelFunction with
    | .speed => q.standing
    | .jog => 0
  | .keys => 0
  | .off => 0

/-- The port jog of R106. -/
def portJog (ps : PortSettings) (q : Port) : Int :=
  match ps.mode, ps.wheelFunction with
  | .wheel, .jog => q.jog
  | _, _ => 0

/-- The items of a port at a frame event. -/
def handOn (s : State) (p : PortId) : Handed :=
  let ps := s.portSet p
  let q := s.port p
  if ps.mode = .off then ⟨0, 0, false, none⟩
  else ⟨portDemand ps q, portJog ps q, q.take, q.jump.map (·.1)⟩

/-- A port after it has handed its items on. -/
def Port.handedOn (q : Port) : Port := { q with jog := 0, take := false, jump := none }

/-- Every port hands its items on. -/
def handAll (s : State) : Bank 8 Handed × State :=
  (Bank.ofFn (handOn s), { s with ports := s.ports.map Port.handedOn })

end Sys2Proof.Machine
end

