-- ==== Sys2Proof/Machine/Authority.lean ====
section
/-! DEFINITION. The Authority Arbiter (spec/07_control_authority.md): sources, the frame evaluation of a LIVE channel,
and what it hands the channel. -/

namespace Sys2Proof.Machine

/-! ### Sources and claims (R110, R112, R116) -/

/-- The authority mode admits a role (R110). -/
def AuthMode.admits : AuthMode → Role → Bool
  | .operator, .operator => true
  | .operator, .presenter => false
  | .presenter, .presenter => true
  | .presenter, .operator => false
  | .takeover, _ => true

/-- A hand port is a source of channel `c` (R112). -/
def isSource (s : State) (c : Chan) (p : PortId) : Bool :=
  (s.portSet p).mode != .off && (s.portSet p).channel == c

def State.role (s : State) (p : PortId) : Role := (s.portSet p).role

/-- The role of a source: the console's is OPERATOR. -/
def sourceRole (s : State) : Source → Role
  | .port p => s.role p
  | .console => .operator

/-- A port could claim if it were active: a source of the channel, its role admitted, ACTIVE, and armed when it is a
presenter (R116, R119). -/
def couldClaim (s : State) (c : Chan) (p : PortId) : Bool :=
  isSource s c p && (s.chanSet c).authMode.admits (s.role p) && (s.port p).phase == .active
    && (s.role p == .operator || s.armed.get p)

/-- A port is active in the frame (R112): its demand or jog is not 0, or an ACTIVE operator port handed a TAKE. -/
def portActive (s : State) (handed : Bank 8 Handed) (p : PortId) : Bool :=
  let h := handed.get p
  h.demand != 0 || h.jog != 0 || (h.take && s.role p == .operator && (s.port p).phase == .active)

/-- A source is active in the frame for channel `c`. -/
def sourceActive (s : State) (handed : Bank 8 Handed) (c : Chan) : Source → Bool
  | .port p => portActive s handed p
  | .console => (s.auth c).consoleDemand != 0 || (s.auth c).consoleJog != 0

/-- A source claims in the frame (R116). -/
def claims (s : State) (handed : Bank 8 Handed) (c : Chan) : Source → Bool
  | .port p => couldClaim s c p && portActive s handed p
  | .console => (s.chanSet c).authMode.admits .operator && sourceActive s handed c .console

/-- The ports of a role, lowest number first. -/
def portsOfRole (s : State) (r : Role) : List PortId := allPorts.filter fun p => s.role p == r

/-- The service order (R116): operator ports, the console, presenter ports. -/
def serviceOrder (s : State) : List Source :=
  (portsOfRole s .operator).map .port ++ .console :: (portsOfRole s .presenter).map .port

/-! ### The frame evaluation (R113) -/

/-- R115 at a frame event: a port whose mode is not OFF and that hands demand 0 and jog 0 has its arm flag set. -/
def armPort (handed : Bank 8 Handed) (p : PortId) (s : State) : State :=
  let h := handed.get p
  if (s.portSet p).mode ≠ .off ∧ h.demand = 0 ∧ h.jog = 0 then s.setArmed p true else s

/-- Step 1 for every port. -/
def armPorts (handed : Bank 8 Handed) (s : State) : State := forEach allPorts (armPort handed) s

/-- Step 2: the holder's quiet count, and its release by quiet time (R114). -/
def quietStep (handed : Bank 8 Handed) (c : Chan) (s : State) : State :=
  match (s.auth c).holder with
  | none => s
  | some h =>
    if sourceActive s handed c h then s.modAuth c fun a => { a with quiet := 0 }
    else
      let n := min ((s.auth c).quiet + 1) 255
      if (s.chanSet c).releaseTime ≤ n then releaseHolder c .quiet s
      else s.modAuth c fun a => { a with quiet := n }

/-- The channel's holder becomes `new`, with quiet count 0, and the change is posted. -/
def takeHolder (c : Chan) (new : Source) (cause : AuthorityCause) (s : State) : State :=
  let old := (s.auth c).holder
  raiseRunning (authorityReport s c (some new) old cause)
    (s.modAuth c fun a => { a with holder := some new, quiet := 0 })

/-- A takeover clears the arm flag of every presenter port that is a source of the channel (R116). -/
def disarmPresenters (c : Chan) (s : State) : State :=
  forEach allPorts (fun p t =>
    if isSource t c p ∧ t.role p = .presenter then t.setArmed p false else t) s

/-- Step 3: the claims (R116). -/
def claimStep (handed : Bank 8 Handed) (c : Chan) (s : State) : State :=
  let claimers := (serviceOrder s).filter (claims s handed c)
  match (s.auth c).holder with
  | none =>
    match claimers with
    | [] => s
    | x :: _ => takeHolder c x .claim s
  | some h =>
    if sourceRole s h = .presenter ∧ (s.chanSet c).authMode = .takeover then
      match claimers.filter (fun x => sourceRole s x == .operator) with
      | [] => s
      | x :: _ => disarmPresenters c (takeHolder c x .takeover s)
    else s

/-- What the arbiter hands the channel (R118): a story jump carries the port that pressed it. -/
structure Handing where
  demand : Int
  jog : Int
  jump : Option (PortId × StoryJump)
  deriving DecidableEq, Repr

/-- The ports with a pending story jump for channel `c`, in service order. -/
def jumpers (s : State) (handed : Bank 8 Handed) (c : Chan) : List PortId :=
  (portsOfRole s .operator ++ portsOfRole s .presenter).filter fun p =>
    isSource s c p && (handed.get p).jump.isSome

/-- The port whose story jump is admitted at step 4 (R119). -/
def admittedJumper (s : State) (handed : Bank 8 Handed) (c : Chan) : Option PortId :=
  match (s.auth c).holder with
  | none => (jumpers s handed c).find? (couldClaim s c)
  | some (.port p) => if p ∈ jumpers s handed c then some p else none
  | some .console => none

/-- The JUMP_REFUSED report (R109). -/
def jumpRefused (s : State) (p : PortId) (c : Chan) (j : StoryJump) (reason : CommandResult) : Report :=
  ⟨portSlot p, .jumpRefused, natWord c.val, natWord j.code, natWord reason.code,
    anchorSlotWord (s.chan c).anchor⟩

/-- Step 4 for one port: its pending story jump, when it is not the admitted one, is discarded with a report (R119).
DESIGN CHOICE (notes/assumptions/40.md): the evaluation comes before stage 2, so the report carries the anchor as it
stands before stage 2 of the same frame event moves it. Unsafe. -/
def discardJump (handed : Bank 8 Handed) (c : Chan) (admitted : Option PortId) (p : PortId)
    (s : State) : State :=
  match (handed.get p).jump with
  | none => s
  | some j =>
    if isSource s c p ∧ admitted ≠ some p then raiseRunning (jumpRefused s p c j .noAuthority) s else s

/-- The demand and jog of the holder (R118). -/
def holderItems (s : State) (handed : Bank 8 Handed) (c : Chan) : Int × Int :=
  match (s.auth c).holder with
  | none => (0, 0)
  | some (.port p) => ((handed.get p).demand, (handed.get p).jog)
  | some .console => ((s.auth c).consoleDemand, (s.auth c).consoleJog)

/-- The console jog of a channel becomes 0 (R113 step 6). -/
def clearConsoleJog (c : Chan) (s : State) : State := s.modAuth c fun a => { a with consoleJog := 0 }

/-- The evaluation of a LIVE channel (R113), after step 1: the items handed to the channel, and the new state.
DESIGN CHOICE (notes/assumptions/28.md): the story jumps that step 4 discards are reported lowest port number first, not
in service order. Unsafe. -/
def evaluate (handed : Bank 8 Handed) (c : Chan) (s : State) : Handing × State :=
  let s := claimStep handed c (quietStep handed c s)
  let admitted := admittedJumper s handed c
  let t := forEach allPorts (discardJump handed c admitted) s
  let items := holderItems s handed c
  let jump := admitted.bind fun p => ((handed.get p).jump).map fun j => (p, j)
  (⟨items.1, items.2, jump⟩, clearConsoleJog c t)

/-- The frame event would release channel `c`'s holder by quiet time (R114). -/
def quietDue (s : State) (c : Chan) : Bool :=
  s.running && s.isLive c &&
    match (s.auth c).holder with
    | none => false
    | some h =>
      !sourceActive s (handAll s).1 c h && decide ((s.chanSet c).releaseTime ≤ min ((s.auth c).quiet + 1) 255)

end Sys2Proof.Machine
end

