-- ==== Sys2Proof/Machine/Lamps.lean ====
section
/-! DEFINITION. The Lamp Unit at a publication (spec/09_cue_lamps.md): crossing records, group patterns, the cue strobe
and CUE_PASSED. The levels its lines show are in Machine/Flags.lean. -/

namespace Sys2Proof.Machine

/-- The crossing record of a channel for one publication (R140). -/
structure CrossingRecord where
  placed : Bool
  entered : List Entered
  crossings : List Crossing
  deriving DecidableEq, Repr

/-- A LATCH group's pattern after a record (R141). -/
def latchPattern (r : CrossingRecord) (old : BitVec 4) : BitVec 4 :=
  r.entered.foldl (fun acc e => e.pattern.getD acc) (if r.placed then 0 else old)

/-- A SPAN group's pattern at a publication (R142): a malformed line and a line without a pattern have none. -/
def spanPattern (f : Fetch) : Option Anchor → BitVec 4
  | none => 0
  | some a => ((f.record a.slot a.line).bind (·.pattern)).getD 0

/-- A group bound to channel `c` acts at its publication (R141, R142). -/
def groupAct (c : Chan) (r : CrossingRecord) (g : GroupId) (s : State) : State :=
  if s.settings.groupChannel.get g = c then
    let new := match s.settings.groupMode.get g with
      | .latch => latchPattern r (s.lamps.pattern.get g)
      | .span => spanPattern s.fetch (s.chan c).pub.anchor
    { s with lamps := { s.lamps with pattern := s.lamps.pattern.set g new } }
  else s

/-- The cue strobe and CUE_PASSED of a publication (R144, R145). -/
def cuePassed (c : Chan) (crossings : List Crossing) (s : State) : State :=
  match crossings.getLast? with
  | none => s
  | some x =>
    raise ⟨channelSlot c, .cuePassed, slotWord x.line.slot, natWord x.line.line,
      natWord crossings.length, natWord x.direction.code⟩
      { s with lamps := { s.lamps with strobe := s.lamps.strobe.set c 100 } }

/-- What the Lamp Unit does at a publication of channel `c`. -/
def lampsAct (c : Chan) (r : CrossingRecord) (s : State) : State :=
  cuePassed c r.crossings (forEach (List.finRange 4) (groupAct c r) s)

end Sys2Proof.Machine
end

