-- ==== Sys2Proof/Machine/Channels.lean ====
section
/-! DEFINITION. Scroll channels (spec/02_scroll_channels.md): re-anchoring, the stages of a LIVE channel's frame event,
jumps, follower derivation, joining a key search, and publication. -/

namespace Sys2Proof.Machine

/-! ### The position record (R24) -/

/-- Move the anchor: the key is kept on the same line, and taken from the cache on another (R24). -/
def Channel.moveTo (f : Fetch) (a : Option Anchor) (fraction : Nat) (ch : Channel) : Channel :=
  { ch with anchor := a, fraction := fraction, key := if a = ch.anchor then ch.key else f.keyOf a }

/-- What a jump and a re-anchor do besides moving the anchor: S and the fraction 0, CUE and BOUNDARY away, and the
anchor placed other than by motion (R27, R28, R35, R36, R140). -/
def Channel.placeAt (f : Fetch) (a : Option Anchor) (ch : Channel) : Channel :=
  { ch.moveTo f a 0 with speed := 0, cue := false, boundary := false, placed := true }

/-- The cause of ANCHOR_MOVED (R40). -/
inductive MoveCause | viewChange | countClamp | keyNotFound
  deriving DecidableEq, Repr

def MoveCause.code : MoveCause → Nat
  | .viewChange => 1 | .countClamp => 2 | .keyNotFound => 3

/-- The ANCHOR_MOVED report (R40). -/
def anchorMoved (s : State) (c : Chan) (cause : MoveCause) (a : Option Anchor) : Report :=
  ⟨channelSlot c, .anchorMoved, natWord cause.code, anchorSlotWord a, natWord (anchorLine a),
    match a with
    | some x => (s.story x.slot).storyId
    | none => 0⟩

/-! ### The key search, as channels reach it (R33, R67) -/

/-- The member that a joining channel becomes: in KEYS a target already matched by a listed channel takes that match
at once. -/
def joiningMember (sr : Searcher) (c : Chan) (target : Option Key) : SearchMember :=
  match sr.phase with
  | .versionRead _ => ⟨c, target, none, false⟩
  | .keys _ _ _ _ _ =>
    match target with
    | none => ⟨c, none, none, false⟩
    | some k =>
      match sr.members.findSome? (fun m => if m.target = some k then m.found else none) with
      | some j => ⟨c, some k, some j, false⟩
      | none => ⟨c, some k, none, true⟩

/-- A joining target with no match sets the next index back to 0 (R67). -/
def SearchPhase.joined (late : Bool) : SearchPhase → SearchPhase
  | .versionRead r => .versionRead r
  | .keys r a n i back => .keys r a n i (back || late)

/-- A LIVE channel whose anchor lies in the searched story joins the search, if it is not in it (R33). -/
def joinSearch (c : Chan) (s : State) : State :=
  match s.exchange.searcher with
  | none => s
  | some sr =>
    let ch := s.chan c
    if s.isLive c ∧ (ch.anchor.map (·.slot)) = some sr.slot ∧ ¬ (sr.members.any (·.channel == c)) then
      let m := joiningMember sr c ch.key
      { s with exchange := { s.exchange with searcher := some { sr with
          phase := sr.phase.joined m.late, members := sr.members ++ [m] } } }
        |>.modChan c fun ch => { ch with exchange := true }
    else s

/-! ### Stages 1 to 3 (R25 to R31) -/

/-- The anchor the view-change rule gives (R27). -/
def viewChangeTarget (former taken : List ViewEntry) (k : Slot) : Option Anchor :=
  let forward := if former.any (·.slot == k) then storiesAfter former k else former
  let inTaken := fun (e : ViewEntry) => entryOf taken e.slot
  match forward.findSome? inTaken with
  | some e => some ⟨e.slot, 0⟩
  | none =>
    match (storiesBefore former k).findSome? inTaken with
    | some e => some ⟨e.slot, e.count - 1⟩
    | none => taken.head?.map fun e => ⟨e.slot, 0⟩

/-- A re-anchor at stage 2, with its report. -/
def reanchor (c : Chan) (a : Option Anchor) (cause : MoveCause) (s : State) : State :=
  raise (anchorMoved s c cause a) (s.modChan c (Channel.placeAt s.fetch a))

/-- Stage 2 (R28, then R27), with the former view. -/
def checkAnchor (c : Chan) (former : List ViewEntry) (s : State) : State :=
  let ch := s.chan c
  match ch.anchor, ch.view with
  | none, [] => s
  | none, e :: _ =>
    s.modChan c fun ch => { ch.moveTo s.fetch (some ⟨e.slot, 0⟩) 0 with placed := true }
  | some _, [] => reanchor c none .viewChange s
  | some a, v =>
    match entryOf v a.slot with
    | some e =>
      if a.line < e.count then s else reanchor c (some ⟨a.slot, e.count - 1⟩) .countClamp s
    | none => reanchor c (viewChangeTarget former v a.slot) .viewChange s

/-- The BOUNDARY_HELD report (R40). -/
def boundaryHeld (s : State) (c : Chan) (anchor notReady : Slot) (motion : Bool) : Report :=
  ⟨channelSlot c, .boundaryHeld, slotWord anchor, slotWord notReady, if motion then 1 else 2,
    (s.story notReady).storyId⟩

/-- Stage 3 (R31): BOUNDARY is set while the anchor story is not ready, and cleared when it and the story after it are
ready or there is none after it.
DESIGN CHOICE (notes/assumptions/48.md): it is evaluated at every frame event, also while a key search of the anchor
story runs (R71). Unsafe. -/
def boundaryStage (c : Chan) (s : State) : State :=
  let ch := s.chan c
  match ch.anchor with
  | none => s
  | some a =>
    match entryOf ch.view a.slot with
    | none => s
    | some e =>
      if e.ready then
        if (nextStory ch.view a.slot).all (·.ready) then
          s.modChan c fun ch => { ch with boundary := false }
        else s
      else
        let t := s.modChan c fun ch => { ch with boundary := true }
        if ch.boundary then t else raise (boundaryHeld s c a.slot a.slot false) t

/-! ### Stage 4 (R36, R42 to R58) -/

/-- The outcome of stage 4: the walk's record, and whether the advance stopped at the horizon. -/
structure Stage4 where
  entered : List Entered
  crossings : List Crossing
  starved : Bool
  deriving DecidableEq, Repr

def Stage4.still : Stage4 := ⟨[], [], false⟩

/-- The story a story jump goes to (R36). -/
def jumpTarget (v : List ViewEntry) (a : Option Anchor) (j : StoryJump) : Option ViewEntry :=
  a.bind fun a =>
    match j with
    | .next => nextStory v a.slot
    | .prev => prevStory v a.slot

/-- The first check of a jump that fails, FREEZE and then EXCHANGE (R35, R36). -/
def holdRefusal (ch : Channel) : Option CommandResult :=
  if ch.freeze then some .frozen else if ch.exchange then some .busy else none

/-- What R47 asks of S where a frame event makes no advance: 0 under a full hold, and else within the Vmax in force. -/
def Channel.boundSpeed (vmax : Nat) (ch : Channel) : Channel :=
  { ch with speed := if ch.fullHold then 0 else clampInt (-vmax) vmax ch.speed }

/-- A refused story jump is reported by its port (R36). It changes nothing, but that S keeps its bounds in the
publication that follows (R47, notes/assumptions/13.md). -/
def refuseJump (c : Chan) (p : PortId) (j : StoryJump) (reason : CommandResult) (s : State) : State :=
  raise (jumpRefused s p c j reason) (s.modChan c (Channel.boundSpeed (s.chanSet c).vmax))

/-- Stage 4 with an admitted story jump (R36). -/
def storyJump (c : Chan) (p : PortId) (j : StoryJump) (s : State) : State :=
  let ch := s.chan c
  match holdRefusal ch with
  | some r => refuseJump c p j r s
  | none =>
    match jumpTarget ch.view ch.anchor j with
    | none => refuseJump c p j .badTarget s
    | some e =>
      if e.ready then s.modChan c (Channel.placeAt s.fetch (some ⟨e.slot, 0⟩))
      else refuseJump c p j .badTarget s

/-- The advance moves the channel (R57): the anchor and fraction, S, the CUE and BOUNDARY holds. -/
def Channel.advanceTo (f : Fetch) (a : Option Anchor) (adv : Advance) (lower : Bool) (ch : Channel) :
    Channel :=
  let moved := ch.moveTo f a adv.fraction
  { moved with
    speed := adv.speed
    cue := if adv.landed.isSome then true else ch.cue && a == ch.anchor
    boundary := match adv.stop with
      | .boundary _ => true
      | .reached => ch.boundary && !lower
      | .horizon _ => ch.boundary && !lower
      | .bottom => ch.boundary && !lower
      | .top => ch.boundary && !lower }

/-- The code of a stopping cue on a line (R58). -/
def cueWord (f : Fetch) (a : Anchor) : Word :=
  natWord (((f.record a.slot a.line).map (·.cue.code)).getD 0)

/-- The direction of a walk that made a horizon stop: it stands at fraction 0 after a backward walk and at 1023 after a
forward one (R53). -/
def horizonDirection (adv : Advance) : Direction := if adv.fraction = 0 then .backward else .forward

/-- The reports of an advance (R54, R58), and the starve count of a new episode (R53). `old` is the channel before it,
`a` the anchor after it.
DESIGN CHOICE (notes/assumptions/47.md): a new starving episode and an END_REACHED go by the starve and END flags as the
channel holds them, which a stop or a mode change may have cleared since the previous publication. Unsafe. -/
def advanceReports (c : Chan) (old : Channel) (a : Option Anchor) (demand : Int) (adv : Advance)
    (s : State) : State :=
  match adv.landed, adv.stop with
  | some cue, _ =>
    raise ⟨channelSlot c, .cueReached, slotWord cue.slot, natWord cue.line, cueWord s.fetch cue,
      (s.story cue.slot).storyId⟩ s
  | none, .reached => s
  | none, .top => s
  | none, .horizon l =>
    if old.starve then s
    else
      let n := min (old.starveCount + 1) 65535
      raise ⟨channelSlot c, .starved, slotWord l.slot, natWord l.line,
        natWord (horizonDirection adv).code, natWord n⟩ (s.modChan c fun ch => { ch with starveCount := n })
  | none, .boundary k =>
    if old.boundary then s
    else
      match a with
      | none => s
      | some a => raise (boundaryHeld s c a.slot k true) s
  | none, .bottom =>
    if old.atEnd then s
    else
      match a with
      | none => s
      | some a =>
        raise ⟨channelSlot c, .endReached, slotWord a.slot, natWord a.line, intWord demand,
          (s.story a.slot).storyId⟩ s

def WalkEnd.isHorizon : WalkEnd → Bool
  | .horizon _ => true
  | .reached => false
  | .boundary _ => false
  | .bottom => false
  | .top => false

/-- Stage 4 without a story jump: the advance (R42). A channel whose anchor is NONE makes none. -/
def advanceStage (c : Chan) (demand jog : Int) (s : State) : Stage4 × State :=
  let ch := s.chan c
  match ch.anchor.bind (viewRow ch.view) with
  | none => (.still, s)
  | some row =>
    let adv := advance (s.chanSet c) ch.view s.fetch row ch.fraction ch.speed ch.holds demand jog
    let a := (anchorAtRow ch.view adv.row).or ch.anchor
    let lower := decide (adv.row * 1024 + adv.fraction < row * 1024 + ch.fraction)
    (⟨adv.entered, adv.crossings, adv.stop.isHorizon⟩,
      advanceReports c ch a demand adv (s.modChan c (Channel.advanceTo s.fetch a adv lower)))

/-- Stage 4: an admitted story jump, or the advance. The demand handed is recorded either way (R42, R118). -/
def stage4 (c : Chan) (h : Handing) (s : State) : Stage4 × State :=
  let t := s.modChan c fun ch => { ch with demand := h.demand }
  match h.jump with
  | some (p, j) => (.still, storyJump c p j t)
  | none => advanceStage c h.demand h.jog t

/-- Stage 5 (R33, R47): EXCHANGE joins the hold set in the story of a running search, and S becomes 0 then. -/
def stage5 (c : Chan) (s : State) : State :=
  let t := joinSearch c s
  if (t.chan c).exchange && !(s.chan c).exchange then t.modChan c fun ch => { ch with speed := 0 } else t

/-! ### Publication (R39, R140, R161) -/

/-- The bytes of a Channel Status record (R180). -/
def channelStatusBytes (p : Published) : List Byte :=
  wordBytes p.frame ++ wordBytes (intWord p.speed)
    ++ [natByte p.mode.code, natByte (if p.mode = .follow then p.leader.val else 0)]
    ++ halfBytes (match p.anchor with
        | some a => natHalf a.slot.val
        | none => 0xFFFF)
    ++ halfBytes (natHalf (anchorLine p.anchor)) ++ halfBytes (p.key.getD 0)
    ++ halfBytes (natHalf p.fraction) ++ halfBytes (intHalf p.demand) ++ halfBytes (natHalf p.starveCount)
    ++ [natByte (boolBit p.holds.cue 1 + boolBit p.holds.boundary 2 + boolBit p.holds.freeze 4
          + boolBit p.holds.exchange 8),
        natByte (boolBit p.key.isSome 1 + boolBit p.latch 2 + boolBit p.atEnd 4 + boolBit p.starve 8),
        holderByte p.holder]
    ++ zeros 7

/-- The Channel Status record of a channel is issued at its publication (R161). -/
def writeChannelStatus (c : Chan) (s : State) : State :=
  issueWrite (.channelStatus c) (s.areaAddress s.area.header.channelStatus (32 * c.val))
    (channelStatusBytes (s.chan c).pub) none s

/-- Publish `pub`: the record is issued and the Lamp Unit takes the crossing record. -/
def publish (c : Chan) (pub : Published) (entered : List Entered) (crossings : List Crossing)
    (s : State) : State :=
  let placed := (s.chan c).placed
  let t := s.modChan c fun ch => { ch with pub := pub, placed := false }
  lampsAct c ⟨placed, entered, crossings⟩ (writeChannelStatus c t)

/-- Stage 6 fills in an absent key and sets the END and starve flags (R24, R39). -/
def Channel.settle (f : Fetch) (starved : Bool) (ch : Channel) : Channel :=
  { ch with
    key := ch.key.or (f.keyOf ch.anchor)
    atEnd := atBottom ch.view ch.anchor ch.fraction
    starve := starved }

/-- What a LIVE channel publishes (R39). -/
def livePublication (s : State) (c : Chan) : Published :=
  let ch := s.chan c
  { mode := .live, leader := (s.chanSet c).leader, anchor := ch.anchor, fraction := ch.fraction,
    key := ch.key, speed := ch.speed, demand := ch.demand, holds := ch.holds, latch := ch.latch,
    atEnd := ch.atEnd, starve := ch.starve, starveCount := ch.starveCount,
    holder := (s.auth c).holder, frame := s.frame, view := ch.view }

/-- Stage 6 of a LIVE channel. -/
def stage6 (c : Chan) (r : Stage4) (s : State) : State :=
  let t := s.modChan c (Channel.settle s.fetch r.starved)
  publish c (livePublication t c) r.entered r.crossings t

/-! ### The frame events of a channel -/

/-- Stage 1 (R25): the channel takes its view. -/
def takeView (c : Chan) (s : State) : State :=
  s.modChan c fun ch => { ch with view := scriptView s c }

/-- Stages 1 to 5 of a LIVE channel's frame event (R26), with the arbiter's evaluation made for it first, and the
outcome of stage 4 that its publication hands on. A re-anchor at stage 2 into a searched story joins the search there
(R33). -/
def liveStages (handed : Bank 8 Handed) (c : Chan) (s : State) : Stage4 × State :=
  let former := (s.chan c).view
  let (handing, s) := evaluate handed c s
  let s := boundaryStage c (joinSearch c (checkAnchor c former (takeView c s)))
  let (r, s) := stage4 c handing s
  (r, stage5 c s)

/-- What an OFF channel publishes (R39). -/
def offPublication (s : State) (c : Chan) : Published :=
  { Published.reset with starveCount := (s.chan c).starveCount, frame := s.frame }

/-- An OFF channel's frame event: the arbiter discards its items, and it publishes anchor NONE. -/
def offFrame (c : Chan) (s : State) : State :=
  let t := clearConsoleJog c s
  publish c (offPublication t c) [] [] t

/-- The position a follower derives from its leader's publication (R37). -/
def derivePosition (v : List ViewEntry) (leader : Published) (offset : Int) : Option Anchor × Nat :=
  match leader.anchor.bind (viewRow v) with
  | none => (none, 0)
  | some r =>
    let row := (r : Int) + offset
    let n : Int := viewSize v
    if row < 0 then (anchorAtRow v 0, 0)
    else if n - 1 < row then (anchorAtRow v (viewSize v - 1), 1023)
    else (anchorAtRow v row.toNat, leader.fraction)

/-- What a follower publishes (R38): its leader's S, and no hold, demand or holder of its own. -/
def followPublication (s : State) (c : Chan) : Published :=
  let ch := s.chan c
  let leader := (s.chanSet c).leader
  { mode := .follow, leader := leader, anchor := ch.anchor, fraction := ch.fraction, key := ch.key,
    speed := (s.chan leader).pub.speed, demand := 0, holds := .empty, latch := false,
    atEnd := ch.atEnd, starve := false, starveCount := ch.starveCount, holder := none,
    frame := s.frame, view := ch.view }

/-- The entered line of a follower's crossing record (R140): its derived anchor, when that has changed since its
previous publication. -/
def followEntered (f : Fetch) (before after : Option Anchor) : List Entered :=
  match after with
  | none => []
  | some a => if before = some a then [] else [⟨a, (f.record a.slot a.line).bind (·.pattern)⟩]

/-- A FOLLOW channel's frame event (R37): it takes its leader's view and derives its position. -/
def followFrame (c : Chan) (s : State) : State :=
  let s := clearConsoleJog c s
  let leader := s.chan (s.chanSet c).leader
  let position := derivePosition leader.view leader.pub (s.chanSet c).offset
  let t := s.modChan c fun ch =>
    Channel.settle s.fetch false
      { ch.moveTo s.fetch position.1 position.2 with view := leader.view }
  publish c (followPublication t c) (followEntered s.fetch (s.chan c).pub.anchor position.1) [] t

end Sys2Proof.Machine
end

