-- ==== Sys2Proof/Machine/Exchange.lean ====
section
/-! DEFINITION. The Exchange Unit (spec/04_live_exchange.md): sight, direct takes, flips, the key search and the rundown
exchange. -/

namespace Sys2Proof.Machine

/-! ### Exchange states (R59) -/

/-- The exchange state of a story (R59). -/
inductive StoryExchange | idle | pending | taking | searching
  deriving DecidableEq, Repr

def State.exchangeOf (s : State) (k : Slot) : StoryExchange :=
  if s.exchange.takes.any (·.slot == k) then .taking
  else if (s.exchange.searcher).any (·.slot == k) then .searching
  else if (s.story k).request = (s.story k).done then .idle
  else .pending

/-! ### Sight and anchors (R61, R62) -/

/-- Channel `c`'s anchor lies in a story. -/
def anchoredIn (s : State) (k : Slot) (c : Chan) : Bool := ((s.chan c).anchor.map (·.slot)) == some k

/-- Some LIVE channel is anchored in a story. -/
def liveAnchored (s : State) (k : Slot) : Bool := allChans.any fun c => s.isLive c && anchoredIn s k c

/-- Some published anchor lies in a story. -/
def publishedIn (s : State) (k : Slot) : Bool :=
  allChans.any fun c => ((s.chan c).pub.anchor.map (·.slot)) == some k

/-- A row of an enabled head's window lies in a story: counted from the channel's last publication through the view the
channel took at it, with the partial row when the fraction is not 0 (R62).
DESIGN CHOICE (notes/assumptions/49.md): the head's settings are those of the settings shadow at the time of the test.
Unsafe. -/
def windowIn (s : State) (k : Slot) (h : HeadSettings) : Bool :=
  let pub := (s.chan h.channel).pub
  h.enable &&
    match pub.anchor.bind (viewRow pub.view) with
    | none => false
    | some a =>
      (List.range (h.rows + if pub.fraction = 0 then 0 else 1)).any fun i =>
        let row : Int := (a : Int) - h.readingRow + i
        0 ≤ row && ((lineAtRow pub.view row.toNat).map (·.1.slot)) == some k

/-- A story is in sight (R62). -/
def inSight (s : State) (k : Slot) : Bool :=
  publishedIn s k || s.settings.heads.items.any (windowIn s k)

/-! ### Writing the part-written fields (R65, R176) -/

/-- The bytes 48 to 59 of a story entry, as its shadow holds them. -/
def storyFieldBytes (st : Story) : List Byte :=
  wordBytes (natWord st.side.code) ++ wordBytes st.done ++ wordBytes st.result

/-- Issue the write of a story's part-written fields; its completion raises `report`. -/
def writeStoryFields (k : Slot) (report : Report) (s : State) : State :=
  issueWrite (.storyFields k) (s.entryAddress k 48) (storyFieldBytes (s.story k)) (some report) s

/-- Where a take of R9 failed (R183). -/
inductive FailedStage | versionRead | keyRead
  deriving DecidableEq, Repr

def FailedStage.code : FailedStage → Nat
  | .versionRead => 1 | .keyRead => 2

/-- The end of a take without a flip (R63, R69): done becomes the generation taken and the result FAILED. -/
def failTake (k : Slot) (generation : Word) (stage : FailedStage) (line : Word) (s : State) : State :=
  let t := s.modStory k fun st => { st with done := generation, result := resultFailed }
  writeStoryFields k
    ⟨exchangeSlot, .exchangeFailed, slotWord k, natWord stage.code, line, (s.story k).storyId⟩ t

/-- The NULL_BLOCK report of a version take (R9). -/
def nullBlock (k : Slot) (side : Side) (found : Word) (storyId : Word) : Report :=
  ⟨scriptSlot, .nullBlock, slotWord k, natWord side.code, found, storyId⟩

/-- A flip (R64): the shadow, the invalidation, and the write of the part-written fields. -/
def flip (k : Slot) (generation : Word) (address : Addr) (count : Nat) (s : State) : State :=
  let side := (s.story k).side.other
  let t := s.modStory k fun st =>
    { st with side := side, address := address, count := count, done := generation, result := resultDone }
  writeStoryFields k
    ⟨exchangeSlot, .exchangeDone, slotWord k, natWord side.code, natWord count, (s.story k).storyId⟩
    (invalidateStory k t)

/-! ### Direct takes (R63) -/

/-- The request of the read of a story's inactive side. -/
def versionRequest (s : State) (k : Slot) : Request :=
  ⟨s.nextTag, s.entryAddress k (versionOffset (s.story k).side.other), 12⟩

/-- A direct take begins: the story becomes TAKING and its version read is issued. -/
def beginDirectTake (k : Slot) (s : State) : State :=
  let take : DirectTake := ⟨k, (s.story k).request, (s.story k).mode, versionRequest s k⟩
  { s with
    exchange := { s.exchange with takes := s.exchange.takes ++ [take] }
    nextTag := s.nextTag + 1 }

/-- A story of a mode may be taken directly (R61). -/
def directAllowed (s : State) (k : Slot) : ExchangeMode → Bool
  | .clear => !inSight s k
  | .now => !liveAnchored s k

/-- R61 for one story. -/
def examineStory (k : Slot) (s : State) : State :=
  if s.exchangeOf k = .pending ∧ directAllowed s k (s.story k).mode then beginDirectTake k s else s

/-- A direct take's version read completes (R63). A bus error is a failure whatever stands in sight. -/
def endDirectTake (tag : Nat) (r : ReadResult) (s : State) : State :=
  match s.exchange.takes.find? (·.request.tag == tag) with
  | none => s
  | some take =>
    let k := take.slot
    let t := { s with exchange :=
      { s.exchange with takes := s.exchange.takes.filter (·.request.tag != tag) } }
    match r with
    | .busError => failTake k take.generation .versionRead noneWord t
    | .data bytes =>
      if directAllowed t k take.mode then
        let raw := rawVersion bytes
        let v := takeVersion raw
        let t := if v.nullBlock then
            raise (nullBlock k (t.story k).side.other raw.count (t.story k).storyId) t
          else t
        flip k take.generation v.address v.count t
      else t

/-! ### The key search (R66 to R69) -/

/-- A story waits for the searcher (R61, R66). -/
def needsSearcher (s : State) (k : Slot) : Bool :=
  s.exchangeOf k == .pending && (s.story k).mode == .now && s.rundown.order.contains k
    && liveAnchored s k

/-- The story the searcher serves: the lowest slot number (R66). -/
def searchCandidate (s : State) : Option Slot := (List.finRange 256).find? (needsSearcher s)

/-- The search of a story starts (R66). -/
def startSearch (k : Slot) (s : State) : State :=
  let channels := allChans.filter fun c => s.isLive c && anchoredIn s k c
  let members := channels.map fun c => (⟨c, (s.chan c).key, none, false⟩ : SearchMember)
  let sr : Searcher :=
    ⟨k, (s.story k).request, (s.story k).mode, .versionRead (versionRequest s k), members⟩
  let t := { s with
    exchange := { s.exchange with searcher := some sr }
    nextTag := s.nextTag + 1 }
  forEach channels (fun c t => t.modChan c fun ch => { ch with exchange := true }) t

/-- Every channel in the list has a match or an absent target (R67); so it is with an empty list. -/
def allFound (members : List SearchMember) : Bool :=
  members.all fun m => m.found.isSome || m.target.isNone

/-- What the search's end does to every channel in the list: S becomes 0 and EXCHANGE leaves. -/
def Channel.leaveSearch (ch : Channel) : Channel := { ch with speed := 0, exchange := false }

/-- The re-anchoring of one channel of the list at the search completion (R68). -/
def reanchorMember (k : Slot) (count : Nat) (m : SearchMember) (s : State) : State :=
  let old := s.chan m.channel
  if count = 0 then s
  else
    match m.found with
    | some j =>
      s.modChan m.channel fun ch => { ch with anchor := some ⟨k, j⟩, placed := true }
    | none =>
      let a : Anchor := ⟨k, min (anchorLine old.anchor) (count - 1)⟩
      raise (anchorMoved s m.channel .keyNotFound (some a))
        (s.modChan m.channel fun ch =>
          { ch with anchor := some a, fraction := 0, key := none, cue := false, placed := true })

/-- The channels in the list, in channel order. -/
def membersInOrder (members : List SearchMember) : List SearchMember :=
  allChans.filterMap fun c => members.find? (·.channel == c)

/-- The searcher becomes IDLE, with its channels released. -/
def endSearch (members : List SearchMember) (s : State) : State :=
  forEach (membersInOrder members) (fun m t => t.modChan m.channel Channel.leaveSearch)
    { s with exchange := { s.exchange with searcher := none } }

/-- The search completion (R68). -/
def completeSearch (sr : Searcher) (address : Addr) (count : Nat) (s : State) : State :=
  let t := flip sr.slot sr.generation address count s
  endSearch sr.members (forEach (membersInOrder sr.members) (reanchorMember sr.slot count) t)

/-- A failed search (R69). -/
def failSearch (sr : Searcher) (stage : FailedStage) (line : Word) (s : State) : State :=
  endSearch sr.members (failTake sr.slot sr.generation stage line s)

/-- The key read of index `i` of a version is issued, or the search completes (R67). -/
def continueSearch (sr : Searcher) (address : Addr) (count i : Nat) (s : State) : State :=
  if allFound sr.members || decide (count ≤ i) then completeSearch sr address count s
  else
    let request : Request := ⟨s.nextTag, address + BitVec.ofNat 64 (96 * i), 2⟩
    { s with
      exchange := { s.exchange with
        searcher := some { sr with phase := .keys request address count i false } }
      nextTag := s.nextTag + 1 }

/-- The version read of the search completes (R67). -/
def searchVersionRead (tag : Nat) (r : ReadResult) (s : State) : State :=
  match s.exchange.searcher with
  | none => s
  | some sr =>
    match sr.phase with
    | .keys _ _ _ _ _ => s
    | .versionRead request =>
      if request.tag = tag then
        match r with
        | .busError => failSearch sr .versionRead noneWord s
        | .data bytes =>
          let raw := rawVersion bytes
          let v := takeVersion raw
          let st := s.story sr.slot
          let t := if v.nullBlock then
              raise (nullBlock sr.slot st.side.other raw.count st.storyId) s
            else s
          continueSearch sr v.address v.count 0 t
      else s

/-- A key read at an index is compared with the target of every channel with no match yet that was in the list when
the read was issued (R67). -/
def SearchMember.compare (key : Key) (index : Nat) (m : SearchMember) : SearchMember :=
  if m.late then { m with late := false }
  else if m.found = none ∧ m.target = some key then { m with found := some index }
  else m

/-- A line key read of the search completes (R67, R69). -/
def keyRead (tag : Nat) (r : ReadResult) (s : State) : State :=
  match s.exchange.searcher with
  | none => s
  | some sr =>
    match sr.phase with
    | .versionRead _ => s
    | .keys request address count index setBack =>
      if request.tag = tag then
        match r with
        | .busError => failSearch sr .keyRead (natWord index) s
        | .data bytes =>
          let sr := { sr with members := sr.members.map (SearchMember.compare (half bytes 0) index) }
          continueSearch sr address count (if setBack then 0 else index + 1) s
      else s

/-! ### The rundown exchange (R73, R74) -/

/-- A rundown exchange is pending (R4). -/
def rundownPending (s : State) : Bool := s.rundown.request != s.rundown.done

/-- Where an order list stands in the Rundown header (R175). -/
def listOffset : Side → Nat
  | .a => 32
  | .b => 288

/-- Where the length of an order list stands in the Rundown header (R175). -/
def lengthOffset : Side → Nat
  | .a => 12
  | .b => 16

/-- A read of the rundown take is issued in the Rundown header. -/
def issueRundown (generation : Word) (list : Side) (reading : RundownRead) (offset length : Nat) (s : State) :
    State :=
  let (request, t) := newRequest (s.areaAddress s.area.header.rundown offset) length s
  { t with exchange := { t.exchange with rundown := some ⟨generation, list, reading, request⟩ } }

/-- The rundown take begins on the inactive list, with the read of its length (R73, R5 step 1). -/
def beginRundownTake (s : State) : State :=
  let list := s.rundown.selector.other
  issueRundown s.rundown.request list .length (lengthOffset list) 4 s

/-- The DUPLICATE_SLOT report of an order list take, when an occurrence was ignored (R5). -/
def raiseDuplicates (list : Side) (t : TakenList) (s : State) : State :=
  match t.first with
  | none => s
  | some (k, position) =>
    raise ⟨scriptSlot, .duplicateSlot, natWord list.code, natWord t.ignored, slotWord k,
      natWord position⟩ s

/-- The rundown form of ENTRY_READ_FAULT (R6, R171). -/
def rundownFault (list : Word) : Report := ⟨scriptSlot, .entryReadFault, 256, list, 0, 1⟩

/-- The list of the rundown take is taken (R74): it becomes the active order list, and the part-written fields are
written. -/
def takeRundown (take : RundownTake) (slots : List Byte) (s : State) : State :=
  let taken := takeList slots
  let t := { s with
    exchange := { s.exchange with rundown := none }
    rundown := { s.rundown with order := taken.kept, selector := take.list, done := take.generation } }
  issueWrite .rundownFields (t.areaAddress t.area.header.rundown 4)
    (wordBytes take.generation ++ wordBytes (natWord take.list.code))
    (some ⟨exchangeSlot, .exchangeDone, 256, natWord take.list.code, natWord taken.kept.length, 0⟩)
    (raiseDuplicates take.list taken t)

/-- A read of the rundown take brings its bytes (R5): after the length the slot numbers it counts are read, and after
them, or at a length of 0, the list is taken. -/
def rundownBytes (take : RundownTake) (bytes : List Byte) (s : State) : State :=
  match take.reading with
  | .slots => takeRundown take bytes s
  | .length =>
    match listLength (word bytes 0) with
    | 0 => takeRundown take [] s
    | n + 1 => issueRundown take.generation take.list .slots (listOffset take.list) (n + 1) s

/-- A read of the rundown take completes (R6, R74). A completion that brings another number of bytes than the read
asked for is none of it. -/
def rundownRead (tag : Nat) (r : ReadResult) (s : State) : State :=
  match s.exchange.rundown with
  | none => s
  | some take =>
    if take.request.tag = tag ∧ r.hasLength take.request.length then
      match r with
      | .busError =>
        raise (rundownFault (natWord take.list.code)) { s with exchange := { s.exchange with rundown := none } }
      | .data bytes => rundownBytes take bytes s
    else s

/-! ### The frame event, and abandoning (R61, R66, R72) -/

/-- R66: with the searcher and the rundown take IDLE, a pending rundown exchange, else a key search. -/
def serveSearcher (s : State) : State :=
  if s.exchange.searcher.isNone && s.exchange.rundown.isNone then
    if rundownPending s then beginRundownTake s
    else
      match searchCandidate s with
      | none => s
      | some k => startSearch k s
  else s

/-- What the Exchange Unit does at a frame event in RUNNING. -/
def exchangeFrame (s : State) : State :=
  forEach (List.finRange 256) examineStory (serveSearcher s)

/-- EXCHANGE leaves the hold set of every channel (R33). -/
def releaseExchange (s : State) : State :=
  { s with channels := s.channels.map fun ch => { ch with exchange := false } }

end Sys2Proof.Machine
end

