-- ==== Sys2Proof/Machine/Heads.lean ====
section
/-! DEFINITION. The heads (R132 to R138): the head state, the content of the window rows, the reading marker, and the
raster a head composes at a frame event. A raster is computed row by row from the shadows, the taken views, the
published positions and the Line Cache as they stand. -/

namespace Sys2Proof.Machine

/-! ### Head states (R133) -/

inductive HeadState | off | frozen | blanked | standby | live
  deriving DecidableEq, Repr

/-- The head state at a frame event: the first row of R133 that applies. -/
def headState (s : State) (h : HeadId) : HeadState :=
  let hs := s.headSet h
  let pub := (s.chan hs.channel).pub
  if !hs.enable then .off
  else if s.halted then .frozen
  else if (s.head h).blank then .blanked
  else if !s.running || pub.mode == .off || pub.anchor.isNone then .standby
  else .live

/-! ### Geometry (R134) -/

def HeadSettings.hasMarker (hs : HeadSettings) : Bool := hs.marker != .none

/-- The width of the marker cell, 0 when there is none. -/
def markerWidth (g : GlyphStore) (hs : HeadSettings) : Nat := if hs.hasMarker then g.width else 0

def rasterWidth (g : GlyphStore) (hs : HeadSettings) : Nat := markerWidth g hs + hs.columns * g.width

def rasterHeight (g : GlyphStore) (hs : HeadSettings) : Nat := hs.rows * g.height

/-- The smooth offset s of a fraction. -/
def smoothOffset (g : GlyphStore) (fraction : Nat) : Nat := fraction * g.height / 1024

/-- The raster row belongs to the reading row's fixed place. -/
def inReadingRow (g : GlyphStore) (hs : HeadSettings) (y : Nat) : Bool :=
  hs.readingRow * g.height ≤ y && y < hs.readingRow * g.height + g.height

/-! ### Window rows (R135) -/

inductive RowContent
  | blank
  | held
  | error
  | pending
  | text (r : LineRecord)
  deriving DecidableEq, Repr

/-- The content of the window row that shows a view row: the first case of R135 that applies. -/
def rowContent (v : List ViewEntry) (f : Fetch) (row : Int) : RowContent :=
  if row < 0 then .blank
  else
    match lineAtRow v row.toNat with
    | none => .blank
    | some (e, line) =>
      if !e.ready then .held
      else
        match f.lookup e.slot line with
        | none => .pending
        | some entry =>
          match entry.state with
          | .filling => .pending
          | .failed _ => .error
          | .resident r => if entry.malformed then .error else .text r

/-- The colour pair of a style. -/
def HeadSettings.pair (hs : HeadSettings) : Style → ColourPair
  | .normal => hs.normal
  | .emphasis => hs.emphasis
  | .direction => hs.direction
  | .slug => hs.slug

/-- The pixel of a glyph's image at row `y` and column `x` of the cell is a foreground pixel (R130). -/
def glyphBit (g : GlyphStore) (code : Byte) (x y : Nat) : Bool :=
  let byte := byteAt (g.images.get code.toFin) (y * ((g.width + 7) / 8) + x / 8)
  byte.getLsbD (7 - x % 8)

/-- The pixels of one cell of a text row. -/
def cellPixels (g : GlyphStore) (pair : ColourPair) (code : Byte) (y : Nat) : List Rgb :=
  (List.range g.width).map fun x => if glyphBit g code x y then pair.foreground else pair.background

/-- Pixel row `y` of a text row. -/
def textPixels (g : GlyphStore) (hs : HeadSettings) (r : LineRecord) (y : Nat) : List Rgb :=
  let pair := hs.pair r.style
  let n := min r.textLength hs.columns
  ((List.range n).flatMap fun k => cellPixels g pair (r.text.getD k 0) y)
    ++ List.replicate ((hs.columns - n) * g.width) pair.background

def grey : Rgb := ⟨128, 128, 128⟩
def red : Rgb := ⟨255, 0, 0⟩

/-- Pixel row `y` of a window row, across the text area. -/
def contentPixels (g : GlyphStore) (hs : HeadSettings) (y : Nat) : RowContent → List Rgb
  | .blank => List.replicate (hs.columns * g.width) hs.normal.background
  | .held => List.replicate (hs.columns * g.width) grey
  | .error => List.replicate (hs.columns * g.width) red
  | .pending => List.replicate (hs.columns * g.width)
      (if y = g.height / 2 then hs.normal.foreground else hs.normal.background)
  | .text r => textPixels g hs r y

/-! ### The reading marker (R136) -/

inductive MarkerForm | solid | outlined | barred
  deriving DecidableEq, Repr

def markerForm (h : HoldSet) : MarkerForm :=
  if h.freeze || h.exchange then .barred
  else if h.cue || h.boundary then .outlined
  else .solid

/-- Where a pixel of the marker cell lies: outside the shape, on its edge, in its two-pixel outline, in its interior,
or inside at a place where the outline's raster is open. -/
inductive MarkerPlace | outside | edge | outline | openOutline | interior
  deriving DecidableEq, Repr

/-- The BAR shape: a rectangle covering the whole cell. -/
def barPlace (w h x y : Nat) : MarkerPlace :=
  if x < 2 || w ≤ x + 2 || y < 2 || h ≤ y + 2 then .outline else .interior

/-- The pixel at (`x`, `y`) lies wholly farther than two pixels from a slanted edge of the ARROW triangle, where
`y` counts from that edge's corner of the cell. -/
def deepBelowEdge (w h x y : Nat) : Bool :=
  let d : Int := 2 * w * y - h * (x + 1)
  0 < d && decide (4 * (4 * w * w + h * h) < d.toNat * d.toNat)

/-- The ARROW shape: a triangle with its base along the left edge of the cell, as high as the cell, that points to the
right (R136). A pixel is wholly inside, wholly outside, or crossed by a slanted edge.
DESIGN CHOICE (notes/assumptions/41.md): the point lies in the middle of the right edge. Unsafe. -/
def arrowPlace (w h x y : Nat) : MarkerPlace :=
  let below := h - 1 - y
  if 2 * w * (y + 1) ≤ x * h || 2 * w * (below + 1) ≤ x * h then .outside
  else if !((x + 1) * h ≤ 2 * w * y && (x + 1) * h ≤ 2 * w * below) then .edge
  else if x < 2 then .outline
  else if deepBelowEdge w h x y && deepBelowEdge w h x below then .interior
  else .openOutline

/-- A row of the cell belongs to the band across the middle third of its height. -/
def inBand (h y : Nat) : Bool :=
  if h ≤ 3 * y && 3 * (y + 1) ≤ 2 * h then true
  else if 3 * (y + 1) ≤ h || 2 * h ≤ 3 * y then false
  else Config.bandEdgeRow h y

/-- A pixel of the marker cell is drawn in the marker's form. -/
def markerDrawn (form : MarkerForm) (place : MarkerPlace) (w h x y : Nat) : Bool :=
  match place with
  | .outside => false
  | .edge => Config.arrowEdgePixel w h x y
  | .outline => true
  | .openOutline =>
    match form with
    | .solid => true
    | .outlined => Config.arrowOutlinePixel w h x y
    | .barred => Config.arrowOutlinePixel w h x y || inBand h y
  | .interior =>
    match form with
    | .solid => true
    | .outlined => false
    | .barred => inBand h y

/-- Pixel row `y` of the marker cell. -/
def markerPixels (g : GlyphStore) (hs : HeadSettings) (holds : HoldSet) (y : Nat) : List Rgb :=
  (List.range g.width).map fun x =>
    let place := if hs.marker = .bar then barPlace g.width g.height x y else arrowPlace g.width g.height x y
    if markerDrawn (markerForm holds) place g.width g.height x y then hs.normal.foreground
    else hs.normal.background

/-- Raster row `y` of the column of the marker cell: empty when the marker is NONE. -/
def markerColumn (g : GlyphStore) (hs : HeadSettings) (holds : HoldSet) (y : Nat) : List Rgb :=
  if !hs.hasMarker then []
  else if inReadingRow g hs y then markerPixels g hs holds (y - hs.readingRow * g.height)
  else List.replicate g.width hs.normal.background

/-! ### Composition (R134, R137, R138) -/

/-- The raster whose rows `row` gives. -/
def rasterOf (g : GlyphStore) (hs : HeadSettings) (row : Nat → List Rgb) : Raster :=
  ⟨rasterWidth g hs, rasterHeight g hs, (List.range (rasterHeight g hs)).map row⟩

/-- Mirror and flip (R137). -/
def Raster.moved (mirror flip : Bool) (r : Raster) : Raster :=
  let rows := if mirror then r.rows.map List.reverse else r.rows
  { r with rows := if flip then rows.reverse else rows }

/-- Raster row `y` of the script window. -/
def windowRow (s : State) (hs : HeadSettings) (a y : Nat) : List Rgb :=
  let g := s.glyphs
  let ch := s.chan hs.channel
  let shifted := y + smoothOffset g ch.pub.fraction
  let row : Int := (a : Int) - hs.readingRow + (shifted / g.height : Nat)
  markerColumn g hs ch.pub.holds y
    ++ contentPixels g hs (shifted % g.height) (rowContent ch.view s.fetch row)

/-- The standby card (R133).
DESIGN CHOICE (notes/assumptions/50.md): its band goes across the whole raster, the marker cell included. Unsafe. -/
def standbyCard (g : GlyphStore) (hs : HeadSettings) : Raster :=
  rasterOf g hs fun y => List.replicate (rasterWidth g hs)
    (if inReadingRow g hs y then hs.normal.foreground else hs.normal.background)

/-- The script window of a LIVE head. A published anchor outside the view the channel took arises in no run; the
standby card stands for it. -/
def scriptWindow (s : State) (hs : HeadSettings) : Raster :=
  let ch := s.chan hs.channel
  match ch.pub.anchor.bind (viewRow ch.view) with
  | none => standbyCard s.glyphs hs
  | some a => rasterOf s.glyphs hs (windowRow s hs a)

/-- The raster a head composes at a frame event (R133).
DESIGN CHOICE (notes/assumptions/44.md): FROZEN repeats the last composed frame that the head holds, whatever it shows,
also for a head that has been OFF since it composed it. Unsafe. -/
def composedRaster (s : State) (h : HeadId) : Option Raster :=
  let hs := s.headSet h
  match headState s h with
  | .off => none
  | .frozen => some (s.head h).lastComposed
  | .blanked => some (Raster.black (rasterWidth s.glyphs hs) (rasterHeight s.glyphs hs))
  | .standby => some ((standbyCard s.glyphs hs).moved hs.mirror hs.flip)
  | .live => some ((scriptWindow s hs).moved hs.mirror hs.flip)

/-- A head after a frame event: the raster composed at the last one is sent, unless the head is OFF (R138). -/
def Head.compose (r : Option Raster) (h : Head) : Head :=
  match r with
  | none => { h with composed := none, output := none }
  | some raster => { h with lastComposed := raster, composed := some raster, output := h.composed }

/-- A head composes. -/
def composeHead (h : HeadId) (s : State) : State := s.modHead h (Head.compose (composedRaster s h))

/-- Every head composes, at every frame event. -/
def composeHeads (s : State) : State := forEach allHeads composeHead s

end Sys2Proof.Machine
end

