-- ==== Sys2Proof/Machine/Operands.lean ====
section
/-! DEFINITION. The operands the part takes in: the fields of the settings block (R174) with the treatment of each
(R158 steps 2 and 3), and the operands of the command slots (R160). -/

namespace Sys2Proof.Machine

/-! ### The treatment of a settings field (R158 step 2) -/

/-- What a settings field holds: a number with its bounds, one of `count` named values with its reset value, an on/off
value, a colour, or nothing that is read. The reading row has no kind of its own: its upper bound is the rows taken
(R132). -/
inductive FieldKind
  | number (lo hi : Int)
  | named (count reset : Nat)
  | onOff
  | colour
  | readingRow
  | unread
  deriving DecidableEq, Repr

/-- The fields of a scroll channel, by their place in its 28 (R21, R41, R110). -/
def channelField (k : Nat) : FieldKind :=
  if k = 0 then .named 3 0
  else if k = 1 then .number 0 3
  else if k = 2 then .number (-64) 64
  else if k = 3 then .number 64 16384
  else if k = 4 then .number 1 4096
  else if k = 5 then .number 1 64
  else if k = 6 then .number 16 1024
  else if k ≤ 23 then .number 0 16384
  else if k = 24 then .named 3 2
  else if k = 25 then .number 1 255
  else .unread

/-- The fields of a hand port, by their place in its 24 (R93). -/
def portField (k : Nat) : FieldKind :=
  if k = 0 then .named 4 0
  else if k = 1 then .number 0 3
  else if k = 2 then .named 2 0
  else if k ≤ 5 then .onOff
  else if k = 6 then .number 0 31
  else if k ≤ 9 then .named 10 0
  else if k = 10 then .number 0 4095
  else if k = 11 then .number 0 512
  else if k = 12 then .number 64 2048
  else if k = 13 then .onOff
  else if k = 14 then .number 2 255
  else if k = 15 then .named 2 0
  else if k = 16 then .number 16 4096
  else if k = 17 then .number 1 64
  else if k = 18 then .named 5 0
  else .unread

/-- The fields of a head, by their place in its 16 (R132). -/
def headField (k : Nat) : FieldKind :=
  if k = 0 then .onOff
  else if k = 1 then .number 0 3
  else if k = 2 then .number 8 32
  else if k = 3 then .readingRow
  else if k = 4 then .number 24 80
  else if k ≤ 6 then .onOff
  else if k = 7 then .named 3 0
  else .colour

/-- The kind of the settings field of an index (R174). -/
def fieldKind (i : Nat) : FieldKind :=
  if i < 112 then channelField (i % 28)
  else if i < 304 then portField ((i - 112) % 24)
  else if i = 304 then .named 5 1
  else if i = 305 then .named 2 0
  else if i < 320 then .unread
  else if i < 416 then headField ((i - 320) % 16)
  else if i < 420 then .number 0 3
  else if i < 424 then .named 2 0
  else if i < 440 then .named 7 0
  else if i < 445 then .onOff
  else .unread

/-- The word of a settings field in the block. -/
def fieldWord (block : List Byte) (i : Nat) : Word := word block (16 + 4 * i)

/-- The signed value of a settings field as written. -/
def fieldWritten (block : List Byte) (i : Nat) : Int := (fieldWord block i).toInt

/-- The value taken for a field that is written as `x`, where the kind does not depend on another field. -/
def FieldKind.take : FieldKind → Int → Int
  | .number lo hi, x => clampInt lo hi x
  | .named count reset, x => if 0 ≤ x ∧ x < count then x else reset
  | .onOff, x => if x = 0 then 0 else 1
  | .colour, x => x
  | .readingRow, x => x
  | .unread, x => x

/-- The rows taken for the head whose fields begin at `base`. -/
def rowsTaken (block : List Byte) (base : Nat) : Int :=
  (headField 2).take (fieldWritten block (base + 2))

/-- The value taken for a field (R158 step 2). The reading row of a head stands one index after its rows. -/
def fieldTaken (block : List Byte) (i : Nat) : Int :=
  match fieldKind i with
  | .readingRow => clampInt 0 (rowsTaken block (i - 3) - 1) (fieldWritten block i)
  | kind => kind.take (fieldWritten block i)

/-- A field counts as adjusted when it is clamped or substituted; on/off fields, colours and unread fields never do
(R158, R174). -/
def fieldAdjusted (block : List Byte) (i : Nat) : Bool :=
  match fieldKind i with
  | .number _ _ => fieldTaken block i != fieldWritten block i
  | .named _ _ => fieldTaken block i != fieldWritten block i
  | .readingRow => fieldTaken block i != fieldWritten block i
  | .onOff => false
  | .colour => false
  | .unread => false

/-! ### Named values (R183) -/

def channelModeOf (n : Nat) : ChannelMode := if n = 1 then .live else if n = 2 then .follow else .off
def authModeOf (n : Nat) : AuthMode := if n = 0 then .operator else if n = 1 then .presenter else .takeover
def portModeOf (n : Nat) : PortMode :=
  if n = 1 then .lever else if n = 2 then .wheel else if n = 3 then .keys else .off
def roleOf (n : Nat) : Role := if n = 1 then .operator else .presenter
def actionOf (n : Nat) : Action :=
  if n = 1 then .go else if n = 2 then .freezeHold else if n = 3 then .freezeToggle
  else if n = 4 then .reverseHold else if n = 5 then .storyNext else if n = 6 then .storyPrev
  else if n = 7 then .take else if n = 8 then .mark else if n = 9 then .zero else .none
def wheelFunctionOf (n : Nat) : WheelFunction := if n = 1 then .speed else .jog
def lampSelectOf (n : Nat) : LampSelect :=
  if n = 1 then .on else if n = 2 then .authority else if n = 3 then .hold else if n = 4 then .strobe else .off
def markSelectOf (n : Nat) : MarkSelect :=
  if n = 1 then .low else if n = 2 then .high else if n = 3 then .bit else if n = 4 then .bitInv
  else if n = 5 then .hold else if n = 6 then .strobe else .undriven
def groupModeOf (n : Nat) : GroupMode := if n = 1 then .span else .latch
def frameRateOf (n : Nat) : FrameRate :=
  if n = 0 then .fps24 else if n = 2 then .fps50 else if n = 3 then .fps5994 else if n = 4 then .fps60 else .fps25
def refSelectOf (n : Nat) : RefSelect := if n = 1 then .ref else .internal
def markerOf (n : Nat) : Marker := if n = 1 then .bar else if n = 2 then .none else .arrow

/-- A colour field: red in byte 0, green in byte 1, blue in byte 2 (R174). -/
def colourOf (w : Word) : Rgb := ⟨w.extractLsb' 0 8, w.extractLsb' 8 8, w.extractLsb' 16 8⟩

/-! ### The settings of a block -/

/-- The value taken for a field that is not negative. -/
def natTaken (block : List Byte) (i : Nat) : Nat := (fieldTaken block i).toNat

def onTaken (block : List Byte) (i : Nat) : Bool := fieldTaken block i != 0

def chanOf (n : Nat) : Chan := Fin.ofNat 4 n

/-- The mode of a channel before the FOLLOW check. -/
def modeWritten (block : List Byte) (c : Chan) : ChannelMode := channelModeOf (natTaken block (28 * c.val))

def leaderTaken (block : List Byte) (c : Chan) : Chan := chanOf (natTaken block (28 * c.val + 1))

/-- The FOLLOW check of R21 turns the channel to OFF. -/
def followFails (block : List Byte) (c : Chan) : Bool :=
  modeWritten block c == .follow
    && (leaderTaken block c == c || modeWritten block (leaderTaken block c) != .live)

/-- The settings of a channel (R21, R41, R110). -/
def channelTaken (block : List Byte) (c : Chan) : ChannelSettings :=
  let b := 28 * c.val
  { mode := if followFails block c then .off else modeWritten block c
    leader := leaderTaken block c
    offset := fieldTaken block (b + 2)
    vmax := natTaken block (b + 3)
    accel := natTaken block (b + 4)
    approach := natTaken block (b + 5)
    crawl := natTaken block (b + 6)
    curve := Bank.ofFn fun k => natTaken block (b + 7 + k.val)
    authMode := authModeOf (natTaken block (b + 24))
    releaseTime := natTaken block (b + 25) }

/-- The settings of a port (R93). -/
def portTaken (block : List Byte) (p : PortId) : PortSettings :=
  let b := 112 + 24 * p.val
  { mode := portModeOf (natTaken block b)
    channel := chanOf (natTaken block (b + 1))
    role := roleOf (natTaken block (b + 2))
    invert := ⟨onTaken block (b + 3), onTaken block (b + 4), onTaken block (b + 5)⟩
    debounce := natTaken block (b + 6)
    action := ⟨actionOf (natTaken block (b + 7)), actionOf (natTaken block (b + 8)),
      actionOf (natTaken block (b + 9))⟩
    center := natTaken block (b + 10)
    deadband := natTaken block (b + 11)
    span := natTaken block (b + 12)
    reverse := onTaken block (b + 13)
    lossLimit := natTaken block (b + 14)
    wheelFunction := wheelFunctionOf (natTaken block (b + 15))
    jogScale := natTaken block (b + 16)
    demandStep := natTaken block (b + 17)
    lampSelect := lampSelectOf (natTaken block (b + 18)) }

/-- A foreground and background field. -/
def pairTaken (block : List Byte) (i : Nat) : ColourPair :=
  ⟨colourOf (fieldWord block i), colourOf (fieldWord block (i + 1))⟩

/-- The settings of a head (R132). -/
def headTaken (block : List Byte) (h : HeadId) : HeadSettings :=
  let b := 320 + 16 * h.val
  { enable := onTaken block b
    channel := chanOf (natTaken block (b + 1))
    rows := natTaken block (b + 2)
    readingRow := natTaken block (b + 3)
    columns := natTaken block (b + 4)
    mirror := onTaken block (b + 5)
    flip := onTaken block (b + 6)
    marker := markerOf (natTaken block (b + 7))
    normal := pairTaken block (b + 8)
    emphasis := pairTaken block (b + 10)
    direction := pairTaken block (b + 12)
    slug := pairTaken block (b + 14) }

/-- The settings shadow that a take makes of a block (R158 steps 2 and 3). -/
def settingsOf (block : List Byte) : Settings where
  channels := Bank.ofFn (channelTaken block)
  ports := Bank.ofFn (portTaken block)
  frameRate := frameRateOf (natTaken block 304)
  refSelect := refSelectOf (natTaken block 305)
  heads := Bank.ofFn (headTaken block)
  groupChannel := Bank.ofFn fun g => chanOf (natTaken block (416 + g.val))
  groupMode := Bank.ofFn fun g => groupModeOf (natTaken block (420 + g.val))
  markSelect := Bank.ofFn fun m => markSelectOf (natTaken block (424 + m.val))
  enables := ⟨onTaken block 440, onTaken block 441, onTaken block 442, onTaken block 443, onTaken block 444⟩

/-- An index counts as adjusted: its field was adjusted, or it is the mode field of a channel that the FOLLOW check
turned to OFF (R21, R158). -/
def indexAdjusted (block : List Byte) (i : Nat) : Bool :=
  fieldAdjusted block i || allChans.any fun c => i == 28 * c.val && followFails block c

/-- The indices of the adjusted fields, lowest first. -/
def adjustedIndices (block : List Byte) : List Nat := (List.range 445).filter (indexAdjusted block)

/-- The settings generation of a block. -/
def blockGeneration (block : List Byte) : Word := word block 0

/-! ### Command operands (R160) -/

/-- A channel operand, when it lies in 0..3. -/
def channelOperand (w : Word) : Option Chan := if h : w.toNat < 4 then some ⟨w.toNat, h⟩ else none

/-- A head operand, when it lies in 0..5. -/
def headOperand (w : Word) : Option HeadId := if h : w.toNat < 6 then some ⟨w.toNat, h⟩ else none

/-- A story slot operand, when it lies in 0..255. -/
def storyOperand (w : Word) : Option Slot := if h : w.toNat < 256 then some ⟨w.toNat, h⟩ else none

/-- An on/off operand is off when 0 and on otherwise. -/
def onOperand (w : Word) : Bool := w != 0

/-- A signed operand clamped to `-bound..bound`, and whether that changed it. -/
def clampOperand (bound : Int) (w : Word) : Int × CommandResult :=
  let x := clampInt (-bound) bound w.toInt
  (x, if x = w.toInt then .ok else .clamped)

/-- The line index of a JUMP in a story of `count` lines (R35, R160). -/
def lineOperand (count : Nat) (w : Word) : Nat × CommandResult :=
  if w.toInt < 0 then (0, .clamped)
  else if count ≤ w.toNat then (count - 1, .clamped)
  else (w.toNat, .ok)

end Sys2Proof.Machine
end

