-- ==== Sys2Proof/Machine/Timebase.lean ====
section
/-! DEFINITION. The timebase (R122 to R129): nominal periods, windows, the free-running runs, lock and loss. The frame
event itself is in Machine/Frame.lean. -/

namespace Sys2Proof.Machine

/-! ### Periods and windows (R124, R126) -/

/-- Three times the nominal period in capture counts: every nominal period is a whole number of thirds (R124). -/
def nominalThirds : FrameRate → Nat
  | .fps24 => 125000
  | .fps25 => 120000
  | .fps50 => 60000
  | .fps5994 => 50050
  | .fps60 => 50000

/-- The first count at or after the `n`-th multiple of the nominal period. -/
def multipleCount (rate : FrameRate) (n : Nat) : Nat := (n * nominalThirds rate + 2) / 3

/-- The length of the period of index `i` in a run of free-running periods. -/
def freePeriod (rate : FrameRate) (i : Nat) : Nat := multipleCount rate (i + 1) - multipleCount rate i

/-- The lowest and highest accepted length of a REF period (R126). -/
def refWindow : FrameRate → Nat × Nat
  | .fps24 => (40834, 42500)
  | .fps25 => (39200, 40800)
  | .fps50 => (19600, 20400)
  | .fps5994 => (16350, 17017)
  | .fps60 => (16334, 17000)

/-- A length lies within the window of a rate, both bounds included. -/
def inWindow (rate : FrameRate) (n : Nat) : Bool :=
  (refWindow rate).1 ≤ n && n ≤ (refWindow rate).2

/-! ### The free-running run (R124) -/

/-- A run of free-running periods begins with the period in progress. -/
def Timebase.beginRun (rate : FrameRate) (t : Timebase) : Timebase :=
  { t with runRate := rate, runIndex := 0, periodLength := freePeriod rate 0 }

/-- The next free-running period begins: of the run in progress, or of a new run when the rate has changed (R124).
DESIGN CHOICE (notes/assumptions/42.md): the rates are compared at the end of the period alone, so a rate changed and
changed back within one period goes on with the old run. Unsafe. -/
def Timebase.nextFree (rate : FrameRate) (t : Timebase) : Timebase :=
  if t.runRate = rate then
    { t with runIndex := t.runIndex + 1, periodLength := freePeriod rate (t.runIndex + 1) }
  else t.beginRun rate

/-- The period in progress begins now. -/
def Timebase.beginPeriod (t : Timebase) : Timebase := { t with periodStart := t.captureCount }

/-! ### Lock and loss (R126, R127) -/

/-- The counts since the last measured edge on REF. -/
def Timebase.refInterval (t : Timebase) : Option Nat :=
  t.lastEdge.map fun e => (t.captureCount - e).toNat

/-- An edge on REF measured in FREE (R126). -/
def Timebase.measure (rate : FrameRate) (t : Timebase) : Timebase :=
  match t.refInterval with
  | none => { t with lastEdge := some t.captureCount, qualifyingRun := 0 }
  | some n =>
    { t with
      lastEdge := some t.captureCount
      lastPeriod := n
      qualifyingRun := if inWindow rate n then min (t.qualifyingRun + 1) 8 else 0 }

/-- The timebase enters LOCKED (R126). -/
def Timebase.enterLocked (t : Timebase) : Timebase :=
  { t with lock := .locked, missed := 0, lockedFrames := 0 }

/-- The timebase enters FREE (R127). -/
def Timebase.enterFree (rate : FrameRate) (t : Timebase) : Timebase :=
  { t with lock := .free, qualifyingRun := 0, lastEdge := none, announceLock := false } |>.beginRun rate

/-- A frame event in LOCKED is counted (R127). -/
def Timebase.countLocked (t : Timebase) : Timebase :=
  { t with lockedFrames := min (t.lockedFrames + 1) 65535 }

/-- The counts since the frame event that began the period in progress. -/
def Timebase.elapsed (t : Timebase) : Nat := (t.captureCount - t.periodStart).toNat

/-- An edge within the window of a LOCKED period (R127). -/
def Timebase.acceptEdge (t : Timebase) : Timebase :=
  { t with missed := 0, lastPeriod := t.elapsed, lastEdge := some t.captureCount } |>.countLocked

/-- The frame rate in force. -/
def State.rate (s : State) : FrameRate := s.settings.frameRate

def State.modTimebase (s : State) (f : Timebase → Timebase) : State := { s with timebase := f s.timebase }

/-- The REF_LOCKED report (R129): `announced` is 1 at the first frame event in RUNNING. -/
def refLockedReport (s : State) (announced : Word) : Report :=
  ⟨timingSlot, .refLocked, natWord s.rate.code, natWord s.timebase.lastPeriod,
    natWord s.timebase.qualifyingRun, announced⟩

/-- Why the timebase left LOCKED. -/
inductive RefLossCause | missed | settings
  deriving DecidableEq, Repr

def RefLossCause.code : RefLossCause → Nat
  | .missed => 1 | .settings => 2

/-- The REF_LOST report (R129), from the timebase as it stands at the loss. -/
def refLostReport (s : State) (cause : RefLossCause) : Report :=
  ⟨timingSlot, .refLost, natWord cause.code, natWord s.timebase.lockedFrames,
    natWord s.timebase.lastPeriod, natWord s.rate.code⟩

/-- An edge on REF now would bring the qualifying run to 8 (R126). -/
def wouldLock (s : State) : Bool :=
  s.timebase.lock == .free && s.settings.refSelect == .ref && (s.timebase.measure s.rate).qualifyingRun == 8

/-- The close of the window now would bring the missed count to 2 (R127). -/
def wouldLose (s : State) : Bool := s.timebase.lock == .locked && decide (2 ≤ s.timebase.missed + 1)

/-! ### A settings take (R126, R127) -/

/-- What a settings take does to the timebase, given the frame rate and reference select before it. -/
def timebaseTake (rate : FrameRate) (select : RefSelect) (s : State) : State :=
  if s.rate = rate ∧ s.settings.refSelect = select then s
  else if s.timebase.lock = .locked then
    raiseRunning (refLostReport s .settings) (s.modTimebase (Timebase.enterFree s.rate))
  else s.modTimebase fun t => { t with qualifyingRun := 0, lastEdge := none }

end Sys2Proof.Machine
end

