-- ==== Sys2Proof/Machine/Settings.lean ====
section
/-! DEFINITION. The settings take (R158): the shadow replaced as a whole, and what the blocks do about the changes
(R22, R96, R117, R120, R126, R127, R143, R168). -/

namespace Sys2Proof.Machine

/-! ### Holders (R117) -/

/-- A take changes a port's mode or channel, so that it takes its initial state (R96). -/
def portRestarts (old new : PortSettings) : Bool := old.mode != new.mode || old.channel != new.channel

/-- A take releases the channel that a port held before it, when it changes the port's mode, channel or role. -/
def releaseForPort (old : Settings) (p : PortId) (s : State) : State :=
  let was := old.ports.get p
  let now := s.portSet p
  if (portRestarts was now || was.role != now.role) && (s.auth was.channel).holder == some (.port p) then
    releaseHolder was.channel .portSettings s
  else s

/-- The holder of a channel has a role that the channel's authority mode does not admit. -/
def holderNotAdmitted (s : State) (c : Chan) : Bool :=
  (s.auth c).holder.any fun h => !(s.chanSet c).authMode.admits (sourceRole s h)

/-- A take that changes a channel's authority mode (R117). -/
def releaseForAuthority (old : Settings) (c : Chan) (s : State) : State :=
  if (old.channels.get c).authMode != (s.chanSet c).authMode && holderNotAdmitted s c then
    releaseHolder c .authoritySettings s
  else s

/-- A take changes a channel's mode, or the leader or offset of a FOLLOW channel (R22). -/
def channelChanges (old new : ChannelSettings) : Bool :=
  old.mode != new.mode || (new.mode == .follow && (old.leader != new.leader || old.offset != new.offset))

/-- A take that changes a channel's mode, leader or offset (R117). -/
def releaseForMode (old : Settings) (c : Chan) (s : State) : State :=
  if channelChanges (old.channels.get c) (s.chanSet c) then releaseHolder c .channelMode s else s

/-- The console demand and jog become 0 at a change of the channel's mode or authority mode (R120). -/
def clearConsole (old : Settings) (c : Chan) (s : State) : State :=
  if (old.channels.get c).mode != (s.chanSet c).mode || (old.channels.get c).authMode != (s.chanSet c).authMode then
    s.modAuth c fun a => { a with consoleDemand := 0, consoleJog := 0 }
  else s

/-- Everything a take does in the Authority Arbiter. -/
def authorityTake (old : Settings) (s : State) : State :=
  forEach allChans (clearConsole old)
    (forEach allChans (releaseForMode old)
      (forEach allChans (releaseForAuthority old)
        (forEach allPorts (releaseForPort old) s)))

/-! ### Scroll channels (R22) -/

/-- What every mode change does: S 0, the hold set and the pressed-line set empty, the latch off, the starve flag
clear. -/
def Channel.restart (ch : Channel) : Channel :=
  { ch with
    speed := 0, cue := false, boundary := false, exchange := false, latch := false,
    pressed := Bank.fill 8 (Trio.fill false), starve := false }

/-- What a mode change that places the channel anew also does: anchor NONE, END clear, former view empty. -/
def Channel.vacate (ch : Channel) : Channel :=
  { ch.restart with anchor := none, fraction := 0, key := none, atEnd := false, view := [] }

/-- The items of a channel at a change of its mode from `old` to `new` (R22). -/
def Channel.changeMode (old new : ChannelMode) (ch : Channel) : Channel :=
  match old, new with
  | .off, .live => ch.vacate
  | .off, .off => ch
  | .live, .live => ch
  | .follow, .follow => ch
  | _, .off => { ch.vacate with demand := 0, starveCount := 0 }
  | .off, .follow => { ch.vacate with demand := 0, starveCount := 0 }
  | .live, .follow => ch.restart
  | .follow, .live => ch.restart

/-- A channel leaves the list of the key search (R33, R70). -/
def leaveSearchList (c : Chan) (s : State) : State :=
  { s with exchange := { s.exchange with
      searcher := s.exchange.searcher.map fun sr =>
        { sr with members := sr.members.filter fun m => m.channel != c } } }

/-- What a take does to one channel: the table of R22, the list of the key search, and the Placed item (R140). A
channel that becomes LIVE with its anchor in the searched story joins the search (R33). -/
def channelTake (old : Settings) (c : Chan) (s : State) : State :=
  let was := old.channels.get c
  let now := s.chanSet c
  if channelChanges was now then
    let t := s.modChan c fun ch => { ch.changeMode was.mode now.mode with placed := true }
    if now.mode = .live then joinSearch c t else leaveSearchList c t
  else s

/-! ### Hand ports (R96) -/

/-- The initial state of a port's mode (R96). -/
def Port.restart (mode : PortMode) (q : Port) : Port :=
  let q := { q with reverseSet := Trio.fill false, take := false, jump := none }
  match mode with
  | .off => { Port.reset with lostCount := q.lostCount, errorCount := q.errorCount }
  | .lever =>
    { q with
      phase := .acquiring, periodStart := none, highTime := none, validRun := 0, invalidRun := 0,
      edgeAge := 0, timeLost := 0, value := 0, buttons := Trio.fill .reset }
  | .wheel =>
    { q with phase := .active, quad := none, jog := 0, standing := 0, buttons := q.buttons.set .c .reset }
  | .keys => { q with phase := .active, buttons := Trio.fill .reset }

/-- Every line of a port is removed from a channel's pressed-line set. -/
def unpressPort (c : Chan) (p : PortId) (s : State) : State :=
  s.modChan c fun ch => { ch with pressed := ch.pressed.set p (Trio.fill false) }

/-- A change of polarity or of the action of a button line resets the line (R96). -/
def lineTake (was now : PortSettings) (p : PortId) (l : LineId) (s : State) : State :=
  if isButton now.mode l && (was.invert.get l != now.invert.get l || was.action.get l != now.action.get l) then
    setPressed now.channel p l false
      (s.modPort p fun q =>
        { q with buttons := q.buttons.set l .reset, reverseSet := q.reverseSet.set l false })
  else s

/-- What the other changes of a port's settings do at a take that leaves its mode and channel as they were (R96). -/
def Port.adjust (was now : PortSettings) (q : Port) : Port :=
  let invertA := was.invert.a != now.invert.a
  let invertB := was.invert.b != now.invert.b
  let q := if now.mode == .lever && invertA then { q with periodStart := none, highTime := none } else q
  let q := if now.mode == .wheel && (invertA || invertB) then { q with quad := none } else q
  if was.wheelFunction != now.wheelFunction then { q with jog := 0, standing := 0 } else q

/-- What a take does to one port (R96), and to its arm flag (R115). -/
def portTake (old : Settings) (p : PortId) (s : State) : State :=
  let was := old.ports.get p
  let now := s.portSet p
  if portRestarts was now then
    (unpressPort was.channel p (s.modPort p (Port.restart now.mode))).setArmed p false
  else
    let t := forEach allLines (lineTake was now p) (s.modPort p (Port.adjust was now))
    if was.role != now.role then t.setArmed p false else t

/-! ### Lamps (R143, R147) -/

/-- A group whose channel or mode is changed by a take (R143). -/
def groupTake (old : Settings) (g : GroupId) (s : State) : State :=
  if old.groupChannel.get g != s.settings.groupChannel.get g
      || old.groupMode.get g != s.settings.groupMode.get g then
    { s with lamps := { s.lamps with pattern := s.lamps.pattern.set g 0 } }
  else s

/-- What a take does to the Lamp Unit: the groups it changes, and the port lamps driven from now on. -/
def lampsTake (old : Settings) (s : State) : State :=
  let t := forEach (List.finRange 4) (groupTake old) s
  { t with lamps := { t.lamps with driven := true } }

/-! ### Reports (R168) -/

/-- Each class left enabled that stands in the postponed set has its IRQ_CAUSE bit set and leaves the set. -/
def releasePostponed (s : State) : State :=
  let r := s.reports
  let freed := r.postponed.zip (· && ·) s.settings.enables
  { s with reports := { r with
      causes := r.causes.zip (· || ·) freed
      postponed := r.postponed.zip (fun x e => x && !e) s.settings.enables } }

/-! ### The take (R158) -/

/-- Step 5: the shadow is replaced as a whole, and the blocks act on the changes.
DESIGN CHOICE (notes/assumptions/27.md): the arbiter's releases first, then the channels, lowest first, then the ports,
lowest first. So a channel that joins the key search still finds the match of a higher channel that leaves it at the
same take, and not that of a lower one. Unsafe. -/
def applySettings (new : Settings) (s : State) : State :=
  let old := s.settings
  let s := { s with settings := new }
  let s := authorityTake old s
  let s := forEach allChans (channelTake old) s
  let s := forEach allPorts (portTake old) s
  let s := timebaseTake old.frameRate old.refSelect s
  releasePostponed (lampsTake old s)

/-- The SETTINGS_TAKEN report (R162). -/
def settingsTakenReport (block : List Byte) (inStart : Bool) : Report :=
  let adjusted := adjustedIndices block
  ⟨settingsSlot, .settingsTaken, blockGeneration block, natWord adjusted.length,
    match adjusted with
    | [] => noneWord
    | i :: _ => natWord i,
    boolWord inStart⟩

/-- Step 6: the write of the taken generation and the SETTINGS_TAKEN report. -/
def answerTake (block : List Byte) (inStart : Bool) (s : State) : State :=
  raise (settingsTakenReport block inStart)
    (issueWrite .takenGeneration (s.areaAddress s.area.header.settings 4)
      (wordBytes (blockGeneration block)) none s)

/-- A settings take of a block (R158). -/
def settingsTake (block : List Byte) (inStart : Bool) (s : State) : State :=
  let s := { s with area := { s.area with takenGeneration := blockGeneration block } }
  answerTake block inStart (applySettings (settingsOf block) s)

end Sys2Proof.Machine
end

