-- ==== Sys2Proof/Machine/Engine.lean ====
section
/-! DEFINITION. The engine states (R151): resets, the beginning of a start, stop and halt, and the writes to the
register window (R149, R150, R182). -/

namespace Sys2Proof.Machine

/-! ### Halt (R154) -/

/-- A post in phase READ is abandoned at a halt; one in phase WRITE goes on (R167). -/
def PostInProgress.atHalt (p : PostInProgress) : Option PostInProgress :=
  match p.phase with
  | .read _ => none
  | .write _ _ _ => some p

/-- The engine enters HALTED with a cause; in HALTED a further fault changes nothing (R151, R154). The channels keep
every item of their state (R72). -/
def halt (cause : HaltCause) (s : State) : State :=
  if s.halted then s
  else { s with
    area := { s.area with engine := .halted, haltCause := cause, start := none, scan := none }
    exchange := .idle
    fetch := s.fetch.abandon
    reports := { s.reports with
      halt := true
      current := s.reports.current.bind PostInProgress.atHalt } }

/-! ### Writes in flight (R65, R74, R158, R159, R161) -/

/-- A write completes: a bus error halts the engine, and otherwise the write's report is raised. A write that the part
does not have in flight was issued before a reset, and its completion is ignored (R155). -/
def writeDone (tag : Nat) (mine : WriteTarget → Bool) (r : WriteResult) (s : State) : State :=
  match completedWrite tag mine s with
  | none => s
  | some w =>
    match r with
    | .busError => halt .statusWriteFault (dropWrite tag s)
    | .written =>
      match w.report with
      | none => dropWrite tag s
      | some report => raise report (dropWrite tag s)

/-! ### Stop (R153) -/

/-- A channel at a stop (R23).
DESIGN CHOICE (notes/assumptions/52.md): the Placed item of its next crossing record stands across the stop (R140,
R148). Unsafe. -/
def Channel.stopped (ch : Channel) : Channel :=
  { ch with speed := 0, demand := 0, starve := false, exchange := false }

/-- A stop is taken: the engine becomes STOPPED and the blocks drop their work (R23, R72, R90, R95, R111). -/
def stop (s : State) : State :=
  { s with
    area := { s.area with engine := .stopped, start := none, scan := none }
    exchange := .idle
    fetch := s.fetch.stopped
    channels := s.channels.map Channel.stopped
    ports := s.ports.map Port.handedOn
    authority := Bank.fill 4 .reset }

/-! ### Start (R152) -/

/-- The effects at the beginning of the start sequence (R23, R90, R125). -/
def startEffects (s : State) : State :=
  { s with
    area := { s.area with engine := .starting }
    timebase := { s.timebase with frameCounter := 0 }
    fetch := s.fetch.started
    channels := s.channels.map fun ch => { ch with key := none } }

/-- The start sequence reaches a step whose single read is issued. -/
def issueStart (step : Request → StartStep) (address : Addr) (length : Nat) (s : State) : State :=
  let (request, t) := newRequest address length s
  { t with area := { t.area with start := some (step request) } }

/-- The start sequence begins; with the Area base 0 it ends at once. -/
def beginStart (s : State) : State :=
  let t := startEffects s
  if s.area.base = 0 then halt .badArea t else issueStart .header s.area.base 48 t

/-! ### Frame scans (R156) -/

/-- The reads of the 256 story entries (R176), in slot order. -/
def State.entryReads (s : State) : List Extent := (List.finRange 256).map fun k => ⟨s.entryAddress k 0, 64⟩

/-- The reads of the four command slots (R178), in slot order. -/
def State.commandReads (s : State) : List Extent :=
  (List.finRange 4).map fun n => ⟨s.areaAddress s.area.header.commands (32 * n.val), 32⟩

/-- The reads of the full take (R152 step 4): the Rundown header, the story entries and the command slots. -/
def State.fullTakeReads (s : State) : List Extent :=
  ⟨s.areaAddress s.area.header.rundown 0, 544⟩ :: s.entryReads ++ s.commandReads

/-- The reads every ordinary scan makes (R156): the rundown request generation, the story entries, the settings
generation and the command slots. -/
def State.scanReads (s : State) : List Extent :=
  ⟨s.areaAddress s.area.header.rundown 0, 4⟩ :: s.entryReads
    ++ ⟨s.areaAddress s.area.header.settings 0, 4⟩ :: s.commandReads

/-- A frame scan begins. -/
def beginScan (origin : ScanOrigin) (s : State) : State :=
  { s with
    area := { s.area with
      scan := some ⟨origin, 0, ⟨s.nextTag, s.scanReads⟩, ⟨s.areaAddress s.area.header.settings 0, 1796⟩⟩ }
    nextTag := s.nextTag + 1 }

/-! ### Resets (R155) -/

/-- A reset: every block at its reset value, with the Area base given. The capture count goes on (R123), and a
free-running period begins (R122). The queue of waiting commands and the names of accesses are the model's own. -/
def resetWith (lo hi : Word) (s : State) : State :=
  { State.reset with
    area := { Area.reset with areaLo := lo, areaHi := hi }
    timebase := { Timebase.reset with
      captureCount := s.timebase.captureCount
      periodStart := s.timebase.captureCount }
    nextTag := s.nextTag
    pending := s.pending }

def powerOnReset (s : State) : State := resetWith 0 0 s

/-- A soft reset keeps AREA_LO and AREA_HI. -/
def softReset (s : State) : State := resetWith s.area.areaLo s.area.areaHi s

/-! ### The register window (R149, R150, R182) -/

/-- RUN, by engine state (R150). -/
def runWrite (run : Bool) (s : State) : State :=
  match s.engine, run with
  | .stopped, true => beginStart s
  | .stopped, false => s
  | .starting, true => s
  | .starting, false => stop s
  | .running, true => s
  | .running, false => stop s
  | .halted, _ => s

/-- LOOK_NOW, taken after RUN. -/
def lookNowWrite (s : State) : State :=
  if s.running && s.area.scan.isNone then beginScan .lookNow s else s

/-- A write to ENGINE_CTL (R150). -/
def engineCtlWrite (run reset look : Bool) (s : State) : State :=
  if reset then softReset s
  else if look then lookNowWrite (runWrite run s)
  else runWrite run s

/-- A write to IRQ_CAUSE clears each bit written as 1 (R169). -/
def irqCauseClear (w : Word) (s : State) : State :=
  let written : ClassFlags :=
    ⟨w.getLsbD 0, w.getLsbD 1, w.getLsbD 2, w.getLsbD 3, w.getLsbD 4⟩
  { s with reports := { s.reports with
      causes := s.reports.causes.zip (fun x c => x && !c) written
      halt := s.reports.halt && !w.getLsbD 5 } }

/-- A write to AREA_LO: bits 11..0 are ignored, and it is taken in STOPPED (R149). -/
def areaLoTake (w : Word) (s : State) : State :=
  if s.engine = .stopped then { s with area := { s.area with areaLo := w &&& 0xFFFFF000 } } else s

/-- A write to AREA_HI, taken in STOPPED (R149). -/
def areaHiTake (w : Word) (s : State) : State :=
  if s.engine = .stopped then { s with area := { s.area with areaHi := w } } else s

/-- A write of `size` bytes to the register window at `offset` (R182): one that is not one aligned 32-bit word, and one
to a register that takes no write, is ignored. -/
def registerWrite (offset size : Nat) (w : Word) (s : State) : State :=
  if size = 4 ∧ offset = 0x04 then areaLoTake w s
  else if size = 4 ∧ offset = 0x08 then areaHiTake w s
  else if size = 4 ∧ offset = 0x0C then
    engineCtlWrite (w.getLsbD 0) (w.getLsbD 1) (w.getLsbD 2) s
  else if size = 4 ∧ offset = 0x14 then irqCauseClear w s
  else s

/-- POWER_ON_RESET (R155). -/
def execPowerOnReset (s : State) : Host.Outcome State Fault Refusal := .next (powerOnReset s)

/-- START_SEQUENCE (R150, R152): ENGINE_CTL with RUN 1 and SOFT_RESET 0. -/
def execStartSequence (lookNow : Bool) (s : State) : Host.Outcome State Fault Refusal :=
  .next (engineCtlWrite true false lookNow s)

/-- STOP (R150, R153): ENGINE_CTL with RUN 0 and SOFT_RESET 0. -/
def execStop (lookNow : Bool) (s : State) : Host.Outcome State Fault Refusal :=
  .next (engineCtlWrite false false lookNow s)

/-- SOFT_RESET (R150, R155): ENGINE_CTL with SOFT_RESET 1. -/
def execSoftReset (run lookNow : Bool) (s : State) : Host.Outcome State Fault Refusal :=
  .next (engineCtlWrite run true lookNow s)

/-- LOOK_NOW (R150): ENGINE_CTL with LOOK_NOW 1 and SOFT_RESET 0. -/
def execLookNow (run : Bool) (s : State) : Host.Outcome State Fault Refusal :=
  .next (engineCtlWrite run false true s)

/-- AREA_LO_WRITE (R149). -/
def execAreaLoWrite (value : Word) (s : State) : Host.Outcome State Fault Refusal := .next (areaLoTake value s)

/-- AREA_HI_WRITE (R149). -/
def execAreaHiWrite (value : Word) (s : State) : Host.Outcome State Fault Refusal := .next (areaHiTake value s)

/-- IRQ_CAUSE_WRITE (R169). -/
def execIrqCauseWrite (value : Word) (s : State) : Host.Outcome State Fault Refusal :=
  .next (irqCauseClear value s)

/-- REGISTER_WRITE_IGNORED (R182). -/
def execRegisterWriteIgnored (offset size : Nat) (value : Word) (s : State) :
    Host.Outcome State Fault Refusal := .next (registerWrite offset size value s)

end Sys2Proof.Machine
end

