-- ==== Sys2Proof/Machine/Start.lean ====
section
/-! DEFINITION. The start sequence (R152): the Area header, the glyph store (R130, R131), the settings, and the full
take (R2). A completion of a read that the sequence does not have in flight was issued before a stop, a halt or a reset,
and is discarded (R153 to R155). -/

namespace Sys2Proof.Machine

/-! ### Step 1: the Area header -/

/-- The header copy and the base in force are replaced, and the load of the glyph store begins (R130, R131).
DESIGN CHOICE (notes/assumptions/46.md): the head of the glyph table is one read of its 16 bytes, the bytes marked not
read among them. Unsafe. -/
def adoptHeader (bytes : List Byte) (s : State) : State :=
  let h := headerCopy bytes
  issueStart .glyphHead h.glyphTable 16
    { s with area := { s.area with header := h, baseInForce := s.area.base } }

def headerDone (tag : Nat) (bytes : List Byte) (s : State) : State :=
  match s.area.start with
  | some (.header request) =>
    if request.tag = tag then
      if headerGood bytes then adoptHeader bytes s else halt .badArea s
    else s
  | _ => s

/-! ### Step 2: the glyph store (R130, R131) -/

def clampNat (lo hi n : Nat) : Nat := max lo (min hi n)

/-- The bytes of one image of the clamped geometry. -/
def GlyphStore.imageBytes (g : GlyphStore) : Nat := g.height * ((g.width + 7) / 8)

/-- The cell size is taken into the store. -/
def GlyphStore.takeHead (bytes : List Byte) (g : GlyphStore) : GlyphStore :=
  { g with
    width := clampNat 12 48 (half bytes 0).toNat
    height := clampNat 20 96 (half bytes 2).toNat }

/-- The reads of the 256 images, in code order, the first of them named `tag`. -/
def imageReads (table : Addr) (size tag : Nat) : List (Request × Fin 256) :=
  (List.finRange 256).map fun k =>
    (⟨tag + k.val, table + BitVec.ofNat 64 (16 + size * k.val), size⟩, k)

def glyphHeadDone (bytes : List Byte) (s : State) : State :=
  let g := s.glyphs.takeHead bytes
  { s with
    glyphs := g
    area := { s.area with
      start := some (.glyphImages (imageReads s.area.header.glyphTable g.imageBytes s.nextTag)) }
    nextTag := s.nextTag + 256 }

/-- The load is complete: the settings block is read (step 3). -/
def issueSettings (s : State) : State :=
  issueStart .settings (s.areaAddress s.area.header.settings 0) 1796 s

/-- An image enters the store as its read completes, and the last of them ends the load. -/
def glyphImageDone (reads : List (Request × Fin 256)) (tag : Nat) (bytes : List Byte) (s : State) : State :=
  match reads.find? (·.1.tag == tag) with
  | none => s
  | some (_, k) =>
    let t := { s with glyphs := { s.glyphs with images := s.glyphs.images.set k bytes } }
    match reads.filter (·.1.tag != tag) with
    | [] => issueSettings t
    | rest => { t with area := { t.area with start := some (.glyphImages rest) } }

def glyphReadDone (tag : Nat) (bytes : List Byte) (s : State) : State :=
  match s.area.start with
  | some (.glyphHead request) => if request.tag = tag then glyphHeadDone bytes s else s
  | some (.glyphImages reads) => glyphImageDone reads tag bytes s
  | _ => s

/-! ### Step 3: the settings -/

/-- The reads of the full take are issued (step 4). -/
def beginFullTake (s : State) : State :=
  { s with
    area := { s.area with start := some (.fullTake ⟨s.nextTag, s.fullTakeReads⟩) }
    nextTag := s.nextTag + 1 }

/-- The settings take of a start, and the reads of the full take begin. -/
def startSettingsDone (tag : Nat) (bytes : List Byte) (s : State) : State :=
  match s.area.start with
  | some (.settings request) =>
    if request.tag = tag then
      let t := settingsTake bytes true s
      beginFullTake t
    else s
  | _ => s

/-! ### Step 4: the full take (R2) -/

/-- The entry read for a story slot. -/
def entryRead (d : FullTakeData) (k : Slot) : List Byte := d.entries.getD k.val []

/-- The NULL_BLOCK report of a story the full take adopts (R9). -/
def raiseAdopted (d : FullTakeData) (k : Slot) (s : State) : State :=
  let a := adoptedStory (entryRead d k)
  if a.2.nullBlock then
    raise (nullBlock k a.1.side (rawVersion (versionBytes (entryRead d k) a.1.side)).count a.1.storyId) s
  else s

/-- The story shadow is replaced from the entries as read. -/
def adoptStories (d : FullTakeData) (s : State) : State :=
  forEach (List.finRange 256) (raiseAdopted d)
    { s with stories := Bank.ofFn fun k => (adoptedStory (entryRead d k)).1 }

/-- The order list that a side names in the Rundown header (R175), as taken (R5). -/
def headerList (bytes : List Byte) : Side → TakenList
  | .a => takeList ((bytes.drop 32).take (listLength (word bytes 12)))
  | .b => takeList ((bytes.drop 288).take (listLength (word bytes 16)))

/-- The rundown shadow is replaced from the Rundown header as read. -/
def adoptRundown (bytes : List Byte) (s : State) : State :=
  let selector := selectorOf (word bytes 8)
  let taken := headerList bytes selector
  raiseDuplicates selector taken
    { s with rundown := ⟨taken.kept, selector, word bytes 0, word bytes 4⟩ }

/-- A story's active side, address or count differs from the one held before the full take (R90). -/
def versionChanged (before after : Bank 256 Story) (k : Slot) : Bool :=
  let x := before.get k
  let y := after.get k
  x.side != y.side || x.address != y.address || x.count != y.count

/-- The STARTED report (R162). -/
def startedReport (s : State) : Report :=
  ⟨engineSlot, .started, 1, natWord s.glyphs.width, natWord s.glyphs.height, natWord s.rundown.order.length⟩

/-- The completion of the full take: the shadows, the done generations, the invalidation, RUNNING and STARTED. -/
def completeFullTake (d : FullTakeData) (s : State) : State :=
  let t := adoptRundown d.rundown (adoptStories d s)
  let t := { t with
    fetch := t.fetch.invalidate (versionChanged s.stories t.stories)
    area := { t.area with
      commandDone := Bank.ofFn fun n => commandDoneOf (d.slots.getD n.val [])
      engine := .running
      start := none }
    timebase := { t.timebase with announceLock := t.timebase.lock == .locked } }
  raise (startedReport t) t

def fullTakeDone (tag : Nat) (d : FullTakeData) (s : State) : State :=
  match s.area.start with
  | some (.fullTake group) => if group.tag = tag then completeFullTake d s else s
  | _ => s

/-! ### Bus errors -/

/-- A step has the read `tag` in flight. -/
def StartStep.awaits (tag : Nat) : StartStep → Bool
  | .header r => r.tag == tag
  | .glyphHead r => r.tag == tag
  | .glyphImages reads => reads.any (·.1.tag == tag)
  | .settings r => r.tag == tag
  | .fullTake r => r.tag == tag

/-- A bus error on a read of the start sequence (R152). -/
def startFault (tag : Nat) (s : State) : State :=
  if s.area.start.any (StartStep.awaits tag) then halt .areaReadFault s else s

/-! ### The commands -/

/-- AREA_HEADER_READ_DONE (R152 step 1). -/
def execAreaHeaderReadDone (tag : Nat) (bytes : List Byte) (s : State) : Host.Outcome State Fault Refusal :=
  .next (headerDone tag bytes s)

/-- GLYPH_STORE_LOAD_READ_DONE (R131). -/
def execGlyphStoreLoadReadDone (tag : Nat) (bytes : List Byte) (s : State) :
    Host.Outcome State Fault Refusal := .next (glyphReadDone tag bytes s)

/-- START_SETTINGS_READ_DONE (R152 step 3). -/
def execStartSettingsReadDone (tag : Nat) (bytes : List Byte) (s : State) :
    Host.Outcome State Fault Refusal := .next (startSettingsDone tag bytes s)

/-- START_READ_FAULT (R152). -/
def execStartReadFault (tag : Nat) (s : State) : Host.Outcome State Fault Refusal := .next (startFault tag s)

/-- FULL_TAKE (R2, R152 step 4). -/
def execFullTake (tag : Nat) (d : FullTakeData) (s : State) : Host.Outcome State Fault Refusal :=
  .next (fullTakeDone tag d s)

end Sys2Proof.Machine
end

