-- ==== Sys2Proof/Machine/Frame.lean ====
section
/-! DEFINITION. The frame event and what brings it about (R124 to R129): the channels, with the Fetch Unit's use of each
publication, the port status records, the heads, the Exchange Unit and the frame scan, in the order that
notes/assumptions/5.md states. -/

namespace Sys2Proof.Machine

/-! ### Port status records (R108, R181) -/

/-- The level shown for a line: UNSET for a line that is not a button. -/
def shownLevel (ps : PortSettings) (q : Port) (l : LineId) : Byte :=
  natByte (if isButton ps.mode l then (q.buttons.get l).level.code else ButtonLevel.unset.code)

/-- The flags of a Port Status record. -/
def portFlags (s : State) (p : PortId) : Nat :=
  let q := s.port p
  boolBit (validSample q.lastHigh q.lastPeriod) 1 + boolBit q.reversed 2 + boolBit (s.holds p) 4
    + boolBit (s.armed.get p) 8

/-- The bytes of a Port Status record, with the items the port handed on. -/
def portStatusBytes (s : State) (h : Handed) (p : PortId) : List Byte :=
  let ps := s.portSet p
  let q := s.port p
  wordBytes s.frame ++ wordBytes (intWord h.jog)
    ++ [natByte ps.mode.code, natByte q.phase.code, natByte ps.channel.val, natByte ps.role.code]
    ++ halfBytes (natHalf q.lastHigh) ++ halfBytes (natHalf q.lastPeriod)
    ++ halfBytes (natHalf q.position) ++ halfBytes (intHalf q.value)
    ++ halfBytes (intHalf h.demand) ++ halfBytes (intHalf q.standing)
    ++ halfBytes (natHalf q.errorCount) ++ halfBytes (natHalf q.lostCount)
    ++ [natByte q.edgeAge, shownLevel ps q .a, shownLevel ps q .b, shownLevel ps q .c,
        natByte (portFlags s p)]
    ++ zeros 7

/-- The Port Status record of a port is issued (R161). -/
def writePortStatus (handed : Bank 8 Handed) (p : PortId) (s : State) : State :=
  issueWrite (.portStatus p) (s.areaAddress s.area.header.portStatus (40 * p.val))
    (portStatusBytes s (handed.get p) p) none s

/-! ### The channels -/

/-- The LIVE channels, lowest first, each make their stages 1 to 5, and the outcomes of their stages 4 are kept for their
publications. No channel has published before the last of them has advanced, so no update of the Fetch Unit has issued
a read yet, and each advances on the Line Cache as it stood at the frame event (R42). -/
def advanceChannels (handed : Bank 8 Handed) : List Chan → State → Bank 4 Stage4 × State
  | [], s => (Bank.fill 4 .still, s)
  | c :: cs, s =>
    let (r, s) := liveStages handed c s
    let (rs, s) := advanceChannels handed cs s
    (rs.set c r, s)

/-- The LIVE channels. -/
def liveChans (s : State) : List Chan := allChans.filter s.isLive

/-- The channels in the order of their publications: the followers after the channels they may follow. -/
def frameOrder (s : State) : List Chan :=
  allChans.filter (fun c => s.mode c != .follow) ++ allChans.filter (fun c => s.mode c == .follow)

/-- The publication of one channel, by its mode: stage 6 of a LIVE channel, and the frame event of the others. -/
def makePublication (outcomes : Bank 4 Stage4) (c : Chan) (s : State) : State :=
  match s.mode c with
  | .live => stage6 c (outcomes.get c) s
  | .off => offFrame c s
  | .follow => followFrame c s

/-- A channel publishes. Its publication and the Fetch Unit's use of it are one step (R78): before the next channel
publishes, the need set holds the new need of this one, and the queue is updated and reads are issued (R81, R82). -/
def publishChannel (outcomes : Bank 4 Stage4) (c : Chan) (s : State) : State :=
  needUpdate c (makePublication outcomes c s)

/-- The ports hand on, the arbiter evaluates and the LIVE channels advance, then every channel publishes, and the port
status records are issued. -/
def channelsFrame (s : State) : State :=
  let (handed, s) := handAll s
  let s := armPorts handed s
  let (outcomes, s) := advanceChannels handed (liveChans s) s
  forEach allPorts (writePortStatus handed) (forEach (frameOrder s) (publishChannel outcomes) s)

/-! ### The frame scan at a frame event (R156) -/

/-- The SCAN_OVERRUN report (R162).
DESIGN CHOICE (notes/assumptions/45.md): its argument is the skipped count modulo 2³². Unsafe. -/
def scanOverrunReport (s : State) (sc : Scan) : Report :=
  ⟨timingSlot, .scanOverrun, natWord sc.origin.code, natWord sc.skipped, natWord s.rate.code,
    natWord s.timebase.lock.code⟩

/-- A frame event begins a scan, or counts a skip when one is in progress (R156).
DESIGN CHOICE (notes/assumptions/45.md): the skipped count has no upper end. Unsafe. -/
def scanFrame (s : State) : State :=
  match s.area.scan with
  | none => beginScan .frame s
  | some sc =>
    let sc' : Scan := { sc with skipped := sc.skipped + 1 }
    raise (scanOverrunReport s sc') { s with area := { s.area with scan := some sc' } }

/-! ### The frame event -/

/-- The frame counter increases at a frame event in RUNNING, and a new frame period begins (R125). -/
def countFrame (s : State) : State :=
  s.modTimebase fun t =>
    let t := t.beginPeriod
    if s.running then { t with frameCounter := t.frameCounter + 1 } else t

/-- The first frame event in RUNNING announces a lock in force (R129). -/
def announceLock (s : State) : State :=
  if s.timebase.announceLock then
    raise (refLockedReport s 1) (s.modTimebase fun t => { t with announceLock := false })
  else s

/-- The work of a frame event in RUNNING. -/
def runningFrame (s : State) : State :=
  scanFrame (exchangeFrame (composeHeads (channelsFrame (announceLock s))))

/-- The blocks' work at a frame event whose number has been counted: outside RUNNING only the heads act. -/
def frameBody (s : State) : State := if s.running then runningFrame s else composeHeads s

/-- A free-running frame event (R124). In LOCKED there is none. -/
def freeFrame (s : State) : State :=
  if s.timebase.lock = .free then
    frameBody (countFrame (s.modTimebase (Timebase.nextFree s.rate)))
  else s

/-! ### REF (R126, R127) -/

/-- The lock edge: the period ends at it, its frame event is issued, and REF_LOCKED is posted. -/
def lockEdge (s : State) : State :=
  let t := countFrame (s.modTimebase Timebase.enterLocked)
  frameBody (raiseRunning (refLockedReport t 0) t)

/-- A rising edge on REF in FREE. With the reference select at INTERNAL it is not measured. -/
def edgeInFree (s : State) : State :=
  if s.settings.refSelect = .ref then
    let t := s.modTimebase (Timebase.measure s.rate)
    if t.timebase.qualifyingRun = 8 then lockEdge t else t
  else s

/-- A rising edge on REF in LOCKED: within the window it issues the period's frame event, and else it is stray. -/
def edgeInLocked (s : State) : State :=
  if inWindow s.rate s.timebase.elapsed then
    frameBody (countFrame (s.modTimebase Timebase.acceptEdge))
  else s.modTimebase fun t => { t with lastEdge := some t.captureCount }

/-- A rising edge on REF. -/
def refEdge (s : State) : State :=
  match s.timebase.lock with
  | .free => edgeInFree s
  | .locked => edgeInLocked s

/-- The frame event of the second missed period in a row: the timebase enters FREE at it (R127). It finds the timebase
LOCKED, so the first frame event in RUNNING announces the lock before it is lost (R129). -/
def loseLock (s : State) : State :=
  let t := countFrame s
  let t := if t.running then announceLock t else t
  frameBody (raiseRunning (refLostReport t .missed) (t.modTimebase (Timebase.enterFree t.rate)))

/-- The window of a LOCKED period closes without an edge (R127). -/
def windowClose (s : State) : State :=
  if s.timebase.lock = .locked then
    let t := s.modTimebase fun t => { t with missed := t.missed + 1 }.countLocked
    if 2 ≤ t.timebase.missed then loseLock t else frameBody (countFrame t)
  else s

/-! ### The commands -/

/-- FRAME_EVENT (R124). -/
def execFrameEvent (s : State) : Host.Outcome State Fault Refusal := .next (freeFrame s)

/-- REF_EDGE (R126, R127). -/
def execRefEdge (s : State) : Host.Outcome State Fault Refusal := .next (refEdge s)

/-- REF_LOCK (R126): the edge, when it brings the qualifying run to 8. -/
def execRefLock (s : State) : Host.Outcome State Fault Refusal :=
  .next (if wouldLock s then refEdge s else s)

/-- REF_WINDOW_CLOSE (R127). -/
def execRefWindowClose (s : State) : Host.Outcome State Fault Refusal := .next (windowClose s)

/-- REF_LOSS_MISSED (R127): the window close, when it brings the missed count to 2. -/
def execRefLossMissed (s : State) : Host.Outcome State Fault Refusal :=
  .next (if wouldLose s then windowClose s else s)

/-- QUIET_RELEASE (R114): the frame event, when it releases the channel's holder by quiet time. -/
def execQuietRelease (c : Chan) (s : State) : Host.Outcome State Fault Refusal :=
  .next (if quietDue s c then freeFrame s else s)

end Sys2Proof.Machine
end

