-- ==== Sys2Proof/Machine/Commands.lean ====
section
/-! DEFINITION. The commands of the command slots (R159, R160): the checks and effect of each, and the answer that the
part writes. A command is executed while the engine is RUNNING and its slot is fresh. -/

namespace Sys2Proof.Machine

/-! ### The commands (R160) -/

/-- A result that changes nothing. -/
def refuse (r : CommandResult) (s : State) : CommandResult × State := (r, s)

/-- The entry of a story in a channel's view as the Script View logic holds it, when the story is ready in the
shadow (R35). -/
def jumpEntry (s : State) (c : Chan) (k : Slot) : Option ViewEntry :=
  if (s.story k).ready then entryOf (scriptView s c) k else none

/-- The effect of an accepted JUMP (R35): the anchor is placed, and the channel joins a search of the story (R33). -/
def placeJump (c : Chan) (k : Slot) (line : Nat) (s : State) : State :=
  joinSearch c (s.modChan c (Channel.placeAt s.fetch (some ⟨k, line⟩)))

/-- JUMP on a channel and story in range (R35). -/
def jumpChecked (c : Chan) (k : Slot) (line : Word) (s : State) : CommandResult × State :=
  if s.mode c ≠ .live then refuse .wrongState s
  else
    match holdRefusal (s.chan c) with
    | some r => refuse r s
    | none =>
      match jumpEntry s c k with
      | none => refuse .badTarget s
      | some e =>
        let target := lineOperand e.count line
        (target.2, placeJump c k target.1 s)

/-- JUMP (R35, R160). -/
def jumpCommand (channel story line : Word) (s : State) : CommandResult × State :=
  match channelOperand channel, storyOperand story with
  | some c, some k => jumpChecked c k line s
  | _, _ => refuse .badTarget s

/-- The checks of the console commands (R120): none when they pass. -/
def consoleRefusal (s : State) (c : Chan) : Option CommandResult :=
  if s.mode c ≠ .live then some .wrongState
  else if !(s.chanSet c).authMode.admits .operator then some .noAuthority
  else none

/-- The console jog after a NUDGE of `rows` rows (R120). -/
def Authority.nudge (rows : Int) (a : Authority) : Authority :=
  { a with consoleJog := clampInt (-65536) 65536 (a.consoleJog + rows * 1024) }

/-- NUDGE (R120). -/
def nudgeCommand (channel rows : Word) (s : State) : CommandResult × State :=
  match channelOperand channel with
  | none => refuse .badTarget s
  | some c =>
    match consoleRefusal s c with
    | some r => refuse r s
    | none =>
      let x := clampOperand 64 rows
      (x.2, s.modAuth c (Authority.nudge x.1))

/-- SET_DEMAND (R120). -/
def setDemandCommand (channel demand : Word) (s : State) : CommandResult × State :=
  match channelOperand channel with
  | none => refuse .badTarget s
  | some c =>
    match consoleRefusal s c with
    | some r => refuse r s
    | none =>
      let x := clampOperand 1024 demand
      (x.2, s.modAuth c fun a => { a with consoleDemand := x.1 })

/-- GO (R34). -/
def goCommand (channel : Word) (s : State) : CommandResult × State :=
  match channelOperand channel with
  | none => refuse .badTarget s
  | some c => if s.mode c = .live then (.ok, goChannel c s) else refuse .wrongState s

/-- FREEZE (R32). -/
def freezeCommand (channel on : Word) (s : State) : CommandResult × State :=
  match channelOperand channel with
  | none => refuse .badTarget s
  | some c =>
    if s.mode c = .live then (.ok, s.modChan c fun ch => { ch with latch := onOperand on })
    else refuse .wrongState s

/-- HEAD_BLANK (R132). -/
def headBlankCommand (head on : Word) (s : State) : CommandResult × State :=
  match headOperand head with
  | none => refuse .badTarget s
  | some h => (.ok, s.modHead h fun x => { x with blank := onOperand on })

/-- REFRESH_STORY (R88). -/
def refreshStoryCommand (story : Word) (s : State) : CommandResult × State :=
  match storyOperand story with
  | none => refuse .badTarget s
  | some k => (.ok, invalidateStory k s)

/-! ### Execution and the answer (R159) -/

/-- The COMMAND_DONE report (R162). -/
def commandDoneReport (n : CmdSlot) (request code : Word) (r : CommandResult) : Report :=
  ⟨Machine.commandSlot, .commandDone, natWord n.val, code, natWord r.code, request⟩

/-- The answer of a command slot: its done generation becomes the request generation read, and one write of the done
generation and the result is issued, whose completion posts COMMAND_DONE. -/
def answerCommand (n : CmdSlot) (request code : Word) (r : CommandResult) (s : State) : State :=
  issueWrite (.commandResult n) (s.areaAddress s.area.header.commands (32 * n.val + 20))
    (wordBytes request ++ wordBytes (natWord r.code)) (some (commandDoneReport n request code r))
    { s with area := { s.area with commandDone := s.area.commandDone.set n request } }

/-- A command slot's request is fresh: it differs from the done generation the part holds. -/
def isFresh (s : State) (n : CmdSlot) (request : Word) : Bool := s.area.commandDone.get n != request

/-- Execute a command of a slot: its effect, then its answer. Only a RUNNING engine executes commands, and only a
fresh slot's. -/
def runCommand (n : CmdSlot) (request code : Word) (act : State → CommandResult × State) (s : State) : State :=
  if s.running && isFresh s n request then
    let done := act s
    answerCommand n request code done.1 done.2
  else s

/-- The command that a code names, with the operands of the slot. -/
def commandAct (x : Command) : State → CommandResult × State :=
  if x.code = 1 then jumpCommand x.op1 x.op2 x.op3
  else if x.code = 2 then nudgeCommand x.op1 x.op2
  else if x.code = 3 then setDemandCommand x.op1 x.op2
  else if x.code = 4 then goCommand x.op1
  else if x.code = 5 then freezeCommand x.op1 x.op2
  else if x.code = 6 then headBlankCommand x.op1 x.op2
  else if x.code = 7 then refreshStoryCommand x.op1
  else refuse .unknown

/-- A command slot as a scan read it is executed, if it is fresh. -/
def runSlot (n : CmdSlot) (bytes : List Byte) (s : State) : State :=
  let x := commandOf bytes
  runCommand n x.request x.code (commandAct x) s

/-! ### The commands as rows of the table -/

/-- JUMP. -/
def execJump (slot : CmdSlot) (request channel story line : Word) (s : State) :
    Host.Outcome State Fault Refusal := .next (runCommand slot request 1 (jumpCommand channel story line) s)

/-- NUDGE. -/
def execNudge (slot : CmdSlot) (request channel rows : Word) (s : State) :
    Host.Outcome State Fault Refusal := .next (runCommand slot request 2 (nudgeCommand channel rows) s)

/-- SET_DEMAND. -/
def execSetDemand (slot : CmdSlot) (request channel demand : Word) (s : State) :
    Host.Outcome State Fault Refusal := .next (runCommand slot request 3 (setDemandCommand channel demand) s)

/-- GO. -/
def execGo (slot : CmdSlot) (request channel : Word) (s : State) : Host.Outcome State Fault Refusal :=
  .next (runCommand slot request 4 (goCommand channel) s)

/-- FREEZE. -/
def execFreeze (slot : CmdSlot) (request channel on : Word) (s : State) :
    Host.Outcome State Fault Refusal := .next (runCommand slot request 5 (freezeCommand channel on) s)

/-- HEAD_BLANK. -/
def execHeadBlank (slot : CmdSlot) (request head on : Word) (s : State) :
    Host.Outcome State Fault Refusal := .next (runCommand slot request 6 (headBlankCommand head on) s)

/-- REFRESH_STORY. -/
def execRefreshStory (slot : CmdSlot) (request story : Word) (s : State) :
    Host.Outcome State Fault Refusal := .next (runCommand slot request 7 (refreshStoryCommand story) s)

/-- UNKNOWN_COMMAND. -/
def execUnknownCommand (slot : CmdSlot) (request code : Word) (s : State) :
    Host.Outcome State Fault Refusal := .next (runCommand slot request code (refuse .unknown) s)

/-- The write goes to a command slot. -/
def WriteTarget.isCommandResult : WriteTarget → Bool
  | .commandResult _ => true
  | .channelStatus _ => false
  | .portStatus _ => false
  | .takenGeneration => false
  | .storyFields _ => false
  | .rundownFields => false

/-- COMMAND_RESULT_WRITE_DONE (R159). -/
def execCommandResultWriteDone (tag : Nat) (r : WriteResult) (s : State) :
    Host.Outcome State Fault Refusal := .next (writeDone tag WriteTarget.isCommandResult r s)

end Sys2Proof.Machine
end

