-- ==== Sys2Proof/Machine/AreaPort.lean ====
section
/-! DEFINITION. The frame scan's completion and faults (R156, R157), the status and settings writes (R158, R161), and the
Fetch Unit's issues and completions as rows of the table. -/

namespace Sys2Proof.Machine

/-! ### The shadows at a scan completion (R3, R6, R12) -/

/-- The read of a story entry in a scan. -/
def scanEntry (d : ScanData) (k : Slot) : ReadResult := d.entries.getD k.val (.data [])

/-- A story's shadow after a scan: a failed read leaves it (R12). -/
def rescannedStory (d : ScanData) (k : Slot) (old : Story) : Story :=
  match scanEntry d k with
  | .data bytes => scannedStory bytes old
  | .busError => old

/-- The slots whose entries failed, lowest first. -/
def failedEntries (d : ScanData) : List Slot :=
  (List.finRange 256).filter fun k => scanEntry d k == .busError

/-- The entry form of ENTRY_READ_FAULT (R12), with the story id held. -/
def raiseEntryFaults (d : ScanData) (s : State) : State :=
  match failedEntries d with
  | [] => s
  | k :: rest =>
    raise ⟨scriptSlot, .entryReadFault, natWord (rest.length + 1), slotWord k, (s.story k).storyId, noneWord⟩ s

/-- The rundown request generation enters the shadow; a failed read leaves it, with a report (R3, R6). -/
def rescanRundown (d : ScanData) (s : State) : State :=
  match d.rundownRequest with
  | .data bytes => { s with rundown := { s.rundown with request := word bytes 0 } }
  | .busError => raise (rundownFault noneWord) s

/-- Step 1 of a scan completion. -/
def rescanShadows (d : ScanData) (s : State) : State :=
  raiseEntryFaults d (rescanRundown d
    { s with stories := Bank.ofFn fun k => rescannedStory d k (s.story k) })

/-! ### The scan completion (R156) -/

/-- Step 2: the settings take, when the generation read differs from the one taken. -/
def rescanSettings (d : ScanData) (s : State) : State :=
  if word d.settingsGeneration 0 = s.area.takenGeneration then s else settingsTake d.settingsBlock false s

/-- Step 4: the fresh commands, in slot order. -/
def rescanCommands (d : ScanData) (s : State) : State :=
  forEach (List.finRange 4) (fun n => runSlot n (d.slots.getD n.val [])) s

/-- The scan state becomes IDLE. -/
def endScan (s : State) : State := { s with area := { s.area with scan := none } }

/-- The completion of a scan, in the order of R156. Step 3 needs no work: a view is computed from the shadows. -/
def completeScan (d : ScanData) (s : State) : State :=
  endScan (rescanCommands d (rescanSettings d (rescanShadows d s)))

/-- The scan in progress makes the reads named `tag`. -/
def scanIs (tag : Nat) (s : State) : Bool := s.area.scan.any (·.group.tag == tag)

/-! ### The commands -/

/-- FETCH_ISSUE (R82): one issue, when R82 makes one. -/
def execFetchIssue (s : State) : Host.Outcome State Fault Refusal := .next ((issueOne s).getD s)

/-- FETCH_COMPLETION (R83 to R85). -/
def execFetchCompletion (tag : Nat) (r : ReadResult) (s : State) : Host.Outcome State Fault Refusal :=
  .next (fetchComplete tag r s)

/-- The write is of a status record. -/
def WriteTarget.isStatus : WriteTarget → Bool
  | .channelStatus _ => true
  | .portStatus _ => true
  | .takenGeneration => false
  | .commandResult _ => false
  | .storyFields _ => false
  | .rundownFields => false

/-- STATUS_WRITE_COMPLETE (R161). -/
def execStatusWriteComplete (tag : Nat) (r : WriteResult) (s : State) : Host.Outcome State Fault Refusal :=
  .next (writeDone tag WriteTarget.isStatus r s)

/-- SCAN_COMPLETION (R156). -/
def execScanCompletion (tag : Nat) (d : ScanData) (s : State) : Host.Outcome State Fault Refusal :=
  .next (if scanIs tag s then completeScan d s else s)

/-- SCAN_READ_FAULT (R157): whichever of the three reads failed, the scan ends in HALTED. -/
def execScanReadFault (tag : Nat) (which : ScanRead) (s : State) : Host.Outcome State Fault Refusal :=
  .next (if scanIs tag s then
      match which with
      | .settingsGeneration => halt .areaReadFault s
      | .settingsBlock => halt .areaReadFault s
      | .commandSlot _ => halt .areaReadFault s
    else s)

/-- SETTINGS_WRITE_COMPLETE (R158). -/
def execSettingsWriteComplete (tag : Nat) (r : WriteResult) (s : State) :
    Host.Outcome State Fault Refusal := .next (writeDone tag (· == .takenGeneration) r s)

end Sys2Proof.Machine
end

