-- ==== Sys2Proof/Machine/Controls.lean ====
section
/-! DEFINITION. The events of the hand ports and the sample event as rows of the table (R97 to R102, R123, R144). The rows
that are one case of a larger event run that event when it brings the case about, and leave the state as it is when it
does not (notes/assumptions/2.md). -/

namespace Sys2Proof.Machine

/-- SAMPLE_EVENT (R99, R102, R123, R144). -/
def execSampleEvent (levels : Bank 8 Lines) (s : State) : Host.Outcome State Fault Refusal :=
  .next (sampleAll levels s)

/-- QUADRATURE_SAMPLE (R100). -/
def execQuadratureSample (p : PortId) (a b : Bool) (s : State) : Host.Outcome State Fault Refusal :=
  .next (quadratureAt p a b s)

/-- LEVER_EDGE (R97). -/
def execLeverEdge (p : PortId) (level : Bool) (s : State) : Host.Outcome State Fault Refusal :=
  .next (leverEdgeAt p level s)

/-- A rising edge now gives the valid sample that moves the port to RECENTER (R99). -/
def wouldAcquire (s : State) (p : PortId) : Bool :=
  let q := s.port p
  (q.phase == .acquiring || q.phase == .lost) && s.nextSample p == some true && decide (3 ≤ q.validRun)

/-- A rising edge now gives the invalid sample that moves the port to LOST (R99). -/
def wouldLosePort (s : State) (p : PortId) : Bool :=
  let q := s.port p
  (q.phase == .active || q.phase == .recenter) && s.nextSample p == some false && decide (7 ≤ q.invalidRun)

/-- LEVER_ACQUIRED (R99). -/
def execLeverAcquired (p : PortId) (s : State) : Host.Outcome State Fault Refusal :=
  .next (if wouldAcquire s p then leverEdgeAt p (s.highPin p) s else s)

/-- LEVER_INVALID_LOST (R99). -/
def execLeverInvalidLost (p : PortId) (s : State) : Host.Outcome State Fault Refusal :=
  .next (if wouldLosePort s p then leverEdgeAt p (s.highPin p) s else s)

/-- LEVER_LOSS_TIMEOUT (R99): the sample event, when it moves the port to LOST. -/
def execLeverLossTimeout (p : PortId) (levels : Bank 8 Lines) (s : State) :
    Host.Outcome State Fault Refusal := .next (if timesOut s p then sampleAll levels s else s)

/-- BUTTON_DEBOUNCE_ACCEPT (R102): the sample event, when it changes the accepted level of the line. -/
def execButtonDebounceAccept (p : PortId) (line : LineId) (levels : Bank 8 Lines) (s : State) :
    Host.Outcome State Fault Refusal := .next (if accepts s p line (levels.get p) then sampleAll levels s else s)

/-- STROBE_EXPIRY (R144): the sample event, when it counts the channel's strobe timer down to 0. -/
def execStrobeExpiry (c : Chan) (levels : Bank 8 Lines) (s : State) : Host.Outcome State Fault Refusal :=
  .next (if s.lamps.strobe.get c = 1 then sampleAll levels s else s)

end Sys2Proof.Machine
end

