-- ==== Sys2Proof/Machine/Takes.lean ====
section
/-! DEFINITION. The completions of the Exchange Unit's reads and writes as rows of the table (R63 to R69, R74). -/

namespace Sys2Proof.Machine

/-- DIRECT_TAKE_READ_DONE (R63). -/
def execDirectTakeReadDone (tag : Nat) (r : ReadResult) (s : State) : Host.Outcome State Fault Refusal :=
  .next (endDirectTake tag r s)

/-- SEARCH_VERSION_READ_DONE (R67). -/
def execSearchVersionReadDone (tag : Nat) (r : ReadResult) (s : State) :
    Host.Outcome State Fault Refusal := .next (searchVersionRead tag r s)

/-- KEY_READ_DONE (R67, R69). -/
def execKeyReadDone (tag : Nat) (r : ReadResult) (s : State) : Host.Outcome State Fault Refusal :=
  .next (keyRead tag r s)

/-- The write is of a story's part-written fields. -/
def WriteTarget.isStoryFields : WriteTarget → Bool
  | .storyFields _ => true
  | .channelStatus _ => false
  | .portStatus _ => false
  | .takenGeneration => false
  | .commandResult _ => false
  | .rundownFields => false

/-- EXCHANGE_WRITE_DONE (R65). -/
def execExchangeWriteDone (tag : Nat) (r : WriteResult) (s : State) : Host.Outcome State Fault Refusal :=
  .next (writeDone tag WriteTarget.isStoryFields r s)

/-- RUNDOWN_LIST_READ_DONE (R6, R74). -/
def execRundownListReadDone (tag : Nat) (r : ReadResult) (s : State) : Host.Outcome State Fault Refusal :=
  .next (rundownRead tag r s)

/-- RUNDOWN_WRITE_DONE (R74). -/
def execRundownWriteDone (tag : Nat) (r : WriteResult) (s : State) : Host.Outcome State Fault Refusal :=
  .next (writeDone tag (· == .rundownFields) r s)

end Sys2Proof.Machine
end

