-- ==== Sys2Proof/Machine/Reports.lean ====
section
/-! DEFINITION. The Report Unit's posts (R166 to R168). -/

namespace Sys2Proof.Machine

/-- The host address of a report slot (R163). -/
def State.reportAddress (s : State) (k : Fin 18) : Addr := s.areaAddress s.area.header.reports (32 * k.val)

/-- The oldest post begins, and its slot read is issued (R166 step 1). -/
def beginPost (s : State) : State :=
  match s.reports.current, s.reports.queue with
  | none, p :: rest =>
    if s.halted then s
    else
      let (request, t) := newRequest (s.reportAddress p.report.slot) 32 s
      { t with reports := { t.reports with queue := rest, current := some ⟨p, .read request⟩ } }
  | _, _ => s

/-- The overwritten count of a post (R166 step 2). -/
def overwrittenCount (held : Word) (slot : List Byte) : Byte :=
  if word slot 28 = held then byteAt slot 6
  else if byteAt slot 6 = 255 then 255
  else byteAt slot 6 + 1

/-- The 28 bytes of a report (R179). -/
def reportBytes (p : Post) (count : Word) (overwritten : Byte) : List Byte :=
  wordBytes count ++ halfBytes (natHalf p.report.code.code) ++ [overwritten, 0] ++ wordBytes p.frame
    ++ wordBytes p.report.arg1 ++ wordBytes p.report.arg2 ++ wordBytes p.report.arg3
    ++ wordBytes p.report.arg4

/-- The post in progress is lost to a bus error (R167). -/
def failPost (s : State) : State :=
  halt .reportWriteFault { s with reports := { s.reports with current := none } }

/-- Steps 2 and 3 of a post: the overwritten count is formed, and the report write is issued at the address that was
fixed when the post began (R164). -/
def writePost (p : Post) (address : Addr) (slot : List Byte) (s : State) : State :=
  let k := p.report.slot
  let held := s.reports.heldCount.get k
  let bytes := reportBytes p (held + 1) (overwrittenCount held slot)
  let (request, t) := newRequest address 28 s
  { t with reports := { t.reports with current := some ⟨p, .write request bytes (held + 1)⟩ } }

/-- The slot read of the post in progress completes. -/
def postReadDone (tag : Nat) (r : ReadResult) (s : State) : State :=
  match s.reports.current with
  | some ⟨p, .read request⟩ =>
    if request.tag = tag then
      match r with
      | .busError => failPost s
      | .data bytes => writePost p request.address bytes s
    else s
  | _ => s

/-- R168 for a class: its IRQ_CAUSE bit is set, or it joins the postponed set. -/
def Reports.notify (enables : ClassFlags) (k : ReportClass) (r : Reports) : Reports :=
  if enables.get k then { r with causes := r.causes.add k } else { r with postponed := r.postponed.add k }

/-- Step 4 of a post: the held post count, the class, and no post in progress. -/
def finishPost (p : Post) (count : Word) (s : State) : State :=
  let k := p.report.slot
  let r := { s.reports with heldCount := s.reports.heldCount.set k count, current := none }
  { s with reports := r.notify s.settings.enables (slotClass k) }

/-- The report write of the post in progress completes. -/
def postWriteDone (tag : Nat) (r : WriteResult) (s : State) : State :=
  match s.reports.current with
  | some ⟨p, .write request _ count⟩ =>
    if request.tag = tag then
      match r with
      | .busError => failPost s
      | .written => finishPost p count s
    else s
  | _ => s

/-- POST_BEGIN (R166). -/
def execPostBegin (s : State) : Host.Outcome State Fault Refusal := .next (beginPost s)

/-- POST_READ_DONE (R166, R167). -/
def execPostReadDone (tag : Nat) (r : ReadResult) (s : State) : Host.Outcome State Fault Refusal :=
  .next (postReadDone tag r s)

/-- POST_WRITE_DONE (R166 to R168). -/
def execPostWriteDone (tag : Nat) (r : WriteResult) (s : State) : Host.Outcome State Fault Refusal :=
  .next (postWriteDone tag r s)

end Sys2Proof.Machine
end

