-- ==== Sys2Proof/Machine/Flags.lean ====
section
/-! DEFINITION. What the outside sees of the state: the registers as they read (R149, R182), the interrupt (R170), and the
lamp and strobe lines (R144, R146, R147). None of it changes any state. -/

namespace Sys2Proof.Machine

/-! ### Register reads (R149, R182) -/

def ksId : Word := 0x00010612

/-- ENGINE_STATE: engine state, halt cause, postponed classes, dropped-post count. -/
def engineStateWord (s : State) : Word :=
  natWord (s.engine.code + 16 * s.area.haltCause.code + 256 * s.reports.postponed.bits
    + 65536 * s.reports.dropped)

/-- IRQ_CAUSE. -/
def irqCauseWord (s : State) : Word := natWord (s.reports.causes.bits + boolBit s.reports.halt 32)

/-- A read of `size` bytes of the register window at `offset`. A read changes nothing. -/
def registerRead (s : State) (offset size : Nat) : Word :=
  if size ≠ 4 then 0
  else if offset = 0x00 then ksId
  else if offset = 0x04 then s.area.areaLo
  else if offset = 0x08 then s.area.areaHi
  else if offset = 0x10 then engineStateWord s
  else if offset = 0x14 then irqCauseWord s
  else 0

/-! ### The interrupt (R170) -/

/-- The interrupt request is asserted while IRQ_CAUSE is not 0. -/
def irqAsserted (s : State) : Bool := s.reports.causes.any || s.reports.halt

inductive IrqMessage | assertion | withdrawal
  deriving DecidableEq, Repr

/-- What the part sends on its link at a change from `s` to `t`. -/
def irqMessage (s t : State) : Option IrqMessage :=
  if irqAsserted s = irqAsserted t then none
  else some (if irqAsserted t then .assertion else .withdrawal)

/-! ### Lines (R144, R146, R147) -/

/-- A channel's strobe line (R144). -/
def strobeLine (s : State) (c : Chan) : Bool := decide (0 < s.lamps.strobe.get c)

/-- The hold set that a HOLD select shows: the published one in RUNNING, else the channel's own (R146).
DESIGN CHOICE (notes/assumptions/51.md): in RUNNING it is that of the last publication, whatever mode the channel has
taken since, and from before a stop until the first publication after it. Unsafe. -/
def shownHolds (s : State) (c : Chan) : HoldSet :=
  if s.running then (s.chan c).pub.holds else (s.chan c).holds

/-- The group of a mark line, and its bit of the group's pattern. -/
def markGroup (m : MarkId) : GroupId := ⟨m.val / 4, by omega⟩
def markBit (s : State) (m : MarkId) : Bool := (s.lamps.pattern.get (markGroup m)).getLsbD (m.val % 4)

/-- The level of a mark line: none when it is not driven (R146). -/
def markLine (s : State) (m : MarkId) : Option Bool :=
  let c := s.settings.groupChannel.get (markGroup m)
  match s.settings.markSelect.get m with
  | .undriven => none
  | .low => some false
  | .high => some true
  | .bit => some (markBit s m)
  | .bitInv => some (!markBit s m)
  | .hold => some (shownHolds s c).any
  | .strobe => some (strobeLine s c)

/-- The level of a port's lamp line L: none while the port lamps are not driven (R147). -/
def lampLine (s : State) (p : PortId) : Option Bool :=
  let c := (s.portSet p).channel
  if !s.lamps.driven then none
  else
    match (s.portSet p).lampSelect with
    | .off => some false
    | .on => some true
    | .authority => some (s.holds p)
    | .hold => some (shownHolds s c).any
    | .strobe => some (strobeLine s c)

/-- The raster a head sends in the frame period in progress (R138): none when its output carries no raster. -/
def headOutput (s : State) (h : HeadId) : Option Raster := (s.head h).output

end Sys2Proof.Machine
end

