-- ==== Sys2Proof/Machine/Dispatch.lean ====
section
/-! DEFINITION. The dispatch: one arm for each command, in the order of spec/opcode_table.json. -/

namespace Sys2Proof.Machine

/-- The effect of a command on everything but the queue of waiting commands. -/
def exec (i : Instr) (s : State) : Host.Outcome State Fault Refusal :=
  match i with
  | .powerOnReset => Sys2Proof.Machine.execPowerOnReset s
  | .startSequence lookNow => Sys2Proof.Machine.execStartSequence lookNow s
  | .stop lookNow => Sys2Proof.Machine.execStop lookNow s
  | .softReset run lookNow => Sys2Proof.Machine.execSoftReset run lookNow s
  | .lookNow run => Sys2Proof.Machine.execLookNow run s
  | .areaLoWrite value => Sys2Proof.Machine.execAreaLoWrite value s
  | .areaHiWrite value => Sys2Proof.Machine.execAreaHiWrite value s
  | .irqCauseWrite value => Sys2Proof.Machine.execIrqCauseWrite value s
  | .registerWriteIgnored offset size value => Sys2Proof.Machine.execRegisterWriteIgnored offset size value s
  | .areaHeaderReadDone tag bytes => Sys2Proof.Machine.execAreaHeaderReadDone tag bytes s
  | .glyphStoreLoadReadDone tag bytes => Sys2Proof.Machine.execGlyphStoreLoadReadDone tag bytes s
  | .startSettingsReadDone tag bytes => Sys2Proof.Machine.execStartSettingsReadDone tag bytes s
  | .startReadFault tag => Sys2Proof.Machine.execStartReadFault tag s
  | .fullTake tag d => Sys2Proof.Machine.execFullTake tag d s
  | .frameEvent => Sys2Proof.Machine.execFrameEvent s
  | .refEdge => Sys2Proof.Machine.execRefEdge s
  | .refLock => Sys2Proof.Machine.execRefLock s
  | .refWindowClose => Sys2Proof.Machine.execRefWindowClose s
  | .refLossMissed => Sys2Proof.Machine.execRefLossMissed s
  | .sampleEvent levels => Sys2Proof.Machine.execSampleEvent levels s
  | .quadratureSample p a b => Sys2Proof.Machine.execQuadratureSample p a b s
  | .leverEdge p level => Sys2Proof.Machine.execLeverEdge p level s
  | .leverAcquired p => Sys2Proof.Machine.execLeverAcquired p s
  | .leverInvalidLost p => Sys2Proof.Machine.execLeverInvalidLost p s
  | .leverLossTimeout p levels => Sys2Proof.Machine.execLeverLossTimeout p levels s
  | .buttonDebounceAccept p line levels => Sys2Proof.Machine.execButtonDebounceAccept p line levels s
  | .strobeExpiry c levels => Sys2Proof.Machine.execStrobeExpiry c levels s
  | .quietRelease c => Sys2Proof.Machine.execQuietRelease c s
  | .fetchIssue => Sys2Proof.Machine.execFetchIssue s
  | .fetchCompletion tag r => Sys2Proof.Machine.execFetchCompletion tag r s
  | .statusWriteComplete tag r => Sys2Proof.Machine.execStatusWriteComplete tag r s
  | .scanCompletion tag d => Sys2Proof.Machine.execScanCompletion tag d s
  | .scanReadFault tag which => Sys2Proof.Machine.execScanReadFault tag which s
  | .settingsWriteComplete tag r => Sys2Proof.Machine.execSettingsWriteComplete tag r s
  | .jump slot request channel story line => Sys2Proof.Machine.execJump slot request channel story line s
  | .nudge slot request channel rows => Sys2Proof.Machine.execNudge slot request channel rows s
  | .setDemand slot request channel demand => Sys2Proof.Machine.execSetDemand slot request channel demand s
  | .go slot request channel => Sys2Proof.Machine.execGo slot request channel s
  | .freeze slot request channel on => Sys2Proof.Machine.execFreeze slot request channel on s
  | .headBlank slot request head on => Sys2Proof.Machine.execHeadBlank slot request head on s
  | .refreshStory slot request story => Sys2Proof.Machine.execRefreshStory slot request story s
  | .unknownCommand slot request code => Sys2Proof.Machine.execUnknownCommand slot request code s
  | .commandResultWriteDone tag r => Sys2Proof.Machine.execCommandResultWriteDone tag r s
  | .directTakeReadDone tag r => Sys2Proof.Machine.execDirectTakeReadDone tag r s
  | .searchVersionReadDone tag r => Sys2Proof.Machine.execSearchVersionReadDone tag r s
  | .keyReadDone tag r => Sys2Proof.Machine.execKeyReadDone tag r s
  | .exchangeWriteDone tag r => Sys2Proof.Machine.execExchangeWriteDone tag r s
  | .rundownListReadDone tag r => Sys2Proof.Machine.execRundownListReadDone tag r s
  | .rundownWriteDone tag r => Sys2Proof.Machine.execRundownWriteDone tag r s
  | .postBegin => Sys2Proof.Machine.execPostBegin s
  | .postReadDone tag r => Sys2Proof.Machine.execPostReadDone tag r s
  | .postWriteDone tag r => Sys2Proof.Machine.execPostWriteDone tag r s

end Sys2Proof.Machine
end

