-- ==== Sys2Proof/Machine/Step.lean ====
section
/-! DEFINITION. One step: the command at the front of the queue, or an idle microsecond. -/

namespace Sys2Proof.Machine

/-- A microsecond in which nothing is commanded: the capture count advances (R123, notes/assumptions/1.md). -/
def idle (s : State) : State := s.modTimebase fun t => { t with captureCount := t.captureCount + 1 }

/-- Take the command at the front of the queue and run it with the queue's rest; on an empty queue, idle. -/
def step (s : State) : Host.Outcome State Fault Refusal :=
  match s.pending with
  | [] => .next (idle s)
  | c :: rest => exec c { s with pending := rest }

/-- The command that a word spells, put at the front of the queue. -/
def State.withFetchWord (s : State) (nbits w : Nat) : State :=
  match decodeTableWord nbits w with
  | none => s
  | some c => { s with pending := c :: s.pending }

end Sys2Proof.Machine
end

