-- ==== Sys2Proof/WellFormed.lean ====
section
/-! DEFINITION. Which terms of `Instr` describe an event of the part: the byte lists have the length of the
structure they were read from (spec/12_record_layouts.md), and an ignored register write is one that R182 ignores.
The meanings are total: they read a byte beyond the end of a list as 0, whatever this check says. -/

namespace Sys2Proof

/-- A read of an order list take brought a length word, or 1 to 256 slot numbers (R5). That they are as many as the
part asked for is checked against the read in flight, where the completion is taken. -/
def ReadResult.isOrderList : ReadResult → Bool
  | .data bytes => 1 ≤ bytes.length && bytes.length ≤ 256
  | .busError => true

/-- A register-window write that R182 ignores: not one aligned 32-bit word, or at a register that takes no write. -/
def ignoredWrite (offset size : Nat) : Bool :=
  offset < 32 &&
    !(size == 4 && (offset == 0x04 || offset == 0x08 || offset == 0x0C || offset == 0x14))

/-- The terms of `Instr` that describe an event of the part. -/
def Instr.wellFormed : Instr → Bool
  | .registerWriteIgnored offset size _ => ignoredWrite offset size
  | .areaHeaderReadDone _ bytes => bytes.length == 48
  | .glyphStoreLoadReadDone _ bytes => bytes.length ≤ 96 * 6
  | .startSettingsReadDone _ bytes => bytes.length == 1796
  | .fullTake _ d =>
    d.rundown.length == 544 && d.entries.length == 256 && d.entries.all (·.length == 64)
      && d.slots.length == 4 && d.slots.all (·.length == 32)
  | .fetchCompletion _ r => r.hasLength 96
  | .scanCompletion _ d =>
    d.rundownRequest.hasLength 4 && d.entries.length == 256 && d.entries.all (·.hasLength 64)
      && d.settingsGeneration.length == 4 && (d.settingsBlock.isEmpty || d.settingsBlock.length == 1796)
      && d.slots.length == 4 && d.slots.all (·.length == 32)
  | .unknownCommand _ _ code => code == 0 || 7 < code.toNat
  | .directTakeReadDone _ r => r.hasLength 12
  | .searchVersionReadDone _ r => r.hasLength 12
  | .keyReadDone _ r => r.hasLength 2
  | .rundownListReadDone _ r => r.isOrderList
  | .postReadDone _ r => r.hasLength 32
  | .powerOnReset => true
  | .startSequence _ => true
  | .stop _ => true
  | .softReset _ _ => true
  | .lookNow _ => true
  | .areaLoWrite _ => true
  | .areaHiWrite _ => true
  | .irqCauseWrite _ => true
  | .startReadFault _ => true
  | .frameEvent => true
  | .refEdge => true
  | .refLock => true
  | .refWindowClose => true
  | .refLossMissed => true
  | .sampleEvent _ => true
  | .quadratureSample _ _ _ => true
  | .leverEdge _ _ => true
  | .leverAcquired _ => true
  | .leverInvalidLost _ => true
  | .leverLossTimeout _ _ => true
  | .buttonDebounceAccept _ _ _ => true
  | .strobeExpiry _ _ => true
  | .quietRelease _ => true
  | .fetchIssue => true
  | .statusWriteComplete _ _ => true
  | .scanReadFault _ _ => true
  | .settingsWriteComplete _ _ => true
  | .jump _ _ _ _ _ => true
  | .nudge _ _ _ _ => true
  | .setDemand _ _ _ _ => true
  | .go _ _ _ => true
  | .freeze _ _ _ _ => true
  | .headBlank _ _ _ _ => true
  | .refreshStory _ _ _ => true
  | .commandResultWriteDone _ _ => true
  | .exchangeWriteDone _ _ => true
  | .rundownWriteDone _ _ => true
  | .postBegin => true
  | .postWriteDone _ _ => true

end Sys2Proof
end

