-- ==== Sys2Proof/Safety.lean ====
section
/-! DEFINITION. The invariants that claims are stated with: the ranges and bounds the chapters give for the state of the
Report Unit, the hand ports, the Fetch Unit, the scroll channels and the engine. Each holds at reset, and every step
keeps it: those are obligations. -/

namespace Sys2Proof.Machine

/-- The Post Queue holds 0 to 16 entries, and the dropped-post count 0 to 65535 (R164). -/
def Reports.bounded (r : Reports) : Prop := r.queue.length ≤ 16 ∧ r.dropped ≤ 65535

/-- The items of a hand port lie in the ranges R95 gives them. -/
structure Port.inRange (q : Port) : Prop where
  position : q.position ≤ 4095
  value : q.value.natAbs ≤ 1024
  validRun : q.validRun ≤ 4
  invalidRun : q.invalidRun ≤ 8
  edgeAge : q.edgeAge ≤ 255
  timeLost : q.timeLost ≤ 65535
  lostCount : q.lostCount ≤ 65535
  errorCount : q.errorCount ≤ 65535
  jog : q.jog.natAbs ≤ 65536
  standing : q.standing.natAbs ≤ 1024
  capture : q.lastHigh ≤ 65535 ∧ q.lastPeriod ≤ 65535
  buttons : ∀ l, (q.buttons.get l).run ≤ 31

/-- Every port's items lie in their ranges (R95). -/
def portsInRange (s : State) : Prop := ∀ p, (s.port p).inRange

/-- The Fetch Queue holds 0 to 32 entries, of which at most 8 are ISSUED (R76, R80, R82). -/
def Fetch.bounded (f : Fetch) : Prop := f.queue.length ≤ 32 ∧ f.issuedCount ≤ 8

/-- A fraction lies in 0..1023, and is 0 whenever the anchor is NONE (R24). -/
def positioned (anchor : Option Anchor) (fraction : Nat) : Prop :=
  fraction ≤ 1023 ∧ (anchor = none → fraction = 0)

/-- The position record of a channel, and the position it published (R24, R39). -/
def Channel.positioned (ch : Channel) : Prop :=
  Machine.positioned ch.anchor ch.fraction ∧ Machine.positioned ch.pub.anchor ch.pub.fraction

/-- Every channel's position (R24), and S 0 where no motion can be: in a mode that is not LIVE, and at anchor NONE
(R22, R27, R38). -/
def channelsPositioned (s : State) : Prop :=
  ∀ c, (s.chan c).positioned ∧ (s.mode c ≠ .live ∨ (s.chan c).anchor = none → (s.chan c).speed = 0)

/-- The engine state and what may be in progress in it (R151 to R156): a halt cause stands in HALTED alone, a start
sequence in STARTING alone, a frame scan in RUNNING alone, the Exchange Unit works in RUNNING alone, no post is in phase
READ in HALTED, and outside RUNNING no fetch waits and every read in flight is stale. -/
structure State.engineConsistent (s : State) : Prop where
  cause : s.area.haltCause = .none ↔ s.engine ≠ .halted
  start : s.area.start.isSome → s.engine = .starting
  scan : s.area.scan.isSome → s.engine = .running
  exchange : s.exchange ≠ .idle → s.engine = .running
  post : ∀ p, s.reports.current = some p → s.engine = .halted → p.atHalt = some p
  fetch : s.engine ≠ .running → ∀ q ∈ s.fetch.queue, ∃ r i, q.state = .issued r i true

/-- A post in phase WRITE carries the held post count of its slot plus one (R166 step 3). -/
def Reports.counted (r : Reports) : Prop :=
  ∀ p request bytes count, r.current = some ⟨p, .write request bytes count⟩ →
    count = r.heldCount.get p.report.slot + 1

/-- The invariant of a state: the ranges of R24, R76, R95 and R164, the post in progress, and the engine's
consistency. -/
structure State.wf (s : State) : Prop where
  reports : s.reports.bounded
  counted : s.reports.counted
  ports : portsInRange s
  fetch : s.fetch.bounded
  channels : channelsPositioned s
  engine : s.engineConsistent

/-! ### What the blocks do at a settings take (R158 step 5)

`s` is the state before the take and `t` the state after it, so the old settings are those of `s` and the new ones those
of `t`. -/

/-- A settings take changes the lines or the meaning of a port's button line (R96). -/
def lineChanges (s t : State) (p : PortId) (l : LineId) : Prop :=
  isButton (t.portSet p).mode l = true ∧
    ((s.portSet p).invert.get l ≠ (t.portSet p).invert.get l ∨
      (s.portSet p).action.get l ≠ (t.portSet p).action.get l)

/-- A settings take changes a port's mode or its channel (R96). -/
def portChanges (s t : State) (p : PortId) : Prop :=
  (s.portSet p).mode ≠ (t.portSet p).mode ∨ (s.portSet p).channel ≠ (t.portSet p).channel

/-- A settings take changes a channel's mode, or the leader or offset of a FOLLOW channel (R22). -/
def modeChanges (s t : State) (c : Chan) : Prop :=
  (s.chanSet c).mode ≠ (t.chanSet c).mode ∨ ((t.chanSet c).mode = .follow ∧
    ((s.chanSet c).leader ≠ (t.chanSet c).leader ∨ (s.chanSet c).offset ≠ (t.chanSet c).offset))

/-- The table of R22 for one channel. The pressed-line set is given by `pressedActed`. -/
def channelActed (s t : State) (c : Chan) : Prop :=
  let was := (s.chanSet c).mode
  let now := (t.chanSet c).mode
  let x := s.chan c
  let y := t.chan c
  let restarted := { x with
    speed := 0, cue := false, boundary := false, latch := false, pressed := y.pressed, starve := false
    placed := true }
  let vacated := { Channel.reset with pressed := y.pressed, placed := true, pub := x.pub }
  (¬ modeChanges s t c → y = { x with pressed := y.pressed }) ∧
  (was = .off → now = .live → y = { vacated with demand := x.demand, starveCount := x.starveCount }) ∧
  (was ≠ .off → now = .off → y = vacated) ∧
  (was = .off → now = .follow → y = vacated) ∧
  (was = .live → now = .follow → y = { restarted with exchange := false }) ∧
  (was = .follow → now = .live → y = { restarted with
    exchange := s.exchange.searcher.any fun sr =>
      x.anchor.map (·.slot) == some sr.slot && !sr.members.any (·.channel == c) }) ∧
  (was = .follow → now = .follow → modeChanges s t c → y = { x with pressed := y.pressed, placed := true })

/-- What leaves a channel's pressed-line set (R22, R96): everything at a change of the channel's mode, a port's lines when
the port that served the channel takes its initial state, and a line that is changed. -/
def pressedActed (s t : State) (c : Chan) : Prop :=
  ∀ p l, ((t.chan c).pressed.get p).get l = true ↔
    ((s.chan c).pressed.get p).get l = true ∧ (s.chanSet c).mode = (t.chanSet c).mode ∧
    ¬ (portChanges s t p ∧ (s.portSet p).channel = c) ∧
    ¬ (¬ portChanges s t p ∧ lineChanges s t p l ∧ (t.portSet p).channel = c)

/-- R96 for one port. That an initial state leaves the items its row does not list is the model's reading
(notes/assumptions/29.md). -/
def portActed (s t : State) (p : PortId) : Prop :=
  let was := s.portSet p
  let now := t.portSet p
  let x := s.port p
  let y := t.port p
  let cleared := { x with reverseSet := Trio.fill false, take := false, jump := none }
  (portChanges s t p → y =
    match now.mode with
    | .off => { Port.reset with lostCount := x.lostCount, errorCount := x.errorCount }
    | .lever => { cleared with
        phase := .acquiring, periodStart := none, highTime := none, validRun := 0, invalidRun := 0, edgeAge := 0
        timeLost := 0, value := 0, buttons := Trio.fill ⟨.unset, 0⟩ }
    | .wheel => { cleared with
        phase := .active, quad := none, jog := 0, standing := 0, buttons := x.buttons.set .c ⟨.unset, 0⟩ }
    | .keys => { cleared with phase := .active, buttons := Trio.fill ⟨.unset, 0⟩ }) ∧
  (¬ portChanges s t p →
    (∀ l, (lineChanges s t p l → y.buttons.get l = ⟨.unset, 0⟩ ∧ y.reverseSet.get l = false) ∧
      (¬ lineChanges s t p l → y.buttons.get l = x.buttons.get l ∧ y.reverseSet.get l = x.reverseSet.get l)) ∧
    let capture := now.mode = .lever ∧ was.invert.a ≠ now.invert.a
    let wheel := now.mode = .wheel ∧ (was.invert.a ≠ now.invert.a ∨ was.invert.b ≠ now.invert.b)
    (capture → y.periodStart = none ∧ y.highTime = none) ∧
    (¬ capture → y.periodStart = x.periodStart ∧ y.highTime = x.highTime) ∧
    (wheel → y.quad = none) ∧ (¬ wheel → y.quad = x.quad) ∧
    (was.wheelFunction ≠ now.wheelFunction → y.jog = 0 ∧ y.standing = 0) ∧
    (was.wheelFunction = now.wheelFunction → y.jog = x.jog ∧ y.standing = x.standing) ∧
    y = { x with
      buttons := y.buttons, reverseSet := y.reverseSet, periodStart := y.periodStart, highTime := y.highTime
      quad := y.quad, jog := y.jog, standing := y.standing })

/-- A settings take releases a channel's holder (R117). -/
def takeReleases (s t : State) (c : Chan) (h : Source) : Prop :=
  modeChanges s t c ∨
  ((s.chanSet c).authMode ≠ (t.chanSet c).authMode ∧
    (t.chanSet c).authMode.admits (sourceRole t h) = false) ∨
  ∃ p, h = .port p ∧ (s.portSet p).channel = c ∧ (portChanges s t p ∨ s.role p ≠ t.role p)

/-- R117 and R120 for one channel: the holder and the quiet count, and the console's values. -/
def authorityActed (s t : State) (c : Chan) : Prop :=
  let released := ∃ h, (s.auth c).holder = some h ∧ takeReleases s t c h
  let cleared := (s.chanSet c).mode ≠ (t.chanSet c).mode ∨ (s.chanSet c).authMode ≠ (t.chanSet c).authMode
  (released → (t.auth c).holder = none ∧ (t.auth c).quiet = 0) ∧
  (¬ released → (t.auth c).holder = (s.auth c).holder ∧ (t.auth c).quiet = (s.auth c).quiet) ∧
  (cleared → (t.auth c).consoleDemand = 0 ∧ (t.auth c).consoleJog = 0) ∧
  (¬ cleared → (t.auth c).consoleDemand = (s.auth c).consoleDemand ∧
    (t.auth c).consoleJog = (s.auth c).consoleJog)

/-- The arm flag of one port (R115). -/
def armActed (s t : State) (p : PortId) : Prop :=
  t.armed.get p = true ↔ s.armed.get p = true ∧ ¬ portChanges s t p ∧ s.role p = t.role p

/-- R143 for one group, and the port lamps driven (R147). -/
def lampsActed (s t : State) : Prop :=
  t.lamps.driven = true ∧ t.lamps.strobe = s.lamps.strobe ∧
  ∀ g, t.lamps.pattern.get g =
    if s.settings.groupChannel.get g = t.settings.groupChannel.get g ∧
      s.settings.groupMode.get g = t.settings.groupMode.get g then s.lamps.pattern.get g else 0

/-- R168: a class left enabled leaves the postponed set, and its bit is set. -/
def classesActed (s t : State) : Prop :=
  ∀ k, t.reports.causes.get k =
      (s.reports.causes.get k || s.reports.postponed.get k && t.settings.enables.get k) ∧
    t.reports.postponed.get k = (s.reports.postponed.get k && !t.settings.enables.get k)

/-- What a change of the frame rate or of the reference select does to the lock (R126, R127, notes/assumptions/18.md). -/
def timebaseActed (s t : State) : Prop :=
  let changes := s.settings.frameRate ≠ t.settings.frameRate ∨ s.settings.refSelect ≠ t.settings.refSelect
  (¬ changes → t.timebase = s.timebase) ∧
  (changes → s.timebase.lock = .free →
    t.timebase = { s.timebase with qualifyingRun := 0, lastEdge := none }) ∧
  (changes → s.timebase.lock = .locked → t.timebase = { s.timebase with
    lock := .free, qualifyingRun := 0, lastEdge := none, announceLock := false
    runRate := t.settings.frameRate, runIndex := 0, periodLength := freePeriod t.settings.frameRate 0 })

/-- What the blocks do at a settings take. -/
structure SettingsActed (s t : State) : Prop where
  channels : ∀ c, channelActed s t c ∧ pressedActed s t c
  ports : ∀ p, portActed s t p ∧ armActed s t p
  authority : ∀ c, authorityActed s t c
  lamps : lampsActed s t
  classes : classesActed s t
  timebase : timebaseActed s t

/-! ### One advance (R42 to R57)

`v` is the taken view, `f` the Line Cache, and rows are view rows. -/

/-- The line at a row and its record, where the line is resident. -/
def rowRecord (v : List ViewEntry) (f : Fetch) (row : Nat) : Option (Anchor × LineRecord) :=
  (lineAtRow v row).bind fun x => (f.record x.1.slot x.2).map fun r => (⟨x.1.slot, x.2⟩, r)

/-- A forward walk may go on from a row into the next (R52). -/
def opensForward (v : List ViewEntry) (f : Fetch) (row : Nat) : Prop :=
  rowReady v row = true ∧ rowReady v (row + 1) = true ∧ (rowRecord v f (row + 1)).isSome

/-- The line before a row lies in an earlier story that is not ready (R52, R56). -/
def closedAbove (v : List ViewEntry) (row : Nat) : Prop :=
  ∃ p e, lineAtRow v (row - 1) = some p ∧ lineAtRow v row = some e ∧ p.1.slot ≠ e.1.slot ∧ p.1.ready = false

/-- A backward walk may go on from a row into the row before it (R52). -/
def opensBackward (v : List ViewEntry) (f : Fetch) (row : Nat) : Prop :=
  0 < row ∧ ¬ closedAbove v row ∧ (rowRecord v f (row - 1)).isSome

/-- The lines entered by a walk through `rows`, in order, each with its pattern (R140). -/
def linesEntered (v : List ViewEntry) (f : Fetch) (rows : List Nat) : List Entered :=
  rows.filterMap fun r => (rowRecord v f r).map fun x => ⟨x.1, x.2.pattern⟩

/-- The signalling crossings of the tops of `rows`, in order, each with its direction (R140). -/
def topsCrossed (v : List ViewEntry) (f : Fetch) (rows : List Nat) (dir : Anchor → Direction) : List Crossing :=
  rows.filterMap fun r => (rowRecord v f r).bind fun x =>
    if x.2.cue.signalling then some ⟨x.1, dir x.1⟩ else none

/-- The rows 1 to `n` after a row. -/
def rowsAfter (row n : Nat) : List Nat := (List.range n).map (row + 1 + ·)

/-- A forward walk toward the position value `target` that enters `n` lines (R52 to R55, R57). -/
structure WalkedForward (v : List ViewEntry) (f : Fetch) (row n target : Nat) (speed : Int) (adv : Advance) :
    Prop where
  place : adv.row = row + n
  fraction : adv.fraction ≤ 1023
  opens : ∀ m, m < n → opensForward v f (row + m)
  entered : adv.entered = linesEntered v f (rowsAfter row n)
  crossings : adv.crossings = topsCrossed v f (rowsAfter row n) fun _ => .forward
  reached : adv.stop = .reached → adv.row * 1024 + adv.fraction = target ∧ adv.speed = speed ∧
    (adv.fraction = 1023 → rowReady v (adv.row + 1) = true)
  horizon : ∀ l, adv.stop = .horizon l → adv.fraction = 1023 ∧ adv.speed = speed ∧ (adv.row + 1) * 1024 ≤ target ∧
    rowReady v adv.row = true ∧ rowReady v (adv.row + 1) = true ∧ anchorAtRow v (adv.row + 1) = some l ∧
    f.record l.slot l.line = none
  boundary : ∀ k, adv.stop = .boundary k → adv.fraction = 1023 ∧ adv.speed = 0 ∧ adv.row * 1024 + 1023 ≤ target ∧
    ∃ e line, lineAtRow v (adv.row + 1) = some (e, line) ∧ k = e.slot ∧
      (target = adv.row * 1024 + 1023 → e.ready = false) ∧ (rowReady v adv.row = true → e.ready = false)
  bottom : adv.stop = .bottom → adv.fraction = 1023 ∧ adv.speed = 0 ∧ adv.row * 1024 + 1023 ≤ target ∧
    lineAtRow v (adv.row + 1) = none
  top : adv.stop ≠ .top

/-- A backward walk toward the position value `target` that enters `n` lines (R52, R53, R56, R57). A line that it
leaves is crossed where its cue is known, while it is resident. -/
structure WalkedBackward (v : List ViewEntry) (f : Fetch) (row n : Nat) (target speed : Int) (adv : Advance) :
    Prop where
  place : adv.row + n = row
  fraction : adv.fraction ≤ 1023
  opens : ∀ m, m < n → opensBackward v f (row - m)
  entered : adv.entered = linesEntered v f ((List.range n).map (row - 1 - ·))
  crossings : adv.crossings = topsCrossed v f ((List.range n).map (row - ·)) fun _ => .backward
  reached : adv.stop = .reached → (adv.row : Int) * 1024 + adv.fraction = target ∧ adv.speed = speed ∧
    (adv.fraction = 0 → 0 < adv.row ∧ ¬ closedAbove v adv.row)
  horizon : ∀ l, adv.stop = .horizon l → adv.fraction = 0 ∧ adv.speed = speed ∧ target < (adv.row : Int) * 1024 ∧
    0 < adv.row ∧ ¬ closedAbove v adv.row ∧ anchorAtRow v (adv.row - 1) = some l ∧ f.record l.slot l.line = none
  top : adv.stop = .top → adv.fraction = 0 ∧ adv.speed = 0 ∧ target ≤ (adv.row : Int) * 1024 ∧
    (adv.row = 0 ∨ closedAbove v adv.row)
  forward : adv.stop ≠ .bottom ∧ ∀ k, adv.stop ≠ .boundary k

/-- The advance by the distance `delta` with the speed `speed` (R51). -/
def Moved (v : List ViewEntry) (f : Fetch) (row fraction : Nat) (speed delta : Int) (adv : Advance) : Prop :=
  adv.landed = none ∧ (delta = 0 → adv = ⟨row, fraction, speed, [], [], .reached, none⟩) ∧
  (0 < delta → ∃ n, WalkedForward v f row n (row * 1024 + fraction + delta.toNat) speed adv) ∧
  (delta < 0 → ∃ n, WalkedBackward v f row n (row * 1024 + fraction + delta) speed adv)

/-- The nearest stopping cue of the reach lies `n` rows ahead (R48). -/
def CueAhead (v : List ViewEntry) (f : Fetch) (row n : Nat) : Prop :=
  1 ≤ n ∧ n ≤ 32 ∧ ∀ m, m < n → opensForward v f (row + m) ∧
    ∀ a r, rowRecord v f (row + m + 1) = some (a, r) → (r.cue.stopping = true ↔ m + 1 = n)

/-- A landing on the cue line `n` rows ahead (R50). -/
def Landed (v : List ViewEntry) (f : Fetch) (row n : Nat) (adv : Advance) : Prop :=
  adv.row = row + n ∧ adv.fraction = 0 ∧ adv.speed = 0 ∧ adv.stop = .reached ∧
  adv.landed = anchorAtRow v (row + n) ∧ adv.entered = linesEntered v f (rowsAfter row n) ∧
  adv.crossings = topsCrossed v f (rowsAfter row n) fun a =>
    if anchorAtRow v (row + n) = some a then .landing else .forward

/-! ### What a LIVE channel does at a frame event in RUNNING (R26)

`s` is the state before the frame event and `t` the state after it. -/

/-- The report is among the posts of the events from `s` to `t`, when none of them was dropped (R165). -/
def posted (s t : State) (r : Report) : Prop :=
  s.reports.dropped < 65535 → t.reports.dropped = s.reports.dropped → (⟨r, t.frame⟩ : Post) ∈ t.reports.queue

/-- The position, S and the holds of a channel between two of its stages. FREEZE stands apart: no stage changes it. -/
structure Standing where
  anchor : Option Anchor
  fraction : Nat
  speed : Int
  cue : Bool
  boundary : Bool
  exchange : Bool
  deriving DecidableEq, Repr

def Channel.standing (ch : Channel) : Standing :=
  ⟨ch.anchor, ch.fraction, ch.speed, ch.cue, ch.boundary, ch.exchange⟩

/-- A re-anchor and a jump: the position, with the fraction and S 0, and CUE and BOUNDARY away (R27, R28, R36). -/
def Standing.placed (a : Option Anchor) (x : Standing) : Standing :=
  { x with anchor := a, fraction := 0, speed := 0, cue := false, boundary := false }

/-- The anchor `b` that the view-change rule gives for a story `k` that the taken view `v` lacks (R27). `before` holds
the stories before it in the former view, nearest first, and `after` those after it; when the former view lacks it too,
`after` is the whole of that view. -/
def viewChanged (former v : List ViewEntry) (k : Slot) (b : Option Anchor) : Prop :=
  ∀ before after : List ViewEntry,
    ((∃ old, former = before.reverse ++ old :: after ∧ old.slot = k ∧ ∀ e ∈ before ++ after, e.slot ≠ k) ∨
      (before = [] ∧ after = former ∧ ∀ e ∈ former, e.slot ≠ k)) →
    (∀ xs e ys, after = xs ++ e :: ys → (∀ x ∈ xs, entryOf v x.slot = none) → (entryOf v e.slot).isSome →
      b = some ⟨e.slot, 0⟩) ∧
    ((∀ e ∈ after, entryOf v e.slot = none) →
      (∀ xs e ys e', before = xs ++ e :: ys → (∀ x ∈ xs, entryOf v x.slot = none) → entryOf v e.slot = some e' →
        b = some ⟨e.slot, e'.count - 1⟩) ∧
      ((∀ e ∈ before, entryOf v e.slot = none) → b = v.head?.map fun e => ⟨e.slot, 0⟩))

/-- Stage 2 places the anchor: there is none and the taken view holds a line, or the anchor does not stand in the taken
view (R28, R27). -/
def replaced (v : List ViewEntry) : Option Anchor → Bool
  | none => !v.isEmpty
  | some a => !(entryOf v a.slot).any fun e => decide (a.line < e.count)

/-- Stage 2 (R28, then R27), with the former view and the taken view `v`. -/
def anchorChecked (former v : List ViewEntry) (x y : Standing) : Prop :=
  (x.anchor = none → v = [] → y = x) ∧
  (∀ e rest, x.anchor = none → v = e :: rest → y = { x with anchor := some ⟨e.slot, 0⟩, fraction := 0 }) ∧
  ∀ a, x.anchor = some a →
    (v = [] → y = x.placed none) ∧
    (∀ e, entryOf v a.slot = some e →
      (a.line < e.count → y = x) ∧ (e.count ≤ a.line → y = x.placed (some ⟨a.slot, e.count - 1⟩))) ∧
    (v ≠ [] → entryOf v a.slot = none → viewChanged former v a.slot y.anchor ∧ y = x.placed y.anchor)

/-- EXCHANGE is held where it was, or where the anchor lies in the story of a running key search whose list lacks the
channel (R33). -/
def joins (s : State) (c : Chan) (a : Option Anchor) : Bool :=
  s.exchange.searcher.any fun sr => a.map (·.slot) == some sr.slot && !sr.members.any (·.channel == c)

/-- Stage 3 (R31): BOUNDARY is held in a story that is not ready, and leaves the hold set where the story and the one
after it are ready, or it is the last of the view. -/
def boundaryChecked (v : List ViewEntry) (x y : Standing) : Prop :=
  (x.anchor = none → y = x) ∧
  ∀ a e, x.anchor = some a → entryOf v a.slot = some e →
    (e.ready = false → y = { x with boundary := true }) ∧
    (e.ready = true → (∀ n, nextStory v a.slot = some n → n.ready = true) → y = { x with boundary := false }) ∧
    (e.ready = true → (∃ n, nextStory v a.slot = some n ∧ n.ready = false) → y = x)

/-- The reports of stages 2 and 3: ANCHOR_MOVED with its cause, when the channel was re-anchored, and BOUNDARY_HELD, when
BOUNDARY has entered the hold set (R40). -/
def checksPosted (s t : State) (c : Chan) (v : List ViewEntry) (x y z : Standing) : Prop :=
  (∀ a, x.anchor = some a → replaced v x.anchor →
    posted s t ⟨channelSlot c, .anchorMoved, if (entryOf v a.slot).isSome then 2 else 1, anchorSlotWord y.anchor,
      natWord (anchorLine y.anchor), match y.anchor with
        | some b => (s.story b.slot).storyId
        | none => 0⟩) ∧
  ∀ b, z.anchor = some b → z.boundary = true → y.boundary = false →
    posted s t ⟨channelSlot c, .boundaryHeld, slotWord b.slot, slotWord b.slot, 2, (s.story b.slot).storyId⟩

/-- Stage 4 with an admitted story jump of port `p` (R36); `done` says that it was executed. That a refusal leaves S
within its bounds is notes/assumptions/13.md, the model's choice. -/
def jumpActed (s t : State) (c : Chan) (v : List ViewEntry) (freeze : Bool) (p : PortId) (j : StoryJump)
    (done : Bool) (x y : Standing) : Prop :=
  let target := x.anchor.bind fun a =>
    match j with
    | .next => nextStory v a.slot
    | .prev => prevStory v a.slot
  let vmax : Int := (s.chanSet c).vmax
  let held : Int := if freeze || x.exchange then 0 else max (-vmax) (min vmax x.speed)
  let refused := fun reason : CommandResult => done = false ∧ y = { x with speed := held } ∧
    posted s t ⟨portSlot p, .jumpRefused, natWord c.val, natWord j.code, natWord reason.code,
      anchorSlotWord x.anchor⟩
  (freeze = true → refused .frozen) ∧
  (freeze = false → x.exchange = true → refused .busy) ∧
  (freeze = false → x.exchange = false →
    (∀ e, target = some e → e.ready = true → done = true ∧ y = x.placed (some ⟨e.slot, 0⟩)) ∧
    ((∀ e, target = some e → e.ready = false) → refused .badTarget))

/-- The advance of stage 4 by demand `d` and jog `j` on the Line Cache as it stood at the frame event (R42), from the
row at which the anchor stands in the taken view. -/
def State.advanceAt (s : State) (c : Chan) (v : List ViewEntry) (freeze : Bool) (x : Standing) (d j : Int)
    (row : Nat) : Advance :=
  advance (s.chanSet c) v s.fetch row x.fraction x.speed ⟨x.cue, x.boundary, freeze, x.exchange⟩ d j

/-- Stage 4 without a story jump: what the advance makes of the channel (R57). -/
def advanceActed (v : List ViewEntry) (row : Nat) (adv : Advance) (x y : Standing) : Prop :=
  let lower := adv.row * 1024 + adv.fraction < row * 1024 + x.fraction
  y.anchor = (anchorAtRow v adv.row).or x.anchor ∧ y.fraction = adv.fraction ∧ y.speed = adv.speed ∧
  (y.cue = true ↔ adv.landed.isSome ∨ x.cue = true ∧ y.anchor = x.anchor) ∧
  (y.boundary = true ↔ (∃ k, adv.stop = .boundary k) ∨ x.boundary = true ∧ ¬ lower) ∧
  y.exchange = x.exchange

/-- The reports of the advance (R54, R58); `y` is the channel after it, and the flags are those the channel holds
(notes/assumptions/47.md, the model's choice). -/
def advancePosted (s t : State) (c : Chan) (d : Int) (adv : Advance) (x y : Standing) : Prop :=
  (∀ cue, adv.landed = some cue → posted s t ⟨channelSlot c, .cueReached, slotWord cue.slot, natWord cue.line,
    natWord (((s.fetch.record cue.slot cue.line).map (·.cue.code)).getD 0), (s.story cue.slot).storyId⟩) ∧
  (adv.landed = none →
    (∀ l, adv.stop = .horizon l → (s.chan c).starve = false → posted s t
      ⟨channelSlot c, .starved, slotWord l.slot, natWord l.line, if adv.fraction = 0 then 2 else 1,
        natWord (min ((s.chan c).starveCount + 1) 65535)⟩) ∧
    (∀ k a, adv.stop = .boundary k → x.boundary = false → y.anchor = some a → posted s t
      ⟨channelSlot c, .boundaryHeld, slotWord a.slot, slotWord k, 1, (s.story k).storyId⟩) ∧
    ∀ a, adv.stop = .bottom → (s.chan c).atEnd = false → y.anchor = some a → posted s t
      ⟨channelSlot c, .endReached, slotWord a.slot, natWord a.line, intWord d, (s.story a.slot).storyId⟩)

/-- What the arbiter has handed the channel (R118, R119), by the holder published: the demand, the jog and the story jump
admitted. With no holder, the jump is that of the first port in service order that could have claimed. -/
def State.handing (s t : State) (c : Chan) : Int × Int × Option (PortId × StoryJump) :=
  let jumpOf := fun p : PortId => ((handOn s p).jump).map fun j => (p, j)
  match (t.chan c).pub.holder with
  | some (.port p) => ((handOn s p).demand, (handOn s p).jog, if isSource s c p then jumpOf p else none)
  | some .console => ((s.auth c).consoleDemand, (s.auth c).consoleJog, none)
  | none => (0, 0, ((portsOfRole s .operator ++ portsOfRole s .presenter).find? fun p =>
      isSource s c p && (handOn s p).jump.isSome && couldClaim { s with armed := t.armed } c p).bind jumpOf)

/-- What a LIVE channel publishes (R39), from its standing after stage 5. -/
def livePublished (s t : State) (c : Chan) (v : List ViewEntry) (starved : Bool) (x : Standing) : Prop :=
  let old := s.chan c
  let pub := (t.chan c).pub
  pub.mode = .live ∧ pub.leader = (s.chanSet c).leader ∧ pub.anchor = x.anchor ∧ pub.fraction = x.fraction ∧
  pub.speed = x.speed ∧ pub.holds = ⟨x.cue, x.boundary, old.freeze, x.exchange⟩ ∧ pub.latch = old.latch ∧
  pub.view = v ∧ pub.atEnd = atBottom v x.anchor x.fraction ∧ pub.starve = starved ∧
  pub.starveCount = (if starved && !old.starve then min (old.starveCount + 1) 65535 else old.starveCount) ∧
  pub.holder = (t.auth c).holder ∧ pub.frame = s.frame + 1

/-- The frame event of a LIVE channel, stage by stage, and the crossing record `r` it hands to the Lamp Unit with its
publication (R26, R140). `x` is its standing before stage 2, `y` after it, `z` after stage 3, `w` after stage 4. -/
def LiveFrame (s t : State) (c : Chan) (r : CrossingRecord) : Prop :=
  let ch := s.chan c
  let v := scriptView s c
  let x := ch.standing
  let (d, j, jump) := s.handing t c
  ∃ y z w : Standing,
    anchorChecked ch.view v x y ∧
    boundaryChecked v { y with exchange := y.exchange || joins s c y.anchor } z ∧
    checksPosted s t c v x y z ∧
    let caught := !w.exchange && joins s c w.anchor
    let final := { w with exchange := w.exchange || caught, speed := if caught then 0 else w.speed }
    let moved := replaced v x.anchor
    (t.chan c).pub.demand = d ∧
    (∀ p k, jump = some (p, k) → ∃ done, jumpActed s t c v ch.freeze p k done z w ∧
      livePublished s t c v false final ∧ r = ⟨ch.placed || moved || done, [], []⟩) ∧
    (jump = none →
      (z.anchor.bind (viewRow v) = none → w = z ∧ livePublished s t c v false final ∧
        r = ⟨ch.placed || moved, [], []⟩) ∧
      ∀ row, z.anchor.bind (viewRow v) = some row →
        let adv := s.advanceAt c v ch.freeze z d j row
        advanceActed v row adv z w ∧ advancePosted s t c d adv z w ∧
        livePublished s t c v adv.stop.isHorizon final ∧
        r = ⟨ch.placed || moved, adv.entered, adv.crossings⟩)

/-! ### What the Lamp Unit does at a frame event in RUNNING (R140 to R145) -/

/-- A cache place through the issues of reads (R82): its entry stands, but for the frame at which it was last needed, or
a read has taken the place, which was not FILLING and now is. -/
def Place.Issued (p q : Place) : Prop :=
  p = q ∨ (∃ e n, p = .held e ∧ q = .held { e with lastNeeded := n }) ∨
  (∃ e, q = .held e ∧ e.state = .filling) ∧ ∀ e, p = .held e → e.state ≠ .filling

/-- The cache through the issues of reads, place by place. -/
def Fetch.Issued (f g : Fetch) : Prop := ∀ i, (f.cache.get i).Issued (g.cache.get i)

/-- The crossing record that a channel's publication hands to the Lamp Unit (R140); `f` is the cache at that
publication. -/
def recorded (s t : State) (f : Fetch) (c : Chan) (r : CrossingRecord) : Prop :=
  let placed := (s.chan c).placed
  (s.mode c = .live → LiveFrame s t c r) ∧ (s.mode c = .off → r = ⟨placed, [], []⟩) ∧
  (s.mode c = .follow →
    ((t.chan c).pub.anchor = none ∨ (t.chan c).pub.anchor = (s.chan c).pub.anchor → r = ⟨placed, [], []⟩) ∧
    ∀ a, (t.chan c).pub.anchor = some a → (s.chan c).pub.anchor ≠ some a →
      r = ⟨placed, [⟨a, (f.record a.slot a.line).bind (·.pattern)⟩], []⟩)

/-- What the Lamp Unit makes of the record: the patterns of the channel's groups (R141, R142), the strobe (R144) and
CUE_PASSED (R145). -/
def lampsPublished (s t : State) (f : Fetch) (c : Chan) (r : CrossingRecord) : Prop :=
  (∀ g, s.settings.groupChannel.get g = c →
    (s.settings.groupMode.get g = .latch → t.lamps.pattern.get g = latchPattern r (s.lamps.pattern.get g)) ∧
    (s.settings.groupMode.get g = .span → t.lamps.pattern.get g = spanPattern f (t.chan c).pub.anchor)) ∧
  (r.crossings = [] → t.lamps.strobe.get c = s.lamps.strobe.get c) ∧
  ∀ x, r.crossings.getLast? = some x → t.lamps.strobe.get c = 100 ∧ posted s t
    ⟨channelSlot c, .cuePassed, slotWord x.line.slot, natWord x.line.line, natWord r.crossings.length,
      natWord x.direction.code⟩

/-! ### The settings shadow that a take makes of a block (R158, R174, R183) -/

/-- A setting is the one of its names that the value taken for its field numbers (R183). -/
def NamedBy {α : Type} (names : List α) (taken : Int) (setting : α) : Prop :=
  0 ≤ taken ∧ names[taken.toNat]? = some setting

/-- The colour of a colour field: red in byte 0, green in byte 1, blue in byte 2 (R174). -/
def fieldColour (block : List Byte) (i : Nat) : Rgb :=
  ⟨byteAt block (16 + 4 * i), byteAt block (17 + 4 * i), byteAt block (18 + 4 * i)⟩

/-- The FOLLOW check of R21 turns a channel to OFF. -/
def FollowOff (block : List Byte) (c leader : Chan) : Prop :=
  modeWritten block c = .follow ∧ (leader = c ∨ modeWritten block leader ≠ .live)

/-- The settings of channel `c` are those of its 28 fields (R21, R41, R110, R174). -/
def ChannelTaken (block : List Byte) (c : Chan) (t : ChannelSettings) : Prop :=
  let x := fun k => fieldTaken block (28 * c.val + k)
  NamedBy [.off, .live, .follow] (x 0) (modeWritten block c) ∧
  (FollowOff block c t.leader → t.mode = .off) ∧ (¬ FollowOff block c t.leader → t.mode = modeWritten block c) ∧
  (t.leader.val : Int) = x 1 ∧ t.offset = x 2 ∧ (t.vmax : Int) = x 3 ∧ (t.accel : Int) = x 4 ∧
  (t.approach : Int) = x 5 ∧ (t.crawl : Int) = x 6 ∧ (∀ k : Fin 17, (t.curve.get k : Int) = x (7 + k.val)) ∧
  NamedBy [.operator, .presenter, .takeover] (x 24) t.authMode ∧ (t.releaseTime : Int) = x 25

/-- The settings of port `p` are those of its 24 fields (R93, R139, R174). -/
def PortTaken (block : List Byte) (p : PortId) (t : PortSettings) : Prop :=
  let x := fun k => fieldTaken block (112 + 24 * p.val + k)
  let on := fun k => fieldWord block (112 + 24 * p.val + k) ≠ 0
  let action := NamedBy [Action.none, .go, .freezeHold, .freezeToggle, .reverseHold, .storyNext, .storyPrev, .take,
    .mark, .zero]
  NamedBy [.off, .lever, .wheel, .keys] (x 0) t.mode ∧ (t.channel.val : Int) = x 1 ∧
  NamedBy [.presenter, .operator] (x 2) t.role ∧ (t.invert.a = true ↔ on 3) ∧ (t.invert.b = true ↔ on 4) ∧
  (t.invert.c = true ↔ on 5) ∧ (t.debounce : Int) = x 6 ∧ action (x 7) t.action.a ∧ action (x 8) t.action.b ∧
  action (x 9) t.action.c ∧ (t.center : Int) = x 10 ∧ (t.deadband : Int) = x 11 ∧ (t.span : Int) = x 12 ∧
  (t.reverse = true ↔ on 13) ∧ (t.lossLimit : Int) = x 14 ∧ NamedBy [.jog, .speed] (x 15) t.wheelFunction ∧
  (t.jogScale : Int) = x 16 ∧ (t.demandStep : Int) = x 17 ∧
  NamedBy [.off, .on, .authority, .hold, .strobe] (x 18) t.lampSelect

/-- The settings of head `h` are those of its 16 fields (R132, R174). -/
def HeadTaken (block : List Byte) (h : HeadId) (t : HeadSettings) : Prop :=
  let x := fun k => fieldTaken block (320 + 16 * h.val + k)
  let on := fun k => fieldWord block (320 + 16 * h.val + k) ≠ 0
  let colour := fun k => fieldColour block (320 + 16 * h.val + k)
  (t.enable = true ↔ on 0) ∧ (t.channel.val : Int) = x 1 ∧ (t.rows : Int) = x 2 ∧ (t.readingRow : Int) = x 3 ∧
  (t.columns : Int) = x 4 ∧ (t.mirror = true ↔ on 5) ∧ (t.flip = true ↔ on 6) ∧
  NamedBy [.arrow, .bar, .none] (x 7) t.marker ∧ t.normal = ⟨colour 8, colour 9⟩ ∧
  t.emphasis = ⟨colour 10, colour 11⟩ ∧ t.direction = ⟨colour 12, colour 13⟩ ∧ t.slug = ⟨colour 14, colour 15⟩

/-- The settings shadow holds what a take makes of a block, field by field (R174; for the group channels
notes/assumptions/26.md). -/
def BlockTaken (block : List Byte) (t : Settings) : Prop :=
  let x := fieldTaken block
  (∀ c, ChannelTaken block c (t.channels.get c)) ∧ (∀ p, PortTaken block p (t.ports.get p)) ∧
  NamedBy [.fps24, .fps25, .fps50, .fps5994, .fps60] (x 304) t.frameRate ∧
  NamedBy [.internal, .ref] (x 305) t.refSelect ∧ (∀ h, HeadTaken block h (t.heads.get h)) ∧
  (∀ g, ((t.groupChannel.get g).val : Int) = x (416 + g.val)) ∧
  (∀ g, NamedBy [.latch, .span] (x (420 + g.val)) (t.groupMode.get g)) ∧
  (∀ m, NamedBy [.undriven, .low, .high, .bit, .bitInv, .hold, .strobe] (x (424 + m.val)) (t.markSelect.get m)) ∧
  (t.enables.input = true ↔ fieldWord block 440 ≠ 0) ∧ (t.enables.motion = true ↔ fieldWord block 441 ≠ 0) ∧
  (t.enables.script = true ↔ fieldWord block 442 ≠ 0) ∧ (t.enables.control = true ↔ fieldWord block 443 ≠ 0) ∧
  (t.enables.timing = true ↔ fieldWord block 444 ≠ 0)

/-- The SETTINGS_TAKEN report of a take of `block` (R162), with argument 4 as given. -/
def takenReport (block : List Byte) (inStart : Word) : Report :=
  ⟨16, .settingsTaken, word block 0, natWord (adjustedIndices block).length,
    ((adjustedIndices block).head?.map natWord).getD 0xFFFFFFFF, inStart⟩

/-! ### What a head draws (R133 to R136) -/

/-- Pixel row `y` of the row of cells that shows a well-formed line (R135, R130): the glyph of each position up to the
columns, in the colour pair of the line's style. -/
def textShown (g : GlyphStore) (hs : HeadSettings) (r : LineRecord) (y : Nat) (pixels : List Rgb) : Prop :=
  let pair := match r.style with
    | .normal => hs.normal
    | .emphasis => hs.emphasis
    | .direction => hs.direction
    | .slug => hs.slug
  pixels.length = hs.columns * g.width ∧ ∀ x, x < hs.columns * g.width →
    let image := g.images.get (r.text.getD (x / g.width) 0).toFin
    let bit := (byteAt image (y * ((g.width + 7) / 8) + x % g.width / 8)).getLsbD (7 - x % g.width % 8)
    pixels[x]? = some (if x / g.width < min r.textLength hs.columns ∧ bit = true then pair.foreground
      else pair.background)

/-- Pixel row `y` of the window row that shows view row `row`, across the text area: the first case of R135 that
applies. -/
def contentShown (g : GlyphStore) (hs : HeadSettings) (v : List ViewEntry) (f : Fetch) (row : Int) (y : Nat)
    (pixels : List Rgb) : Prop :=
  let solid := fun c : Rgb => pixels = List.replicate (hs.columns * g.width) c
  (row < 0 ∨ viewSize v ≤ row → solid hs.normal.background) ∧
  ∀ e line, 0 ≤ row → lineAtRow v row.toNat = some (e, line) →
    (e.ready = false → solid ⟨128, 128, 128⟩) ∧
    (e.ready = true → f.lookup e.slot line = none →
      solid (if y = g.height / 2 then hs.normal.foreground else hs.normal.background)) ∧
    ∀ x, e.ready = true → f.lookup e.slot line = some x →
      (x.state = .filling →
        solid (if y = g.height / 2 then hs.normal.foreground else hs.normal.background)) ∧
      (∀ n, x.state = .failed n → solid ⟨255, 0, 0⟩) ∧
      ∀ r, x.state = .resident r →
        (x.malformed = true → solid ⟨255, 0, 0⟩) ∧ (x.malformed = false → textShown g hs r y pixels)

/-- The reading marker's pixel at column `x` and pixel row `y` of its cell (R136), `drawn` or background. The pixels
named are those wholly outside the shape, in its straight outline, wholly inside the slanted one, or wholly in or out of
the band; the others are free values (notes/assumptions/21.md). The place of the ARROW's point is
notes/assumptions/41.md, the reading of the outline notes/assumptions/25.md. -/
def markerShown (marker : Marker) (w h : Nat) (holds : HoldSet) (x y : Nat) (drawn : Bool) : Prop :=
  let barred := holds.freeze = true ∨ holds.exchange = true
  let outlined := ¬ barred ∧ (holds.cue = true ∨ holds.boundary = true)
  let solid := ¬ barred ∧ ¬ outlined
  let inBand := h ≤ 3 * y ∧ 3 * (y + 1) ≤ 2 * h
  let offBand := 3 * (y + 1) ≤ h ∨ 2 * h ≤ 3 * y
  (marker = .bar →
    let edge := x < 2 ∨ w ≤ x + 2 ∨ y < 2 ∨ h ≤ y + 2
    (solid ∨ edge → drawn = true) ∧ (¬ edge → outlined → drawn = false) ∧
    (¬ edge → barred → (inBand → drawn = true) ∧ (offBand → drawn = false))) ∧
  (marker = .arrow →
    let outside := 2 * w * (y + 1) ≤ x * h ∨ 2 * w * (h - y) ≤ x * h
    let inside := (x + 1) * h ≤ 2 * w * y ∧ (x + 1) * h ≤ 2 * w * (h - 1 - y)
    let far := fun z : Nat => 0 < (2 * w * z - h * (x + 1) : Int) ∧
      (4 * (4 * w * w + h * h) : Int) < (2 * w * z - h * (x + 1)) * (2 * w * z - h * (x + 1))
    let interior := 2 ≤ x ∧ far y ∧ far (h - 1 - y)
    (outside → drawn = false) ∧ (inside → solid ∨ x < 2 → drawn = true) ∧
    (inside → barred → inBand → drawn = true) ∧ (inside → interior → outlined → drawn = false) ∧
    (inside → interior → barred → offBand → drawn = false))

/-- Raster row `y` of the column of the marker cell (R134, R136). -/
def columnShown (g : GlyphStore) (hs : HeadSettings) (holds : HoldSet) (y : Nat) (pixels : List Rgb) : Prop :=
  let top := hs.readingRow * g.height
  (hs.marker = .none → pixels = []) ∧
  (hs.marker ≠ .none → pixels.length = g.width ∧ ∀ x, x < g.width → ∃ drawn,
    pixels[x]? = some (if drawn then hs.normal.foreground else hs.normal.background) ∧
    (y < top ∨ top + g.height ≤ y → drawn = false) ∧
    (top ≤ y → y < top + g.height → markerShown hs.marker g.width g.height holds x (y - top) drawn))

/-- The script window of a LIVE head whose channel published an anchor at view row `a` (R134): each raster row is the
column of the marker cell, then the text area at the pixel row that the fraction has moved there. -/
def windowShown (s : State) (hs : HeadSettings) (a : Nat) (r : Raster) : Prop :=
  let g := s.glyphs
  let ch := s.chan hs.channel
  ∀ y, y < hs.rows * g.height →
    let z := y + ch.pub.fraction * g.height / 1024
    ∃ left right, r.rows[y]? = some (left ++ right) ∧ columnShown g hs ch.pub.holds y left ∧
      contentShown g hs ch.view s.fetch ((a : Int) - hs.readingRow + (z / g.height : Nat)) (z % g.height) right

/-- The standby card (R133). That its band goes across the whole raster is notes/assumptions/50.md. -/
def cardShown (g : GlyphStore) (hs : HeadSettings) (r : Raster) : Prop :=
  let top := hs.readingRow * g.height
  ∀ y, y < hs.rows * g.height → ∃ pixels, r.rows[y]? = some pixels ∧ ∀ x ∈ pixels, x =
    if top ≤ y ∧ y < top + g.height then hs.normal.foreground else hs.normal.background

end Sys2Proof.Machine
end

