-- ==== Sys2Proof/Certificates/Slice0/Obligations.lean ====
section
/-! DEFINITION. The statements for the provers. Where a statement gives the next state as the old one with fields
replaced, every field it does not name is unchanged: that is its frame. -/

open Sys2Proof Sys2Proof.Machine

/-! ### The step -/

/-- A step runs the command at the front of the queue on the queue's rest; on an empty queue the capture count
advances by one and nothing else changes (notes/assumptions/1.md: the idle step is the model's choice). -/
def Obligations.StepRunsTheFrontCommand : Prop :=
  (∀ (c : Instr) (rest : List Instr) (s : State),
    step { s with pending := c :: rest } = exec c { s with pending := rest }) ∧
  ∀ s : State, s.pending = [] →
    step s = .next { s with timebase := { s.timebase with captureCount := s.timebase.captureCount + 1 } }

/-- Every command answers a next state in every state, the part having no event that stops the model, and it changes
nothing of the queue of waiting commands. -/
def Obligations.EveryCommandCompletesAndKeepsTheQueue : Prop :=
  ∀ (c : Instr) (s : State), ∃ t, exec c s = .next t ∧ t.pending = s.pending

/-- What reset leaves, item by item as the chapters give it: the engine and its registers (R149, R155), the scroll
channels (R20), the ports (R95), the arbiter (R111), the timebase (R122), the glyph store (R131), the heads' blank
flags and last composed frames (R132), the lamps (R139), the reports (R164), the shadows (R1), every setting (R21,
R41, R93, R110, R122, R132, R139, R164), and no work in progress (R59, R76). The size of the black frame is
the model's reading (notes/assumptions/23.md). -/
def Obligations.ResetLeavesTheStatedValues : Prop :=
  let s := State.reset
  (s.engine = .stopped ∧ s.area.haltCause = .none ∧ s.area.areaLo = 0 ∧ s.area.areaHi = 0 ∧
    s.area.scan = none ∧ s.area.start = none ∧ s.area.takenGeneration = 0 ∧
    (∀ n, s.area.commandDone.get n = 0) ∧
    s.area.header = ⟨0, 0, 0, 0, 0, 0, 0, 0⟩) ∧
  (∀ c, let ch := s.chan c
    ch.anchor = none ∧ ch.fraction = 0 ∧ ch.key = none ∧ ch.holds = ⟨false, false, false, false⟩ ∧
    ch.latch = false ∧ (∀ p l, (ch.pressed.get p).get l = false) ∧ ch.speed = 0 ∧ ch.demand = 0 ∧
    ch.starve = false ∧ ch.starveCount = 0 ∧ ch.atEnd = false ∧ ch.view = []) ∧
  (∀ p, let q := s.port p
    q.phase = .off ∧ q.periodStart = none ∧ q.highTime = none ∧ q.lastHigh = 0 ∧ q.lastPeriod = 0 ∧
    q.position = 0 ∧ q.value = 0 ∧ q.validRun = 0 ∧ q.invalidRun = 0 ∧ q.edgeAge = 0 ∧ q.timeLost = 0 ∧
    q.lostCount = 0 ∧ q.quad = none ∧ q.errorCount = 0 ∧ q.jog = 0 ∧ q.standing = 0 ∧
    (∀ l, q.buttons.get l = ⟨.unset, 0⟩ ∧ q.reverseSet.get l = false) ∧ q.take = false ∧ q.jump = none) ∧
  (∀ c, s.auth c = ⟨none, 0, 0, 0⟩) ∧ (∀ p, s.armed.get p = false) ∧
  (s.timebase.lock = .free ∧ s.timebase.qualifyingRun = 0 ∧ s.timebase.lastEdge = none ∧
    s.timebase.lastPeriod = 0 ∧ s.timebase.missed = 0 ∧ s.timebase.lockedFrames = 0 ∧ s.frame = 0) ∧
  (s.glyphs.width = 12 ∧ s.glyphs.height = 20 ∧ ∀ k, ∀ b ∈ s.glyphs.images.get k, b = 0) ∧
  (∀ h, (s.head h).blank = false ∧ (s.head h).lastComposed.width = 492 ∧
    (s.head h).lastComposed.height = 320 ∧
    ∀ row ∈ (s.head h).lastComposed.rows, ∀ x ∈ row, x = ⟨0, 0, 0⟩) ∧
  ((∀ g, s.lamps.pattern.get g = 0) ∧ (∀ c, s.lamps.strobe.get c = 0) ∧ s.lamps.driven = false) ∧
  ((∀ k, s.reports.heldCount.get k = 0) ∧ s.reports.queue = [] ∧ s.reports.current = none ∧
    irqCauseWord s = 0 ∧ (∀ k, s.reports.postponed.get k = false) ∧ s.reports.dropped = 0) ∧
  s.rundown = ⟨[], .a, 0, 0⟩ ∧
  (∀ k, let st := s.story k
    st.present = false ∧ st.ready = false ∧ st.mask = 0 ∧ st.storyId = 0 ∧ st.request = 0 ∧ st.done = 0 ∧
    st.mode = .clear ∧ st.side = .a ∧ st.result = 0 ∧ st.address = 0 ∧ st.count = 0) ∧
  (∀ c, let cs := s.chanSet c
    cs.mode = .off ∧ cs.leader = 0 ∧ cs.offset = 0 ∧ cs.vmax = 1024 ∧ cs.accel = 32 ∧ cs.approach = 8 ∧
    cs.crawl = 64 ∧ (∀ i, cs.curve.get i = 0) ∧ cs.authMode = .takeover ∧ cs.releaseTime = 25) ∧
  (∀ p, let ps := s.portSet p
    ps.mode = .off ∧ ps.channel = 0 ∧ ps.role = .presenter ∧
    (∀ l, ps.invert.get l = false ∧ ps.action.get l = .none) ∧ ps.debounce = 5 ∧ ps.center = 2048 ∧
    ps.deadband = 64 ∧ ps.span = 1536 ∧ ps.reverse = false ∧ ps.lossLimit = 50 ∧ ps.wheelFunction = .jog ∧
    ps.jogScale = 256 ∧ ps.demandStep = 8 ∧ ps.lampSelect = .off) ∧
  (s.rate = .fps25 ∧ s.settings.refSelect = .internal ∧ (∀ k, s.settings.enables.get k = false) ∧
    (∀ g, s.settings.groupChannel.get g = 0 ∧ s.settings.groupMode.get g = .latch) ∧
    ∀ m, s.settings.markSelect.get m = .undriven) ∧
  (∀ h, let hs := s.headSet h
    let pair : ColourPair := ⟨⟨255, 255, 255⟩, ⟨0, 0, 0⟩⟩
    hs.enable = false ∧ hs.channel = 0 ∧ hs.rows = 16 ∧ hs.readingRow = 4 ∧ hs.columns = 40 ∧
    hs.mirror = false ∧ hs.flip = false ∧ hs.marker = .arrow ∧
    hs.normal = pair ∧ hs.emphasis = pair ∧ hs.direction = pair ∧ hs.slug = pair) ∧
  s.exchange = .idle ∧ s.fetch.queue = [] ∧ (∀ c, s.fetch.needs.get c = []) ∧
  (∀ i, s.fetch.cache.get i = .free) ∧ s.writes = []

/-! ### Invariants that every step keeps -/

/-- The reset state meets every invariant below. -/
def Obligations.ResetMeetsTheInvariants : Prop := State.reset.wf

/-- Every step keeps the bounds of the Post Queue and of the dropped-post count (R164, R165). -/
def Obligations.StepKeepsReportBounds : Prop :=
  ∀ s t : State, s.reports.bounded → step s = .next t → t.reports.bounded

/-- Every step keeps the items of every hand port in the ranges of R95. -/
def Obligations.StepKeepsPortRanges : Prop :=
  ∀ s t : State, portsInRange s → step s = .next t → portsInRange t

/-- Every step keeps the Fetch Queue within 32 entries, 8 of them ISSUED (R76, R80 to R82). -/
def Obligations.StepKeepsFetchBounds : Prop :=
  ∀ s t : State, s.fetch.bounded → step s = .next t → t.fetch.bounded

/-- Every step keeps every position, and every published position, a fraction of 0..1023 that is 0 at anchor NONE
(R24), and S 0 at anchor NONE and in every mode but LIVE (R22, R27, R38). -/
def Obligations.StepKeepsPositions : Prop :=
  ∀ s t : State, channelsPositioned s → step s = .next t → channelsPositioned t

/-- Every step keeps the engine state consistent with what is in progress (R151 to R156, R167). -/
def Obligations.StepKeepsEngineConsistency : Prop :=
  ∀ s t : State, s.engineConsistent → step s = .next t → t.engineConsistent

/-! ### Rules of the whole machine -/

/-- HALTED is left by a soft reset or a power-on reset: every other command leaves the engine HALTED with the cause it
had (R151, R154). -/
def Obligations.OnlyAResetLeavesHalted : Prop :=
  ∀ (c : Instr) (s t : State), c.wellFormed = true → s.engineConsistent → s.engine = .halted →
    c ≠ .powerOnReset → (∀ run look, c ≠ .softReset run look) → exec c s = .next t →
    t.engine = .halted ∧ t.area.haltCause = s.area.haltCause

/-- The Area base registers accept no change outside STOPPED, but at a power-on reset (R149, R155). -/
def Obligations.AreaBaseIsFixedOutsideStopped : Prop :=
  ∀ (c : Instr) (s t : State), c.wellFormed = true → s.engine ≠ .stopped → c ≠ .powerOnReset →
    exec c s = .next t → t.area.areaLo = s.area.areaLo ∧ t.area.areaHi = s.area.areaHi

/-- A bit of IRQ_CAUSE is cleared by a host write to IRQ_CAUSE or by a reset, and by nothing else (R168, R169). -/
def Obligations.OnlyTheHostClearsIrqCause : Prop :=
  ∀ (c : Instr) (s t : State), c.wellFormed = true → c ≠ .powerOnReset →
    (∀ run look, c ≠ .softReset run look) → (∀ v, c ≠ .irqCauseWrite v) → exec c s = .next t →
    (∀ k, s.reports.causes.get k = true → t.reports.causes.get k = true) ∧
    (s.reports.halt = true → t.reports.halt = true)

/-- A post in phase WRITE carries the held post count of its slot plus one (R166 step 3): every command keeps that. So
a held post count changes at the completion of a post alone, by exactly one in the slot of that post, and at a reset
(R164, R166). -/
def Obligations.PostCountsAdvanceByOne : Prop :=
  ∀ (c : Instr) (s t : State), s.reports.counted → exec c s = .next t →
    t.reports.counted ∧
    (c.wellFormed = true → c ≠ .powerOnReset → (∀ run look, c ≠ .softReset run look) →
      t.reports.heldCount = s.reports.heldCount ∨
      ∃ tag p r bytes count, c = .postWriteDone tag .written ∧
        s.reports.current = some ⟨p, .write r bytes count⟩ ∧
        t.reports.heldCount = s.reports.heldCount.set p.report.slot
          (s.reports.heldCount.get p.report.slot + 1))

/-! ### Engine control and the register window -/

/-- Both resets put every block at its reset values. The soft reset keeps AREA_LO and AREA_HI (R155). The values of the
items for which the manual gives none are the model's choice: the base in force, the Placed items, the last
publications, no lock to announce, and no raster composed or sent (notes/assumptions/39.md), and the size of the black
frame that every head holds (notes/assumptions/23.md). That the capture count, which counts without stop, and the
model's own fields go on is the model's choice too (notes/assumptions/4.md). -/
def Obligations.ResetsRestoreEveryBlock : Prop :=
  (∀ s : State, exec .powerOnReset s = .next { State.reset with
    timebase := { Timebase.reset with
      captureCount := s.timebase.captureCount, periodStart := s.timebase.captureCount }
    nextTag := s.nextTag, pending := s.pending }) ∧
  ∀ (run look : Bool) (s : State), exec (.softReset run look) s = .next { State.reset with
    area := { Area.reset with areaLo := s.area.areaLo, areaHi := s.area.areaHi }
    timebase := { Timebase.reset with
      captureCount := s.timebase.captureCount, periodStart := s.timebase.captureCount }
    nextTag := s.nextTag, pending := s.pending }

/-- RUN 1 in STOPPED begins the start sequence: STARTING, frame counter 0, every anchor key absent, the frames of kept
cache entries 0, and the header read issued at the Area base. With the Area base 0 it ends in HALTED with BAD_AREA at
once, and with the HALT bit set (R152, R169). That the header read covers all 48 bytes of the header is the model's
choice (notes/assumptions/46.md). -/
def Obligations.RunStartsTheSequence : Prop :=
  ∀ (look : Bool) (s : State), s.engine = .stopped →
    (s.area.base ≠ 0 → ∃ t, exec (.startSequence look) s = .next t ∧
      t.area = { s.area with
        engine := .starting, start := some (.header ⟨s.nextTag, s.area.base, 48⟩) } ∧
      (∀ c, t.chan c = { s.chan c with key := none }) ∧
      (∀ i, t.fetch.cache.get i =
        match s.fetch.cache.get i with
        | .held ⟨k, line, .failed _, m, _, n⟩ => .held ⟨k, line, .failed 0, m, 0, n⟩
        | .held e => .held { e with lastNeeded := 0 }
        | x => x) ∧
      t.fetch.queue = s.fetch.queue ∧ t.fetch.needs = s.fetch.needs ∧
      t = { s with
        area := t.area, channels := t.channels, fetch := t.fetch, nextTag := s.nextTag + 1
        timebase := { s.timebase with frameCounter := 0 } }) ∧
    (s.area.base = 0 → ∃ t, exec (.startSequence look) s = .next t ∧
      t.area = { s.area with engine := .halted, haltCause := .badArea, start := none, scan := none } ∧
      t.reports.halt = true ∧ t.reports.causes = s.reports.causes)

/-- RUN 0 in STARTING or RUNNING stops the engine (R153), and the blocks keep or clear their state: the channels (R23),
the ports (R95), the arbiter (R111), the Exchange Unit (R72) and the Fetch Unit (R90). LOOK_NOW in the same write
has no effect (R150). That a placement not yet published stays so across the stop is the model's choice
(notes/assumptions/52.md). -/
def Obligations.StopDropsTheWork : Prop :=
  ∀ (look : Bool) (s : State), s.engine = .starting ∨ s.engine = .running →
    ∃ t, exec (.stop look) s = .next t ∧
      t.area = { s.area with engine := .stopped, start := none, scan := none } ∧ t.exchange = .idle ∧
      (∀ c, t.chan c = { s.chan c with speed := 0, demand := 0, starve := false, exchange := false }) ∧
      (∀ p, t.port p = { s.port p with jog := 0, take := false, jump := none }) ∧
      (∀ c, t.auth c = ⟨none, 0, 0, 0⟩) ∧
      (∀ q ∈ t.fetch.queue, ∃ r i, q.state = .issued r i true) ∧
      (∀ c, t.fetch.needs.get c = []) ∧
      (∀ i e, s.fetch.cache.get i = .held e → e.state ≠ .filling → t.fetch.cache.get i = .held e) ∧
      t = { s with
        area := t.area, exchange := t.exchange, fetch := t.fetch, channels := t.channels
        ports := t.ports, authority := t.authority }

/-- LOOK_NOW with RUN 1 in RUNNING, with no scan in progress, begins a scan of origin LOOK_NOW with skipped count 0;
with RUN 0 it stops the engine and begins none. The scan's reads are those of R156: the rundown request generation,
the 256 story entries, the settings generation and the four command slots, and beside them the settings block, which
is read when the generation differs; that they are issued as one group under one name, and cover whole structures, is
the model's choice (notes/assumptions/22.md, notes/assumptions/46.md). The other rows of R150 have no effect: RUN 0 in STOPPED, RUN 1 in STARTING and RUNNING,
either in HALTED, and LOOK_NOW where the engine is not RUNNING after RUN or a scan is in progress (R150, R156). -/
def Obligations.LookNowAndTheRowsWithoutEffect : Prop :=
  ∀ (run look : Bool) (s : State),
    (s.engine = .running → s.area.scan = none →
      let h := s.area.header
      let place := fun (offset : Word) (i : Nat) => s.area.baseInForce + offset.setWidth 64 + BitVec.ofNat 64 i
      let reads : List Extent := ⟨place h.rundown 0, 4⟩ ::
        (List.finRange 256).map (fun k => ⟨place h.stories (64 * k.val), 64⟩) ++
        ⟨place h.settings 0, 4⟩ :: (List.finRange 4).map (fun n => ⟨place h.commands (32 * n.val), 32⟩)
      exec (.lookNow true) s = .next { s with
        area := { s.area with scan := some ⟨.lookNow, 0, ⟨s.nextTag, reads⟩, ⟨place h.settings 0, 1796⟩⟩ }
        nextTag := s.nextTag + 1 }) ∧
    (s.engine = .running → exec (.lookNow false) s = exec (.stop false) s ∧
      exec (.startSequence false) s = .next s ∧
      (s.area.scan.isSome → exec (.lookNow true) s = .next s)) ∧
    (s.engine = .halted → exec (.startSequence look) s = .next s ∧ exec (.stop look) s = .next s ∧
      exec (.lookNow run) s = .next s) ∧
    (s.engine = .stopped → exec (.stop look) s = .next s ∧ exec (.lookNow false) s = .next s) ∧
    (s.engine = .starting → exec (.startSequence look) s = .next s ∧ exec (.lookNow true) s = .next s)

/-- AREA_LO and AREA_HI are taken in STOPPED, bits 11..0 of AREA_LO as 0, and ignored in other states (R149). -/
def Obligations.AreaRegistersAreTakenInStopped : Prop :=
  ∀ (v : Word) (s : State),
    (s.engine = .stopped →
      (∃ w, exec (.areaLoWrite v) s = .next { s with area := { s.area with areaLo := w } } ∧
        ∀ i, i < 32 → w.getLsbD i = (decide (12 ≤ i) && v.getLsbD i)) ∧
      exec (.areaHiWrite v) s = .next { s with area := { s.area with areaHi := v } }) ∧
    (s.engine ≠ .stopped → exec (.areaLoWrite v) s = .next s ∧ exec (.areaHiWrite v) s = .next s)

/-- A write to IRQ_CAUSE clears each bit written as 1, HALT included, and leaves each bit written as 0. Nothing but the
cause bits changes: clearing HALT does not leave HALTED (R169). -/
def Obligations.IrqCauseWriteClearsItsOnes : Prop :=
  ∀ (v : Word) (s : State), ∃ t, exec (.irqCauseWrite v) s = .next t ∧
    (∀ i, i < 6 → (irqCauseWord t).getLsbD i = ((irqCauseWord s).getLsbD i && !v.getLsbD i)) ∧
    t = { s with reports := { s.reports with causes := t.reports.causes, halt := t.reports.halt } }

/-- A write to the window that is not one aligned 32-bit word, or that goes to a register that takes none, is ignored;
a read that is not one 32-bit word returns 0, as do reads of ENGINE_CTL and of the unused offsets (R182). -/
def Obligations.RegisterWindowIgnoresTheRest : Prop :=
  ∀ (offset size : Nat) (v : Word) (s : State),
    (size ≠ 4 ∨ offset ∉ [0x04, 0x08, 0x0C, 0x14] →
      exec (.registerWriteIgnored offset size v) s = .next s) ∧
    (size ≠ 4 ∨ offset ∉ [0x00, 0x04, 0x08, 0x10, 0x14] → registerRead s offset size = 0) ∧
    registerRead s 0 4 = 0x00010612

/-- The interrupt request is asserted exactly while IRQ_CAUSE is not 0, a message is sent exactly when that changes, and
each reset withdraws it (R170). -/
def Obligations.InterruptFollowsIrqCause : Prop :=
  ∀ s t : State, (irqAsserted s = true ↔ registerRead s 0x14 4 ≠ 0) ∧
    (irqMessage s t = some .assertion ↔ registerRead s 0x14 4 = 0 ∧ registerRead t 0x14 4 ≠ 0) ∧
    (irqMessage s t = some .withdrawal ↔ registerRead s 0x14 4 ≠ 0 ∧ registerRead t 0x14 4 = 0) ∧
    (∃ u, exec .powerOnReset s = .next u ∧ registerRead u 0x14 4 = 0 ∧ irqAsserted u = false) ∧
    ∀ run look, ∃ u, exec (.softReset run look) s = .next u ∧ registerRead u 0x14 4 = 0 ∧ irqAsserted u = false

/-! ### The start sequence -/

/-- A good Area header is copied, each offset with its low 4 bits as 0, its base is in force
(notes/assumptions/19.md), and the load of the glyph store begins with a read of the head of the glyph table, of all
its 16 bytes by the model's choice (notes/assumptions/46.md); a bad one ends the sequence in HALTED with BAD_AREA (R152,
R173). That a bad header replaces neither the copy nor the base in force is the
model's choice (notes/assumptions/19.md). -/
def Obligations.AreaHeaderIsChecked : Prop :=
  ∀ (tag : Nat) (bytes : List Byte) (s : State) (r : Request),
    s.area.start = some (.header r) → r.tag = tag →
    (headerGood bytes = true ↔ byteAt bytes 0 = 0x4B ∧ byteAt bytes 1 = 0x53 ∧ byteAt bytes 2 = 0x50 ∧
      byteAt bytes 3 = 0x41 ∧ word bytes 4 = 1) ∧
    (headerGood bytes = true → exec (.areaHeaderReadDone tag bytes) s = .next { s with
      area := { s.area with
        header := ⟨word bytes 8 &&& 0xFFFFFFF0, word bytes 12 &&& 0xFFFFFFF0, word bytes 16 &&& 0xFFFFFFF0,
          word bytes 20 &&& 0xFFFFFFF0, word bytes 24 &&& 0xFFFFFFF0, word bytes 28 &&& 0xFFFFFFF0,
          word bytes 32 &&& 0xFFFFFFF0, long bytes 40 &&& 0xFFFFFFFFFFFFFFF0⟩
        baseInForce := s.area.base
        start := some (.glyphHead ⟨s.nextTag, long bytes 40 &&& 0xFFFFFFFFFFFFFFF0, 16⟩) }
      nextTag := s.nextTag + 1 }) ∧
    (headerGood bytes = false → s.engine = .starting →
      ∃ t, exec (.areaHeaderReadDone tag bytes) s = .next t ∧ t.engine = .halted ∧
        t.area.haltCause = .badArea ∧ t.area.header = s.area.header ∧
        t.area.baseInForce = s.area.baseInForce ∧ t.reports.halt = true)

/-- The head of the glyph table gives the cell size, clamped to 12..48 by 20..96, and the 256 images are then read with
the clamped geometry, each at its place behind the 16-byte head (R130); that the 256 reads are issued together, at the
head's completion, is the model's choice (notes/assumptions/22.md). An image enters the store as its read completes,
and no other image changes; while other images are in flight the load goes on, and the last of them brings the read of
the whole settings block (R131, R152). -/
def Obligations.GlyphStoreIsLoaded : Prop :=
  ∀ (tag : Nat) (bytes : List Byte) (s : State),
    (∀ r : Request, s.area.start = some (.glyphHead r) → r.tag = tag →
      ∃ t reads, exec (.glyphStoreLoadReadDone tag bytes) s = .next t ∧
        t.area = { s.area with start := some (.glyphImages reads) } ∧
        t.glyphs.width = max 12 (min 48 (half bytes 0).toNat) ∧
        t.glyphs.height = max 20 (min 96 (half bytes 2).toNat) ∧
        t.glyphs.images = s.glyphs.images ∧ reads.length = 256 ∧
        (∀ k : Fin 256, ∃ q, (q, k) ∈ reads ∧
          q.length = t.glyphs.height * ((t.glyphs.width + 7) / 8) ∧
          q.address = s.area.header.glyphTable + BitVec.ofNat 64 (16 + q.length * k.val)) ∧
        t = { s with area := t.area, glyphs := t.glyphs, nextTag := s.nextTag + 256 }) ∧
    ∀ (reads : List (Request × Fin 256)) (r : Request) (k : Fin 256),
      s.area.start = some (.glyphImages reads) → reads.find? (fun x => x.1.tag == tag) = some (r, k) →
      ∃ t, exec (.glyphStoreLoadReadDone tag bytes) s = .next t ∧
        t.glyphs = { s.glyphs with images := t.glyphs.images } ∧
        (∀ j, t.glyphs.images.get j = if j = k then bytes else s.glyphs.images.get j) ∧
        (∀ x rest, reads.filter (fun x => x.1.tag != tag) = x :: rest →
          t = { s with
            glyphs := t.glyphs, area := { s.area with start := some (.glyphImages (x :: rest)) } }) ∧
        (reads.filter (fun x => x.1.tag != tag) = [] →
          t = { s with
            glyphs := t.glyphs, nextTag := s.nextTag + 1
            area := { s.area with start := some (.settings
              ⟨s.nextTag, s.area.baseInForce + s.area.header.settings.setWidth 64 + 0, 1796⟩) } })

/-- The settings step takes the block into the shadow, records its generation, issues one write of the taken
generation at byte 4 of the block, posts SETTINGS_TAKEN (R162), and begins the reads of the full take: the Rundown
header, the 256 story entries and the four command slots (R152, R158). That these reads are issued as one group under one name, and cover whole
structures, is the model's choice (notes/assumptions/22.md, notes/assumptions/46.md). The blocks act on the changes as SettingsActed gives them: the channels (R22), the ports
(R96; that a port's initial state leaves the items its row of R96 does not list is notes/assumptions/29.md, the model's
reading), the arbiter (R115, R117, R120), the lamp groups (R143), the postponed classes (R168) and the timebase (R126,
R127; what a change clears there is in part notes/assumptions/18.md, the model's reading). -/
def Obligations.StartTakesTheSettings : Prop :=
  ∀ (tag : Nat) (bytes : List Byte) (s : State) (r : Request),
    s.area.start = some (.settings r) → r.tag = tag →
    let h := s.area.header
    let place := fun (offset : Word) (i : Nat) => s.area.baseInForce + offset.setWidth 64 + BitVec.ofNat 64 i
    let reads : List Extent := ⟨place h.rundown 0, 544⟩ ::
      (List.finRange 256).map (fun k => ⟨place h.stories (64 * k.val), 64⟩) ++
      (List.finRange 4).map (fun n => ⟨place h.commands (32 * n.val), 32⟩)
    ∃ t, exec (.startSettingsReadDone tag bytes) s = .next t ∧ t.settings = settingsOf bytes ∧
      t.area = { s.area with
        takenGeneration := word bytes 0, start := some (.fullTake ⟨s.nextTag + 1, reads⟩) } ∧
      t.writes = s.writes ++ [⟨s.nextTag, .takenGeneration, place h.settings 4, wordBytes (word bytes 0), none⟩] ∧
      SettingsActed s t ∧ (s.engine ≠ .halted → posted s t (takenReport bytes 1)) ∧
      t.stories = s.stories ∧ t.rundown = s.rundown ∧ t.fetch = s.fetch ∧ t.heads = s.heads ∧
      t.glyphs = s.glyphs ∧ t.pending = s.pending ∧ t.nextTag = s.nextTag + 2

/-- The full take replaces every field of the story shadow from the entries as read, the version by R9, and the rundown
shadow from the header; it adopts the done generations of the command slots, and the engine becomes RUNNING
(R2, R9, R90, R152). When no post of it is dropped, STARTED (R162) is among its posts; that it is the last of them is
the model's choice (notes/assumptions/28.md). -/
def Obligations.FullTakeAdoptsTheArea : Prop :=
  ∀ (tag : Nat) (d : FullTakeData) (s : State) (g : ReadGroup),
    s.area.start = some (.fullTake g) → g.tag = tag →
    ∃ t, exec (.fullTake tag d) s = .next t ∧ t.engine = .running ∧ t.area.start = none ∧
      (∀ k : Slot, let e := d.entries.getD k.val []
        let st := t.story k
        st.present = (byteAt e 0 != 0) ∧ st.ready = (byteAt e 1 != 0) ∧
        st.mask = (byteAt e 2).setWidth 4 ∧ st.storyId = word e 4 ∧ st.request = word e 8 ∧
        st.mode = (if word e 12 = 1 then .now else .clear) ∧
        (word e 48 = 0 → st.side = .a) ∧ (word e 48 = 1 → st.side = .b) ∧
        st.done = word e 52 ∧ st.result = word e 56 ∧
        st.address = takenAddress (rawVersion (versionBytes e st.side)).address ∧
        st.count = if st.address = 0 then 0 else min (rawVersion (versionBytes e st.side)).count.toNat 4096) ∧
      t.rundown.selector = (if word d.rundown 8 = 1 then .b else .a) ∧
      t.rundown.request = word d.rundown 0 ∧ t.rundown.done = word d.rundown 4 ∧
      t.rundown.order = (headerList d.rundown t.rundown.selector).kept ∧
      (∀ n : CmdSlot, t.area.commandDone.get n = word (d.slots.getD n.val []) 20) ∧
      (∀ i e, s.fetch.cache.get i = .held e → e.state ≠ .filling →
        t.fetch.cache.get i = if (t.story e.slot).side = (s.story e.slot).side ∧
            (t.story e.slot).address = (s.story e.slot).address ∧
            (t.story e.slot).count = (s.story e.slot).count then .held e else .free) ∧
      t = { s with
        stories := t.stories, rundown := t.rundown, fetch := t.fetch, area := t.area
        reports := t.reports
        timebase := { s.timebase with announceLock := s.timebase.lock == .locked } } ∧
      (s.engine = .starting → s.reports.dropped < 65535 → t.reports.dropped = s.reports.dropped →
        t.reports.queue.getLast? = some ⟨⟨17, .started, 1, natWord s.glyphs.width, natWord s.glyphs.height,
          natWord t.rundown.order.length⟩, s.frame⟩)

/-! ### Settings fields -/

/-- A number outside its range is clamped to the nearer bound, an enumeration value that is not one of its names takes
its reset value, and exactly those fields count as adjusted; the reading row is clamped to 0..rows - 1 after the
rows have been taken, and counts as adjusted exactly when that changes it (R158, R132, R174). The field of each index of
R174 has the range or the names, and the reset value, that its chapter gives (R21, R41, R93, R110, R122, R132, R139); that
the group channels 416 to 419 are clamped is notes/assumptions/26.md, the model's choice. The settings shadow that a take
makes of a block has each setting at the value taken for the field of its index (R158, R174, R183). The indices
counted as adjusted, lowest first, are those of the fields adjusted and of the modes that the FOLLOW check turns to OFF
(R21, R158, R162). -/
def Obligations.SettingsFieldsAreTreated : Prop :=
  (∀ c : Chan, let kind := fun k => fieldKind (28 * c.val + k)
    kind 0 = .named 3 0 ∧ kind 1 = .number 0 3 ∧ kind 2 = .number (-64) 64 ∧ kind 3 = .number 64 16384 ∧
    kind 4 = .number 1 4096 ∧ kind 5 = .number 1 64 ∧ kind 6 = .number 16 1024 ∧
    (∀ k, 7 ≤ k → k ≤ 23 → kind k = .number 0 16384) ∧ kind 24 = .named 3 2 ∧ kind 25 = .number 1 255 ∧
    kind 26 = .unread ∧ kind 27 = .unread) ∧
  (∀ p : PortId, let kind := fun k => fieldKind (112 + 24 * p.val + k)
    kind 0 = .named 4 0 ∧ kind 1 = .number 0 3 ∧ kind 2 = .named 2 0 ∧ kind 3 = .onOff ∧ kind 4 = .onOff ∧
    kind 5 = .onOff ∧ kind 6 = .number 0 31 ∧ kind 7 = .named 10 0 ∧ kind 8 = .named 10 0 ∧ kind 9 = .named 10 0 ∧
    kind 10 = .number 0 4095 ∧ kind 11 = .number 0 512 ∧ kind 12 = .number 64 2048 ∧ kind 13 = .onOff ∧
    kind 14 = .number 2 255 ∧ kind 15 = .named 2 0 ∧ kind 16 = .number 16 4096 ∧ kind 17 = .number 1 64 ∧
    kind 18 = .named 5 0 ∧ ∀ k, 19 ≤ k → k ≤ 23 → kind k = .unread) ∧
  (fieldKind 304 = .named 5 1 ∧ fieldKind 305 = .named 2 0 ∧ ∀ i, 306 ≤ i → i ≤ 319 → fieldKind i = .unread) ∧
  (∀ h : HeadId, let kind := fun k => fieldKind (320 + 16 * h.val + k)
    kind 0 = .onOff ∧ kind 1 = .number 0 3 ∧ kind 2 = .number 8 32 ∧ kind 3 = .readingRow ∧ kind 4 = .number 24 80 ∧
    kind 5 = .onOff ∧ kind 6 = .onOff ∧ kind 7 = .named 3 0 ∧ ∀ k, 8 ≤ k → k ≤ 15 → kind k = .colour) ∧
  (∀ i, (416 ≤ i → i ≤ 419 → fieldKind i = .number 0 3) ∧ (420 ≤ i → i ≤ 423 → fieldKind i = .named 2 0) ∧
    (424 ≤ i → i ≤ 439 → fieldKind i = .named 7 0) ∧ (440 ≤ i → i ≤ 444 → fieldKind i = .onOff)) ∧
  (∀ block, BlockTaken block (settingsOf block)) ∧
  (∀ block, (adjustedIndices block).Pairwise (· < ·) ∧ ∀ i, i ∈ adjustedIndices block ↔ i < 445 ∧
    (fieldAdjusted block i = true ∨
      ∃ c : Chan, i = 28 * c.val ∧ FollowOff block c ((settingsOf block).channels.get c).leader)) ∧
  ∀ (block : List Byte) (i : Nat),
    fieldWritten block i = (word block (16 + 4 * i)).toInt ∧ fieldWord block i = word block (16 + 4 * i) ∧
    (∀ lo hi, fieldKind i = .number lo hi →
      fieldTaken block i = max lo (min hi (fieldWritten block i)) ∧
      (fieldAdjusted block i = true ↔ fieldWritten block i < lo ∨ hi < fieldWritten block i)) ∧
    (∀ n reset, fieldKind i = .named n reset →
      fieldTaken block i =
        (if 0 ≤ fieldWritten block i ∧ fieldWritten block i < n then fieldWritten block i else reset) ∧
      (fieldAdjusted block i = true ↔ fieldWritten block i < 0 ∨ n ≤ fieldWritten block i)) ∧
    (fieldKind i = .onOff →
      (onTaken block i = true ↔ fieldWord block i ≠ 0) ∧ fieldAdjusted block i = false) ∧
    (fieldKind i = .colour → fieldAdjusted block i = false) ∧
    (fieldKind i = .unread → fieldAdjusted block i = false) ∧
    (fieldKind i = .readingRow →
      let rows := max 8 (min 32 (fieldWritten block (i - 1)))
      fieldKind (i - 1) = .number 8 32 ∧ fieldTaken block (i - 1) = rows ∧
      fieldTaken block i = max 0 (min (rows - 1) (fieldWritten block i)) ∧
      (fieldAdjusted block i = true ↔ fieldWritten block i < 0 ∨ rows - 1 < fieldWritten block i))

/-- After a take, a FOLLOW channel follows another channel that is LIVE; and a channel whose mode is written FOLLOW and
that names itself, or a channel whose mode as written is OFF or FOLLOW, is OFF and counts under the index of its mode
field (R21). -/
def Obligations.FollowCheckOfATake : Prop :=
  ∀ (block : List Byte) (c : Chan),
    let taken := (settingsOf block).channels
    ((taken.get c).mode = .follow →
      (taken.get c).leader ≠ c ∧ (taken.get (taken.get c).leader).mode = .live) ∧
    (modeWritten block c = .follow →
      (taken.get c).leader = c ∨ modeWritten block (taken.get c).leader ≠ .live →
      (taken.get c).mode = .off ∧ 28 * c.val ∈ adjustedIndices block)

/-! ### The timebase and the frame event -/

/-- The free-running periods of a run add up to the first count at or after each whole multiple of the nominal period,
so no drift builds up (R124); the windows are the nominal periods less and plus 2 percent, rounded inward (R126).
Nominal periods are counted in thirds of a capture count. -/
def Obligations.PeriodsAndWindows : Prop :=
  (∀ rate, nominalThirds rate = match rate with
    | .fps24 => 125000 | .fps25 => 120000 | .fps50 => 60000 | .fps5994 => 50050 | .fps60 => 50000) ∧
  (∀ rate n, let total := ((List.range n).map (freePeriod rate)).sum
    n * nominalThirds rate ≤ 3 * total ∧ 3 * total < n * nominalThirds rate + 3) ∧
  (∀ rate m, inWindow rate m = true ↔
    98 * nominalThirds rate ≤ 300 * m ∧ 300 * m ≤ 102 * nominalThirds rate)

/-- A free-running frame event in STOPPED, STARTING or HALTED leaves the frame counter as it stands and begins no scan:
of the timebase only the period in progress and its place in the run of free-running periods change, and of the heads
the rasters composed and sent (R124, R125, R133); an enabled head sends the raster it composed at the frame event
before (R138). That the run of periods goes on where a rate was changed and changed back within one period is the
model's choice (notes/assumptions/42.md). That a head in HALTED repeats the frame it has, also one that was OFF since it composed it, is in part
the model's choice (notes/assumptions/44.md). In LOCKED there is no free-running frame event (R124); that the command is then without effect is the
model's choice (notes/assumptions/16.md). -/
def Obligations.FrameEventOutsideRunning : Prop :=
  ∀ s : State,
    (s.timebase.lock = .locked → exec .frameEvent s = .next s) ∧
    (s.timebase.lock = .free → s.engine ≠ .running → ∃ t, exec .frameEvent s = .next t ∧
      t = { s with timebase := t.timebase, heads := t.heads } ∧
      (let i := if s.timebase.runRate = s.rate then s.timebase.runIndex + 1 else 0;
        t.timebase = { s.timebase with
          periodStart := s.timebase.captureCount, runRate := s.rate, runIndex := i
          periodLength := freePeriod s.rate i }) ∧
      ∀ h, (t.head h).blank = (s.head h).blank ∧
        ((s.headSet h).enable = true →
          (t.head h).output = (s.head h).composed ∧ (t.head h).composed = some (t.head h).lastComposed ∧
          (s.engine = .halted → (t.head h).lastComposed = (s.head h).lastComposed)) ∧
        ((s.headSet h).enable = false →
          (t.head h).output = none ∧ (t.head h).composed = none ∧
          (t.head h).lastComposed = (s.head h).lastComposed))

/-- A free-running frame event in RUNNING: the frame counter increases by one (R125), every channel publishes with
that frame number and its mode (R39), every port hands its items on (R106), the twelve status records are issued
(R161), the needs of the channels are those of their publications and no line beyond a story's count waits to be read
(R9, R77, R81), every head composes from the publications and from the cache as the updates for them leave it (R89,
R133, R138), the Exchange Unit begins the direct takes of R61 and, when it is IDLE, a pending rundown exchange or else
the key search of the lowest story that needs it (R66, R73), and a scan of origin FRAME begins, or the one in progress
counts a skip (R156). That its reads are issued as one group and cover whole structures, and that the count has no
upper end, are the model's choices (notes/assumptions/22.md, notes/assumptions/46.md, notes/assumptions/45.md). The order of the blocks,
of the heads after the channels and their fetches and of the exchanges after the heads, is notes/assumptions/5.md, the
model's choice. The settings, the shadows and the taken generations are unchanged. -/
def Obligations.FrameEventInRunning : Prop :=
  ∀ s : State, s.timebase.lock = .free → s.engine = .running →
    ∃ t, exec .frameEvent s = .next t ∧ t.frame = s.frame + 1 ∧
      t.timebase.periodStart = s.timebase.captureCount ∧
      (∀ c, (t.chan c).pub.frame = s.frame + 1 ∧ (t.chan c).pub.mode = s.mode c) ∧
      (∀ p, t.port p = { s.port p with jog := 0, take := false, jump := none }) ∧
      (∃ ws, t.writes = s.writes ++ ws ∧ ws.map (·.target) =
        (frameOrder s).map .channelStatus ++ allPorts.map .portStatus) ∧
      (∀ h, t.head h = (s.head h).compose
        (composedRaster { t with heads := s.heads } h)) ∧
      (∀ c, t.fetch.needs.get c = channelNeed t c) ∧
      (∀ q ∈ t.fetch.queue, q.isWaiting = true → q.line < (s.story q.slot).count) ∧
      (let waits := fun k => (s.story k).request != (s.story k).done && !s.exchange.takes.any (·.slot == k)
        let needing := fun k =>
          waits k && (s.story k).mode == .now && s.rundown.order.contains k && liveAnchored t k
        let direct := fun k => waits k && !(t.exchange.searcher).any (·.slot == k)
          && directAllowed t k (s.story k).mode
        (∃ new, t.exchange.takes = s.exchange.takes ++ new ∧
          new.map (·.slot) = (List.finRange 256).filter direct ∧
          ∀ x ∈ new, x.generation = (s.story x.slot).request ∧ x.mode = (s.story x.slot).mode ∧
            x.request.address = s.entryAddress x.slot (versionOffset (s.story x.slot).side.other) ∧
            x.request.length = 12) ∧
        (s.exchange.searcher.isSome = true ∨ s.exchange.rundown.isSome = true →
          t.exchange.rundown = s.exchange.rundown ∧
          t.exchange.searcher.map (·.slot) = s.exchange.searcher.map (·.slot)) ∧
        (s.exchange.searcher = none → s.exchange.rundown = none → s.rundown.request ≠ s.rundown.done →
          t.exchange.searcher = none ∧ ∃ x, t.exchange.rundown = some x ∧
            x.generation = s.rundown.request ∧ x.list = s.rundown.selector.other ∧ x.reading = .length ∧
            x.request.address = s.areaAddress s.area.header.rundown
              (match x.list with | .a => 12 | .b => 16) ∧ x.request.length = 4) ∧
        (s.exchange.searcher = none → s.exchange.rundown = none → s.rundown.request = s.rundown.done →
          t.exchange.rundown = none ∧
          ((List.finRange 256).find? needing = none → t.exchange.searcher = none) ∧
          ∀ k, (List.finRange 256).find? needing = some k → ∃ sr r, t.exchange.searcher = some sr ∧
            sr.slot = k ∧ sr.generation = (s.story k).request ∧ sr.mode = .now ∧ sr.phase = .versionRead r ∧
            r.address = s.entryAddress k (versionOffset (s.story k).side.other) ∧ r.length = 12 ∧
            sr.members = (allChans.filter fun c => s.isLive c && anchoredIn t k c).map
              (fun c => ⟨c, (t.chan c).key, none, false⟩) ∧
            ∀ m ∈ sr.members, (t.chan m.channel).exchange = true)) ∧
      (∃ sc : Scan, t.area = { s.area with scan := some sc } ∧
        (s.area.scan = none → sc.origin = .frame ∧ sc.skipped = 0 ∧ sc.group.reads = s.scanReads ∧
          sc.block = ⟨s.areaAddress s.area.header.settings 0, 1796⟩) ∧
        ∀ sc', s.area.scan = some sc' → sc = { sc' with skipped := sc'.skipped + 1 }) ∧
      t = { s with
        timebase := t.timebase, channels := t.channels, ports := t.ports, authority := t.authority
        armed := t.armed, fetch := t.fetch, exchange := t.exchange, lamps := t.lamps, heads := t.heads
        reports := t.reports, writes := t.writes, area := t.area, nextTag := t.nextTag }

/-- At a frame event in RUNNING a FOLLOW channel publishes the position that its leader's publication of the same frame
event gives: the leader's view row plus the offset, at the top limit below row 0, at the bottom limit above the last
row, with the leader's fraction between them, and the leader's speed (R37, R38). -/
def Obligations.FollowersDeriveFromTheirLeaders : Prop :=
  ∀ (s t : State) (c : Chan), s.timebase.lock = .free → s.engine = .running → s.mode c = .follow →
    s.mode (s.chanSet c).leader = .live → exec .frameEvent s = .next t →
    let leader := t.chan (s.chanSet c).leader
    let mine := (t.chan c).pub
    mine.speed = leader.pub.speed ∧ mine.holds = .empty ∧ mine.demand = 0 ∧ mine.holder = none ∧
    (leader.pub.anchor = none → mine.anchor = none ∧ mine.fraction = 0) ∧
    ∀ r : Nat, leader.pub.anchor.bind (viewRow leader.view) = some r →
      let row : Int := r + (s.chanSet c).offset
      (row < 0 → mine.anchor = anchorAtRow leader.view 0 ∧ mine.fraction = 0) ∧
      ((viewSize leader.view : Int) - 1 < row →
        mine.anchor = anchorAtRow leader.view (viewSize leader.view - 1) ∧ mine.fraction = 1023) ∧
      (0 ≤ row → row ≤ (viewSize leader.view : Int) - 1 →
        mine.anchor = anchorAtRow leader.view row.toNat ∧ mine.fraction = leader.pub.fraction)

/-- A LIVE channel that holds FREEZE or EXCHANGE publishes the position it had, with speed 0, at a frame event at which
its anchor story is in the view it takes with more lines than its anchor's index: the advance sets S to 0 (R28, R32,
R43). Where a story jump is admitted and refused there is no advance, and S is 0 by R47 against R36's `changes nothing`:
that reading is notes/assumptions/13.md, the model's choice. And every LIVE channel makes the frame event as LiveFrame
gives it, stage by stage: the re-anchoring of stage 2 with ANCHOR_MOVED (R27, R28, R40), BOUNDARY at stage 3 (R31), joining
a running key search (R33), an admitted story jump in place of the advance (R36, R118, R119), or the advance of R42 on
the Line Cache as it stood at the frame event with its reports (R54, R57, R58), the publication (R39), and the crossing
record (R140). A report is among the posts when none is dropped (R165). Of these notes/assumptions/13.md (S at a refused
jump), 47 (the flags that new episodes go by) and 48 (stage 3 while a key search runs) are the model's choices. -/
def Obligations.FullHoldsStandStill : Prop :=
  (∀ (s t : State) (c : Chan) (a : Anchor) (e : ViewEntry), s.timebase.lock = .free → s.engine = .running →
    s.mode c = .live → (s.chan c).freeze = true ∨ (s.chan c).exchange = true →
    (s.chan c).anchor = some a → entryOf (scriptView s c) a.slot = some e → a.line < e.count →
    exec .frameEvent s = .next t →
    (t.chan c).pub.anchor = some a ∧ (t.chan c).pub.fraction = (s.chan c).fraction ∧ (t.chan c).pub.speed = 0) ∧
  ∀ (s t : State) (c : Chan), s.timebase.lock = .free → s.engine = .running → s.mode c = .live →
    exec .frameEvent s = .next t → ∃ r, LiveFrame s t c r

/-- An edge on REF in FREE with the reference select at REF is measured: it becomes the last REF edge, the interval from
a previous edge becomes the last REF period, and the qualifying run increases by one within the window and becomes 0
outside it, also from a run of 7. With the select at INTERNAL nothing is measured (R126). The edge that brings the
run to 8 is EighthGoodPeriodLocks. -/
def Obligations.RefEdgesAreMeasuredInFree : Prop :=
  ∀ s : State, s.timebase.lock = .free →
    (s.settings.refSelect = .internal → exec .refEdge s = .next s) ∧
    (s.settings.refSelect = .ref → s.timebase.lastEdge = none →
      exec .refEdge s = .next { s with timebase := { s.timebase with
        lastEdge := some s.timebase.captureCount, qualifyingRun := 0 } }) ∧
    ∀ e : Word, s.settings.refSelect = .ref → s.timebase.lastEdge = some e →
      let n := (s.timebase.captureCount - e).toNat
      (s.timebase.qualifyingRun < 7 ∨ inWindow s.rate n = false) →
      exec .refEdge s = .next { s with timebase := { s.timebase with
        lastEdge := some s.timebase.captureCount, lastPeriod := n
        qualifyingRun := if inWindow s.rate n then s.timebase.qualifyingRun + 1 else 0 } }

/-- The edge that brings the qualifying run to 8 enters LOCKED: the period ends at it, the missed count and the locked
frames become 0, and a frame event is issued, which the frame counter counts in RUNNING (R126). REF_LOCK is that same
event (notes/assumptions/2.md). -/
def Obligations.EighthGoodPeriodLocks : Prop :=
  ∀ (s : State) (e : Word), s.timebase.lock = .free → s.settings.refSelect = .ref →
    s.timebase.lastEdge = some e → s.timebase.qualifyingRun = 7 →
    inWindow s.rate (s.timebase.captureCount - e).toNat = true →
    ∃ t, exec .refLock s = .next t ∧ exec .refEdge s = .next t ∧ t.timebase.lock = .locked ∧
      t.timebase.missed = 0 ∧ t.timebase.lockedFrames = 0 ∧ t.timebase.qualifyingRun = 8 ∧
      t.timebase.lastPeriod = (s.timebase.captureCount - e).toNat ∧
      t.timebase.periodStart = s.timebase.captureCount ∧
      t.frame = (if s.engine = .running then s.frame + 1 else s.frame) ∧
      (s.engine ≠ .running → t = { s with timebase := t.timebase, heads := t.heads })

/-- In LOCKED, an edge within the window of the period issues its frame event and sets the missed count to 0; an edge
before the window opens issues none and does not change the missed count (R127), but becomes the last REF edge
(notes/assumptions/16.md). -/
def Obligations.RefEdgesInLocked : Prop :=
  ∀ s : State, s.timebase.lock = .locked →
    let n := (s.timebase.captureCount - s.timebase.periodStart).toNat
    (inWindow s.rate n = true → ∃ t, exec .refEdge s = .next t ∧ t.timebase.lock = .locked ∧
      t.timebase.missed = 0 ∧ t.timebase.lastPeriod = n ∧
      t.timebase.lockedFrames = min (s.timebase.lockedFrames + 1) 65535 ∧
      t.timebase.periodStart = s.timebase.captureCount ∧
      t.frame = (if s.engine = .running then s.frame + 1 else s.frame)) ∧
    (n < (refWindow s.rate).1 → exec .refEdge s = .next { s with timebase :=
      { s.timebase with lastEdge := some s.timebase.captureCount } })

/-- The close of a LOCKED period's window issues the frame event and increases the missed count; at 2 the timebase
enters FREE at that frame event, with the qualifying run 0 and no last REF edge (R127), and REF_LOST is posted in
RUNNING, behind the announcement of a lock that no frame event in RUNNING has announced (R129). The locked frames
count the losing frame event, and the posts carry its number (notes/assumptions/17.md). The order of the posts of that
frame event, the announcement first, then REF_LOST, then those of every other block, is notes/assumptions/5.md, the
model's choice. REF_LOSS_MISSED is that same event (notes/assumptions/2.md). In FREE the command changes nothing, since
only a LOCKED period has a window; that a window close can come there, from the sender, and is then without effect, is
the model's choice (notes/assumptions/16.md). -/
def Obligations.WindowCloseCountsAMiss : Prop :=
  ∀ s : State,
    (s.timebase.lock = .free → exec .refWindowClose s = .next s) ∧
    (s.timebase.lock = .locked → s.timebase.missed = 0 →
      ∃ t, exec .refWindowClose s = .next t ∧ t.timebase.lock = .locked ∧ t.timebase.missed = 1 ∧
        t.timebase.lockedFrames = min (s.timebase.lockedFrames + 1) 65535 ∧
        t.timebase.periodStart = s.timebase.captureCount ∧
        t.frame = (if s.engine = .running then s.frame + 1 else s.frame)) ∧
    (s.timebase.lock = .locked → s.timebase.missed = 1 →
      ∃ t, exec .refLossMissed s = .next t ∧ exec .refWindowClose s = .next t ∧ t.timebase.lock = .free ∧
        t.timebase.qualifyingRun = 0 ∧ t.timebase.lastEdge = none ∧
        t.timebase.periodLength = freePeriod s.rate 0 ∧
        t.timebase.periodStart = s.timebase.captureCount ∧
        t.frame = (if s.engine = .running then s.frame + 1 else s.frame) ∧
        (s.engine = .running → s.reports.queue.length ≤ 14 →
          let announced : List Post := if s.timebase.announceLock then
            [⟨⟨15, .refLocked, natWord s.rate.code, natWord s.timebase.lastPeriod,
              natWord s.timebase.qualifyingRun, 1⟩, s.frame + 1⟩] else []
          let lost : Post := ⟨⟨15, .refLost, 1, natWord (min (s.timebase.lockedFrames + 1) 65535),
            natWord s.timebase.lastPeriod, natWord s.rate.code⟩, s.frame + 1⟩
          ∃ more, t.reports.queue = s.reports.queue ++ announced ++ lost :: more) ∧
        (s.engine ≠ .running → t.reports = s.reports))

/-! ### Heads -/

/-- The raster a head composes is as high and as wide as R134 gives, whatever it shows, but a FROZEN repeat. Mirror moves
the pixel at column x of W to column W - 1 - x, and flip the pixel at row y of H to row H - 1 - y (R137). By its head
state a head composes nothing, its last composed frame again, black, the standby card or the script window, the last two
with the moves (R133, R137): each raster row of the window is the marker's column and the text area (R134), the text
area's content the first case of R135 that applies, the marker of the form that the published hold set gives (R136). The
frame repeated after an output that was OFF (notes/assumptions/44.md), the extent of the card's band (50), the outline
and the point of the ARROW (25, 41) are the model's choices, and the pixels on its slanted edges free values (21). The
anchor a channel published stands in the view it took: in a state in which it does not, which arises in no run, the
window has no place, and the statement says nothing of it. -/
def Obligations.RastersHaveTheirSizeAndMoves : Prop :=
  (∀ (s : State) (h : HeadId) (r : Raster), s.engine ≠ .halted → composedRaster s h = some r →
    let hs := s.headSet h
    r.height = hs.rows * s.glyphs.height ∧ r.rows.length = r.height ∧
    r.width = hs.columns * s.glyphs.width + (if hs.marker = .none then 0 else s.glyphs.width) ∧
    ∀ row ∈ r.rows, row.length = r.width) ∧
  (∀ (s : State) (h : HeadId),
    let hs := s.headSet h
    let pub := (s.chan hs.channel).pub
    let standby := s.engine ≠ .running ∨ pub.mode = .off ∨ pub.anchor = none
    (hs.enable = false → composedRaster s h = none) ∧
    (hs.enable = true → s.engine = .halted → composedRaster s h = some (s.head h).lastComposed) ∧
    (hs.enable = true → s.engine ≠ .halted →
      ((s.head h).blank = true → ∃ r, composedRaster s h = some r ∧ ∀ row ∈ r.rows, ∀ x ∈ row, x = ⟨0, 0, 0⟩) ∧
      ((s.head h).blank = false → standby →
        ∃ r, composedRaster s h = some (r.moved hs.mirror hs.flip) ∧ cardShown s.glyphs hs r) ∧
      ∀ a, (s.head h).blank = false → ¬ standby → pub.anchor.bind (viewRow (s.chan hs.channel).view) = some a →
        ∃ r, composedRaster s h = some (r.moved hs.mirror hs.flip) ∧ windowShown s hs a r)) ∧
  ∀ (r : Raster) (mirror flip : Bool) (x y : Nat), r.rows.length = r.height →
    (∀ row ∈ r.rows, row.length = r.width) → x < r.width → y < r.height →
    let x' := if mirror then r.width - 1 - x else x
    let y' := if flip then r.height - 1 - y else y
    ((r.moved mirror flip).rows[y']?.bind (·[x']?)) = (r.rows[y]?.bind (·[x]?))

/-! ### Hand ports and authority -/

/-- The sample event: every strobe timer above 0 decreases by one (R144), the edge age of every LEVER port increases
by one up to 255 (R99), and every button line is sampled (R102). A line that is no button keeps its state, and a port
that does not reach its loss limit keeps its port state. STROBE_EXPIRY is the sample event that brings a timer from 1
to 0 (notes/assumptions/2.md), and its channel's strobe line is then low. -/
def Obligations.SampleEventActs : Prop :=
  ∀ (levels : Bank 8 Lines) (s : State), ∃ t, exec (.sampleEvent levels) s = .next t ∧
    (∀ c, t.lamps.strobe.get c = s.lamps.strobe.get c - 1) ∧
    t.lamps = { s.lamps with strobe := t.lamps.strobe } ∧
    (∀ p, (s.portSet p).mode = .lever → (t.port p).edgeAge = min ((s.port p).edgeAge + 1) 255) ∧
    (∀ p, timesOut s p = false → (t.port p).phase = (s.port p).phase) ∧
    (∀ p l, (t.port p).buttons.get l =
      if isButton (s.portSet p).mode l then
        (((s.port p).buttons.get l).sample (s.portSet p).debounce
          (xor ((s.portSet p).invert.get l) ((levels.get p).get l))).1
      else (s.port p).buttons.get l) ∧
    t = { s with
      ports := t.ports, channels := t.channels, authority := t.authority, lamps := t.lamps
      reports := t.reports } ∧
    ∀ c, s.lamps.strobe.get c = 1 → exec (.strobeExpiry c levels) s = .next t ∧ strobeLine t c = false

/-- The quadrature sample of a WHEEL port (R100, R101): the sample becomes the pair; with no pair or an equal one there
is no count; with both lines changed the error count increases by one up to 65535; with one line changed the count
is +1 along the order and -1 against it, used in RUNNING alone, by the jog scale or by the demand step. -/
def Obligations.QuadratureSampleCounts : Prop :=
  ∀ (p : PortId) (a b : Bool) (s : State), (s.portSet p).mode = .wheel →
    let ps := s.portSet p
    let q := s.port p
    let new := (xor ps.invert.a a, xor ps.invert.b b)
    let answers := fun q' : Port =>
      exec (.quadratureSample p a b) s = .next { s with ports := s.ports.set p { q' with quad := some new } }
    (q.quad = none → answers q) ∧
    ∀ old : Bool × Bool, q.quad = some old →
      (old = new → answers q) ∧
      (old.1 ≠ new.1 → old.2 ≠ new.2 → answers { q with errorCount := min (q.errorCount + 1) 65535 }) ∧
      ((old.1 = new.1 ↔ old.2 ≠ new.2) →
        let n : Int := if (old, new) ∈ [((false, false), (true, false)), ((true, false), (true, true)),
          ((true, true), (false, true)), ((false, true), (false, false))] then 1 else -1
        (s.engine ≠ .running → answers q) ∧
        (s.engine = .running → ps.wheelFunction = .jog →
          answers { q with jog := clampInt (-65536) 65536 (q.jog + n * ps.jogScale) }) ∧
        (s.engine = .running → ps.wheelFunction = .speed →
          answers { q with standing := clampInt (-1024) 1024 (q.standing + n * ps.demandStep) }))

/-- An edge on line A of a LEVER port: the edge age becomes 0; a rising edge with no period start begins a period; a
falling edge in a period gives the high time, and is ignored with no period start; a rising edge with a period start
completes the period: a valid sample gives the position and the demand of R98, in every port state, and an invalid one
leaves them (R97, R98). A valid sample of an ACTIVE port changes nothing else. -/
def Obligations.LeverEdgeActs : Prop :=
  ∀ (p : PortId) (level : Bool) (s : State), (s.portSet p).mode = .lever →
    let ps := s.portSet p
    let q := s.port p
    let now := s.timebase.captureCount
    let answers := fun q' : Port =>
      exec (.leverEdge p level) s = .next { s with ports := s.ports.set p { q' with edgeAge := 0 } }
    (level ≠ ps.invert.a → q.periodStart = none →
      answers { q with periodStart := some now, highTime := none }) ∧
    (level = ps.invert.a → ∀ start : Word, q.periodStart = some start → q.highTime = none →
      answers { q with highTime := some (now - start).toNat }) ∧
    (level = ps.invert.a → q.periodStart = none → answers q) ∧
    (level ≠ ps.invert.a → ∀ start : Word, q.periodStart = some start →
      let h := q.highTime.getD 0
      let width := (now - start).toNat
      let position := min (h * 4096 / width) 4095
      let x : Int := position - ps.center
      let size := if x.natAbs ≤ ps.deadband then 0
        else min 1024 ((x.natAbs - ps.deadband) * 1024 / ps.span)
      let demand : Int := if x < 0 then -size else size
      let value := if ps.reverse then -demand else demand
      let valid := 1000 ≤ width ∧ width ≤ 4000 ∧ 0 < h ∧ h < width
      (∃ t, exec (.leverEdge p level) s = .next t ∧ (∀ p', p' ≠ p → t.port p' = s.port p') ∧
        let q' := t.port p
        q'.edgeAge = 0 ∧ q'.periodStart = some now ∧ q'.highTime = none ∧
        q'.lastHigh = min h 65535 ∧ q'.lastPeriod = min width 65535 ∧
        (valid → q'.position = position ∧ q'.value = value ∧ q'.invalidRun = 0) ∧
        (¬ valid → q'.position = q.position ∧ q'.value = q.value ∧ q'.validRun = 0 ∧
          q'.invalidRun = min (q.invalidRun + 1) 8)) ∧
      (valid → q.phase = .active → answers { q with
        lastHigh := h, lastPeriod := width, position := position, value := value
        validRun := min (q.validRun + 1) 4, invalidRun := 0, periodStart := some now, highTime := none }))

/-- The rows of R99 that move a LEVER port between its states: the fourth valid sample in ACQUIRING and in LOST leads
to RECENTER with the valid run 0; a valid sample in RECENTER leads to ACTIVE exactly when its demand is 0; the eighth
invalid sample, and the loss limit, lead from ACTIVE and RECENTER to LOST, with the lost count one higher, and a holder
port's channel is released (R117). Each row but that to ACTIVE is the larger event that brings the move about
(notes/assumptions/2.md). -/
def Obligations.LeverStateMoves : Prop :=
  ∀ (p : PortId) (levels : Bank 8 Lines) (s : State), (s.portSet p).mode = .lever →
    let q := s.port p
    (∀ h width, s.completedPeriod p = some (h, width) →
      (validSample h width = true → q.phase = .acquiring ∨ q.phase = .lost → q.validRun = 3 →
        ∃ t, exec (.leverAcquired p) s = .next t ∧ exec (.leverEdge p (s.highPin p)) s = .next t ∧
          (t.port p).phase = .recenter ∧ (t.port p).validRun = 0 ∧ (t.port p).lostCount = q.lostCount) ∧
      (validSample h width = true → q.phase = .recenter →
        ∃ t, exec (.leverEdge p (s.highPin p)) s = .next t ∧
          (t.port p).value = leverDemand (s.portSet p) (leverPosition h width) ∧
          (t.port p).phase = (if (t.port p).value = 0 then .active else .recenter) ∧
          (t.port p).validRun = min (q.validRun + 1) 4 ∧ (t.port p).lostCount = q.lostCount ∧
          t.authority = s.authority ∧ t.reports = s.reports) ∧
      (validSample h width = false → q.phase = .active ∨ q.phase = .recenter → q.invalidRun = 7 →
        ∃ t, exec (.leverInvalidLost p) s = .next t ∧ exec (.leverEdge p (s.highPin p)) s = .next t ∧
          (t.port p).phase = .lost ∧ (t.port p).validRun = 0 ∧ (t.port p).timeLost = 0 ∧
          (t.port p).value = q.value ∧ (t.port p).lostCount = min (q.lostCount + 1) 65535 ∧
          (s.holds p = true → (t.auth (s.portSet p).channel).holder = none))) ∧
    (q.phase = .active ∨ q.phase = .recenter → (s.portSet p).lossLimit ≤ min (q.edgeAge + 1) 255 →
      ∃ t, exec (.leverLossTimeout p levels) s = .next t ∧ exec (.sampleEvent levels) s = .next t ∧
        (t.port p).phase = .lost ∧ (t.port p).validRun = 0 ∧ (t.port p).timeLost = 0 ∧
        (t.port p).value = q.value ∧ (t.port p).lostCount = min (q.lostCount + 1) 65535 ∧
        (s.holds p = true → (t.auth (s.portSet p).channel).holder = none))

/-- A press accepted in RUNNING performs the action of its line (R102 to R105): GO removes CUE from a LIVE channel,
FREEZE_HOLD adds the line to a LIVE channel's pressed-line set, REVERSE_HOLD to the port's reverse set, TAKE sets the
pending take, ZERO sets a WHEEL port's standing demand to 0, and, where no other line is accepted at that sample
event, FREEZE_TOGGLE inverts a LIVE channel's latch, STORY_NEXT and STORY_PREV set the pending story jump, and, with
room in the Post Queue and no port reaching its loss limit, MARK posts its report alone. Outside
RUNNING the press is accepted as a level. A release removes its line from the reverse set, and, but in HALTED, from
the pressed-line set (R32). That STORY_NEXT and STORY_PREV set the pending story jump whatever the mode of the port's
channel is the model's choice (notes/assumptions/43.md). BUTTON_DEBOUNCE_ACCEPT is the sample event that accepts (notes/assumptions/2.md), and a
MARK with no anchor published carries line index 0 (notes/assumptions/14.md). -/
def Obligations.ButtonsPerformTheirActions : Prop :=
  ∀ (p : PortId) (l : LineId) (levels : Bank 8 Lines) (s : State),
    let ps := s.portSet p
    let b := (s.port p).buttons.get l
    let high := xor (ps.invert.get l) ((levels.get p).get l)
    isButton ps.mode l = true → ps.debounce ≤ b.run + 1 →
    (b.level = .released → high = true →
      ∃ t, exec (.buttonDebounceAccept p l levels) s = .next t ∧ exec (.sampleEvent levels) s = .next t ∧
        (t.port p).buttons.get l = ⟨.pressed, 0⟩ ∧
        (s.engine = .running →
          (ps.action.get l = .go → s.mode ps.channel = .live → (t.chan ps.channel).cue = false) ∧
          (ps.action.get l = .freezeHold → s.mode ps.channel = .live →
            ((t.chan ps.channel).pressed.get p).get l = true ∧ (t.chan ps.channel).freeze = true) ∧
          (ps.action.get l = .reverseHold → (t.port p).reverseSet.get l = true) ∧
          (ps.action.get l = .take → (t.port p).take = true) ∧
          (ps.action.get l = .zero → ps.mode = .wheel → (t.port p).standing = 0) ∧
          ((∀ p' l', accepts s p' l' (levels.get p') = true → p' = p ∧ l' = l) →
            (ps.action.get l = .freezeToggle → s.mode ps.channel = .live →
              (t.chan ps.channel).latch = !(s.chan ps.channel).latch) ∧
            (ps.action.get l = .storyNext → (t.port p).jump = some (.next, l)) ∧
            (ps.action.get l = .storyPrev → (t.port p).jump = some (.prev, l)) ∧
            (ps.action.get l = .mark → s.reports.queue.length < 16 → (∀ p', timesOut s p' = false) →
              let anchor := (s.chan ps.channel).pub.anchor
              t.channels = s.channels ∧ t.reports = { s.reports with queue := s.reports.queue ++
                [⟨⟨portSlot p, .mark, natWord ps.channel.val,
                  (match anchor with | some a => slotWord a.slot | none => 0xFFFFFFFF),
                  (match anchor with | some a => natWord a.line | none => 0),
                  (match l with | .a => 0 | .b => 1 | .c => 2)⟩, s.frame⟩] }))) ∧
        (s.engine ≠ .running → (t.port p).take = (s.port p).take ∧ (t.port p).jump = (s.port p).jump ∧
          ∀ c, (t.chan c).latch = (s.chan c).latch ∧ (t.chan c).cue = (s.chan c).cue)) ∧
    (b.level = .pressed → high = false →
      ∃ t, exec (.buttonDebounceAccept p l levels) s = .next t ∧ exec (.sampleEvent levels) s = .next t ∧
        (t.port p).buttons.get l = ⟨.released, 0⟩ ∧
        (ps.action.get l = .reverseHold → (t.port p).reverseSet.get l = false) ∧
        (ps.action.get l = .freezeHold → s.engine ≠ .halted →
          ((t.chan ps.channel).pressed.get p).get l = false) ∧
        (s.engine = .halted → ∀ c, (t.chan c).pressed = (s.chan c).pressed))

/-- A holder whose quiet count reaches the release time at a frame event at which it, the console and every port that is
a source of the channel are quiet releases: the holder is NONE, with quiet count 0, no source claims, and the channel
publishes no holder and a demand of 0 (R114, R116). What drives other channels at that frame event does not matter.
QUIET_RELEASE is that frame event (notes/assumptions/2.md). -/
def Obligations.QuietHoldersRelease : Prop :=
  ∀ (c : Chan) (h : Source) (s : State), s.timebase.lock = .free → s.engine = .running → s.mode c = .live →
    (s.auth c).holder = some h → (s.chanSet c).releaseTime ≤ min ((s.auth c).quiet + 1) 255 →
    sourceActive s (handAll s).1 c h = false → sourceActive s (handAll s).1 c .console = false →
    (∀ p, isSource s c p = true → portActive s (handAll s).1 p = false) →
    ∃ t, exec (.quietRelease c) s = .next t ∧ exec .frameEvent s = .next t ∧
      (t.auth c).holder = none ∧ (t.auth c).quiet = 0 ∧
      (t.chan c).pub.holder = none ∧ (t.chan c).pub.demand = 0

/-- In TAKEOVER, an operator source that claims displaces an active presenter holder: the first operator claimer in service
order becomes holder with quiet count 0, and every presenter port that is a source of the channel has its arm flag
cleared (R116). -/
def Obligations.OperatorsTakeOver : Prop :=
  ∀ (c : Chan) (p : PortId) (x : Source) (s : State), s.timebase.lock = .free → s.engine = .running →
    s.mode c = .live → (s.chanSet c).authMode = .takeover →
    (s.auth c).holder = some (.port p) → s.role p = .presenter → portActive s (handAll s).1 p = true →
    ((serviceOrder s).filter fun y => claims s (handAll s).1 c y && sourceRole s y == .operator).head? = some x →
    ∃ t, exec .frameEvent s = .next t ∧ (t.auth c).holder = some x ∧ (t.auth c).quiet = 0 ∧
      (t.chan c).pub.holder = some x ∧
      ∀ r, isSource s c r = true → s.role r = .presenter → t.armed.get r = false

/-! ### The Fetch Unit -/

/-- A channel's need (R77), the queue update (R81) and one issue (R82). The need is empty at anchor NONE and in mode
OFF; else it holds, once each, the lines of the lookahead (class 1), of the windows (class 2) and of the margins
(class 3), each with the lowest class it falls in, and no other line. The update keeps the ISSUED entries; what waits
after it is needed, exists in its story (R9) and stands in order of rank; a needed line with no cache entry, or one
due for retry, is in the queue unless the queue is full, and a class-1 line is left out only where no entry of a
worse class waits. An issue takes the first WAITING entry, with a read of 96 bytes at its line of the story's active
version; its place becomes FILLING and is the line's own FAILED entry, else the lowest free one, else one whose entry
is neither FILLING nor needed. With 8 ISSUED entries, with none WAITING, and outside RUNNING, there is no issue. That
an issue can come as a command of its own is the model's choice (notes/assumptions/8.md). -/
def Obligations.FetchIssues : Prop :=
  (∀ (s : State) (c : Chan), let pub := (s.chan c).pub
    let view := (s.chan c).view
    let need := channelNeed s c
    (pub.mode = .off ∨ pub.anchor = none → need = []) ∧
    ∀ (anchor : Anchor) (a : Nat), pub.mode ≠ .off → pub.anchor = some anchor → viewRow view anchor = some a →
      let bound := fun h => h ∈ s.settings.heads.items ∧ h.enable = true ∧ h.channel = c
      let extra : Nat := if pub.fraction = 0 then 0 else 1
      let top := fun h : HeadSettings => (a : Int) - h.readingRow
      let bottom := fun h : HeadSettings => (a : Int) - h.readingRow + h.rows + extra
      let ahead := fun r : Int => (a : Int) ≤ r ∧ r ≤ a + 32
      let window := fun r : Int => ∃ h, bound h ∧ top h ≤ r ∧ r < bottom h
      let margin := fun r : Int => ∃ h, bound h ∧
        ((top h - 4 ≤ r ∧ r < top h) ∨ (bottom h ≤ r ∧ r < bottom h + 4))
      need.Pairwise (fun m n => m.slot ≠ n.slot ∨ m.line ≠ n.line) ∧
      (∀ (r : Nat) (x : Anchor), anchorAtRow view r = some x → ahead r ∨ window r ∨ margin r →
        ∃ n ∈ need, n.slot = x.slot ∧ n.line = x.line ∧
          (ahead r → n.rank.cls = 1) ∧ (window r → n.rank.cls ≤ 2) ∧ n.rank.cls ≤ 3) ∧
      ∀ n ∈ need, ∃ r : Nat, anchorAtRow view r = some ⟨n.slot, n.line⟩ ∧ n.rank.channel = c ∧
        n.rank.distance = ((r : Int) - a).natAbs ∧ (n.rank.behind = true ↔ r < a) ∧
        ((n.rank.cls = 1 ∧ ahead r) ∨ (n.rank.cls = 2 ∧ window r) ∨ (n.rank.cls = 3 ∧ margin r))) ∧
  (∀ (f : Fetch) (lines : Slot → Nat → Bool) (frame : Word), let u := f.updateQueue lines frame
    u.queue.filter QueueEntry.isIssued = f.queue.filter QueueEntry.isIssued ∧
    u.cache = f.cache ∧ u.needs = f.needs ∧
    (∀ q ∈ u.queue, q.isWaiting = true → lines q.slot q.line = true ∧
      ∃ n ∈ f.needSet, n.slot = q.slot ∧ n.line = q.line ∧ n.rank = q.rank) ∧
    (u.queue.filter QueueEntry.isWaiting).Pairwise (fun p q => q.rank.before p.rank = false) ∧
    ∀ n ∈ f.needSet, lines n.slot n.line = true → wantsRead f frame n = true →
      (∃ q ∈ u.queue, q.slot = n.slot ∧ q.line = n.line) ∨
      (32 ≤ u.queue.length ∧ (n.rank.cls = 1 → ∀ q ∈ u.queue, q.isWaiting = true → q.rank.cls ≤ 1))) ∧
  ∀ s : State,
    (∀ (q : QueueEntry) (i : Fin 512) (n : Nat), s.engine = .running → s.fetch.issuedCount < 8 →
      s.fetch.queue.find? QueueEntry.isWaiting = some q →
      s.fetch.choosePlace s.frame q.slot q.line = some (i, n) →
      let rq : Request := ⟨s.nextTag, (s.story q.slot).address + BitVec.ofNat 64 (96 * q.line), 96⟩
      exec .fetchIssue s = .next { s with
        fetch := { s.fetch with
          cache := s.fetch.cache.set i (.held ⟨q.slot, q.line, .filling, false, s.frame, n⟩)
          queue := s.fetch.queue.filter QueueEntry.isIssued
            ++ { q with state := .issued rq i false } :: (s.fetch.queue.filter QueueEntry.isWaiting).tail }
        nextTag := s.nextTag + 1 } ∧
      match s.fetch.cache.get i with
      | .free => n = 0 ∧ ∀ j < i, s.fetch.cache.get j ≠ .free
      | .held e => e.state ≠ .filling ∧
        ((e.slot = q.slot ∧ e.line = q.line ∧ e.failures = n) ∨
          (n = 0 ∧ s.fetch.isNeeded e.slot e.line = false ∧ ∀ j, s.fetch.cache.get j ≠ .free))
      | .withdrawn => False) ∧
    (s.engine ≠ .running ∨ 8 ≤ s.fetch.issuedCount ∨ (∀ q ∈ s.fetch.queue, q.isWaiting = false) →
      exec .fetchIssue s = .next s)

/-- The completion of a line read (R83 to R85): the queue entry goes; a stale read frees its place; a read without fault
makes the entry RESIDENT with the record decoded by R14 and R15, and a bus error makes it FAILED at this frame with
its failure count one higher. Issuing follows. -/
def Obligations.FetchCompletes : Prop :=
  ∀ (tag : Nat) (s : State) (q : QueueEntry) (rq : Request) (i : Fin 512) (e : CacheEntry),
    s.fetch.issuedEntry tag = some q →
    let after := fun (x : Place) => { s with
      fetch := { s.fetch with cache := s.fetch.cache.set i x, queue := s.fetch.dropIssued tag } }
    (∀ r, q.state = .issued rq i true → exec (.fetchCompletion tag r) s = .next (issueAll (after .free))) ∧
    (q.state = .issued rq i false → s.fetch.cache.get i = .held e →
      (∀ bytes, (byteAt bytes 2).toNat ≤ 80 → exec (.fetchCompletion tag (.data bytes)) s = .next (issueAll
        (after (.held { e with
          state := .resident
            { key := half bytes 0, textLength := (byteAt bytes 2).toNat, style := styleOf (byteAt bytes 3)
              cue := cueOf (byteAt bytes 4)
              pattern := if byteAt bytes 5 = 0 then none else some ((byteAt bytes 6).setWidth 4)
              text := (List.range 80).map fun k => byteAt bytes (16 + k) }
          malformed := false, failures := 0 })))) ∧
      (∀ bytes, 80 < (byteAt bytes 2).toNat → exec (.fetchCompletion tag (.data bytes)) s = .next (issueAll (raise
        ⟨12, .malformedLine, slotWord e.slot, natWord e.line, natWord (byteAt bytes 2).toNat,
          (s.story e.slot).storyId⟩
        (after (.held { e with
          state := .resident
            { key := half bytes 0, textLength := (byteAt bytes 2).toNat, style := styleOf (byteAt bytes 3)
              cue := .none, pattern := none
              text := (List.range 80).map fun k => byteAt bytes (16 + k) }
          malformed := true, failures := 0 }))))) ∧
      exec (.fetchCompletion tag .busError) s = .next (issueAll (raise
        ⟨12, .fetchFailed, slotWord e.slot, natWord e.line, natWord (min (e.failures + 1) 255),
          (s.story e.slot).storyId⟩
        (after (.held { e with state := .failed s.frame, failures := min (e.failures + 1) 255 })))))

/-! ### Writes and scans -/

/-- The completion of the oldest write in flight to its target: without fault, the write leaves and its report, if it has
one, is raised (R65, R74, R158, R159, R161); with a bus error the engine is HALTED with STATUS_WRITE_FAULT, unless it
is HALTED already, when nothing but the write goes (R151, R154). -/
def Obligations.WritesComplete : Prop :=
  ∀ (w : Write) (s : State), s.writes.find? (·.tag == w.tag) = some w →
    s.writes.find? (·.target == w.target) = some w →
    let row := fun r : WriteResult => match w.target with
      | .channelStatus _ => Instr.statusWriteComplete w.tag r
      | .portStatus _ => .statusWriteComplete w.tag r
      | .takenGeneration => .settingsWriteComplete w.tag r
      | .commandResult _ => .commandResultWriteDone w.tag r
      | .storyFields _ => .exchangeWriteDone w.tag r
      | .rundownFields => .rundownWriteDone w.tag r
    let rest := { s with writes := s.writes.filter (·.tag != w.tag) }
    (w.report = none → exec (row .written) s = .next rest) ∧
    (∀ report, w.report = some report → s.engine ≠ .halted → s.reports.queue.length < 16 →
      exec (row .written) s = .next { rest with
        reports := { s.reports with queue := s.reports.queue ++ [⟨report, s.frame⟩] } }) ∧
    (s.engine ≠ .halted → ∃ t, exec (row .busError) s = .next t ∧
      t.area = { s.area with engine := .halted, haltCause := .statusWriteFault, start := none, scan := none } ∧
      t.exchange = .idle ∧ t.reports.halt = true ∧ t.reports.queue = s.reports.queue ∧
      t = { rest with area := t.area, exchange := t.exchange, fetch := t.fetch, reports := t.reports }) ∧
    (s.engine = .halted → exec (row .busError) s = .next rest)

/-- The completion of a frame scan, in the order of R156. Each story entry read without fault gives its present, ready,
mask, id, request generation and mode, and leaves the part-written fields and the version (R3); a failed one leaves
the shadow, and one ENTRY_READ_FAULT stands for all of them (R12); the rundown request generation is taken, or its
failed read is reported (R3, R6). The settings are taken when the generation read differs, with one write of the taken
generation at byte 4 of the block and one SETTINGS_TAKEN (R158, R162), and the blocks act on them as SettingsActed gives
it (R22, R96, R115, R117, R120, R143, R158, R168; for the
port items that R96's rows do not list notes/assumptions/29.md, and for the timebase in part notes/assumptions/18.md,
both the model's reading). The four slots are then executed in slot order: the command that a slot's code 1 to 7 names,
with the slot's operands, and UNKNOWN for another code (R159, R160). That a slot's execution is what the row of its
command does as a command of its own, UNKNOWN_COMMAND for another code, is notes/assumptions/9.md, the model's choice.
Every slot's done generation becomes the request read, and the scan state is IDLE. -/
def Obligations.ScanCompletionTakesTheArea : Prop :=
  ∀ (tag : Nat) (d : ScanData) (s : State) (sc : Scan),
    s.area.scan = some sc → sc.group.tag = tag → s.engine = .running →
    let slot := fun n : CmdSlot => d.slots.getD n.val []
    ∃ u v t, exec (.scanCompletion tag d) s = .next t ∧ t.area.scan = none ∧ t.engine = .running ∧
      (∀ (k : Slot) (e : List Byte), d.entries[k.val]? = some (.data e) →
        t.story k = { s.story k with
          present := byteAt e 0 != 0, ready := byteAt e 1 != 0, mask := (byteAt e 2).setWidth 4
          storyId := word e 4, request := word e 8
          mode := if word e 12 = 1 then .now else .clear }) ∧
      (∀ k : Slot, d.entries[k.val]? = some .busError → t.story k = s.story k) ∧
      (∀ bytes, d.rundownRequest = .data bytes →
        t.rundown = { s.rundown with request := word bytes 0 }) ∧
      (d.rundownRequest = .busError → t.rundown = s.rundown) ∧
      u = { s with stories := u.stories, rundown := u.rundown, reports := u.reports } ∧
      u.reports.causes = s.reports.causes ∧ u.reports.postponed = s.reports.postponed ∧
      u.stories = t.stories ∧ u.rundown = t.rundown ∧
      let failed := (List.finRange 256).filter fun k : Slot => d.entries[k.val]? = some .busError
      (∀ k rest, failed = k :: rest →
        posted s t ⟨12, .entryReadFault, natWord failed.length, natWord k.val, (s.story k).storyId, 0xFFFFFFFF⟩) ∧
      (d.rundownRequest = .busError → posted s t ⟨12, .entryReadFault, 256, 0xFFFFFFFF, 0, 1⟩) ∧
      u.reports.queue.length ≤ s.reports.queue.length + (if failed = [] then 0 else 1) +
        (if d.rundownRequest = .busError then 1 else 0) ∧
      (word d.settingsGeneration 0 = s.area.takenGeneration → v = u) ∧
      (word d.settingsGeneration 0 ≠ s.area.takenGeneration → SettingsActed u v ∧
        v.settings = settingsOf d.settingsBlock ∧ v.area.takenGeneration = word d.settingsBlock 0 ∧
        v.writes = s.writes ++ [⟨s.nextTag, .takenGeneration,
          s.area.baseInForce + s.area.header.settings.setWidth 64 + 4, wordBytes (word d.settingsBlock 0), none⟩] ∧
        v.nextTag = s.nextTag + 1 ∧ v.fetch = s.fetch ∧ v.heads = s.heads ∧
        posted s t (takenReport d.settingsBlock 0)) ∧
      (∃ answers, t.writes = v.writes ++ answers ∧ ∀ w ∈ answers, ∃ n, w.target = .commandResult n) ∧
      t.reports = v.reports ∧
      t = endScan (runSlot 3 (slot 3) (runSlot 2 (slot 2) (runSlot 1 (slot 1) (runSlot 0 (slot 0) v)))) ∧
      (∀ (n : CmdSlot) (bytes : List Byte) (x : State),
        let request := word bytes 0
        let code := word bytes 4
        let (a, b, c) := (word bytes 8, word bytes 12, word bytes 16)
        let runs := fun i : Instr => exec i x = .next (runSlot n bytes x)
        (code = 1 → runs (.jump n request a b c)) ∧ (code = 2 → runs (.nudge n request a b)) ∧
        (code = 3 → runs (.setDemand n request a b)) ∧ (code = 4 → runs (.go n request a)) ∧
        (code = 5 → runs (.freeze n request a b)) ∧ (code = 6 → runs (.headBlank n request a b)) ∧
        (code = 7 → runs (.refreshStory n request a)) ∧
        (code.toNat = 0 ∨ 7 < code.toNat → runs (.unknownCommand n request code))) ∧
      t.settings = v.settings ∧ t.area.takenGeneration = v.area.takenGeneration ∧
      (∀ n : CmdSlot, t.area.commandDone.get n = word (slot n) 0) ∧
      t.area.header = s.area.header ∧ t.glyphs = s.glyphs ∧ t.frame = s.frame

/-- A bus error on the scan read of the settings generation, the settings block or a command slot, and one on a read of
the start sequence, ends the operation in HALTED with AREA_READ_FAULT, and changes no setting, no shadow, no channel
and no port (R152, R154, R157). -/
def Obligations.AreaReadFaultsHalt : Prop :=
  ∀ (tag : Nat) (s : State),
    let halts := fun c : Instr => ∃ t, exec c s = .next t ∧
      t.area = { s.area with engine := .halted, haltCause := .areaReadFault, start := none, scan := none } ∧
      t.exchange = .idle ∧ t.reports.halt = true ∧
      t = { s with area := t.area, exchange := t.exchange, fetch := t.fetch, reports := t.reports }
    (∀ (which : ScanRead) (sc : Scan), s.area.scan = some sc → sc.group.tag = tag → s.engine = .running →
      halts (.scanReadFault tag which)) ∧
    (∀ x : StartStep, s.area.start = some x → x.awaits tag = true → s.engine = .starting →
      halts (.startReadFault tag))

/-! ### Commands -/

/-- A JUMP on a LIVE channel that holds neither FREEZE nor EXCHANGE, to a story that is in its view and ready: the anchor
becomes the story and line, a line index at or above the count the last line and a negative one line 0, both with the
result CLAMPED; the fraction and S become 0, CUE and BOUNDARY leave, and the slot is answered (R35, R159, R160). -/
def Obligations.JumpPlacesTheAnchor : Prop :=
  ∀ (n : CmdSlot) (request line : Word) (c : Chan) (k : Slot) (e : ViewEntry) (s : State),
    s.engine = .running → s.area.commandDone.get n ≠ request → s.mode c = .live →
    (s.chan c).freeze = false → (s.chan c).exchange = false →
    entryOf (scriptView s c) k = some e → (s.story k).ready = true →
    let placed : Nat := if line.toInt < 0 then 0 else min line.toNat (e.count - 1)
    let result : CommandResult := if line.toInt < 0 ∨ e.count ≤ line.toNat then .clamped else .ok
    ∃ t, exec (.jump n request (natWord c.val) (natWord k.val) line) s = .next t ∧
      t.chan c = { s.chan c with
        anchor := some ⟨k, placed⟩, fraction := 0, speed := 0, cue := false, boundary := false
        key := if (s.chan c).anchor = some ⟨k, placed⟩ then (s.chan c).key
          else (s.fetch.record k placed).map (·.key)
        placed := true, exchange := (s.exchange.searcher).any (·.slot == k) && !(s.exchange.searcher).any
          (fun sr => sr.members.any (·.channel == c)) } ∧
      (∀ c', c' ≠ c → t.chan c' = s.chan c') ∧
      t = { s with
        channels := t.channels, exchange := t.exchange, nextTag := s.nextTag + 1
        area := { s.area with commandDone := s.area.commandDone.set n request }
        writes := s.writes ++ [⟨s.nextTag, .commandResult n,
          s.areaAddress s.area.header.commands (32 * n.val + 20),
          wordBytes request ++ wordBytes (natWord result.code),
          some ⟨14, .commandDone, natWord n.val, 1, natWord result.code, request⟩⟩] }

/-- NUDGE adds 1024 times its clamped row count to the console jog, which holds at -65536 and 65536, and SET_DEMAND sets
the console standing demand to its clamped operand; the result is CLAMPED when the operand was clamped (R120). -/
def Obligations.ConsoleCommandsAct : Prop :=
  ∀ (n : CmdSlot) (request operand : Word) (c : Chan) (s : State),
    s.engine = .running → s.area.commandDone.get n ≠ request → s.mode c = .live →
    (s.chanSet c).authMode ≠ .presenter →
    let a := s.auth c
    let clamped := fun bound : Int => max (-bound) (min bound operand.toInt)
    let result := fun bound : Int => if clamped bound = operand.toInt then CommandResult.ok else .clamped
    let jog := max (-65536) (min 65536 (a.consoleJog + clamped 64 * 1024))
    exec (.nudge n request (natWord c.val) operand) s = .next (answerCommand n request 2 (result 64)
      { s with authority := s.authority.set c { a with consoleJog := jog } }) ∧
    exec (.setDemand n request (natWord c.val) operand) s = .next (answerCommand n request 3 (result 1024)
      { s with authority := s.authority.set c { a with consoleDemand := clamped 1024 } })

/-- GO on a LIVE channel removes CUE and changes nothing else (R34); FREEZE on one sets the latch as its operand says
(R32); HEAD_BLANK sets the head's blank flag (R132); REFRESH_STORY leaves the shadows and invalidates the story by R87:
its cache entries are freed, its waiting entries go, its reads in flight become stale, other stories' entries and reads
stand, and issuing follows (R82, R88); a code that is none of the seven gives UNKNOWN and changes nothing (R160).
Each is answered. -/
def Obligations.OtherCommandsAct : Prop :=
  ∀ (n : CmdSlot) (request on code : Word) (c : Chan) (h : HeadId) (k : Slot) (s : State),
    s.engine = .running → s.area.commandDone.get n ≠ request →
    (s.mode c = .live →
      exec (.go n request (natWord c.val)) s = .next (answerCommand n request 4 .ok
        { s with channels := s.channels.set c { s.chan c with cue := false } }) ∧
      exec (.freeze n request (natWord c.val) on) s = .next (answerCommand n request 5 .ok
        { s with channels := s.channels.set c { s.chan c with latch := on != 0 } })) ∧
    exec (.headBlank n request (natWord h.val) on) s = .next (answerCommand n request 6 .ok
      { s with heads := s.heads.set h { s.head h with blank := on != 0 } }) ∧
    (∃ f, exec (.refreshStory n request (natWord k.val)) s =
        .next (answerCommand n request 7 .ok (issueAll { s with fetch := f })) ∧
      f.needs = s.fetch.needs ∧
      (∀ i, f.cache.get i =
        match s.fetch.cache.get i with
        | .held ⟨slot, line, state, m, last, failures⟩ =>
          if slot ≠ k then .held ⟨slot, line, state, m, last, failures⟩
          else if state = .filling then .withdrawn else .free
        | x => x) ∧
      f.queue = s.fetch.queue.filterMap fun q =>
        if q.slot ≠ k then some q
        else match q.state with
          | .waiting => none
          | .issued r i _ => some { q with state := .issued r i true }) ∧
    (code = 0 ∨ 7 < code.toNat →
      exec (.unknownCommand n request code) s = .next (answerCommand n request code .unknown s))

/-- The refusals of the commands change nothing but the answer: an operand out of range gives BAD_TARGET whatever the
state of the channel; then a channel that is not LIVE gives WRONG_STATE; then JUMP gives FROZEN, BUSY and BAD_TARGET
in that order, and a console command NO_AUTHORITY (R34, R35, R120, R160). A slot that is not fresh, and any outside
RUNNING, is not executed (R159, notes/assumptions/9.md). -/
def Obligations.CommandRefusals : Prop :=
  ∀ (n : CmdSlot) (request x y z : Word) (c : Chan) (k : Slot) (s : State),
    (s.engine ≠ .running ∨ s.area.commandDone.get n = request →
      exec (.jump n request x y z) s = .next s ∧ exec (.nudge n request x y) s = .next s ∧
      exec (.setDemand n request x y) s = .next s ∧ exec (.go n request x) s = .next s ∧
      exec (.freeze n request x y) s = .next s ∧ exec (.headBlank n request x y) s = .next s ∧
      exec (.refreshStory n request x) s = .next s ∧ exec (.unknownCommand n request x) s = .next s) ∧
    (s.engine = .running → s.area.commandDone.get n ≠ request →
      let answers := fun (i : Instr) (code : Word) (r : CommandResult) =>
        exec i s = .next (answerCommand n request code r s)
      (x.toInt < 0 ∨ 3 < x.toInt →
        answers (.jump n request x y z) 1 .badTarget ∧ answers (.nudge n request x y) 2 .badTarget ∧
        answers (.setDemand n request x y) 3 .badTarget ∧ answers (.go n request x) 4 .badTarget ∧
        answers (.freeze n request x y) 5 .badTarget) ∧
      (y.toInt < 0 ∨ 255 < y.toInt → answers (.jump n request x y z) 1 .badTarget) ∧
      (x.toInt < 0 ∨ 5 < x.toInt → answers (.headBlank n request x y) 6 .badTarget) ∧
      (x.toInt < 0 ∨ 255 < x.toInt → answers (.refreshStory n request x) 7 .badTarget) ∧
      (s.mode c ≠ .live →
        answers (.jump n request (natWord c.val) (natWord k.val) z) 1 .wrongState ∧
        answers (.nudge n request (natWord c.val) y) 2 .wrongState ∧
        answers (.setDemand n request (natWord c.val) y) 3 .wrongState ∧
        answers (.go n request (natWord c.val)) 4 .wrongState ∧
        answers (.freeze n request (natWord c.val) y) 5 .wrongState) ∧
      (s.mode c = .live →
        ((s.chan c).freeze = true →
          answers (.jump n request (natWord c.val) (natWord k.val) z) 1 .frozen) ∧
        ((s.chan c).freeze = false → (s.chan c).exchange = true →
          answers (.jump n request (natWord c.val) (natWord k.val) z) 1 .busy) ∧
        ((s.chan c).freeze = false → (s.chan c).exchange = false →
          entryOf (scriptView s c) k = none ∨ (s.story k).ready = false →
          answers (.jump n request (natWord c.val) (natWord k.val) z) 1 .badTarget) ∧
        ((s.chanSet c).authMode = .presenter →
          answers (.nudge n request (natWord c.val) y) 2 .noAuthority ∧
          answers (.setDemand n request (natWord c.val) y) 3 .noAuthority)))

/-- The answer of an executed command: its done generation becomes the request generation read, and one write of the
done generation and the result is issued, whose completion raises COMMAND_DONE (R159, R162, R178). -/
def Obligations.CommandsAreAnswered : Prop :=
  ∀ (n : CmdSlot) (request code : Word) (r : CommandResult) (s : State),
    answerCommand n request code r s = { s with
      area := { s.area with commandDone := s.area.commandDone.set n request }
      writes := s.writes ++ [⟨s.nextTag, .commandResult n,
        s.areaAddress s.area.header.commands (32 * n.val + 20),
        wordBytes request ++ wordBytes (natWord r.code),
        some ⟨14, .commandDone, natWord n.val, code, natWord r.code, request⟩⟩]
      nextTag := s.nextTag + 1 }

/-! ### Exchanges -/

/-- The version read of a direct take (R63): with the check passed, the story flips to the other side, with the
version taken by R9, done equal to the generation taken and the result DONE, no cache entry of it is left, and its
part-written fields are written with EXCHANGE_DONE to follow (R64, R65); with the check not passed the take lapses and
nothing else changes; a bus error, whatever stands in sight (notes/assumptions/15.md), leaves the side and gives
FAILED. That the check counts the windows by the head settings of that moment is the model's choice
(notes/assumptions/49.md). -/
def Obligations.DirectTakesEnd : Prop :=
  ∀ (tag : Nat) (s : State) (x : DirectTake),
    s.exchange.takes.find? (·.request.tag == tag) = some x →
    let k := x.slot
    let st := s.story k
    let rest := { s with exchange :=
      { s.exchange with takes := s.exchange.takes.filter (·.request.tag != tag) } }
    (∀ bytes, directAllowed rest k x.mode = true →
      let address := long bytes 0 &&& 0xFFFFFFFFFFFFFFF0
      let count := if address = 0 then 0 else min (word bytes 8).toNat 4096
      let flipped := { st with
        side := st.side.other, address := address, count := count, done := x.generation, result := 1 }
      ∃ t w, exec (.directTakeReadDone tag (.data bytes)) s = .next t ∧ t.story k = flipped ∧
        (∀ j, j ≠ k → t.story j = s.story j) ∧
        (∀ i e, t.fetch.cache.get i = .held e → e.slot ≠ k) ∧
        t.writes = s.writes ++ [w] ∧ w.target = .storyFields k ∧ w.address = s.entryAddress k 48 ∧
        w.bytes = wordBytes (natWord flipped.side.code) ++ wordBytes x.generation ++ wordBytes 1 ∧
        w.report = some ⟨13, .exchangeDone, slotWord k, natWord flipped.side.code, natWord count, st.storyId⟩ ∧
        t.exchange = rest.exchange ∧ t.channels = s.channels ∧ t.rundown = s.rundown) ∧
    (∀ bytes, directAllowed rest k x.mode = false →
      exec (.directTakeReadDone tag (.data bytes)) s = .next rest) ∧
    exec (.directTakeReadDone tag .busError) s = .next { rest with
      stories := s.stories.set k { st with done := x.generation, result := 2 }
      writes := s.writes ++ [⟨s.nextTag, .storyFields k, s.entryAddress k 48,
        wordBytes (natWord st.side.code) ++ wordBytes x.generation ++ wordBytes 2,
        some ⟨13, .exchangeFailed, slotWord k, 1, 0xFFFFFFFF, st.storyId⟩⟩]
      nextTag := s.nextTag + 1 }

/-- The key search (R67 to R69). Its version read with a count above 0 and a target still to find begins phase KEYS at
index 0, and with none to find completes the search; with the count taken as 0 it completes the search, the anchors
standing. A key read that leaves a target without a match is followed by the next index, or by index 0 when a channel
has set it back. One that leaves every listed channel with a match or an absent target, or whose next index reaches the
count, completes the search: the story flips, a matched channel stands on the line of its match with its fraction, key
and CUE kept, another on the line min(old index, count - 1) with fraction 0 and no key and no CUE. A bus error on either
read is a failed search: the version stands, the result is FAILED, and the anchors stand. At every end S is 0 and
EXCHANGE leaves, the searcher is IDLE, and no other channel changes. -/
def Obligations.KeySearchRuns : Prop :=
  ∀ (tag : Nat) (bytes : List Byte) (s : State) (sr : Searcher) (r : Request),
    s.exchange.searcher = some sr → r.tag = tag →
    let old := s.story sr.slot
    let others := fun t : State => ∀ c, c ∉ sr.members.map (·.channel) → t.chan c = s.chan c
    let flipped := fun (t : State) (address : Addr) (count : Nat) => t.exchange.searcher = none ∧
      t.story sr.slot = { old with
        side := old.side.other, address := address, count := count, done := sr.generation, result := 1 } ∧
      ∃ w, t.writes = s.writes ++ [w] ∧ w.target = .storyFields sr.slot ∧ w.report = some
        ⟨13, .exchangeDone, slotWord sr.slot, natWord old.side.other.code, natWord count, old.storyId⟩
    let fails := fun (i : Instr) (stage line : Word) => ∃ t, exec i s = .next t ∧
      (∀ m ∈ sr.members, t.chan m.channel = { s.chan m.channel with speed := 0, exchange := false }) ∧
      others t ∧ t = { s with
        channels := t.channels, exchange := { s.exchange with searcher := none }
        stories := s.stories.set sr.slot { old with done := sr.generation, result := 2 }
        writes := s.writes ++ [⟨s.nextTag, .storyFields sr.slot, s.entryAddress sr.slot 48,
          wordBytes (natWord old.side.code) ++ wordBytes sr.generation ++ wordBytes 2,
          some ⟨13, .exchangeFailed, slotWord sr.slot, stage, line, old.storyId⟩⟩]
        nextTag := s.nextTag + 1 }
    let completes := fun (i : Instr) (members : List SearchMember) (address : Addr) (count : Nat) =>
      ∃ t, exec i s = .next t ∧ flipped t address count ∧ others t ∧
        (∀ m ∈ members, ∀ j, m.found = some j → t.chan m.channel = { s.chan m.channel with
          anchor := some ⟨sr.slot, j⟩, placed := true, speed := 0, exchange := false }) ∧
        (∀ m ∈ members, m.found = none → t.chan m.channel = { s.chan m.channel with
          anchor := some ⟨sr.slot, min (anchorLine (s.chan m.channel).anchor) (count - 1)⟩
          fraction := 0, key := none, cue := false, placed := true, speed := 0, exchange := false })
    (sr.phase = .versionRead r →
      let address := long bytes 0 &&& 0xFFFFFFFFFFFFFFF0
      let count := if address = 0 then 0 else min (word bytes 8).toNat 4096
      (allFound sr.members = false → 0 < count →
        exec (.searchVersionReadDone tag (.data bytes)) s = .next { s with
          exchange := { s.exchange with searcher := some ⟨sr.slot, sr.generation, sr.mode,
            .keys ⟨s.nextTag, address + 0, 2⟩ address count 0 false, sr.members⟩ }
          nextTag := s.nextTag + 1 }) ∧
      (allFound sr.members = true → 0 < count → (sr.members.map (·.channel)).Nodup →
        completes (.searchVersionReadDone tag (.data bytes)) sr.members address count) ∧
      (count = 0 → ∃ t, exec (.searchVersionReadDone tag (.data bytes)) s = .next t ∧
        flipped t address 0 ∧ others t ∧
        ∀ m ∈ sr.members, t.chan m.channel = { s.chan m.channel with speed := 0, exchange := false }) ∧
      fails (.searchVersionReadDone tag .busError) 1 0xFFFFFFFF) ∧
    ∀ (address : Addr) (count i : Nat) (back : Bool), sr.phase = .keys r address count i back →
      let members := sr.members.map (SearchMember.compare (half bytes 0) i)
      let next := if back then 0 else i + 1
      (allFound members = false → next < count →
        exec (.keyReadDone tag (.data bytes)) s = .next { s with
          exchange := { s.exchange with searcher := some ⟨sr.slot, sr.generation, sr.mode,
              .keys ⟨s.nextTag, address + BitVec.ofNat 64 (96 * next), 2⟩ address count next false, members⟩ }
          nextTag := s.nextTag + 1 }) ∧
      (allFound members = true ∨ count ≤ next → 0 < count → (sr.members.map (·.channel)).Nodup →
        completes (.keyReadDone tag (.data bytes)) members address count) ∧
      fails (.keyReadDone tag .busError) 2 (natWord i)

/-- The order list take keeps every listed slot number once, in the order of the first occurrences, and ignores the
later ones; the first of those is the first one ignored (R5). In a rundown exchange the length is read first, a length
above 256 is taken as 256, and then as many slot numbers as it counts, or none at a length of 0 (R5, R175). The last
of these reads makes the taken list the active order list and flips the selector, with the done generation the
generation taken, posts DUPLICATE_SLOT when an occurrence was ignored, and issues the write of selector and generation
(R74); a bus error on either read leaves the rundown shadow (R6). -/
def Obligations.RundownExchangeEnds : Prop :=
  (∀ bytes : List Byte, let listed := listedSlots bytes
    let taken := takeList bytes
    listed = bytes.map (·.toFin) ∧ taken.kept.Nodup ∧ (∀ k, k ∈ taken.kept ↔ k ∈ listed) ∧
    taken.kept.Pairwise (fun j k => listed.idxOf j < listed.idxOf k) ∧
    taken.kept.length + taken.ignored = listed.length ∧ (taken.first = none ↔ listed.Nodup) ∧
    ∀ k i, taken.first = some (k, i) ↔
      listed[i]? = some k ∧ k ∈ listed.take i ∧ (listed.take i).Nodup) ∧
  ∀ (tag : Nat) (s : State) (x : RundownTake), s.exchange.rundown = some x → x.request.tag = tag →
    let ends := fun (i : Instr) (slots : List Byte) => let taken := takeList slots
      ∃ t, exec i s = .next t ∧
        t.rundown = ⟨taken.kept, x.list, s.rundown.request, x.generation⟩ ∧
        t.writes = s.writes ++ [⟨s.nextTag, .rundownFields, s.areaAddress s.area.header.rundown 4,
          wordBytes x.generation ++ wordBytes (natWord x.list.code),
          some ⟨13, .exchangeDone, 256, natWord x.list.code, natWord taken.kept.length, 0⟩⟩] ∧
        t.reports = (match taken.first with
          | none => s
          | some (k, i) =>
            raise ⟨12, .duplicateSlot, natWord x.list.code, natWord taken.ignored, slotWord k, natWord i⟩ s).reports ∧
        t = { s with
          exchange := { s.exchange with rundown := none }, rundown := t.rundown, writes := t.writes
          reports := t.reports, nextTag := s.nextTag + 1 }
    (x.reading = .length → x.request.length = 4 → ∀ bytes : List Byte, bytes.length = 4 →
      let n := min (word bytes 0).toNat 256
      (0 < n → exec (.rundownListReadDone tag (.data bytes)) s = .next { s with
        exchange := { s.exchange with rundown := some ⟨x.generation, x.list, .slots,
          ⟨s.nextTag, s.areaAddress s.area.header.rundown (match x.list with | .a => 32 | .b => 288), n⟩⟩ }
        nextTag := s.nextTag + 1 }) ∧
      (n = 0 → ends (.rundownListReadDone tag (.data bytes)) [])) ∧
    (x.reading = .slots → ∀ bytes : List Byte, bytes.length = x.request.length →
      ends (.rundownListReadDone tag (.data bytes)) bytes) ∧
    exec (.rundownListReadDone tag .busError) s = .next (raise
      ⟨12, .entryReadFault, 256, natWord x.list.code, 0, 1⟩
      { s with exchange := { s.exchange with rundown := none } })

/-! ### Reports -/

/-- A post (R166 to R168): outside HALTED, with none in progress, the oldest entry begins, at POST_BEGIN
(notes/assumptions/7.md), with a read of its slot at the base in force and the report-slot offset of that moment; the
read forms the overwritten count, one higher (holding at 255) when the taken count differs from the held post count,
and issues one write of 28 bytes at the address fixed when the post began (R164); its completion makes the held
post count the one written, and sets the class's IRQ_CAUSE bit or, where the class is not enabled, adds the class to
the postponed set. A bus error loses the post and halts the engine. -/
def Obligations.PostsArePerformed : Prop :=
  ∀ (tag : Nat) (s : State) (p : Post) (rest : List Post) (r : Request) (slot bytes : List Byte) (count : Word),
    let k := p.report.slot
    let held := s.reports.heldCount.get k
    (s.reports.current = none → s.reports.queue = p :: rest → s.engine ≠ .halted →
      exec .postBegin s = .next { s with
        reports := { s.reports with
          queue := rest
          current := some ⟨p, .read
            ⟨s.nextTag, s.areaAddress s.area.header.reports (32 * k.val), 32⟩⟩ }
        nextTag := s.nextTag + 1 }) ∧
    (s.reports.current = some ⟨p, .read r⟩ → r.tag = tag →
      ∃ lost : Byte,
        lost.toNat = (if word slot 28 = held then (byteAt slot 6).toNat
          else min ((byteAt slot 6).toNat + 1) 255) ∧
        exec (.postReadDone tag (.data slot)) s = .next { s with
          reports := { s.reports with current := some ⟨p, .write ⟨s.nextTag, r.address, 28⟩
            (reportBytes p (held + 1) lost) (held + 1)⟩ }
          nextTag := s.nextTag + 1 }) ∧
    (s.reports.current = some ⟨p, .write r bytes count⟩ → r.tag = tag →
      ∃ t, exec (.postWriteDone tag .written) s = .next t ∧
        t = { s with reports := { s.reports with
          heldCount := s.reports.heldCount.set k count, current := none
          causes := t.reports.causes, postponed := t.reports.postponed } } ∧
        ∀ x, (t.reports.causes.get x = (s.reports.causes.get x ||
            (x == slotClass k && s.settings.enables.get x))) ∧
          (t.reports.postponed.get x = (s.reports.postponed.get x ||
            (x == slotClass k && !s.settings.enables.get x)))) ∧
    (s.engine ≠ .halted → (s.reports.current = some ⟨p, .read r⟩ → r.tag = tag →
        ∃ t, exec (.postReadDone tag .busError) s = .next t ∧ t.engine = .halted ∧
          t.area.haltCause = .reportWriteFault ∧ t.reports.current = none ∧
          t.reports.heldCount = s.reports.heldCount) ∧
      (s.reports.current = some ⟨p, .write r bytes count⟩ → r.tag = tag →
        ∃ t, exec (.postWriteDone tag .busError) s = .next t ∧ t.engine = .halted ∧
          t.area.haltCause = .reportWriteFault ∧ t.reports.current = none ∧
          t.reports.heldCount = s.reports.heldCount ∧ t.reports.causes = s.reports.causes))

/-! ### Motion and lamps -/

/-- The slewed speed moves by at most the acceleration limit, reaches a target within it, and is cut to Vmax (R46); the
target is the curve speed of R44 with the demand's sign, and 0 for a forward demand under CUE or BOUNDARY (R45). The
advance then stands still under a full hold (R43); with S' above 0 and no jog it lands on the nearest stopping cue of the
reach, or moves by the capped speed (R48 to R50); else it moves by S' and the jog (R42, R51), line by line, and ends at
its target or at the horizon, boundary, end, top or upper boundary stop, with the position and the S of that end (R52
to R57). Moved, CueAhead and Landed give it by the rows of the view. A walk enters resident lines alone (R52); and at a
frame event in RUNNING a LIVE channel publishes an S within its Vmax in force, and S 0 with FREEZE or EXCHANGE in its hold
set (R47; where a story jump is refused, that is notes/assumptions/13.md, the model's choice). The premise is the
invariant of StepKeepsPositions. -/
def Obligations.MotionKeepsItsLimits : Prop :=
  (∀ (cs : ChannelSettings) (speed target : Int),
    (slewedSpeed cs speed target).natAbs ≤ cs.vmax ∧
    (target.natAbs ≤ cs.vmax → (target - speed).natAbs ≤ cs.accel → slewedSpeed cs speed target = target) ∧
    (speed.natAbs ≤ cs.vmax → (slewedSpeed cs speed target - speed).natAbs ≤ cs.accel)) ∧
  (∀ (cs : ChannelSettings) (holds : HoldSet) (demand : Int),
    (targetSpeed cs holds demand).natAbs ≤ cs.vmax ∧
    (holds.cue = true ∨ holds.boundary = true → targetSpeed cs holds demand ≤ 0) ∧
    (demand ≤ 0 → targetSpeed cs holds demand ≤ 0) ∧ (0 ≤ demand → 0 ≤ targetSpeed cs holds demand)) ∧
  (∀ (cs : ChannelSettings) (demand : Int) (i : Fin 17), i.val = demand.natAbs / 64 →
    (demand.natAbs = 1024 → curveSpeed cs demand = (min cs.vmax (cs.curve.get i) : Nat)) ∧
    ∀ j : Fin 17, j.val = i.val + 1 →
      let p := cs.curve.get i
      let q := cs.curve.get j
      let r := demand.natAbs % 64
      curveSpeed cs demand = (min cs.vmax (if p ≤ q then p + (q - p) * r / 64 else p - (p - q) * r / 64) : Nat)) ∧
  (∀ (cs : ChannelSettings) (holds : HoldSet) (speed target demand jog : Int),
    targetSpeed cs holds demand =
      (if 0 < demand ∧ (holds.cue = true ∨ holds.boundary = true) then 0 else demand.sign * curveSpeed cs demand) ∧
    slewedSpeed cs speed target = max (-(cs.vmax : Int)) (min (cs.vmax : Int)
      (if (target - speed).natAbs ≤ cs.accel then target else speed + cs.accel * (target - speed).sign)) ∧
    effectiveJog holds jog =
      (if holds.boundary = true ∧ 0 < jog then 0 else max (-65536) (min 65536 jog))) ∧
  (∀ (cs : ChannelSettings) (v : List ViewEntry) (f : Fetch) (row fraction : Nat) (speed : Int) (holds : HoldSet)
    (demand jog : Int), row < viewSize v → fraction ≤ 1023 →
    let adv := advance cs v f row fraction speed holds demand jog
    let j := effectiveJog holds jog
    let slewed := slewedSpeed cs speed (targetSpeed cs holds demand)
    (holds.freeze = true ∨ holds.exchange = true → adv = ⟨row, fraction, 0, [], [], .reached, none⟩) ∧
    (holds.freeze = false → holds.exchange = false →
      (∀ n, 0 < slewed → j = 0 → CueAhead v f row n →
        let d := n * 1024 - fraction
        let capped : Int := min slewed (max cs.crawl (d / cs.approach) : Nat)
        (d ≤ capped → Landed v f row n adv) ∧ (capped < d → Moved v f row fraction capped capped adv)) ∧
      (slewed ≤ 0 ∨ j ≠ 0 ∨ (∀ n, ¬ CueAhead v f row n) → Moved v f row fraction slewed (slewed + j) adv))) ∧
  (∀ (cs : ChannelSettings) (v : List ViewEntry) (f : Fetch) (row fraction : Nat) (speed : Int)
    (holds : HoldSet) (demand jog : Int),
    ∀ e ∈ (advance cs v f row fraction speed holds demand jog).entered,
      f.resident e.line.slot e.line.line = true) ∧
  ∀ (s t : State) (c : Chan), s.timebase.lock = .free → s.engine = .running → s.mode c = .live →
    channelsPositioned s → exec .frameEvent s = .next t →
    (t.chan c).pub.speed.natAbs ≤ (s.chanSet c).vmax ∧
    ((t.chan c).pub.holds.freeze = true ∨ (t.chan c).pub.holds.exchange = true → (t.chan c).pub.speed = 0)

/-- A LATCH group's pattern after a crossing record is that of the last entered line with a pattern, else 0000 when the
anchor was placed, else the pattern it had (R141); a SPAN group's is that of the resident anchor line, else 0000
(R142). At a frame event in RUNNING each channel hands its crossing record to the Lamp Unit with its publication (R140): a
LIVE one that of its stages, an OFF one Placed alone, a FOLLOW one its newly derived anchor line. The groups bound to the
channel then take their patterns, a signalling crossing sets the channel's strobe timer to 100 (R144), and CUE_PASSED is
among the posts when none is dropped (R145, R165). `f` is the cache as the Lamp Unit reads it at the publication,
which the updates for channels that have published before may have changed (notes/assumptions/5.md, the model's choice of
the order). A mark line shows what its select says (R146), and so does a port's lamp line, once the port lamps are driven
(R147); which hold set HOLD shows in RUNNING before the first publication after a mode change or a start is the model's
choice (notes/assumptions/51.md). -/
def Obligations.LampGroupsAct : Prop :=
  (∀ (r : CrossingRecord) (old : BitVec 4),
    latchPattern r old = ((r.entered.filterMap (·.pattern)).getLast?).getD (if r.placed then 0 else old)) ∧
  (∀ (f : Fetch) (a : Anchor), spanPattern f none = 0 ∧
    (f.resident a.slot a.line = false → spanPattern f (some a) = 0) ∧
    ∀ rec, f.record a.slot a.line = some rec → spanPattern f (some a) = rec.pattern.getD 0) ∧
  (∀ (s t : State) (c : Chan), s.timebase.lock = .free → s.engine = .running → exec .frameEvent s = .next t →
    t.lamps.driven = s.lamps.driven ∧ ∃ (f : Fetch) (r : CrossingRecord),
      s.fetch.Issued f ∧ f.Issued t.fetch ∧ recorded s t f c r ∧ lampsPublished s t f c r) ∧
  (∀ (s : State) (p : PortId),
    let select := (s.portSet p).lampSelect
    let c := (s.portSet p).channel
    (s.lamps.driven = false → lampLine s p = none) ∧
    (s.lamps.driven = true →
      (select = .off → lampLine s p = some false) ∧ (select = .on → lampLine s p = some true) ∧
      (select = .authority → lampLine s p = some (decide ((s.auth c).holder = some (.port p)))) ∧
      (select = .hold → lampLine s p = some
        (if s.engine = .running then (s.chan c).pub.holds.any else (s.chan c).holds.any)) ∧
      (select = .strobe → lampLine s p = some (decide (0 < s.lamps.strobe.get c))))) ∧
  ∀ (s : State) (m : MarkId),
    let select := s.settings.markSelect.get m
    let g : GroupId := ⟨m.val / 4, by omega⟩
    let bit := (s.lamps.pattern.get g).getLsbD (m.val % 4)
    (select = .undriven → markLine s m = none) ∧ (select = .low → markLine s m = some false) ∧
    (select = .high → markLine s m = some true) ∧ (select = .bit → markLine s m = some bit) ∧
    (select = .bitInv → markLine s m = some !bit) ∧
    (select = .hold → markLine s m = some
      (let ch := s.chan (s.settings.groupChannel.get g)
        if s.engine = .running then ch.pub.holds.any else ch.holds.any)) ∧
    (select = .strobe → markLine s m = some (decide (0 < s.lamps.strobe.get (s.settings.groupChannel.get g))))
end

