-- ==== Sys2Proof/Laws/State.lean ====
section
/-! SUPPORT. What a bank holds after an update, and each field of a state after each of the shared updates of one unit:
a lemma for each field and update, true by definition. -/

namespace Sys2Proof

set_option Elab.async false

/-! ### Banks -/

@[simp] theorem Bank.get_set_self {n : Nat} {α : Type} (b : Bank n α) (i : Fin n) (x : α) :
    (b.set i x).get i = x := by
  simp [Bank.get, Bank.set]

theorem Bank.get_set_ne {n : Nat} {α : Type} (b : Bank n α) {i j : Fin n} (x : α) (h : j ≠ i) :
    (b.set i x).get j = b.get j := by
  have h' : i.val ≠ j.val := fun e => h (Fin.ext e.symm)
  simp [Bank.get, Bank.set, h']

theorem Bank.get_set {n : Nat} {α : Type} (b : Bank n α) (i j : Fin n) (x : α) :
    (b.set i x).get j = if j = i then x else b.get j := by
  by_cases h : j = i
  · subst h; simp
  · simp [h, Bank.get_set_ne]

@[simp] theorem Bank.set_set {n : Nat} {α : Type} (b : Bank n α) (i : Fin n) (x y : α) :
    (b.set i x).set i y = b.set i y := by
  simp [Bank.set]

@[simp] theorem Bank.set_get {n : Nat} {α : Type} (b : Bank n α) (i : Fin n) : b.set i (b.get i) = b := by
  cases b; simp [Bank.set, Bank.get]

@[simp] theorem Bank.get_fill {n : Nat} {α : Type} (x : α) (i : Fin n) : (Bank.fill n x).get i = x := by
  simp [Bank.get, Bank.fill]

@[simp] theorem Bank.get_map {n : Nat} {α β : Type} (f : α → β) (b : Bank n α) (i : Fin n) :
    (b.map f).get i = f (b.get i) := by
  simp [Bank.get, Bank.map]

@[simp] theorem Bank.get_ofFn {n : Nat} {α : Type} (f : Fin n → α) (i : Fin n) :
    (Bank.ofFn f).get i = f i := by
  simp [Bank.get, Bank.ofFn]

theorem Bank.ext_get {n : Nat} {α : Type} {b c : Bank n α} (h : ∀ i, b.get i = c.get i) : b = c := by
  obtain ⟨bs, hb⟩ := b
  obtain ⟨cs, hc⟩ := c
  have : bs = cs := List.ext_getElem (hb.trans hc.symm) fun i h1 h2 => h ⟨i, hb ▸ h1⟩
  subst this
  rfl

@[simp] theorem Trio.get_set_self {α : Type} (t : Trio α) (l : LineId) (x : α) : (t.set l x).get l = x := by
  cases l <;> rfl

theorem Trio.get_set_ne {α : Type} (t : Trio α) {l m : LineId} (x : α) (h : m ≠ l) :
    (t.set l x).get m = t.get m := by
  cases l <;> cases m <;> first | rfl | exact absurd rfl h

@[simp] theorem Trio.get_fill {α : Type} (x : α) (l : LineId) : (Trio.fill x).get l = x := by
  cases l <;> rfl

namespace Machine

/-! ### The fields after each update -/

@[simp] theorem State.modChan_area (s : State) (c : Chan) (f : Channel → Channel) :
    (s.modChan c f).area = s.area := rfl
@[simp] theorem State.modChan_writes (s : State) (c : Chan) (f : Channel → Channel) :
    (s.modChan c f).writes = s.writes := rfl
@[simp] theorem State.modChan_settings (s : State) (c : Chan) (f : Channel → Channel) :
    (s.modChan c f).settings = s.settings := rfl
@[simp] theorem State.modChan_stories (s : State) (c : Chan) (f : Channel → Channel) :
    (s.modChan c f).stories = s.stories := rfl
@[simp] theorem State.modChan_rundown (s : State) (c : Chan) (f : Channel → Channel) :
    (s.modChan c f).rundown = s.rundown := rfl
@[simp] theorem State.modChan_exchange (s : State) (c : Chan) (f : Channel → Channel) :
    (s.modChan c f).exchange = s.exchange := rfl
@[simp] theorem State.modChan_fetch (s : State) (c : Chan) (f : Channel → Channel) :
    (s.modChan c f).fetch = s.fetch := rfl
@[simp] theorem State.modChan_ports (s : State) (c : Chan) (f : Channel → Channel) :
    (s.modChan c f).ports = s.ports := rfl
@[simp] theorem State.modChan_authority (s : State) (c : Chan) (f : Channel → Channel) :
    (s.modChan c f).authority = s.authority := rfl
@[simp] theorem State.modChan_armed (s : State) (c : Chan) (f : Channel → Channel) :
    (s.modChan c f).armed = s.armed := rfl
@[simp] theorem State.modChan_timebase (s : State) (c : Chan) (f : Channel → Channel) :
    (s.modChan c f).timebase = s.timebase := rfl
@[simp] theorem State.modChan_glyphs (s : State) (c : Chan) (f : Channel → Channel) :
    (s.modChan c f).glyphs = s.glyphs := rfl
@[simp] theorem State.modChan_heads (s : State) (c : Chan) (f : Channel → Channel) :
    (s.modChan c f).heads = s.heads := rfl
@[simp] theorem State.modChan_lamps (s : State) (c : Chan) (f : Channel → Channel) :
    (s.modChan c f).lamps = s.lamps := rfl
@[simp] theorem State.modChan_reports (s : State) (c : Chan) (f : Channel → Channel) :
    (s.modChan c f).reports = s.reports := rfl
@[simp] theorem State.modChan_nextTag (s : State) (c : Chan) (f : Channel → Channel) :
    (s.modChan c f).nextTag = s.nextTag := rfl
@[simp] theorem State.modChan_pending (s : State) (c : Chan) (f : Channel → Channel) :
    (s.modChan c f).pending = s.pending := rfl

@[simp] theorem State.modPort_area (s : State) (p : PortId) (f : Port → Port) :
    (s.modPort p f).area = s.area := rfl
@[simp] theorem State.modPort_writes (s : State) (p : PortId) (f : Port → Port) :
    (s.modPort p f).writes = s.writes := rfl
@[simp] theorem State.modPort_settings (s : State) (p : PortId) (f : Port → Port) :
    (s.modPort p f).settings = s.settings := rfl
@[simp] theorem State.modPort_stories (s : State) (p : PortId) (f : Port → Port) :
    (s.modPort p f).stories = s.stories := rfl
@[simp] theorem State.modPort_rundown (s : State) (p : PortId) (f : Port → Port) :
    (s.modPort p f).rundown = s.rundown := rfl
@[simp] theorem State.modPort_exchange (s : State) (p : PortId) (f : Port → Port) :
    (s.modPort p f).exchange = s.exchange := rfl
@[simp] theorem State.modPort_fetch (s : State) (p : PortId) (f : Port → Port) :
    (s.modPort p f).fetch = s.fetch := rfl
@[simp] theorem State.modPort_channels (s : State) (p : PortId) (f : Port → Port) :
    (s.modPort p f).channels = s.channels := rfl
@[simp] theorem State.modPort_authority (s : State) (p : PortId) (f : Port → Port) :
    (s.modPort p f).authority = s.authority := rfl
@[simp] theorem State.modPort_armed (s : State) (p : PortId) (f : Port → Port) :
    (s.modPort p f).armed = s.armed := rfl
@[simp] theorem State.modPort_timebase (s : State) (p : PortId) (f : Port → Port) :
    (s.modPort p f).timebase = s.timebase := rfl
@[simp] theorem State.modPort_glyphs (s : State) (p : PortId) (f : Port → Port) :
    (s.modPort p f).glyphs = s.glyphs := rfl
@[simp] theorem State.modPort_heads (s : State) (p : PortId) (f : Port → Port) :
    (s.modPort p f).heads = s.heads := rfl
@[simp] theorem State.modPort_lamps (s : State) (p : PortId) (f : Port → Port) :
    (s.modPort p f).lamps = s.lamps := rfl
@[simp] theorem State.modPort_reports (s : State) (p : PortId) (f : Port → Port) :
    (s.modPort p f).reports = s.reports := rfl
@[simp] theorem State.modPort_nextTag (s : State) (p : PortId) (f : Port → Port) :
    (s.modPort p f).nextTag = s.nextTag := rfl
@[simp] theorem State.modPort_pending (s : State) (p : PortId) (f : Port → Port) :
    (s.modPort p f).pending = s.pending := rfl

@[simp] theorem State.modStory_area (s : State) (k : Slot) (f : Story → Story) :
    (s.modStory k f).area = s.area := rfl
@[simp] theorem State.modStory_writes (s : State) (k : Slot) (f : Story → Story) :
    (s.modStory k f).writes = s.writes := rfl
@[simp] theorem State.modStory_settings (s : State) (k : Slot) (f : Story → Story) :
    (s.modStory k f).settings = s.settings := rfl
@[simp] theorem State.modStory_rundown (s : State) (k : Slot) (f : Story → Story) :
    (s.modStory k f).rundown = s.rundown := rfl
@[simp] theorem State.modStory_exchange (s : State) (k : Slot) (f : Story → Story) :
    (s.modStory k f).exchange = s.exchange := rfl
@[simp] theorem State.modStory_fetch (s : State) (k : Slot) (f : Story → Story) :
    (s.modStory k f).fetch = s.fetch := rfl
@[simp] theorem State.modStory_channels (s : State) (k : Slot) (f : Story → Story) :
    (s.modStory k f).channels = s.channels := rfl
@[simp] theorem State.modStory_ports (s : State) (k : Slot) (f : Story → Story) :
    (s.modStory k f).ports = s.ports := rfl
@[simp] theorem State.modStory_authority (s : State) (k : Slot) (f : Story → Story) :
    (s.modStory k f).authority = s.authority := rfl
@[simp] theorem State.modStory_armed (s : State) (k : Slot) (f : Story → Story) :
    (s.modStory k f).armed = s.armed := rfl
@[simp] theorem State.modStory_timebase (s : State) (k : Slot) (f : Story → Story) :
    (s.modStory k f).timebase = s.timebase := rfl
@[simp] theorem State.modStory_glyphs (s : State) (k : Slot) (f : Story → Story) :
    (s.modStory k f).glyphs = s.glyphs := rfl
@[simp] theorem State.modStory_heads (s : State) (k : Slot) (f : Story → Story) :
    (s.modStory k f).heads = s.heads := rfl
@[simp] theorem State.modStory_lamps (s : State) (k : Slot) (f : Story → Story) :
    (s.modStory k f).lamps = s.lamps := rfl
@[simp] theorem State.modStory_reports (s : State) (k : Slot) (f : Story → Story) :
    (s.modStory k f).reports = s.reports := rfl
@[simp] theorem State.modStory_nextTag (s : State) (k : Slot) (f : Story → Story) :
    (s.modStory k f).nextTag = s.nextTag := rfl
@[simp] theorem State.modStory_pending (s : State) (k : Slot) (f : Story → Story) :
    (s.modStory k f).pending = s.pending := rfl

@[simp] theorem State.modAuth_area (s : State) (c : Chan) (f : Authority → Authority) :
    (s.modAuth c f).area = s.area := rfl
@[simp] theorem State.modAuth_writes (s : State) (c : Chan) (f : Authority → Authority) :
    (s.modAuth c f).writes = s.writes := rfl
@[simp] theorem State.modAuth_settings (s : State) (c : Chan) (f : Authority → Authority) :
    (s.modAuth c f).settings = s.settings := rfl
@[simp] theorem State.modAuth_stories (s : State) (c : Chan) (f : Authority → Authority) :
    (s.modAuth c f).stories = s.stories := rfl
@[simp] theorem State.modAuth_rundown (s : State) (c : Chan) (f : Authority → Authority) :
    (s.modAuth c f).rundown = s.rundown := rfl
@[simp] theorem State.modAuth_exchange (s : State) (c : Chan) (f : Authority → Authority) :
    (s.modAuth c f).exchange = s.exchange := rfl
@[simp] theorem State.modAuth_fetch (s : State) (c : Chan) (f : Authority → Authority) :
    (s.modAuth c f).fetch = s.fetch := rfl
@[simp] theorem State.modAuth_channels (s : State) (c : Chan) (f : Authority → Authority) :
    (s.modAuth c f).channels = s.channels := rfl
@[simp] theorem State.modAuth_ports (s : State) (c : Chan) (f : Authority → Authority) :
    (s.modAuth c f).ports = s.ports := rfl
@[simp] theorem State.modAuth_armed (s : State) (c : Chan) (f : Authority → Authority) :
    (s.modAuth c f).armed = s.armed := rfl
@[simp] theorem State.modAuth_timebase (s : State) (c : Chan) (f : Authority → Authority) :
    (s.modAuth c f).timebase = s.timebase := rfl
@[simp] theorem State.modAuth_glyphs (s : State) (c : Chan) (f : Authority → Authority) :
    (s.modAuth c f).glyphs = s.glyphs := rfl
@[simp] theorem State.modAuth_heads (s : State) (c : Chan) (f : Authority → Authority) :
    (s.modAuth c f).heads = s.heads := rfl
@[simp] theorem State.modAuth_lamps (s : State) (c : Chan) (f : Authority → Authority) :
    (s.modAuth c f).lamps = s.lamps := rfl
@[simp] theorem State.modAuth_reports (s : State) (c : Chan) (f : Authority → Authority) :
    (s.modAuth c f).reports = s.reports := rfl
@[simp] theorem State.modAuth_nextTag (s : State) (c : Chan) (f : Authority → Authority) :
    (s.modAuth c f).nextTag = s.nextTag := rfl
@[simp] theorem State.modAuth_pending (s : State) (c : Chan) (f : Authority → Authority) :
    (s.modAuth c f).pending = s.pending := rfl

@[simp] theorem State.modHead_area (s : State) (h : HeadId) (f : Head → Head) :
    (s.modHead h f).area = s.area := rfl
@[simp] theorem State.modHead_writes (s : State) (h : HeadId) (f : Head → Head) :
    (s.modHead h f).writes = s.writes := rfl
@[simp] theorem State.modHead_settings (s : State) (h : HeadId) (f : Head → Head) :
    (s.modHead h f).settings = s.settings := rfl
@[simp] theorem State.modHead_stories (s : State) (h : HeadId) (f : Head → Head) :
    (s.modHead h f).stories = s.stories := rfl
@[simp] theorem State.modHead_rundown (s : State) (h : HeadId) (f : Head → Head) :
    (s.modHead h f).rundown = s.rundown := rfl
@[simp] theorem State.modHead_exchange (s : State) (h : HeadId) (f : Head → Head) :
    (s.modHead h f).exchange = s.exchange := rfl
@[simp] theorem State.modHead_fetch (s : State) (h : HeadId) (f : Head → Head) :
    (s.modHead h f).fetch = s.fetch := rfl
@[simp] theorem State.modHead_channels (s : State) (h : HeadId) (f : Head → Head) :
    (s.modHead h f).channels = s.channels := rfl
@[simp] theorem State.modHead_ports (s : State) (h : HeadId) (f : Head → Head) :
    (s.modHead h f).ports = s.ports := rfl
@[simp] theorem State.modHead_authority (s : State) (h : HeadId) (f : Head → Head) :
    (s.modHead h f).authority = s.authority := rfl
@[simp] theorem State.modHead_armed (s : State) (h : HeadId) (f : Head → Head) :
    (s.modHead h f).armed = s.armed := rfl
@[simp] theorem State.modHead_timebase (s : State) (h : HeadId) (f : Head → Head) :
    (s.modHead h f).timebase = s.timebase := rfl
@[simp] theorem State.modHead_glyphs (s : State) (h : HeadId) (f : Head → Head) :
    (s.modHead h f).glyphs = s.glyphs := rfl
@[simp] theorem State.modHead_lamps (s : State) (h : HeadId) (f : Head → Head) :
    (s.modHead h f).lamps = s.lamps := rfl
@[simp] theorem State.modHead_reports (s : State) (h : HeadId) (f : Head → Head) :
    (s.modHead h f).reports = s.reports := rfl
@[simp] theorem State.modHead_nextTag (s : State) (h : HeadId) (f : Head → Head) :
    (s.modHead h f).nextTag = s.nextTag := rfl
@[simp] theorem State.modHead_pending (s : State) (h : HeadId) (f : Head → Head) :
    (s.modHead h f).pending = s.pending := rfl

@[simp] theorem State.setArmed_area (s : State) (p : PortId) (b : Bool) :
    (s.setArmed p b).area = s.area := rfl
@[simp] theorem State.setArmed_writes (s : State) (p : PortId) (b : Bool) :
    (s.setArmed p b).writes = s.writes := rfl
@[simp] theorem State.setArmed_settings (s : State) (p : PortId) (b : Bool) :
    (s.setArmed p b).settings = s.settings := rfl
@[simp] theorem State.setArmed_stories (s : State) (p : PortId) (b : Bool) :
    (s.setArmed p b).stories = s.stories := rfl
@[simp] theorem State.setArmed_rundown (s : State) (p : PortId) (b : Bool) :
    (s.setArmed p b).rundown = s.rundown := rfl
@[simp] theorem State.setArmed_exchange (s : State) (p : PortId) (b : Bool) :
    (s.setArmed p b).exchange = s.exchange := rfl
@[simp] theorem State.setArmed_fetch (s : State) (p : PortId) (b : Bool) :
    (s.setArmed p b).fetch = s.fetch := rfl
@[simp] theorem State.setArmed_channels (s : State) (p : PortId) (b : Bool) :
    (s.setArmed p b).channels = s.channels := rfl
@[simp] theorem State.setArmed_ports (s : State) (p : PortId) (b : Bool) :
    (s.setArmed p b).ports = s.ports := rfl
@[simp] theorem State.setArmed_authority (s : State) (p : PortId) (b : Bool) :
    (s.setArmed p b).authority = s.authority := rfl
@[simp] theorem State.setArmed_timebase (s : State) (p : PortId) (b : Bool) :
    (s.setArmed p b).timebase = s.timebase := rfl
@[simp] theorem State.setArmed_glyphs (s : State) (p : PortId) (b : Bool) :
    (s.setArmed p b).glyphs = s.glyphs := rfl
@[simp] theorem State.setArmed_heads (s : State) (p : PortId) (b : Bool) :
    (s.setArmed p b).heads = s.heads := rfl
@[simp] theorem State.setArmed_lamps (s : State) (p : PortId) (b : Bool) :
    (s.setArmed p b).lamps = s.lamps := rfl
@[simp] theorem State.setArmed_reports (s : State) (p : PortId) (b : Bool) :
    (s.setArmed p b).reports = s.reports := rfl
@[simp] theorem State.setArmed_nextTag (s : State) (p : PortId) (b : Bool) :
    (s.setArmed p b).nextTag = s.nextTag := rfl
@[simp] theorem State.setArmed_pending (s : State) (p : PortId) (b : Bool) :
    (s.setArmed p b).pending = s.pending := rfl

@[simp] theorem State.modTimebase_area (s : State) (f : Timebase → Timebase) :
    (s.modTimebase f).area = s.area := rfl
@[simp] theorem State.modTimebase_writes (s : State) (f : Timebase → Timebase) :
    (s.modTimebase f).writes = s.writes := rfl
@[simp] theorem State.modTimebase_settings (s : State) (f : Timebase → Timebase) :
    (s.modTimebase f).settings = s.settings := rfl
@[simp] theorem State.modTimebase_stories (s : State) (f : Timebase → Timebase) :
    (s.modTimebase f).stories = s.stories := rfl
@[simp] theorem State.modTimebase_rundown (s : State) (f : Timebase → Timebase) :
    (s.modTimebase f).rundown = s.rundown := rfl
@[simp] theorem State.modTimebase_exchange (s : State) (f : Timebase → Timebase) :
    (s.modTimebase f).exchange = s.exchange := rfl
@[simp] theorem State.modTimebase_fetch (s : State) (f : Timebase → Timebase) :
    (s.modTimebase f).fetch = s.fetch := rfl
@[simp] theorem State.modTimebase_channels (s : State) (f : Timebase → Timebase) :
    (s.modTimebase f).channels = s.channels := rfl
@[simp] theorem State.modTimebase_ports (s : State) (f : Timebase → Timebase) :
    (s.modTimebase f).ports = s.ports := rfl
@[simp] theorem State.modTimebase_authority (s : State) (f : Timebase → Timebase) :
    (s.modTimebase f).authority = s.authority := rfl
@[simp] theorem State.modTimebase_armed (s : State) (f : Timebase → Timebase) :
    (s.modTimebase f).armed = s.armed := rfl
@[simp] theorem State.modTimebase_glyphs (s : State) (f : Timebase → Timebase) :
    (s.modTimebase f).glyphs = s.glyphs := rfl
@[simp] theorem State.modTimebase_heads (s : State) (f : Timebase → Timebase) :
    (s.modTimebase f).heads = s.heads := rfl
@[simp] theorem State.modTimebase_lamps (s : State) (f : Timebase → Timebase) :
    (s.modTimebase f).lamps = s.lamps := rfl
@[simp] theorem State.modTimebase_reports (s : State) (f : Timebase → Timebase) :
    (s.modTimebase f).reports = s.reports := rfl
@[simp] theorem State.modTimebase_nextTag (s : State) (f : Timebase → Timebase) :
    (s.modTimebase f).nextTag = s.nextTag := rfl
@[simp] theorem State.modTimebase_pending (s : State) (f : Timebase → Timebase) :
    (s.modTimebase f).pending = s.pending := rfl

/-! ### One unit after an update of its bank -/

@[simp] theorem State.chan_modChan_self (s : State) (c : Chan) (f : Channel → Channel) :
    (s.modChan c f).chan c = f (s.chan c) := Bank.get_set_self ..
theorem State.chan_modChan_ne (s : State) {c d : Chan} (f : Channel → Channel) (h : d ≠ c) :
    (s.modChan c f).chan d = s.chan d := Bank.get_set_ne _ _ h
@[simp] theorem State.port_modPort_self (s : State) (p : PortId) (f : Port → Port) :
    (s.modPort p f).port p = f (s.port p) := Bank.get_set_self ..
theorem State.port_modPort_ne (s : State) {p q : PortId} (f : Port → Port) (h : q ≠ p) :
    (s.modPort p f).port q = s.port q := Bank.get_set_ne _ _ h
@[simp] theorem State.story_modStory_self (s : State) (k : Slot) (f : Story → Story) :
    (s.modStory k f).story k = f (s.story k) := Bank.get_set_self ..
theorem State.story_modStory_ne (s : State) {k j : Slot} (f : Story → Story) (h : j ≠ k) :
    (s.modStory k f).story j = s.story j := Bank.get_set_ne _ _ h
@[simp] theorem State.auth_modAuth_self (s : State) (c : Chan) (f : Authority → Authority) :
    (s.modAuth c f).auth c = f (s.auth c) := Bank.get_set_self ..
theorem State.auth_modAuth_ne (s : State) {c d : Chan} (f : Authority → Authority) (h : d ≠ c) :
    (s.modAuth c f).auth d = s.auth d := Bank.get_set_ne _ _ h
@[simp] theorem State.head_modHead_self (s : State) (h : HeadId) (f : Head → Head) :
    (s.modHead h f).head h = f (s.head h) := Bank.get_set_self ..
theorem State.head_modHead_ne (s : State) {h g : HeadId} (f : Head → Head) (n : g ≠ h) :
    (s.modHead h f).head g = s.head g := Bank.get_set_ne _ _ n

end Machine
end Sys2Proof
end

