-- ==== Sys2Proof/Laws/Footprint.lean ====
section
/-! SUPPORT. Footprints: which of the blocks of a state an operation may change. `Keeps F f` says that `f` changes the
blocks of `F` alone; each shared operation has one such lemma (Laws/Ops.lean), from which the equation of every other
block follows, as in `(issueAll_keeps.channels s)`. -/

namespace Sys2Proof.Machine

set_option Elab.async false

/-- A set of the fields of `State`. -/
structure Foot where
  area : Bool := false
  writes : Bool := false
  settings : Bool := false
  stories : Bool := false
  rundown : Bool := false
  exchange : Bool := false
  fetch : Bool := false
  channels : Bool := false
  ports : Bool := false
  authority : Bool := false
  armed : Bool := false
  timebase : Bool := false
  glyphs : Bool := false
  heads : Bool := false
  lamps : Bool := false
  reports : Bool := false
  nextTag : Bool := false
  pending : Bool := false

/-- The union of two footprints. -/
def Foot.or (F G : Foot) : Foot where
  area := F.area || G.area
  writes := F.writes || G.writes
  settings := F.settings || G.settings
  stories := F.stories || G.stories
  rundown := F.rundown || G.rundown
  exchange := F.exchange || G.exchange
  fetch := F.fetch || G.fetch
  channels := F.channels || G.channels
  ports := F.ports || G.ports
  authority := F.authority || G.authority
  armed := F.armed || G.armed
  timebase := F.timebase || G.timebase
  glyphs := F.glyphs || G.glyphs
  heads := F.heads || G.heads
  lamps := F.lamps || G.lamps
  reports := F.reports || G.reports
  nextTag := F.nextTag || G.nextTag
  pending := F.pending || G.pending

/-- A state with the fields of a footprint forgotten. -/
def State.mask (F : Foot) (s : State) : State where
  area := if F.area then State.reset.area else s.area
  writes := if F.writes then State.reset.writes else s.writes
  settings := if F.settings then State.reset.settings else s.settings
  stories := if F.stories then State.reset.stories else s.stories
  rundown := if F.rundown then State.reset.rundown else s.rundown
  exchange := if F.exchange then State.reset.exchange else s.exchange
  fetch := if F.fetch then State.reset.fetch else s.fetch
  channels := if F.channels then State.reset.channels else s.channels
  ports := if F.ports then State.reset.ports else s.ports
  authority := if F.authority then State.reset.authority else s.authority
  armed := if F.armed then State.reset.armed else s.armed
  timebase := if F.timebase then State.reset.timebase else s.timebase
  glyphs := if F.glyphs then State.reset.glyphs else s.glyphs
  heads := if F.heads then State.reset.heads else s.heads
  lamps := if F.lamps then State.reset.lamps else s.lamps
  reports := if F.reports then State.reset.reports else s.reports
  nextTag := if F.nextTag then State.reset.nextTag else s.nextTag
  pending := if F.pending then State.reset.pending else s.pending

/-- An operation changes the fields of `F` alone. -/
structure Keeps (F : Foot) (f : State → State) : Prop where
  same : ∀ s, (f s).mask F = s.mask F

theorem masked {α : Type} (a b : Bool) (r x : α) :
    (if (a || b) = true then r else x) = if (a || b) = true then r else if a = true then r else x := by
  cases a <;> cases b <;> rfl

/-- Two states with the same mask agree on every field outside the footprint. -/
theorem mask_or {F G : Foot} {s t : State} (h : t.mask F = s.mask F) : t.mask (F.or G) = s.mask (F.or G) := by
  have key : ∀ x : State, x.mask (F.or G) = (x.mask F).mask (F.or G) := by
    intro x
    simp only [State.mask, Foot.or, State.mk.injEq]
    refine ⟨?_, ?_, ?_, ?_, ?_, ?_, ?_, ?_, ?_, ?_, ?_, ?_, ?_, ?_, ?_, ?_, ?_, ?_⟩ <;> exact masked _ _ _ _
  rw [key t, key s, h]

theorem Keeps.id {F : Foot} : Keeps F fun s => s := ⟨fun _ => rfl⟩

/-- An operation on a state, within a larger footprint. -/
theorem Keeps.on {F G : Foot} {f : State → State} (h : Keeps F f) (s : State) (le : F.or G = G := by rfl) :
    (f s).mask G = s.mask G := le ▸ mask_or (h.same s)

/-- A larger footprint. -/
theorem Keeps.mono {F G : Foot} {f : State → State} (h : Keeps F f) (le : F.or G = G := by rfl) : Keeps G f :=
  ⟨fun s => h.on s le⟩

/-- The same operation for each thing of a list. -/
theorem Keeps.forEach {F : Foot} {α : Type} {f : α → State → State} (h : ∀ x, Keeps F (f x)) (xs : List α) :
    Keeps F (forEach xs f) := by
  induction xs with
  | nil => exact ⟨fun _ => rfl⟩
  | cons x xs ih => exact ⟨fun s => (ih.same (f x s)).trans ((h x).same s)⟩

/-! ### The fields outside a footprint -/

theorem Keeps.area {F : Foot} {f : State → State} (h : Keeps F f) (s : State)
    (out : F.area = false := by rfl) : (f s).area = s.area := by
  have := congrArg State.area (h.same s)
  simpa [State.mask, out] using this

theorem Keeps.writes {F : Foot} {f : State → State} (h : Keeps F f) (s : State)
    (out : F.writes = false := by rfl) : (f s).writes = s.writes := by
  have := congrArg State.writes (h.same s)
  simpa [State.mask, out] using this

theorem Keeps.settings {F : Foot} {f : State → State} (h : Keeps F f) (s : State)
    (out : F.settings = false := by rfl) : (f s).settings = s.settings := by
  have := congrArg State.settings (h.same s)
  simpa [State.mask, out] using this

theorem Keeps.stories {F : Foot} {f : State → State} (h : Keeps F f) (s : State)
    (out : F.stories = false := by rfl) : (f s).stories = s.stories := by
  have := congrArg State.stories (h.same s)
  simpa [State.mask, out] using this

theorem Keeps.rundown {F : Foot} {f : State → State} (h : Keeps F f) (s : State)
    (out : F.rundown = false := by rfl) : (f s).rundown = s.rundown := by
  have := congrArg State.rundown (h.same s)
  simpa [State.mask, out] using this

theorem Keeps.exchange {F : Foot} {f : State → State} (h : Keeps F f) (s : State)
    (out : F.exchange = false := by rfl) : (f s).exchange = s.exchange := by
  have := congrArg State.exchange (h.same s)
  simpa [State.mask, out] using this

theorem Keeps.fetch {F : Foot} {f : State → State} (h : Keeps F f) (s : State)
    (out : F.fetch = false := by rfl) : (f s).fetch = s.fetch := by
  have := congrArg State.fetch (h.same s)
  simpa [State.mask, out] using this

theorem Keeps.channels {F : Foot} {f : State → State} (h : Keeps F f) (s : State)
    (out : F.channels = false := by rfl) : (f s).channels = s.channels := by
  have := congrArg State.channels (h.same s)
  simpa [State.mask, out] using this

theorem Keeps.ports {F : Foot} {f : State → State} (h : Keeps F f) (s : State)
    (out : F.ports = false := by rfl) : (f s).ports = s.ports := by
  have := congrArg State.ports (h.same s)
  simpa [State.mask, out] using this

theorem Keeps.authority {F : Foot} {f : State → State} (h : Keeps F f) (s : State)
    (out : F.authority = false := by rfl) : (f s).authority = s.authority := by
  have := congrArg State.authority (h.same s)
  simpa [State.mask, out] using this

theorem Keeps.armed {F : Foot} {f : State → State} (h : Keeps F f) (s : State)
    (out : F.armed = false := by rfl) : (f s).armed = s.armed := by
  have := congrArg State.armed (h.same s)
  simpa [State.mask, out] using this

theorem Keeps.timebase {F : Foot} {f : State → State} (h : Keeps F f) (s : State)
    (out : F.timebase = false := by rfl) : (f s).timebase = s.timebase := by
  have := congrArg State.timebase (h.same s)
  simpa [State.mask, out] using this

theorem Keeps.glyphs {F : Foot} {f : State → State} (h : Keeps F f) (s : State)
    (out : F.glyphs = false := by rfl) : (f s).glyphs = s.glyphs := by
  have := congrArg State.glyphs (h.same s)
  simpa [State.mask, out] using this

theorem Keeps.heads {F : Foot} {f : State → State} (h : Keeps F f) (s : State)
    (out : F.heads = false := by rfl) : (f s).heads = s.heads := by
  have := congrArg State.heads (h.same s)
  simpa [State.mask, out] using this

theorem Keeps.lamps {F : Foot} {f : State → State} (h : Keeps F f) (s : State)
    (out : F.lamps = false := by rfl) : (f s).lamps = s.lamps := by
  have := congrArg State.lamps (h.same s)
  simpa [State.mask, out] using this

theorem Keeps.reports {F : Foot} {f : State → State} (h : Keeps F f) (s : State)
    (out : F.reports = false := by rfl) : (f s).reports = s.reports := by
  have := congrArg State.reports (h.same s)
  simpa [State.mask, out] using this

theorem Keeps.nextTag {F : Foot} {f : State → State} (h : Keeps F f) (s : State)
    (out : F.nextTag = false := by rfl) : (f s).nextTag = s.nextTag := by
  have := congrArg State.nextTag (h.same s)
  simpa [State.mask, out] using this

theorem Keeps.pending {F : Foot} {f : State → State} (h : Keeps F f) (s : State)
    (out : F.pending = false := by rfl) : (f s).pending = s.pending := by
  have := congrArg State.pending (h.same s)
  simpa [State.mask, out] using this

/-- Two states with one mask differ in the fields of the footprint alone. -/
theorem mask_eq {F : Foot} {s t : State} (h : t.mask F = s.mask F) : t = { s with
  area := if F.area then t.area else s.area
  writes := if F.writes then t.writes else s.writes
  settings := if F.settings then t.settings else s.settings
  stories := if F.stories then t.stories else s.stories
  rundown := if F.rundown then t.rundown else s.rundown
  exchange := if F.exchange then t.exchange else s.exchange
  fetch := if F.fetch then t.fetch else s.fetch
  channels := if F.channels then t.channels else s.channels
  ports := if F.ports then t.ports else s.ports
  authority := if F.authority then t.authority else s.authority
  armed := if F.armed then t.armed else s.armed
  timebase := if F.timebase then t.timebase else s.timebase
  glyphs := if F.glyphs then t.glyphs else s.glyphs
  heads := if F.heads then t.heads else s.heads
  lamps := if F.lamps then t.lamps else s.lamps
  reports := if F.reports then t.reports else s.reports
  nextTag := if F.nextTag then t.nextTag else s.nextTag
  pending := if F.pending then t.pending else s.pending } := by
  have pick : ∀ {α : Type} {b : Bool} {r x y : α}, (if b then r else x) = (if b then r else y) →
      x = if b then x else y := by
    intro α b r x y h
    cases b <;> simp_all
  simp only [State.mask, State.mk.injEq] at h
  cases t
  simp only [State.mk.injEq]
  exact ⟨pick h.1, pick h.2.1, pick h.2.2.1, pick h.2.2.2.1, pick h.2.2.2.2.1, pick h.2.2.2.2.2.1,
    pick h.2.2.2.2.2.2.1, pick h.2.2.2.2.2.2.2.1, pick h.2.2.2.2.2.2.2.2.1, pick h.2.2.2.2.2.2.2.2.2.1,
    pick h.2.2.2.2.2.2.2.2.2.2.1, pick h.2.2.2.2.2.2.2.2.2.2.2.1, pick h.2.2.2.2.2.2.2.2.2.2.2.2.1,
    pick h.2.2.2.2.2.2.2.2.2.2.2.2.2.1, pick h.2.2.2.2.2.2.2.2.2.2.2.2.2.2.1,
    pick h.2.2.2.2.2.2.2.2.2.2.2.2.2.2.2.1, pick h.2.2.2.2.2.2.2.2.2.2.2.2.2.2.2.2.1,
    pick h.2.2.2.2.2.2.2.2.2.2.2.2.2.2.2.2.2⟩

end Sys2Proof.Machine
end

