-- ==== Sys2Proof/Laws/Ops.lean ====
section
/-! SUPPORT. What the shared operations of reports, writes, fetches, ports and authority do: their outcomes, and their
footprints. -/

namespace Sys2Proof.Machine

set_option Elab.async false

/-! ### Reports and writes (R165) -/

/-- Raising a report does one of three things: it does nothing in HALTED, the report joins the queue, or it is
counted as dropped. -/
theorem raise_cases (r : Report) (s : State) :
    (s.engine = .halted ∧ raise r s = s) ∨
    (s.engine ≠ .halted ∧ s.reports.queue.length < 16 ∧ raise r s =
      { s with reports := { s.reports with queue := s.reports.queue ++ [⟨r, s.frame⟩] } }) ∨
    (s.engine ≠ .halted ∧ 16 ≤ s.reports.queue.length ∧ raise r s =
      { s with reports := { s.reports with dropped := min (s.reports.dropped + 1) 65535 } }) := by
  unfold raise State.halted
  by_cases h : s.engine = .halted
  · simp [h]
  · by_cases q : s.reports.queue.length < 16
    · simp [h, q]
    · simp [h, q, Nat.le_of_not_lt q]

theorem raise_keeps (r : Report) : Keeps { reports := true } (raise r) := by
  refine ⟨fun s => ?_⟩
  obtain ⟨-, h⟩ | ⟨-, -, h⟩ | ⟨-, -, h⟩ := raise_cases r s <;> rw [h] <;> rfl

theorem raiseRunning_keeps (r : Report) : Keeps { reports := true } (raiseRunning r) := by
  refine ⟨fun s => ?_⟩
  unfold raiseRunning
  split
  · exact (raise_keeps r).on s
  · rfl

theorem raiseRunning_of_running {s : State} (r : Report) (h : s.engine = .running) :
    raiseRunning r s = raise r s := by
  simp [raiseRunning, State.running, h]

theorem raiseRunning_of_not_running {s : State} (r : Report) (h : s.engine ≠ .running) :
    raiseRunning r s = s := by
  simp [raiseRunning, State.running, h]

/-- Raising a report touches the queue and the dropped-post count alone. -/
theorem raise_reports (r : Report) (s : State) : (raise r s).reports =
    { s.reports with queue := (raise r s).reports.queue, dropped := (raise r s).reports.dropped } := by
  obtain ⟨-, h⟩ | ⟨-, -, h⟩ | ⟨-, -, h⟩ := raise_cases r s <;> rw [h]

theorem raiseRunning_reports (r : Report) (s : State) : (raiseRunning r s).reports =
    { s.reports with
      queue := (raiseRunning r s).reports.queue, dropped := (raiseRunning r s).reports.dropped } := by
  unfold raiseRunning
  split
  · exact raise_reports r s
  · rfl

theorem issueWrite_keeps (target : WriteTarget) (address : Addr) (bytes : List Byte) (report : Option Report) :
    Keeps { writes := true, nextTag := true } (issueWrite target address bytes report) := ⟨fun _ => rfl⟩

theorem dropWrite_keeps (tag : Nat) : Keeps { writes := true } (dropWrite tag) := ⟨fun _ => rfl⟩

/-- A completed write is in flight, under its tag, and of the kind that completes. -/
theorem completedWrite_some {tag : Nat} {mine : WriteTarget → Bool} {s : State} {w : Write}
    (h : completedWrite tag mine s = some w) :
    w ∈ s.writes ∧ w.tag = tag ∧ mine w.target = true := by
  unfold completedWrite at h
  split at h
  · cases h
  · rename_i w' hw
    split at h
    · rename_i hm
      cases h
      exact ⟨List.mem_of_find?_eq_some hw, by simpa using List.find?_some hw, (by simp at hm; exact hm.1)⟩
    · cases h

/-! ### Doing something for each thing of a list -/

@[simp] theorem forEach_nil {α : Type} (f : α → State → State) (s : State) : forEach [] f s = s := rfl

@[simp] theorem forEach_cons {α : Type} (x : α) (xs : List α) (f : α → State → State) (s : State) :
    forEach (x :: xs) f s = forEach xs f (f x s) := rfl

theorem forEach_append {α : Type} (xs ys : List α) (f : α → State → State) (s : State) :
    forEach (xs ++ ys) f s = forEach ys f (forEach xs f s) := by
  simp [forEach, List.foldl_append]

/-- A property that each step keeps is kept. -/
theorem forEach_induct {α : Type} {P : State → Prop} {f : α → State → State} (xs : List α)
    (h : ∀ x ∈ xs, ∀ s, P s → P (f x s)) (s : State) (hs : P s) : P (forEach xs f s) := by
  induction xs generalizing s with
  | nil => exact hs
  | cons x xs ih =>
    exact ih (fun y hy => h y (List.mem_cons_of_mem _ hy)) _ (h x (List.mem_cons_self ..) s hs)

/-- What no step changes is not changed. -/
theorem forEach_same {α β : Type} {π : State → β} {f : α → State → State} (xs : List α)
    (h : ∀ x ∈ xs, ∀ s, π (f x s) = π s) (s : State) : π (forEach xs f s) = π s :=
  forEach_induct (P := fun t => π t = π s) xs (fun x hx t ht => (h x hx t).trans ht) s rfl

/-! ### The Fetch Unit -/

/-- One issue is the issue of the first waiting entry into the place chosen for it. -/
theorem issueOne_some {s t : State} (h : issueOne s = some t) :
    s.engine = .running ∧ s.fetch.issuedCount < 8 ∧ ∃ q i n, s.fetch.queue.find? QueueEntry.isWaiting = some q ∧
      s.fetch.choosePlace s.frame q.slot q.line = some (i, n) ∧ t = issueInto q i n s := by
  unfold issueOne at h
  split at h
  · rename_i hr
    simp only [State.running, Bool.and_eq_true, beq_iff_eq, decide_eq_true_eq] at hr
    split at h
    · cases h
    · rename_i q hq
      obtain ⟨⟨i, n⟩, hx, rfl⟩ := Option.map_eq_some_iff.1 h
      exact ⟨hr.1, hr.2, q, i, n, hq, hx, rfl⟩
  · cases h

theorem issueInto_keeps (q : QueueEntry) (i : Fin 512) (n : Nat) :
    Keeps { fetch := true, nextTag := true } (issueInto q i n) := ⟨fun _ => rfl⟩

theorem issueOne_mask {s t : State} (h : issueOne s = some t) :
    t.mask { fetch := true, nextTag := true } = s.mask { fetch := true, nextTag := true } := by
  obtain ⟨-, -, q, i, n, -, -, rfl⟩ := issueOne_some h
  rfl

/-- A property that each issue keeps holds when issuing is done. -/
theorem issueAll_induct {P : State → Prop} (h : ∀ s t, issueOne s = some t → P s → P t) (s : State)
    (hs : P s) : P (issueAll s) := by
  unfold issueAll
  generalize 8 = n
  induction n generalizing s with
  | zero => exact hs
  | succ n ih =>
    unfold issueUpTo
    split
    · exact hs
    · rename_i t ht
      exact ih t (h s t ht hs)

theorem issueAll_keeps : Keeps { fetch := true, nextTag := true } issueAll :=
  ⟨fun s => issueAll_induct (P := fun t => t.mask _ = s.mask _) (fun _ _ h e => (issueOne_mask h).trans e) s rfl⟩

/-- Outside RUNNING there is no issue. -/
theorem issueAll_of_not_running {s : State} (h : s.engine ≠ .running) : issueAll s = s := by
  simp [issueAll, issueUpTo, issueOne, State.running, h]

theorem needUpdate_keeps (c : Chan) : Keeps { fetch := true, nextTag := true } (needUpdate c) := ⟨fun _ =>
  Eq.trans (issueAll_keeps.on _) rfl⟩

/-- Issuing changes no need. -/
theorem issueAll_needs (s : State) : (issueAll s).fetch.needs = s.fetch.needs :=
  issueAll_induct (P := fun t => t.fetch.needs = s.fetch.needs) (fun _ _ h e => by
    obtain ⟨-, -, q, i, n, -, -, rfl⟩ := issueOne_some h
    exact e) s rfl

/-- A publication replaces the need of its channel alone (R77). -/
theorem needUpdate_needs (c : Chan) (s : State) :
    (needUpdate c s).fetch.needs = s.fetch.needs.set c (channelNeed s c) := issueAll_needs _

/-- A channel's need depends on its publication, the view it took and the settings shadow alone (R77). -/
theorem channelNeed_congr {s t : State} {c : Chan} (settings : t.settings = s.settings)
    (pub : (t.chan c).pub = (s.chan c).pub) (view : (t.chan c).view = (s.chan c).view) :
    channelNeed t c = channelNeed s c := by
  unfold channelNeed State.boundHeads
  simp only [settings, pub, view]

theorem invalidateStory_keeps (k : Slot) : Keeps { fetch := true, nextTag := true } (invalidateStory k) :=
  ⟨fun _ => Eq.trans (issueAll_keeps.on _) rfl⟩

theorem fetchReport_keeps (t : State) (k : Slot) (line n : Nat) (r : ReadResult) :
    Keeps { reports := true } (fetchReport t k line n r) := by
  refine ⟨fun s => ?_⟩
  cases r with
  | data bytes =>
    unfold fetchReport
    simp only
    split
    · exact (raise_keeps _).on s
    · rfl
  | busError => exact (raise_keeps _).on s

theorem fillPlace_keeps (i : Fin 512) (r : ReadResult) :
    Keeps { fetch := true, reports := true } (fillPlace i r) := by
  refine ⟨fun s => ?_⟩
  unfold fillPlace
  split
  · exact Eq.trans ((fetchReport_keeps ..).on _) rfl
  · rfl
  · rfl

theorem fetchComplete_keeps (tag : Nat) (r : ReadResult) :
    Keeps { fetch := true, reports := true, nextTag := true } (fetchComplete tag r) := by
  refine ⟨fun s => ?_⟩
  unfold fetchComplete
  split
  · rfl
  · split
    · rfl
    · dsimp only
      split
      · exact Eq.trans (issueAll_keeps.on _) rfl
      · exact Eq.trans (issueAll_keeps.on _) (Eq.trans ((fillPlace_keeps ..).on _) rfl)

/-! ### Hand ports -/

theorem releaseHolder_keeps (c : Chan) (cause : AuthorityCause) :
    Keeps { authority := true, reports := true } (releaseHolder c cause) := by
  refine ⟨fun s => ?_⟩
  unfold releaseHolder
  split
  · rfl
  · exact Eq.trans ((raiseRunning_keeps _).on _) rfl

/-- A release leaves the channel without a holder. -/
theorem releaseHolder_holder (c : Chan) (cause : AuthorityCause) (s : State) :
    ((releaseHolder c cause s).auth c).holder = none := by
  unfold releaseHolder
  split
  · assumption
  · simp [State.auth, (raiseRunning_keeps _).authority, State.modAuth]

/-- A release changes one channel's authority alone. -/
theorem releaseHolder_ne {c d : Chan} (cause : AuthorityCause) (s : State) (h : d ≠ c) :
    (releaseHolder c cause s).auth d = s.auth d := by
  unfold releaseHolder
  split
  · rfl
  · simp [State.auth, (raiseRunning_keeps _).authority, State.modAuth, Bank.get_set_ne _ _ h]

theorem releasePort_keeps (p : PortId) (cause : AuthorityCause) :
    Keeps { authority := true, reports := true } (releasePort p cause) := by
  refine ⟨fun s => ?_⟩
  unfold releasePort
  split
  · exact (releaseHolder_keeps _ _).on s
  · rfl

theorem modPort_keeps (p : PortId) (f : Port → Port) : Keeps { ports := true } (State.modPort · p f) :=
  ⟨fun _ => rfl⟩

theorem modChan_keeps (c : Chan) (f : Channel → Channel) : Keeps { channels := true } (State.modChan · c f) :=
  ⟨fun _ => rfl⟩

theorem modAuth_keeps (c : Chan) (f : Authority → Authority) :
    Keeps { authority := true } (State.modAuth · c f) := ⟨fun _ => rfl⟩

theorem enterLost_keeps (p : PortId) (cause : LossCause) :
    Keeps { ports := true, authority := true, reports := true } (enterLost p cause) :=
  ⟨fun _ => Eq.trans ((releasePort_keeps ..).on _) (Eq.trans ((raiseRunning_keeps _).on _) rfl)⟩

/-- The port that enters LOST, and the others. -/
theorem enterLost_ports (p : PortId) (cause : LossCause) (s : State) : (enterLost p cause s).ports =
    s.ports.set p { s.port p with
      phase := .lost, validRun := 0, timeLost := 0, lostCount := min ((s.port p).lostCount + 1) 65535 } := by
  unfold enterLost
  simp [(releasePort_keeps ..).ports, (raiseRunning_keeps _).ports, State.modPort, State.port]

theorem afterValid_keeps (p : PortId) : Keeps { ports := true, reports := true } (afterValid p) := by
  refine ⟨fun s => ?_⟩
  unfold afterValid
  dsimp only
  split
  · split <;> rfl
  · split <;> rfl
  · split
    · exact Eq.trans ((raiseRunning_keeps _).on _) rfl
    · rfl
  · rfl
  · rfl

theorem afterInvalid_keeps (p : PortId) :
    Keeps { ports := true, authority := true, reports := true } (afterInvalid p) := by
  refine ⟨fun s => ?_⟩
  unfold afterInvalid
  dsimp only
  split
  · split
    · exact (enterLost_keeps p _).on s
    · rfl
  · split
    · exact (enterLost_keeps p _).on s
    · rfl
  · rfl
  · rfl
  · rfl

theorem periodCompletion_keeps (p : PortId) (h width : Nat) :
    Keeps { ports := true, authority := true, reports := true } (periodCompletion p h width) := by
  refine ⟨fun s => ?_⟩
  unfold periodCompletion
  dsimp only
  split
  · exact Eq.trans ((afterValid_keeps p).on _) rfl
  · exact Eq.trans ((afterInvalid_keeps p).on _) rfl

theorem leverRising_keeps (p : PortId) :
    Keeps { ports := true, authority := true, reports := true } (leverRising p) := by
  refine ⟨fun s => ?_⟩
  unfold leverRising
  dsimp only
  refine Eq.trans ((modPort_keeps _ _).on _) ?_
  split
  · rfl
  · exact (periodCompletion_keeps ..).on _

theorem leverEdgeAt_keeps (p : PortId) (level : Bool) :
    Keeps { ports := true, authority := true, reports := true } (leverEdgeAt p level) := by
  refine ⟨fun s => ?_⟩
  unfold leverEdgeAt
  split
  · dsimp only
    split
    · exact Eq.trans ((leverRising_keeps p).on _) rfl
    · rfl
  · rfl

theorem quadratureAt_keeps (p : PortId) (a b : Bool) : Keeps { ports := true } (quadratureAt p a b) := by
  refine ⟨fun s => ?_⟩
  unfold quadratureAt
  split <;> rfl

theorem setPressed_keeps (c : Chan) (p : PortId) (l : LineId) (on : Bool) :
    Keeps { channels := true } (setPressed c p l on) := ⟨fun _ => rfl⟩

theorem goChannel_keeps (c : Chan) : Keeps { channels := true } (goChannel c) := by
  refine ⟨fun s => ?_⟩
  unfold goChannel
  split <;> rfl

theorem press_keeps (p : PortId) (l : LineId) :
    Keeps { channels := true, ports := true, reports := true } (press p l) := by
  refine ⟨fun s => ?_⟩
  unfold press
  dsimp only
  split
  · split <;> try rfl
    · exact (goChannel_keeps _).on s
    · split <;> rfl
    · split <;> rfl
    · exact (raise_keeps _).on s
    · split <;> rfl
  · rfl

theorem release_keeps (p : PortId) (l : LineId) : Keeps { channels := true, ports := true } (release p l) := by
  refine ⟨fun s => ?_⟩
  unfold release
  dsimp only
  split <;> try rfl
  split <;> rfl

theorem sampleButton_keeps (p : PortId) (levels : Lines) (l : LineId) :
    Keeps { channels := true, ports := true, reports := true } (sampleButton p levels l) := by
  refine ⟨fun s => ?_⟩
  unfold sampleButton
  split
  · dsimp only
    split
    · rfl
    · exact Eq.trans ((press_keeps p l).on _) rfl
    · exact Eq.trans ((release_keeps p l).on _) rfl
  · rfl

theorem sampleLever_keeps (p : PortId) :
    Keeps { ports := true, authority := true, reports := true } (sampleLever p) := by
  refine ⟨fun s => ?_⟩
  unfold sampleLever
  split
  · dsimp only
    split
    · exact Eq.trans ((enterLost_keeps p _).on _) rfl
    · rfl
  · rfl

theorem samplePort_keeps (levels : Bank 8 Lines) (p : PortId) :
    Keeps { channels := true, ports := true, authority := true, reports := true } (samplePort levels p) := ⟨fun s =>
  Eq.trans ((Keeps.forEach (fun l => sampleButton_keeps p (levels.get p) l) allLines).on _)
    ((sampleLever_keeps p).on s)⟩

theorem sampleStrobes_keeps : Keeps { lamps := true } sampleStrobes := ⟨fun _ => rfl⟩

theorem sampleAll_keeps (levels : Bank 8 Lines) :
    Keeps { channels := true, ports := true, authority := true, reports := true, lamps := true }
      (sampleAll levels) := ⟨fun s =>
  Eq.trans (sampleStrobes_keeps.on _) ((Keeps.forEach (samplePort_keeps levels) allPorts).on s)⟩

/-! ### The Authority Arbiter -/

theorem armPorts_keeps (handed : Bank 8 Handed) : Keeps { armed := true } (armPorts handed) :=
  Keeps.forEach (fun p => ⟨fun s => by unfold armPort; dsimp only; split <;> rfl⟩) allPorts

theorem quietStep_keeps (handed : Bank 8 Handed) (c : Chan) :
    Keeps { authority := true, reports := true } (quietStep handed c) := by
  refine ⟨fun s => ?_⟩
  unfold quietStep
  split
  · rfl
  · split
    · rfl
    · dsimp only
      split
      · exact (releaseHolder_keeps c _).on s
      · rfl

theorem takeHolder_keeps (c : Chan) (new : Source) (cause : AuthorityCause) :
    Keeps { authority := true, reports := true } (takeHolder c new cause) :=
  ⟨fun _ => Eq.trans ((raiseRunning_keeps _).on _) rfl⟩

theorem disarmPresenters_keeps (c : Chan) : Keeps { armed := true } (disarmPresenters c) :=
  Keeps.forEach (fun p => ⟨fun s => by split <;> rfl⟩) allPorts

theorem claimStep_keeps (handed : Bank 8 Handed) (c : Chan) :
    Keeps { authority := true, armed := true, reports := true } (claimStep handed c) := by
  refine ⟨fun s => ?_⟩
  unfold claimStep
  dsimp only
  split
  · split
    · rfl
    · exact (takeHolder_keeps ..).on s
  · split
    · split
      · rfl
      · exact Eq.trans ((disarmPresenters_keeps c).on _) ((takeHolder_keeps ..).on s)
    · rfl

theorem discardJump_keeps (handed : Bank 8 Handed) (c : Chan) (admitted : Option PortId) (p : PortId) :
    Keeps { reports := true } (discardJump handed c admitted p) := by
  refine ⟨fun s => ?_⟩
  unfold discardJump
  split
  · rfl
  · split
    · exact (raiseRunning_keeps _).on s
    · rfl

theorem evaluate_keeps (handed : Bank 8 Handed) (c : Chan) :
    Keeps { authority := true, armed := true, reports := true } fun s => (evaluate handed c s).2 :=
  ⟨fun s => Eq.trans ((modAuth_keeps c _).on _)
    (Eq.trans ((Keeps.forEach (discardJump_keeps handed c _) allPorts).on _)
      (Eq.trans ((claimStep_keeps handed c).on _) ((quietStep_keeps handed c).on s)))⟩

/-! ### The Lamp Unit -/

theorem groupAct_keeps (c : Chan) (r : CrossingRecord) (g : GroupId) :
    Keeps { lamps := true } (groupAct c r g) := by
  refine ⟨fun s => ?_⟩
  unfold groupAct
  split <;> rfl

theorem cuePassed_keeps (c : Chan) (xs : List Crossing) :
    Keeps { lamps := true, reports := true } (cuePassed c xs) := by
  refine ⟨fun s => ?_⟩
  unfold cuePassed
  split
  · rfl
  · exact Eq.trans ((raise_keeps _).on _) rfl

theorem lampsAct_keeps (c : Chan) (r : CrossingRecord) :
    Keeps { lamps := true, reports := true } (lampsAct c r) := ⟨fun s =>
  Eq.trans ((cuePassed_keeps c _).on _) ((Keeps.forEach (groupAct_keeps c r) (List.finRange 4)).on s)⟩

end Sys2Proof.Machine
end

