-- ==== Sys2Proof/Laws/Blocks.lean ====
section
/-! SUPPORT. The footprints of the scroll channels, the Exchange Unit, the heads, the settings take, the engine, the
frame event, the commands and the Report Unit, and the outcomes of a halt and of a completed write. -/

namespace Sys2Proof.Machine

set_option Elab.async false

/-! ### Scroll channels -/

theorem joinSearch_keeps (c : Chan) : Keeps { exchange := true, channels := true } (joinSearch c) := by
  refine ⟨fun s => ?_⟩
  unfold joinSearch
  split
  · rfl
  · dsimp only
    split <;> rfl

/-- Joining a search changes nothing of a channel but its EXCHANGE hold, and nothing of the others. -/
theorem joinSearch_chan (c d : Chan) (s : State) : (joinSearch c s).chan d =
    { s.chan d with exchange := ((joinSearch c s).chan d).exchange } ∧
    (d ≠ c → (joinSearch c s).chan d = s.chan d) := by
  unfold joinSearch
  split
  · exact ⟨rfl, fun _ => rfl⟩
  · dsimp only
    split
    · by_cases h : d = c
      · subst h; simp [State.chan, State.modChan]
      · simp [State.chan, State.modChan, Bank.get_set_ne _ _ h]
    · exact ⟨rfl, fun _ => rfl⟩

theorem reanchor_keeps (c : Chan) (a : Option Anchor) (cause : MoveCause) :
    Keeps { channels := true, reports := true } (reanchor c a cause) :=
  ⟨fun _ => Eq.trans ((raise_keeps _).on _) rfl⟩

theorem checkAnchor_keeps (c : Chan) (former : List ViewEntry) :
    Keeps { channels := true, reports := true } (checkAnchor c former) := by
  refine ⟨fun s => ?_⟩
  unfold checkAnchor
  dsimp only
  split
  · rfl
  · rfl
  · exact (reanchor_keeps ..).on s
  · split
    · split
      · rfl
      · exact (reanchor_keeps ..).on s
    · exact (reanchor_keeps ..).on s

theorem boundaryStage_keeps (c : Chan) :
    Keeps { channels := true, reports := true } (boundaryStage c) := by
  refine ⟨fun s => ?_⟩
  unfold boundaryStage
  dsimp only
  split
  · rfl
  · split
    · rfl
    · split
      · split <;> rfl
      · split
        · rfl
        · exact Eq.trans ((raise_keeps _).on _) rfl

theorem storyJump_keeps (c : Chan) (p : PortId) (j : StoryJump) :
    Keeps { channels := true, reports := true } (storyJump c p j) := by
  refine ⟨fun s => ?_⟩
  unfold storyJump refuseJump
  dsimp only
  split
  · exact Eq.trans ((raise_keeps _).on _) rfl
  · split
    · exact Eq.trans ((raise_keeps _).on _) rfl
    · split
      · rfl
      · exact Eq.trans ((raise_keeps _).on _) rfl

theorem advanceReports_keeps (c : Chan) (old : Channel) (a : Option Anchor) (demand : Int) (adv : Advance) :
    Keeps { channels := true, reports := true } (advanceReports c old a demand adv) := by
  refine ⟨fun s => ?_⟩
  unfold advanceReports
  split
  · exact (raise_keeps _).on s
  · rfl
  · rfl
  · split
    · rfl
    · exact Eq.trans ((raise_keeps _).on _) rfl
  · split
    · rfl
    · split
      · rfl
      · exact (raise_keeps _).on s
  · split
    · rfl
    · split
      · rfl
      · exact (raise_keeps _).on s

theorem advanceStage_keeps (c : Chan) (demand jog : Int) :
    Keeps { channels := true, reports := true } fun s => (advanceStage c demand jog s).2 := by
  refine ⟨fun s => ?_⟩
  unfold advanceStage
  dsimp only
  split
  · rfl
  · exact Eq.trans ((advanceReports_keeps ..).on _) rfl

theorem stage4_keeps (c : Chan) (h : Handing) :
    Keeps { channels := true, reports := true } fun s => (stage4 c h s).2 := by
  refine ⟨fun s => ?_⟩
  unfold stage4
  dsimp only
  split
  · exact Eq.trans ((storyJump_keeps ..).on _) rfl
  · exact Eq.trans ((advanceStage_keeps ..).on _) rfl

theorem stage5_keeps (c : Chan) : Keeps { exchange := true, channels := true } (stage5 c) := by
  refine ⟨fun s => ?_⟩
  unfold stage5
  dsimp only
  split
  · exact Eq.trans ((modChan_keeps _ _).on _) ((joinSearch_keeps c).on s)
  · exact (joinSearch_keeps c).on s

theorem publish_keeps (c : Chan) (pub : Published) (entered : List Entered) (crossings : List Crossing) :
    Keeps { channels := true, writes := true, nextTag := true, lamps := true, reports := true }
      (publish c pub entered crossings) :=
  ⟨fun _ => Eq.trans ((lampsAct_keeps ..).on _) rfl⟩

/-- A publication sets the channel's published record and clears its Placed item. -/
theorem publish_channels (c : Chan) (pub : Published) (entered : List Entered) (crossings : List Crossing)
    (s : State) : (publish c pub entered crossings s).channels =
      s.channels.set c { s.chan c with pub := pub, placed := false } := by
  unfold publish
  simp [(lampsAct_keeps ..).channels, writeChannelStatus, issueWrite, State.modChan, State.chan]

/-- A publication issues one write: the channel's status record. -/
theorem publish_writes (c : Chan) (pub : Published) (entered : List Entered) (crossings : List Crossing)
    (s : State) : (publish c pub entered crossings s).writes = s.writes ++
      [⟨s.nextTag, .channelStatus c, s.areaAddress s.area.header.channelStatus (32 * c.val),
        channelStatusBytes pub, none⟩] := by
  unfold publish
  simp [(lampsAct_keeps ..).writes, writeChannelStatus, issueWrite, State.modChan, State.chan,
    State.areaAddress]

theorem takeView_keeps (c : Chan) : Keeps { channels := true } (takeView c) := ⟨fun _ => rfl⟩

theorem stage6_keeps (c : Chan) (r : Stage4) :
    Keeps { channels := true, writes := true, nextTag := true, lamps := true, reports := true } (stage6 c r) :=
  ⟨fun _ => Eq.trans ((publish_keeps ..).on _) rfl⟩

/-- The blocks that stages 1 to 5 of a channel may change. -/
abbrev Foot.stages : Foot :=
  { exchange := true, channels := true, authority := true, armed := true, reports := true }

theorem liveStages_keeps (handed : Bank 8 Handed) (c : Chan) :
    Keeps Foot.stages fun s => (liveStages handed c s).2 :=
  ⟨fun s => Eq.trans ((stage5_keeps c).on _)
    (Eq.trans ((stage4_keeps ..).on _) (Eq.trans ((boundaryStage_keeps c).on _)
      (Eq.trans ((joinSearch_keeps c).on _) (Eq.trans ((checkAnchor_keeps ..).on _)
        (Eq.trans ((takeView_keeps c).on _) ((evaluate_keeps handed c).on s))))))⟩

/-- The blocks that a publication may change. -/
abbrev Foot.publication : Foot :=
  { writes := true, channels := true, authority := true, lamps := true, reports := true, nextTag := true }

theorem offFrame_keeps (c : Chan) : Keeps Foot.publication (offFrame c) :=
  ⟨fun _ => Eq.trans ((publish_keeps ..).on _) rfl⟩

theorem followFrame_keeps (c : Chan) : Keeps Foot.publication (followFrame c) :=
  ⟨fun _ => Eq.trans ((publish_keeps ..).on _) rfl⟩

/-! ### The Exchange Unit -/

theorem writeStoryFields_keeps (k : Slot) (r : Report) :
    Keeps { writes := true, nextTag := true } (writeStoryFields k r) := ⟨fun _ => rfl⟩

theorem failTake_keeps (k : Slot) (generation : Word) (stage : FailedStage) (line : Word) :
    Keeps { stories := true, writes := true, nextTag := true } (failTake k generation stage line) :=
  ⟨fun _ => rfl⟩

theorem flip_keeps (k : Slot) (generation : Word) (address : Addr) (count : Nat) :
    Keeps { stories := true, fetch := true, writes := true, nextTag := true }
      (flip k generation address count) :=
  ⟨fun _ => Eq.trans ((writeStoryFields_keeps ..).on _) (Eq.trans ((invalidateStory_keeps k).on _) rfl)⟩

/-- A flip changes the story's shadow, and no other story's. -/
theorem flip_stories (k : Slot) (generation : Word) (address : Addr) (count : Nat) (s : State) :
    (flip k generation address count s).stories = s.stories.set k { s.story k with
      side := (s.story k).side.other, address := address, count := count
      done := generation, result := resultDone } := by
  unfold flip
  simp [(writeStoryFields_keeps ..).stories, (invalidateStory_keeps k).stories, State.modStory, State.story]

theorem beginDirectTake_keeps (k : Slot) : Keeps { exchange := true, nextTag := true } (beginDirectTake k) :=
  ⟨fun _ => rfl⟩

theorem examineStory_keeps (k : Slot) : Keeps { exchange := true, nextTag := true } (examineStory k) := by
  refine ⟨fun s => ?_⟩
  unfold examineStory
  split
  · exact (beginDirectTake_keeps k).on s
  · rfl

/-- The blocks that the end of a take may change. -/
abbrev Foot.exchange' : Foot :=
  { writes := true, stories := true, exchange := true, fetch := true, channels := true, reports := true,
    nextTag := true }

theorem endDirectTake_keeps (tag : Nat) (r : ReadResult) : Keeps Foot.exchange' (endDirectTake tag r) := by
  refine ⟨fun s => ?_⟩
  unfold endDirectTake
  split
  · rfl
  · cases r with
    | busError => exact Eq.trans ((failTake_keeps ..).on _) rfl
    | data bytes =>
      dsimp only
      split
      · refine Eq.trans ((flip_keeps ..).on _) ?_
        split
        · exact Eq.trans ((raise_keeps _).on _) rfl
        · rfl
      · rfl

theorem startSearch_keeps (k : Slot) :
    Keeps { exchange := true, channels := true, nextTag := true } (startSearch k) :=
  ⟨fun _ => Eq.trans ((Keeps.forEach (fun c => modChan_keeps c _) _).on _) rfl⟩

theorem reanchorMember_keeps (k : Slot) (count : Nat) (m : SearchMember) :
    Keeps { channels := true, reports := true } (reanchorMember k count m) := by
  refine ⟨fun s => ?_⟩
  unfold reanchorMember
  dsimp only
  split
  · rfl
  · split
    · rfl
    · exact Eq.trans ((raise_keeps _).on _) rfl

theorem endSearch_keeps (members : List SearchMember) :
    Keeps { exchange := true, channels := true } (endSearch members) :=
  ⟨fun _ => Eq.trans ((Keeps.forEach (fun m => modChan_keeps _ _) _).on _) rfl⟩

theorem completeSearch_keeps (sr : Searcher) (address : Addr) (count : Nat) :
    Keeps Foot.exchange' (completeSearch sr address count) :=
  ⟨fun s => Eq.trans ((endSearch_keeps _).on _)
    (Eq.trans ((Keeps.forEach (reanchorMember_keeps sr.slot count) _).on _) ((flip_keeps ..).on s))⟩

theorem failSearch_keeps (sr : Searcher) (stage : FailedStage) (line : Word) :
    Keeps Foot.exchange' (failSearch sr stage line) :=
  ⟨fun s => Eq.trans ((endSearch_keeps _).on _) ((failTake_keeps ..).on s)⟩

theorem continueSearch_keeps (sr : Searcher) (address : Addr) (count i : Nat) :
    Keeps Foot.exchange' (continueSearch sr address count i) := by
  refine ⟨fun s => ?_⟩
  unfold continueSearch
  split
  · exact (completeSearch_keeps ..).on s
  · rfl

theorem searchVersionRead_keeps (tag : Nat) (r : ReadResult) :
    Keeps Foot.exchange' (searchVersionRead tag r) := by
  refine ⟨fun s => ?_⟩
  unfold searchVersionRead
  split
  · rfl
  · split
    · rfl
    · split
      · cases r with
        | busError => exact (failSearch_keeps ..).on s
        | data bytes =>
          dsimp only
          refine Eq.trans ((continueSearch_keeps ..).on _) ?_
          split
          · exact (raise_keeps _).on s
          · rfl
      · rfl

theorem keyRead_keeps (tag : Nat) (r : ReadResult) : Keeps Foot.exchange' (keyRead tag r) := by
  refine ⟨fun s => ?_⟩
  unfold keyRead
  split
  · rfl
  · split
    · rfl
    · split
      · cases r with
        | busError => exact (failSearch_keeps ..).on s
        | data bytes => exact (continueSearch_keeps ..).on s
      · rfl

theorem raiseDuplicates_keeps (list : Side) (t : TakenList) :
    Keeps { reports := true } (raiseDuplicates list t) := by
  refine ⟨fun s => ?_⟩
  unfold raiseDuplicates
  split
  · rfl
  · exact (raise_keeps _).on s

theorem issueRundown_keeps (generation : Word) (list : Side) (reading : RundownRead) (offset length : Nat) :
    Keeps { exchange := true, nextTag := true } (issueRundown generation list reading offset length) :=
  ⟨fun _ => rfl⟩

theorem takeRundown_keeps (take : RundownTake) (slots : List Byte) :
    Keeps { writes := true, rundown := true, exchange := true, reports := true, nextTag := true }
      (takeRundown take slots) :=
  ⟨fun _ => Eq.trans ((issueWrite_keeps ..).on _) (Eq.trans ((raiseDuplicates_keeps ..).on _) rfl)⟩

/-- What the bytes of a rundown take's read bring about: the list is taken, or, after a length that is not 0, the read
of the slot numbers is issued. -/
theorem rundownBytes_cases (take : RundownTake) (bytes : List Byte) (s : State) :
    (take.reading = .slots ∧ rundownBytes take bytes s = takeRundown take bytes s) ∨
    (take.reading = .length ∧ listLength (word bytes 0) = 0 ∧ rundownBytes take bytes s = takeRundown take [] s) ∨
    (take.reading = .length ∧ 0 < listLength (word bytes 0) ∧ rundownBytes take bytes s =
      issueRundown take.generation take.list .slots (listOffset take.list) (listLength (word bytes 0)) s) := by
  unfold rundownBytes
  split
  · exact .inl ⟨‹_›, rfl⟩
  · split
    · exact .inr (.inl ⟨‹_›, ‹_›, rfl⟩)
    · rename_i n h
      exact .inr (.inr ⟨‹_›, by omega, by rw [h]⟩)

theorem rundownBytes_keeps (take : RundownTake) (bytes : List Byte) :
    Keeps { writes := true, rundown := true, exchange := true, reports := true, nextTag := true }
      (rundownBytes take bytes) := by
  refine ⟨fun s => ?_⟩
  obtain ⟨-, h⟩ | ⟨-, -, h⟩ | ⟨-, -, h⟩ := rundownBytes_cases take bytes s <;> rw [h]
  · exact (takeRundown_keeps ..).on s
  · exact (takeRundown_keeps ..).on s
  · exact (issueRundown_keeps ..).on s

theorem rundownRead_keeps (tag : Nat) (r : ReadResult) :
    Keeps { writes := true, rundown := true, exchange := true, reports := true, nextTag := true }
      (rundownRead tag r) := by
  refine ⟨fun s => ?_⟩
  unfold rundownRead
  split
  · rfl
  · split
    · cases r with
      | busError => exact Eq.trans ((raise_keeps _).on _) rfl
      | data bytes => exact (rundownBytes_keeps ..).on s
    · rfl

theorem serveSearcher_keeps :
    Keeps { exchange := true, channels := true, nextTag := true } serveSearcher := by
  refine ⟨fun s => ?_⟩
  unfold serveSearcher
  split
  · split
    · rfl
    · split
      · rfl
      · exact (startSearch_keeps _).on s
  · rfl

theorem exchangeFrame_keeps :
    Keeps { exchange := true, channels := true, nextTag := true } exchangeFrame :=
  ⟨fun s => Eq.trans ((Keeps.forEach examineStory_keeps _).on _) (serveSearcher_keeps.on s)⟩

/-- At a frame event the Exchange Unit changes nothing of a channel but its EXCHANGE hold. -/
theorem exchangeFrame_chan (c : Chan) (s : State) : (exchangeFrame s).chan c =
    { s.chan c with exchange := ((exchangeFrame s).chan c).exchange } := by
  have tail : ∀ t : State, (forEach (List.finRange 256) examineStory t).chan c = t.chan c := fun t =>
    congrArg (·.get c) ((Keeps.forEach examineStory_keeps _).channels t)
  have fold : ∀ (xs : List Chan) (t : State),
      (forEach xs (fun d u => u.modChan d fun ch => { ch with exchange := true }) t).chan c =
        { t.chan c with exchange :=
          ((forEach xs (fun d u => u.modChan d fun ch => { ch with exchange := true }) t).chan c).exchange } := by
    intro xs
    induction xs with
    | nil => intro t; rfl
    | cons d xs ih =>
      intro t
      rw [forEach_cons, ih]
      by_cases h : c = d
      · subst h; simp
      · simp [State.chan_modChan_ne _ _ h]
  unfold exchangeFrame
  rw [tail]
  unfold serveSearcher
  split
  · split
    · rfl
    · split
      · rfl
      · exact fold _ _
  · rfl

/-! ### The heads -/

theorem composeHeads_keeps : Keeps { heads := true } composeHeads :=
  Keeps.forEach (f := composeHead) (fun _ => ⟨fun _ => rfl⟩) _

/-! ### The timebase and the settings take -/

theorem modTimebase_keeps (f : Timebase → Timebase) : Keeps { timebase := true } (State.modTimebase · f) :=
  ⟨fun _ => rfl⟩

theorem timebaseTake_keeps (rate : FrameRate) (select : RefSelect) :
    Keeps { timebase := true, reports := true } (timebaseTake rate select) := by
  refine ⟨fun s => ?_⟩
  unfold timebaseTake
  split
  · rfl
  · split
    · exact Eq.trans ((raiseRunning_keeps _).on _) rfl
    · rfl

/-! Each part of the arbiter's take changes the authority and the reports alone. -/

theorem releaseForPort_keeps (old : Settings) (p : PortId) :
    Keeps { authority := true, reports := true } (releaseForPort old p) :=
  ⟨fun s => by
    unfold releaseForPort
    dsimp only
    split
    · exact (releaseHolder_keeps ..).on s
    · rfl⟩

theorem releaseForAuthority_keeps (old : Settings) (c : Chan) :
    Keeps { authority := true, reports := true } (releaseForAuthority old c) :=
  ⟨fun s => by
    unfold releaseForAuthority
    split
    · exact (releaseHolder_keeps ..).on s
    · rfl⟩

theorem releaseForMode_keeps (old : Settings) (c : Chan) :
    Keeps { authority := true, reports := true } (releaseForMode old c) :=
  ⟨fun s => by
    unfold releaseForMode
    split
    · exact (releaseHolder_keeps ..).on s
    · rfl⟩

theorem clearConsole_keeps (old : Settings) (c : Chan) :
    Keeps { authority := true, reports := true } (clearConsole old c) :=
  ⟨fun s => by unfold clearConsole; split <;> rfl⟩

theorem authorityTake_keeps (old : Settings) :
    Keeps { authority := true, reports := true } (authorityTake old) :=
  ⟨fun s => Eq.trans ((Keeps.forEach (clearConsole_keeps old) _).on _)
    (Eq.trans ((Keeps.forEach (releaseForMode_keeps old) _).on _)
      (Eq.trans ((Keeps.forEach (releaseForAuthority_keeps old) _).on _)
        ((Keeps.forEach (releaseForPort_keeps old) _).on s)))⟩

theorem channelTake_keeps (old : Settings) (c : Chan) :
    Keeps { exchange := true, channels := true } (channelTake old c) := by
  refine ⟨fun s => ?_⟩
  unfold channelTake
  dsimp only
  split
  · split
    · exact Eq.trans ((joinSearch_keeps c).on _) rfl
    · rfl
  · rfl

theorem portTake_keeps (old : Settings) (p : PortId) :
    Keeps { channels := true, ports := true, armed := true } (portTake old p) := by
  refine ⟨fun s => ?_⟩
  have line : ∀ was now l, Keeps { channels := true, ports := true } (lineTake was now p l) := fun was now l =>
    ⟨fun s => by unfold lineTake; split <;> rfl⟩
  unfold portTake
  dsimp only
  split
  · rfl
  · split
    · exact Eq.trans (Eq.trans rfl ((Keeps.forEach (line _ _) allLines).on _)) rfl
    · exact Eq.trans ((Keeps.forEach (line _ _) allLines).on _) rfl

theorem lampsTake_keeps (old : Settings) : Keeps { lamps := true } (lampsTake old) := by
  have group : ∀ g, Keeps { lamps := true } (groupTake old g) := fun g =>
    ⟨fun s => by unfold groupTake; split <;> rfl⟩
  exact ⟨fun s => Eq.trans rfl ((Keeps.forEach group (List.finRange 4)).on s)⟩

theorem releasePostponed_keeps : Keeps { reports := true } releasePostponed := ⟨fun _ => rfl⟩

/-- The blocks that a settings take may change. -/
abbrev Foot.settings' : Foot :=
  { area := true, writes := true, settings := true, exchange := true, channels := true, ports := true,
    authority := true, armed := true, timebase := true, lamps := true, reports := true, nextTag := true }

theorem applySettings_keeps (new : Settings) :
    Keeps { settings := true, exchange := true, channels := true, ports := true, authority := true,
            armed := true, timebase := true, lamps := true, reports := true } (applySettings new) :=
  ⟨fun s => Eq.trans (releasePostponed_keeps.on _) (Eq.trans ((lampsTake_keeps _).on _)
    (Eq.trans ((timebaseTake_keeps ..).on _) (Eq.trans ((Keeps.forEach (portTake_keeps s.settings) _).on _)
      (Eq.trans ((Keeps.forEach (channelTake_keeps s.settings) _).on _)
        (Eq.trans ((authorityTake_keeps s.settings).on _) rfl)))))⟩

/-- The settings a take leaves are the ones it brings. -/
theorem applySettings_settings (new : Settings) (s : State) : (applySettings new s).settings = new := by
  unfold applySettings
  rw [releasePostponed_keeps.settings, (lampsTake_keeps _).settings, (timebaseTake_keeps ..).settings,
    (Keeps.forEach (portTake_keeps s.settings) _).settings,
    (Keeps.forEach (channelTake_keeps s.settings) _).settings, (authorityTake_keeps s.settings).settings]

theorem settingsTake_keeps (block : List Byte) (inStart : Bool) :
    Keeps Foot.settings' (settingsTake block inStart) :=
  ⟨fun _ => Eq.trans ((raise_keeps _).on _) (Eq.trans ((issueWrite_keeps ..).on _)
    (Eq.trans ((applySettings_keeps _).on _) rfl))⟩

/-- A settings take changes nothing of the Area Port but the taken generation. -/
theorem settingsTake_area (block : List Byte) (inStart : Bool) (s : State) :
    (settingsTake block inStart s).area = { s.area with takenGeneration := blockGeneration block } := by
  unfold settingsTake answerTake
  rw [(raise_keeps _).area, (issueWrite_keeps ..).area, (applySettings_keeps _).area]

theorem settingsTake_settings (block : List Byte) (inStart : Bool) (s : State) :
    (settingsTake block inStart s).settings = settingsOf block := by
  unfold settingsTake answerTake
  rw [(raise_keeps _).settings, (issueWrite_keeps ..).settings, applySettings_settings]

/-! ### The engine -/

/-- A halt does nothing in HALTED, and else everything R154 gives. -/
theorem halt_cases (cause : HaltCause) (s : State) :
    (s.engine = .halted ∧ halt cause s = s) ∨
    (s.engine ≠ .halted ∧ halt cause s = { s with
      area := { s.area with engine := .halted, haltCause := cause, start := none, scan := none }
      exchange := .idle
      fetch := s.fetch.abandon
      reports := { s.reports with
        halt := true, current := s.reports.current.bind PostInProgress.atHalt } }) := by
  unfold halt State.halted
  by_cases h : s.engine = .halted
  · simp [h]
  · simp [h]

theorem halt_keeps (cause : HaltCause) :
    Keeps { area := true, exchange := true, fetch := true, reports := true } (halt cause) := by
  refine ⟨fun s => ?_⟩
  obtain ⟨-, h⟩ | ⟨-, h⟩ := halt_cases cause s
  · rw [h]
  · rw [h]; rfl

/-- A completion of a write does nothing when the write is not in flight, and else drops it and halts the engine or
raises the write's report. -/
theorem writeDone_cases (tag : Nat) (mine : WriteTarget → Bool) (r : WriteResult) (s : State) :
    (completedWrite tag mine s = none ∧ writeDone tag mine r s = s) ∨
    ∃ w, completedWrite tag mine s = some w ∧
      ((r = .busError ∧ writeDone tag mine r s = halt .statusWriteFault (dropWrite tag s)) ∨
       (r = .written ∧ w.report = none ∧ writeDone tag mine r s = dropWrite tag s) ∨
       ∃ report, r = .written ∧ w.report = some report ∧
         writeDone tag mine r s = raise report (dropWrite tag s)) := by
  unfold writeDone
  split
  · exact .inl ⟨‹_›, rfl⟩
  · rename_i w hw
    refine .inr ⟨w, hw, ?_⟩
    cases r with
    | busError => exact .inl ⟨rfl, rfl⟩
    | written =>
      cases w.report with
      | none => exact .inr (.inl ⟨rfl, rfl, rfl⟩)
      | some report => exact .inr (.inr ⟨report, rfl, rfl, rfl⟩)

theorem writeDone_keeps (tag : Nat) (mine : WriteTarget → Bool) (r : WriteResult) :
    Keeps { area := true, writes := true, exchange := true, fetch := true, reports := true }
      (writeDone tag mine r) := by
  refine ⟨fun s => ?_⟩
  obtain ⟨-, h⟩ | ⟨w, -, ⟨-, h⟩ | ⟨-, -, h⟩ | ⟨report, -, -, h⟩⟩ := writeDone_cases tag mine r s <;> rw [h]
  · exact Eq.trans ((halt_keeps _).on _) rfl
  · rfl
  · exact Eq.trans ((raise_keeps _).on _) rfl

theorem stop_keeps :
    Keeps { area := true, exchange := true, fetch := true, channels := true, ports := true, authority := true }
      stop := ⟨fun _ => rfl⟩

theorem issueStart_keeps (x : Request → StartStep) (address : Addr) (length : Nat) :
    Keeps { area := true, nextTag := true } (issueStart x address length) := ⟨fun _ => rfl⟩

/-- The blocks that RUN and LOOK_NOW may change. -/
abbrev Foot.engine' : Foot :=
  { area := true, exchange := true, fetch := true, channels := true, ports := true, authority := true,
    timebase := true, reports := true, nextTag := true }

theorem beginStart_keeps : Keeps Foot.engine' beginStart := by
  refine ⟨fun s => ?_⟩
  unfold beginStart
  dsimp only
  split
  · exact Eq.trans ((halt_keeps _).on _) rfl
  · rfl

theorem runWrite_keeps (run : Bool) : Keeps Foot.engine' (runWrite run) := by
  refine ⟨fun s => ?_⟩
  unfold runWrite
  split
  · exact beginStart_keeps.on s
  all_goals rfl

theorem lookNowWrite_keeps : Keeps { area := true, nextTag := true } lookNowWrite := by
  refine ⟨fun s => ?_⟩
  unfold lookNowWrite
  split <;> rfl

/-- Without SOFT_RESET a write to ENGINE_CTL keeps the other blocks. -/
theorem engineCtlWrite_keeps (run look : Bool) : Keeps Foot.engine' (engineCtlWrite run false look) := by
  refine ⟨fun s => ?_⟩
  unfold engineCtlWrite
  simp only [Bool.false_eq_true, if_false]
  split
  · exact Eq.trans (lookNowWrite_keeps.on _) ((runWrite_keeps run).on s)
  · exact (runWrite_keeps run).on s

theorem irqCauseClear_keeps (w : Word) : Keeps { reports := true } (irqCauseClear w) := ⟨fun _ => rfl⟩

theorem areaLoTake_keeps (w : Word) : Keeps { area := true } (areaLoTake w) := by
  refine ⟨fun s => ?_⟩
  unfold areaLoTake
  split <;> rfl

theorem areaHiTake_keeps (w : Word) : Keeps { area := true } (areaHiTake w) := by
  refine ⟨fun s => ?_⟩
  unfold areaHiTake
  split <;> rfl

/-! ### The start sequence -/

theorem headerDone_keeps (tag : Nat) (bytes : List Byte) :
    Keeps { area := true, exchange := true, fetch := true, reports := true, nextTag := true }
      (headerDone tag bytes) := by
  refine ⟨fun s => ?_⟩
  unfold headerDone
  split
  · split
    · split
      · exact Eq.trans ((issueStart_keeps ..).on _) rfl
      · exact (halt_keeps _).on s
    · rfl
  · rfl

theorem glyphReadDone_keeps (tag : Nat) (bytes : List Byte) :
    Keeps { area := true, glyphs := true, nextTag := true } (glyphReadDone tag bytes) := by
  refine ⟨fun s => ?_⟩
  unfold glyphReadDone
  split
  · split <;> rfl
  · unfold glyphImageDone
    split
    · rfl
    · dsimp only
      split <;> rfl
  · rfl

theorem beginFullTake_keeps : Keeps { area := true, nextTag := true } beginFullTake := ⟨fun _ => rfl⟩

theorem startSettingsDone_keeps (tag : Nat) (bytes : List Byte) :
    Keeps Foot.settings' (startSettingsDone tag bytes) := by
  refine ⟨fun s => ?_⟩
  unfold startSettingsDone
  split
  · split
    · exact Eq.trans (beginFullTake_keeps.on _) ((settingsTake_keeps bytes true).on s)
    · rfl
  · rfl

theorem adoptStories_keeps (d : FullTakeData) : Keeps { stories := true, reports := true } (adoptStories d) := by
  have one : ∀ k, Keeps { reports := true } (raiseAdopted d k) := fun k =>
    ⟨fun s => by
      unfold raiseAdopted
      dsimp only
      split
      · exact (raise_keeps _).on s
      · rfl⟩
  exact ⟨fun _ => Eq.trans ((Keeps.forEach one _).on _) rfl⟩

theorem adoptRundown_keeps (bytes : List Byte) :
    Keeps { rundown := true, reports := true } (adoptRundown bytes) :=
  ⟨fun _ => Eq.trans ((raiseDuplicates_keeps ..).on _) rfl⟩

theorem fullTakeDone_keeps (tag : Nat) (d : FullTakeData) :
    Keeps { area := true, stories := true, rundown := true, fetch := true, timebase := true, reports := true }
      (fullTakeDone tag d) := by
  refine ⟨fun s => ?_⟩
  unfold fullTakeDone
  split
  · split
    · have h : (adoptRundown d.rundown (adoptStories d s)).mask
          { area := true, stories := true, rundown := true, fetch := true, timebase := true, reports := true } =
          s.mask _ := Eq.trans ((adoptRundown_keeps _).on _) ((adoptStories_keeps d).on s)
      exact Eq.trans ((raise_keeps _).on _) h
    · rfl
  · rfl

theorem startFault_keeps (tag : Nat) :
    Keeps { area := true, exchange := true, fetch := true, reports := true } (startFault tag) := by
  refine ⟨fun s => ?_⟩
  unfold startFault
  split
  · exact (halt_keeps _).on s
  · rfl

/-! ### The frame event -/

theorem makePublication_keeps (outcomes : Bank 4 Stage4) (c : Chan) :
    Keeps Foot.publication (makePublication outcomes c) := by
  refine ⟨fun s => ?_⟩
  unfold makePublication
  split
  · exact (stage6_keeps c _).on s
  · exact (offFrame_keeps c).on s
  · exact (followFrame_keeps c).on s

/-- The blocks that a publication and the Fetch Unit's use of it may change. -/
abbrev Foot.publicationFetch : Foot := { Foot.publication with fetch := true }

theorem publishChannel_keeps (outcomes : Bank 4 Stage4) (c : Chan) :
    Keeps Foot.publicationFetch (publishChannel outcomes c) :=
  ⟨fun s => Eq.trans ((needUpdate_keeps c).on _) ((makePublication_keeps outcomes c).on s)⟩

/-- The channels that advance do so in turn. -/
theorem advanceChannels_state (handed : Bank 8 Handed) (cs : List Chan) (s : State) :
    (advanceChannels handed cs s).2 = forEach cs (fun c t => (liveStages handed c t).2) s := by
  induction cs generalizing s with
  | nil => rfl
  | cons c cs ih => exact ih _

theorem advanceChannels_keeps (handed : Bank 8 Handed) (cs : List Chan) :
    Keeps Foot.stages fun s => (advanceChannels handed cs s).2 :=
  ⟨fun s => by rw [advanceChannels_state]; exact (Keeps.forEach (liveStages_keeps handed) cs).on s⟩

/-- The blocks that the channels' part of a frame event may change. -/
abbrev Foot.channels' : Foot :=
  { writes := true, fetch := true, exchange := true, channels := true, ports := true, authority := true, armed := true,
    lamps := true, reports := true, nextTag := true }

theorem writePortStatus_keeps (handed : Bank 8 Handed) (p : PortId) :
    Keeps { writes := true, nextTag := true } (writePortStatus handed p) := ⟨fun _ => rfl⟩

theorem handAll_keeps : Keeps { ports := true } fun s => (handAll s).2 := ⟨fun _ => rfl⟩

/-- What the LIVE channels' advances leave, with the outcomes of their stages 4. -/
def advanced (s : State) : Bank 4 Stage4 × State :=
  advanceChannels (handAll s).1 (liveChans s) (armPorts (handAll s).1 (handAll s).2)

theorem advanced_keeps : Keeps { Foot.stages with ports := true } fun s => (advanced s).2 :=
  ⟨fun s => Eq.trans ((advanceChannels_keeps _ _).on _) (Eq.trans ((armPorts_keeps _).on _) (handAll_keeps.on s))⟩

theorem mode_congr {s t : State} (h : t.settings = s.settings) (c : Chan) : t.mode c = s.mode c := by
  unfold State.mode State.chanSet
  rw [h]

theorem frameOrder_congr {s t : State} (h : t.settings = s.settings) : frameOrder t = frameOrder s := by
  unfold frameOrder
  simp only [mode_congr h]

theorem liveChans_congr {s t : State} (h : t.settings = s.settings) : liveChans t = liveChans s := by
  unfold liveChans State.isLive
  simp only [mode_congr h]

/-- The channels' part of a frame event, step by step. -/
theorem channelsFrame_eq (s : State) : channelsFrame s =
    forEach allPorts (writePortStatus (handAll s).1)
      (forEach (frameOrder s) (publishChannel (advanced s).1) (advanced s).2) := by
  have h : liveChans (armPorts (handAll s).1 (handAll s).2) = liveChans s :=
    liveChans_congr (((armPorts_keeps _).settings _).trans (handAll_keeps.settings s))
  have e : frameOrder (advanced s).2 = frameOrder s := frameOrder_congr (advanced_keeps.settings s)
  rw [← e]
  unfold advanced
  rw [← h]
  rfl

theorem channelsFrame_keeps : Keeps Foot.channels' channelsFrame := by
  refine ⟨fun s => ?_⟩
  rw [channelsFrame_eq]
  exact Eq.trans ((Keeps.forEach (writePortStatus_keeps _) _).on _)
    (Eq.trans ((Keeps.forEach (publishChannel_keeps _) _).on _) (advanced_keeps.on s))

theorem scanFrame_keeps : Keeps { area := true, reports := true, nextTag := true } scanFrame := by
  refine ⟨fun s => ?_⟩
  unfold scanFrame
  split
  · rfl
  · exact Eq.trans ((raise_keeps _).on _) rfl

theorem announceLock_keeps : Keeps { timebase := true, reports := true } announceLock := by
  refine ⟨fun s => ?_⟩
  unfold announceLock
  split
  · exact Eq.trans ((raise_keeps _).on _) rfl
  · rfl

/-- The blocks that a frame event may change. -/
abbrev Foot.frame' : Foot :=
  { area := true, writes := true, exchange := true, fetch := true, channels := true, ports := true,
    authority := true, armed := true, timebase := true, heads := true, lamps := true, reports := true,
    nextTag := true }

theorem runningFrame_keeps : Keeps Foot.frame' runningFrame :=
  ⟨fun s => Eq.trans (scanFrame_keeps.on _) (Eq.trans (exchangeFrame_keeps.on _)
    (Eq.trans (composeHeads_keeps.on _)
      (Eq.trans (channelsFrame_keeps.on _) (announceLock_keeps.on s))))⟩

theorem frameBody_keeps : Keeps Foot.frame' frameBody := by
  refine ⟨fun s => ?_⟩
  unfold frameBody
  split
  · exact runningFrame_keeps.on s
  · exact composeHeads_keeps.on s

theorem countFrame_keeps : Keeps { timebase := true } countFrame := ⟨fun _ => rfl⟩

theorem freeFrame_keeps : Keeps Foot.frame' freeFrame := by
  refine ⟨fun s => ?_⟩
  unfold freeFrame
  split
  · exact Eq.trans (frameBody_keeps.on _) (Eq.trans (countFrame_keeps.on _) rfl)
  · rfl

theorem refEdge_keeps : Keeps Foot.frame' refEdge := by
  refine ⟨fun s => ?_⟩
  unfold refEdge
  split
  · unfold edgeInFree
    split
    · dsimp only
      split
      · exact Eq.trans (frameBody_keeps.on _) (Eq.trans ((raiseRunning_keeps _).on _)
          (Eq.trans (countFrame_keeps.on _) rfl))
      · rfl
    · rfl
  · unfold edgeInLocked
    split
    · exact Eq.trans (frameBody_keeps.on _) (Eq.trans (countFrame_keeps.on _) rfl)
    · rfl

theorem loseLock_keeps : Keeps Foot.frame' loseLock := by
  refine ⟨fun s => ?_⟩
  unfold loseLock
  dsimp only
  refine Eq.trans (frameBody_keeps.on _) (Eq.trans ((raiseRunning_keeps _).on _)
    (Eq.trans ((modTimebase_keeps _).on _) ?_))
  split
  · exact Eq.trans (announceLock_keeps.on _) (countFrame_keeps.on s)
  · exact countFrame_keeps.on s

theorem windowClose_keeps : Keeps Foot.frame' windowClose := by
  refine ⟨fun s => ?_⟩
  unfold windowClose
  split
  · dsimp only
    split
    · exact Eq.trans (loseLock_keeps.on _) rfl
    · exact Eq.trans (frameBody_keeps.on _) (Eq.trans (countFrame_keeps.on _) rfl)
  · rfl

/-! ### Commands -/

/-- The blocks that the effect of a command may change. -/
abbrev Foot.command : Foot :=
  { exchange := true, fetch := true, channels := true, authority := true, heads := true, nextTag := true }

/-- The effect of a command keeps the other blocks. -/
def CommandKeeps (act : State → CommandResult × State) : Prop := Keeps Foot.command fun s => (act s).2

theorem jumpCommand_keeps (channel story line : Word) : CommandKeeps (jumpCommand channel story line) := by
  refine ⟨fun s => ?_⟩
  unfold jumpCommand
  split
  · unfold jumpChecked refuse
    split
    · rfl
    · split
      · rfl
      · split
        · rfl
        · exact Eq.trans ((joinSearch_keeps _).on _) rfl
  · rfl

theorem nudgeCommand_keeps (channel rows : Word) : CommandKeeps (nudgeCommand channel rows) := by
  refine ⟨fun s => ?_⟩
  unfold nudgeCommand
  dsimp only
  split
  · rfl
  · split <;> rfl

theorem setDemandCommand_keeps (channel demand : Word) : CommandKeeps (setDemandCommand channel demand) := by
  refine ⟨fun s => ?_⟩
  unfold setDemandCommand
  dsimp only
  split
  · rfl
  · split <;> rfl

theorem goCommand_keeps (channel : Word) : CommandKeeps (goCommand channel) := by
  refine ⟨fun s => ?_⟩
  unfold goCommand
  split
  · rfl
  · split
    · exact (goChannel_keeps _).on s
    · rfl

theorem freezeCommand_keeps (channel on : Word) : CommandKeeps (freezeCommand channel on) := by
  refine ⟨fun s => ?_⟩
  unfold freezeCommand
  split
  · rfl
  · split <;> rfl

theorem headBlankCommand_keeps (head on : Word) : CommandKeeps (headBlankCommand head on) := by
  refine ⟨fun s => ?_⟩
  unfold headBlankCommand
  split <;> rfl

theorem refreshStoryCommand_keeps (story : Word) : CommandKeeps (refreshStoryCommand story) := by
  refine ⟨fun s => ?_⟩
  unfold refreshStoryCommand
  split
  · rfl
  · exact (invalidateStory_keeps _).on s

theorem refuse_keeps (r : CommandResult) : CommandKeeps (refuse r) := ⟨fun _ => rfl⟩

/-- The blocks that a command and its answer may change. -/
abbrev Foot.answered : Foot :=
  { area := true, writes := true, exchange := true, fetch := true, channels := true, authority := true,
    heads := true, nextTag := true }

/-- A command that is fresh, in RUNNING, has its effect and is answered; any other changes nothing. -/
theorem runCommand_cases (n : CmdSlot) (request code : Word) (act : State → CommandResult × State) (s : State) :
    (s.engine = .running ∧ s.area.commandDone.get n ≠ request ∧
      runCommand n request code act s = answerCommand n request code (act s).1 (act s).2) ∨
    ((s.engine ≠ .running ∨ s.area.commandDone.get n = request) ∧ runCommand n request code act s = s) := by
  unfold runCommand isFresh State.running
  by_cases h : s.engine = .running
  · by_cases f : s.area.commandDone.get n = request
    · exact .inr ⟨.inr f, by simp [f]⟩
    · exact .inl ⟨h, f, by simp [h, f]⟩
  · exact .inr ⟨.inl h, by simp [h]⟩

theorem runCommand_keeps (n : CmdSlot) (request code : Word) {act : State → CommandResult × State}
    (h : CommandKeeps act) : Keeps Foot.answered (runCommand n request code act) := by
  refine ⟨fun s => ?_⟩
  obtain ⟨-, -, e⟩ | ⟨-, e⟩ := runCommand_cases n request code act s <;> rw [e]
  have e' : (act s).2.mask Foot.answered = s.mask _ := Keeps.on h s
  exact Eq.trans ((issueWrite_keeps ..).on _) e'

theorem commandAct_keeps (x : Command) : CommandKeeps (commandAct x) := by
  unfold commandAct
  split; · exact jumpCommand_keeps ..
  split; · exact nudgeCommand_keeps ..
  split; · exact setDemandCommand_keeps ..
  split; · exact goCommand_keeps ..
  split; · exact freezeCommand_keeps ..
  split; · exact headBlankCommand_keeps ..
  split; · exact refreshStoryCommand_keeps ..
  exact refuse_keeps _

theorem runSlot_keeps (n : CmdSlot) (bytes : List Byte) : Keeps Foot.answered (runSlot n bytes) :=
  runCommand_keeps n _ _ (commandAct_keeps _)

/-! ### The frame scan -/

theorem rescanShadows_keeps (d : ScanData) :
    Keeps { stories := true, rundown := true, reports := true } (rescanShadows d) := by
  have faults : Keeps { reports := true } (raiseEntryFaults d) :=
    ⟨fun s => by
      unfold raiseEntryFaults
      split
      · rfl
      · exact (raise_keeps _).on s⟩
  have rundown : Keeps { rundown := true, reports := true } (rescanRundown d) :=
    ⟨fun s => by
      unfold rescanRundown
      split
      · rfl
      · exact (raise_keeps _).on s⟩
  exact ⟨fun _ => Eq.trans (faults.on _) (Eq.trans (rundown.on _) rfl)⟩

theorem rescanSettings_keeps (d : ScanData) : Keeps Foot.settings' (rescanSettings d) := by
  refine ⟨fun s => ?_⟩
  unfold rescanSettings
  split
  · rfl
  · exact (settingsTake_keeps ..).on s

theorem rescanCommands_keeps (d : ScanData) : Keeps Foot.answered (rescanCommands d) :=
  Keeps.forEach (fun n => runSlot_keeps n _) _

theorem endScan_keeps : Keeps { area := true } endScan := ⟨fun _ => rfl⟩

/-- The blocks that the completion of a scan may change. -/
abbrev Foot.scan' : Foot :=
  { area := true, writes := true, settings := true, stories := true, rundown := true, exchange := true,
    fetch := true, channels := true, ports := true, authority := true, armed := true, timebase := true,
    heads := true, lamps := true, reports := true, nextTag := true }

theorem completeScan_keeps (d : ScanData) : Keeps Foot.scan' (completeScan d) :=
  ⟨fun s => Eq.trans (endScan_keeps.on _) (Eq.trans ((rescanCommands_keeps d).on _)
    (Eq.trans ((rescanSettings_keeps d).on _) ((rescanShadows_keeps d).on s)))⟩

/-! ### The Report Unit -/

theorem beginPost_keeps : Keeps { reports := true, nextTag := true } beginPost := by
  refine ⟨fun s => ?_⟩
  unfold beginPost
  split
  · split <;> rfl
  · rfl

theorem failPost_keeps :
    Keeps { area := true, exchange := true, fetch := true, reports := true } failPost :=
  ⟨fun _ => Eq.trans ((halt_keeps _).on _) rfl⟩

theorem finishPost_keeps (p : Post) (count : Word) : Keeps { reports := true } (finishPost p count) :=
  ⟨fun _ => rfl⟩

theorem postReadDone_keeps (tag : Nat) (r : ReadResult) :
    Keeps { area := true, exchange := true, fetch := true, reports := true, nextTag := true }
      (postReadDone tag r) := by
  refine ⟨fun s => ?_⟩
  unfold postReadDone
  split
  · split
    · cases r with
      | busError => exact failPost_keeps.on s
      | data bytes => rfl
    · rfl
  · rfl

theorem postWriteDone_keeps (tag : Nat) (r : WriteResult) :
    Keeps { area := true, exchange := true, fetch := true, reports := true } (postWriteDone tag r) := by
  refine ⟨fun s => ?_⟩
  unfold postWriteDone
  split
  · split
    · cases r with
      | busError => exact failPost_keeps.on s
      | written => rfl
    · rfl
  · rfl

end Sys2Proof.Machine
end

