-- ==== Sys2Proof/Laws/Fields.lean ====
section
/-! SUPPORT. The fields of the settings block: the kind of each by its place (R174), and the value taken for each kind
(R158). -/

namespace Sys2Proof.Machine

set_option Elab.async false

/-! ### The kinds by their place (R174) -/

theorem fieldKind_channel (c : Chan) (k : Nat) (h : k < 28) : fieldKind (28 * c.val + k) = channelField k := by
  unfold fieldKind
  rw [if_pos (by omega), show (28 * c.val + k) % 28 = k by omega]

theorem fieldKind_port (p : PortId) (k : Nat) (h : k < 24) : fieldKind (112 + 24 * p.val + k) = portField k := by
  unfold fieldKind
  rw [if_neg (by omega), if_pos (by omega), show (112 + 24 * p.val + k - 112) % 24 = k by omega]

theorem fieldKind_head (p : HeadId) (k : Nat) (h : k < 16) : fieldKind (320 + 16 * p.val + k) = headField k := by
  unfold fieldKind
  rw [if_neg (by omega), if_neg (by omega), if_neg (by omega), if_neg (by omega), if_neg (by omega), if_pos (by omega),
    show (320 + 16 * p.val + k - 320) % 16 = k by omega]

/-! ### The values taken (R158) -/

theorem fieldTaken_number {block i lo hi} (k : fieldKind i = .number lo hi) (h : lo ≤ hi) :
    lo ≤ fieldTaken block i ∧ fieldTaken block i ≤ hi := by
  unfold fieldTaken; rw [k]; simp only [FieldKind.take, clampInt]; omega

theorem fieldTaken_named {block i n r} (k : fieldKind i = .named n r) (h : r < n) :
    0 ≤ fieldTaken block i ∧ fieldTaken block i < n := by
  unfold fieldTaken; rw [k]; simp only [FieldKind.take]; split <;> omega

theorem natTaken_number {block i lo hi} (k : fieldKind i = .number lo hi) (h : lo ≤ hi) (p : 0 ≤ lo) :
    (natTaken block i : Int) = fieldTaken block i := by
  have := fieldTaken_number (block := block) k h
  unfold natTaken; omega

theorem chanOf_number {block i} (k : fieldKind i = .number 0 3) :
    ((chanOf (natTaken block i)).val : Int) = fieldTaken block i := by
  have := fieldTaken_number (block := block) k (by decide)
  unfold chanOf natTaken
  simp only [Fin.ofNat]
  omega

theorem namedBy_taken {α} {block i n r} (names : List α) (of : Nat → α) (k : fieldKind i = .named n r) (h : r < n)
    (all : ∀ j, j < n → names[j]? = some (of j)) : NamedBy names (fieldTaken block i) (of (natTaken block i)) := by
  have := fieldTaken_named (block := block) k h
  refine ⟨this.1, all _ ?_⟩
  omega

theorem onTaken_iff {block i} (k : fieldKind i = .onOff) : (onTaken block i = true ↔ fieldWord block i ≠ 0) := by
  unfold onTaken fieldTaken
  rw [k]
  simp only [FieldKind.take, fieldWritten]
  have : (fieldWord block i).toInt = 0 ↔ fieldWord block i = 0 := by
    constructor
    · intro h; exact BitVec.eq_of_toInt_eq (by simpa using h)
    · intro h; rw [h]; rfl
  by_cases h : fieldWord block i = 0
  · simp [h]
  · simp [this]

theorem colourOf_field (block : List Byte) (i : Nat) : colourOf (fieldWord block i) = fieldColour block i := by
  unfold colourOf fieldWord fieldColour word half
  generalize e : 16 + 4 * i = j
  rw [show 17 + 4 * i = j + 1 by omega, show 18 + 4 * i = j + 2 by omega]
  generalize byteAt block j = a
  generalize byteAt block (j+1) = b
  generalize byteAt block (j+2) = c
  rw [show j + 2 + 1 = j + 3 by omega]
  generalize byteAt block (j+3) = d
  congr 1 <;>
    (apply BitVec.eq_of_getLsbD_eq
     intro k hk
     simp only [BitVec.getLsbD_extractLsb', BitVec.getLsbD_append, hk, decide_true, Bool.true_and]
     repeat' split) <;>
    (first | omega | (congr 1; omega))

end Sys2Proof.Machine
end

