-- ==== Sys2Proof/Laws/Frames.lean ====
section
/-! SUPPORT. The frame event of one channel: what it does to the other channels and to their authority (nothing), what a
channel publishes, and the order of the channels. -/

namespace Sys2Proof.Machine

set_option Elab.async false

/-! ### Other channels -/

/-- An operation leaves the channels other than `c` as they are. -/
def OnlyChan (c : Chan) (f : State → State) : Prop := ∀ s d, d ≠ c → (f s).chan d = s.chan d

theorem OnlyChan.of_keeps {c : Chan} {F : Foot} {f : State → State} (h : Keeps F f)
    (out : F.channels = false := by rfl) : OnlyChan c f := fun s d _ =>
  congrArg (·.get d) (h.channels s out)

theorem OnlyChan.modChan (c : Chan) (f : Channel → Channel) : OnlyChan c (State.modChan · c f) := fun s _ h =>
  s.chan_modChan_ne f h

theorem OnlyChan.comp {c : Chan} {f g : State → State} (hg : OnlyChan c g) (hf : OnlyChan c f) :
    OnlyChan c fun s => g (f s) := fun s d h => (hg (f s) d h).trans (hf s d h)

theorem raise_chan (r : Report) (s : State) (c : Chan) : (raise r s).chan c = s.chan c :=
  congrArg (·.get c) ((raise_keeps r).channels s)

theorem joinSearch_only (c : Chan) : OnlyChan c (joinSearch c) := fun s d h => (joinSearch_chan c d s).2 h

theorem checkAnchor_only (c : Chan) (former : List ViewEntry) : OnlyChan c (checkAnchor c former) := by
  intro s d h
  unfold checkAnchor reanchor
  dsimp only
  split
  · rfl
  · exact s.chan_modChan_ne _ h
  · rw [raise_chan]; exact s.chan_modChan_ne _ h
  · split
    · split
      · rfl
      · rw [raise_chan]; exact s.chan_modChan_ne _ h
    · rw [raise_chan]; exact s.chan_modChan_ne _ h

theorem boundaryStage_only (c : Chan) : OnlyChan c (boundaryStage c) := by
  intro s d h
  unfold boundaryStage
  dsimp only
  split
  · rfl
  · split
    · rfl
    · split
      · split
        · exact s.chan_modChan_ne _ h
        · rfl
      · split
        · exact s.chan_modChan_ne _ h
        · rw [raise_chan]; exact s.chan_modChan_ne _ h

theorem storyJump_only (c : Chan) (p : PortId) (j : StoryJump) : OnlyChan c (storyJump c p j) := by
  intro s d h
  unfold storyJump refuseJump
  dsimp only
  split
  · rw [raise_chan]; exact s.chan_modChan_ne _ h
  · split
    · rw [raise_chan]; exact s.chan_modChan_ne _ h
    · split
      · exact s.chan_modChan_ne _ h
      · rw [raise_chan]; exact s.chan_modChan_ne _ h

/-- The reports of an advance change nothing of any channel but the starve count of its own. -/
theorem advanceReports_chan (c : Chan) (old : Channel) (a : Option Anchor) (demand : Int) (adv : Advance)
    (s : State) : ∃ n, (advanceReports c old a demand adv s).channels =
      s.channels.set c { s.chan c with starveCount := n } := by
  have same : s.channels = s.channels.set c { s.chan c with starveCount := (s.chan c).starveCount } :=
    (Bank.set_get s.channels c).symm
  unfold advanceReports
  split
  · exact ⟨_, ((raise_keeps _).channels s).trans same⟩
  · exact ⟨_, same⟩
  · exact ⟨_, same⟩
  · split
    · exact ⟨_, same⟩
    · exact ⟨_, (raise_keeps _).channels _⟩
  · split
    · exact ⟨_, same⟩
    · split
      · exact ⟨_, same⟩
      · exact ⟨_, ((raise_keeps _).channels s).trans same⟩
  · split
    · exact ⟨_, same⟩
    · split
      · exact ⟨_, same⟩
      · exact ⟨_, ((raise_keeps _).channels s).trans same⟩

theorem advanceReports_only (c : Chan) (old : Channel) (a : Option Anchor) (demand : Int) (adv : Advance) :
    OnlyChan c (advanceReports c old a demand adv) := by
  intro s d h
  obtain ⟨n, e⟩ := advanceReports_chan c old a demand adv s
  unfold State.chan
  rw [e, Bank.get_set_ne _ _ h]

theorem stage4_only (c : Chan) (h : Handing) : OnlyChan c fun s => (stage4 c h s).2 := by
  intro s d hd
  unfold stage4
  dsimp only
  split
  · exact (storyJump_only _ _ _ _ d hd).trans (s.chan_modChan_ne _ hd)
  · unfold advanceStage
    dsimp only
    split
    · exact s.chan_modChan_ne _ hd
    · exact (advanceReports_only _ _ _ _ _ _ d hd).trans
        ((State.chan_modChan_ne _ _ hd).trans (s.chan_modChan_ne _ hd))

theorem stage5_only (c : Chan) : OnlyChan c (stage5 c) := by
  intro s d h
  unfold stage5
  dsimp only
  split
  · exact (State.chan_modChan_ne _ _ h).trans (joinSearch_only c s d h)
  · exact joinSearch_only c s d h

theorem publish_only (c : Chan) (pub : Published) (entered : List Entered) (crossings : List Crossing) :
    OnlyChan c (publish c pub entered crossings) := by
  intro s d h
  unfold State.chan
  rw [publish_channels, Bank.get_set_ne _ _ h]

theorem stage6_only (c : Chan) (r : Stage4) : OnlyChan c (stage6 c r) := fun s d h =>
  (publish_only _ _ _ _ _ d h).trans (s.chan_modChan_ne _ h)

/-- Stages 1 to 3 of a LIVE channel's frame event, one after another. -/
def liveSettled (handed : Bank 8 Handed) (c : Chan) (s : State) : State :=
  boundaryStage c (joinSearch c (checkAnchor c (s.chan c).view (takeView c (evaluate handed c s).2)))

theorem liveStages_eq (handed : Bank 8 Handed) (c : Chan) (s : State) : liveStages handed c s =
    ((stage4 c (evaluate handed c s).1 (liveSettled handed c s)).1,
      stage5 c (stage4 c (evaluate handed c s).1 (liveSettled handed c s)).2) := rfl

theorem liveSettled_only (handed : Bank 8 Handed) (c : Chan) : OnlyChan c (liveSettled handed c) := fun s d h =>
  (boundaryStage_only c _ d h).trans ((joinSearch_only c _ d h).trans ((checkAnchor_only c _ _ d h).trans
    ((State.chan_modChan_ne _ _ h).trans (congrArg (·.get d) ((evaluate_keeps handed c).channels s)))))

theorem liveStages_only (handed : Bank 8 Handed) (c : Chan) : OnlyChan c fun s => (liveStages handed c s).2 :=
  fun s d h => (stage5_only c _ d h).trans ((stage4_only c _ _ d h).trans (liveSettled_only handed c s d h))

theorem makePublication_only (outcomes : Bank 4 Stage4) (c : Chan) : OnlyChan c (makePublication outcomes c) := by
  intro s d h
  unfold makePublication
  split
  · exact stage6_only c _ _ d h
  · exact publish_only _ _ _ _ _ d h
  · exact (publish_only _ _ _ _ _ d h).trans (State.chan_modChan_ne _ _ h)

/-- The Fetch Unit's use of a publication changes no channel. -/
theorem publishChannel_chan (outcomes : Bank 4 Stage4) (c d : Chan) (s : State) :
    (publishChannel outcomes c s).chan d = (makePublication outcomes c s).chan d :=
  congrArg (Bank.get · d) ((needUpdate_keeps c).channels _)

/-- Between two publications of a frame event the need set holds the new need of the channels that have published and
the previous need of the others (R78). -/
theorem publishChannel_needs (outcomes : Bank 4 Stage4) (c : Chan) (s : State) :
    (publishChannel outcomes c s).fetch.needs =
      s.fetch.needs.set c (channelNeed (publishChannel outcomes c s) c) := by
  have same : channelNeed (publishChannel outcomes c s) c = channelNeed (makePublication outcomes c s) c :=
    channelNeed_congr ((needUpdate_keeps c).settings _)
      (congrArg Channel.pub (publishChannel_chan outcomes c c s))
      (congrArg Channel.view (publishChannel_chan outcomes c c s))
  rw [same]
  unfold publishChannel
  rw [needUpdate_needs, (makePublication_keeps outcomes c).fetch]

theorem publishChannel_only (outcomes : Bank 4 Stage4) (c : Chan) : OnlyChan c (publishChannel outcomes c) :=
  fun s d h => (publishChannel_chan outcomes c d s).trans (makePublication_only outcomes c s d h)

/-! ### Other channels' authority -/

theorem quietStep_auth_ne (handed : Bank 8 Handed) {c d : Chan} (s : State) (h : d ≠ c) :
    (quietStep handed c s).auth d = s.auth d := by
  unfold quietStep
  split
  · rfl
  · split
    · exact s.auth_modAuth_ne _ h
    · dsimp only
      split
      · exact releaseHolder_ne _ s h
      · exact s.auth_modAuth_ne _ h

theorem takeHolder_auth_ne {c d : Chan} (new : Source) (cause : AuthorityCause) (s : State) (h : d ≠ c) :
    (takeHolder c new cause s).auth d = s.auth d :=
  (congrArg (·.get d) ((raiseRunning_keeps _).authority _)).trans (s.auth_modAuth_ne _ h)

theorem claimStep_auth_ne (handed : Bank 8 Handed) {c d : Chan} (s : State) (h : d ≠ c) :
    (claimStep handed c s).auth d = s.auth d := by
  unfold claimStep
  dsimp only
  split
  · split
    · rfl
    · exact takeHolder_auth_ne _ _ s h
  · split
    · split
      · rfl
      · exact (congrArg (·.get d) ((disarmPresenters_keeps c).authority _)).trans
          (takeHolder_auth_ne _ _ s h)
    · rfl

theorem evaluate_auth_ne (handed : Bank 8 Handed) {c d : Chan} (s : State) (h : d ≠ c) :
    (evaluate handed c s).2.auth d = s.auth d := by
  show (clearConsoleJog c _).auth d = _
  exact (State.auth_modAuth_ne _ _ h).trans
    ((congrArg (·.get d) ((Keeps.forEach (discardJump_keeps handed c _) allPorts).authority _)).trans
      ((claimStep_auth_ne handed _ h).trans (quietStep_auth_ne handed s h)))

/-- The stages of a channel keep what its evaluation leaves of the arbiter's state. -/
theorem liveStages_auth (handed : Bank 8 Handed) (c : Chan) (s : State) :
    (liveStages handed c s).2.authority = (evaluate handed c s).2.authority := by
  rw [liveStages_eq]
  dsimp only
  rw [(stage5_keeps c).authority, (stage4_keeps ..).authority]
  unfold liveSettled
  rw [(boundaryStage_keeps c).authority, (joinSearch_keeps c).authority, (checkAnchor_keeps ..).authority,
    (takeView_keeps c).authority]

theorem liveStages_auth_ne (handed : Bank 8 Handed) {c d : Chan} (s : State) (h : d ≠ c) :
    (liveStages handed c s).2.auth d = s.auth d :=
  (congrArg (·.get d) (liveStages_auth handed c s)).trans (evaluate_auth_ne handed s h)

theorem offFrame_auth (c : Chan) (s : State) : (offFrame c s).authority = (clearConsoleJog c s).authority :=
  (publish_keeps ..).authority _

theorem followFrame_auth (c : Chan) (s : State) :
    (followFrame c s).authority = (clearConsoleJog c s).authority :=
  (publish_keeps ..).authority _

/-- The publication of a LIVE channel keeps the arbiter's state. -/
theorem publishChannel_auth_live (outcomes : Bank 4 Stage4) {c : Chan} {s : State} (h : s.mode c = .live) :
    (publishChannel outcomes c s).authority = s.authority := by
  unfold publishChannel makePublication
  rw [(needUpdate_keeps c).authority, h]
  exact (stage6_keeps c _).authority s

theorem publishChannel_auth_ne (outcomes : Bank 4 Stage4) {c d : Chan} (s : State) (h : d ≠ c) :
    (publishChannel outcomes c s).auth d = s.auth d := by
  refine (congrArg (Bank.get · d) ((needUpdate_keeps c).authority _)).trans ?_
  unfold makePublication
  split
  · exact congrArg (·.get d) ((stage6_keeps c _).authority s)
  · exact (congrArg (·.get d) (offFrame_auth c s)).trans (s.auth_modAuth_ne _ h)
  · exact (congrArg (·.get d) (followFrame_auth c s)).trans (s.auth_modAuth_ne _ h)

/-! ### Publications -/

/-- Stage 6 settles the channel and publishes it. -/
theorem stage6_chan (c : Chan) (r : Stage4) (t : State) : (stage6 c r t).chan c =
    { (t.chan c).settle t.fetch r.starved with
      pub := livePublication (t.modChan c (Channel.settle t.fetch r.starved)) c, placed := false } := by
  unfold stage6
  dsimp only
  unfold State.chan
  rw [publish_channels, Bank.get_set_self, State.chan_modChan_self]
  rfl

theorem offFrame_chan (c : Chan) (s : State) : (offFrame c s).chan c =
    { s.chan c with pub := offPublication s c, placed := false } := by
  unfold offFrame State.chan
  rw [publish_channels, Bank.get_set_self]
  rfl

/-- A channel publishes its mode and the frame number in force. -/
theorem publishChannel_pub (outcomes : Bank 4 Stage4) (c : Chan) (s : State) :
    ((publishChannel outcomes c s).chan c).pub.frame = s.frame ∧
    ((publishChannel outcomes c s).chan c).pub.mode = s.mode c := by
  rw [publishChannel_chan]
  unfold makePublication
  split
  · rename_i h
    rw [stage6_chan, h]
    exact ⟨rfl, rfl⟩
  · rename_i h
    rw [offFrame_chan, h]
    exact ⟨rfl, rfl⟩
  · rename_i h
    rw [h]
    unfold followFrame State.chan
    dsimp only
    rw [publish_channels, Bank.get_set_self]
    exact ⟨rfl, rfl⟩

/-! ### The order of the channels -/

theorem mem_frameOrder (s : State) (c : Chan) : c ∈ frameOrder s := by
  unfold frameOrder
  by_cases h : s.mode c = .follow <;> simp [allChans, h]

theorem frameOrder_nodup (s : State) : (frameOrder s).Nodup := by
  unfold frameOrder
  refine List.Nodup.append ((List.nodup_finRange 4).filter _) ((List.nodup_finRange 4).filter _) ?_
  intro c h h'
  simp at h h'
  exact h.2 h'.2

/-- A channel that is no follower comes before every follower. -/
theorem frameOrder_split (s : State) : ∃ xs ys, frameOrder s = xs ++ ys ∧
    (∀ c, c ∈ xs ↔ s.mode c ≠ .follow) ∧ (∀ c, c ∈ ys ↔ s.mode c = .follow) :=
  ⟨_, _, rfl, fun c => by simp [allChans], fun c => by simp [allChans]⟩

/-- What one step of a list sets for a thing, and no other step changes, holds at the end; it is reached from a state in
which the steps before it have been made. -/
theorem forEach_at {α β : Type} {f : α → State → State} (π : State → β) {x : α} {xs : List α} (mem : x ∈ xs)
    (nodup : xs.Nodup) (other : ∀ y, y ≠ x → ∀ s, π (f y s) = π s) (s : State) :
    ∃ ys zs, xs = ys ++ x :: zs ∧ x ∉ ys ∧ x ∉ zs ∧ π (forEach xs f s) = π (f x (forEach ys f s)) := by
  obtain ⟨ys, zs, rfl⟩ := List.append_of_mem mem
  have hn : x ∉ ys ∧ x ∉ zs := by
    rw [List.nodup_append] at nodup
    refine ⟨fun h => nodup.2.2 x h x (List.mem_cons_self ..) rfl, ?_⟩
    exact (List.nodup_cons.1 nodup.2.1).1
  refine ⟨ys, zs, rfl, hn.1, hn.2, ?_⟩
  rw [forEach_append, forEach_cons]
  exact forEach_same zs (fun y hy => other y fun e => hn.2 (e ▸ hy)) _

/-! ### The heads -/

/-- What a head composes depends on the settings, the publications and views, the engine state, the glyph store, the
cache and the head itself alone. -/
theorem composedRaster_congr {s t : State} {h : HeadId} (se : t.settings = s.settings)
    (pub : ∀ c, (t.chan c).pub = (s.chan c).pub) (view : ∀ c, (t.chan c).view = (s.chan c).view)
    (en : t.area.engine = s.area.engine) (g : t.glyphs = s.glyphs) (f : t.fetch = s.fetch)
    (hd : t.head h = s.head h) : composedRaster t h = composedRaster s h := by
  have st : headState t h = headState s h := by
    unfold headState State.headSet State.halted State.running State.engine
    simp only [se, pub, en, hd]
  unfold composedRaster
  rw [st]
  have sw : ∀ hs, scriptWindow t hs = scriptWindow s hs := by
    intro hs
    have wr : ∀ a, windowRow t hs a = windowRow s hs a := by
      intro a; funext y; unfold windowRow; simp only [g, pub, view, f]
    unfold scriptWindow; simp only [wr, pub, view, g]
  unfold State.headSet
  simp only [se, g, hd, sw]

/-- Each head composes from the state in which the heads begin. -/
theorem composeHeads_head (s : State) (h : HeadId) :
    (composeHeads s).head h = (s.head h).compose (composedRaster s h) := by
  have ne : ∀ y, y ≠ h → ∀ t, (composeHead y t).head h = t.head h := by
    intro y hy t; unfold composeHead State.head State.modHead
    exact Bank.get_set_ne _ _ (Ne.symm hy)
  obtain ⟨ys, zs, -, h1, -, h3⟩ := forEach_at (f := composeHead) (fun t => t.head h) (x := h) (xs := allHeads)
    (by simp [allHeads]) (List.nodup_finRange _) ne s
  have hh : (forEach ys composeHead s).head h = s.head h :=
    forEach_same (π := fun t => State.head t h) ys (fun y hy t => ne y (fun e => h1 (e ▸ hy)) t) s
  have k : Keeps { heads := true } (forEach ys composeHead) := Keeps.forEach (f := composeHead) (fun _ => ⟨fun _ => rfl⟩) ys
  have cc : composedRaster (forEach ys composeHead s) h = composedRaster s h :=
    composedRaster_congr (k.settings s) (fun c => by unfold State.chan; rw [k.channels])
      (fun c => by unfold State.chan; rw [k.channels]) (by rw [k.area]) (k.glyphs s) (k.fetch s) hh
  have one : ∀ u : State, (composeHead h u).head h = (u.head h).compose (composedRaster u h) := fun u =>
    Bank.get_set_self ..
  rw [show composeHeads s = forEach allHeads composeHead s from rfl, h3, one, cc, hh]

/-! ### The parts of a live channel's frame event -/

/-- Stage 3 changes nothing of the channel but its BOUNDARY hold. -/
theorem boundaryStage_chan (c : Chan) (s : State) :
    ∃ b, (boundaryStage c s).chan c = { s.chan c with boundary := b } := by
  unfold boundaryStage
  dsimp only
  split
  · exact ⟨_, rfl⟩
  · split
    · exact ⟨_, rfl⟩
    · split
      · split
        · exact ⟨_, State.chan_modChan_self ..⟩
        · exact ⟨_, rfl⟩
      · split
        · exact ⟨_, State.chan_modChan_self ..⟩
        · exact ⟨_, (raise_chan ..).trans (State.chan_modChan_self ..)⟩

/-- Stage 5 changes nothing of the channel but its EXCHANGE hold and, when that is set, its speed, which becomes 0. -/
theorem stage5_chan (c : Chan) (s : State) : ∃ x v, (stage5 c s).chan c =
    { s.chan c with exchange := x, speed := v } ∧ (v = (s.chan c).speed ∨ v = 0) := by
  have hj := (joinSearch_chan c c s).1
  unfold stage5
  dsimp only
  split
  · rw [State.chan_modChan_self, hj]
    exact ⟨_, 0, rfl, .inr rfl⟩
  · rw [hj]
    exact ⟨_, _, rfl, .inl rfl⟩

/-- Stage 4 records the demand handed to the channel. -/
theorem stage4_demand (c : Chan) (h : Handing) (s : State) : ((stage4 c h s).2.chan c).demand = h.demand := by
  unfold stage4
  dsimp only
  split
  · unfold storyJump refuseJump
    simp only [State.chan_modChan_self]
    split
    · rw [raise_chan]; simp [Channel.boundSpeed]
    · split
      · rw [raise_chan]; simp [Channel.boundSpeed]
      · split
        · simp [Channel.placeAt, Channel.moveTo]
        · rw [raise_chan]; simp [Channel.boundSpeed]
  · unfold advanceStage
    dsimp only
    split
    · simp
    · obtain ⟨n, e⟩ := advanceReports_chan c ((s.modChan c fun ch => { ch with demand := h.demand }).chan c)
        _ h.demand _ _
      unfold State.chan at e ⊢
      rw [e, Bank.get_set_self]
      simp [State.modChan, Channel.advanceTo, Channel.moveTo]

/-- The stages of a channel record the demand it was handed. -/
theorem liveStages_demand (handed : Bank 8 Handed) (c : Chan) (s : State) :
    ((liveStages handed c s).2.chan c).demand = (evaluate handed c s).1.demand := by
  rw [liveStages_eq]
  obtain ⟨x, v, e, -⟩ := stage5_chan c (stage4 c (evaluate handed c s).1 (liveSettled handed c s)).2
  rw [e]
  exact stage4_demand ..

/-- The evaluation of a channel ends with the arbiter's state of its step 3, and the console jog 0. -/
theorem evaluate_auth (handed : Bank 8 Handed) (c : Chan) (s : State) : (evaluate handed c s).2.auth c =
    { (claimStep handed c (quietStep handed c s)).auth c with consoleJog := 0 } := by
  show (clearConsoleJog c (forEach allPorts _ _)).auth c = _
  unfold clearConsoleJog
  rw [State.auth_modAuth_self]
  unfold State.auth
  rw [(Keeps.forEach (discardJump_keeps handed c _) allPorts).authority]

theorem evaluate_demand (handed : Bank 8 Handed) (c : Chan) (s : State) : (evaluate handed c s).1.demand =
    (holderItems (claimStep handed c (quietStep handed c s)) handed c).1 := rfl

/-- The searched story does not change while the channels advance. -/
theorem joinSearch_slot (c : Chan) (s : State) :
    (joinSearch c s).exchange.searcher.map (·.slot) = s.exchange.searcher.map (·.slot) := by
  unfold joinSearch
  split
  · rfl
  · dsimp only
    split
    · simp_all
    · rfl

theorem liveStages_slot (handed : Bank 8 Handed) (c : Chan) (s : State) :
    (liveStages handed c s).2.exchange.searcher.map (·.slot) = s.exchange.searcher.map (·.slot) := by
  have five : ∀ t, (stage5 c t).exchange.searcher.map (·.slot) = t.exchange.searcher.map (·.slot) := by
    intro t
    unfold stage5
    dsimp only
    split <;> exact joinSearch_slot c t
  rw [liveStages_eq, five, (stage4_keeps ..).exchange]
  unfold liveSettled
  rw [(boundaryStage_keeps c).exchange, joinSearch_slot, (checkAnchor_keeps ..).exchange,
    (takeView_keeps c).exchange, (evaluate_keeps handed c).exchange]

/-- The view of a LIVE channel depends on the shadows, the searched story and the channel's EXCHANGE hold alone. -/
theorem scriptView_congr {s t : State} {c : Chan} (settings : t.settings = s.settings)
    (rundown : t.rundown = s.rundown) (stories : t.stories = s.stories)
    (searched : t.exchange.searcher.map (·.slot) = s.exchange.searcher.map (·.slot)) (live : s.mode c = .live)
    (hold : (t.chan c).exchange = (s.chan c).exchange) : scriptView t c = scriptView s c := by
  have any : ∀ k, (t.exchange.searcher).any (·.slot == k) = (s.exchange.searcher).any (·.slot == k) := by
    intro k
    cases ht : t.exchange.searcher <;> cases hs : s.exchange.searcher <;> simp_all
  have own : inOwnView t c = inOwnView s c := by
    funext k
    unfold inOwnView keptInView State.story
    rw [stories, any, hold]
  unfold scriptView
  rw [mode_congr settings, live]
  simp only [ownView, State.story, rundown, stories]
  rw [own]

/-! ### A free-running frame event in RUNNING, part by part -/

/-- The state in which the channels' part of a free-running frame event begins. -/
def frameStart (s : State) : State := announceLock (countFrame (s.modTimebase (Timebase.nextFree s.rate)))

/-- The state in which the first channel's work begins: the ports have handed on, and the arm flags are set. -/
def armedStart (s : State) : State := armPorts (handAll s).1 (handAll (frameStart s)).2

/-- What stands before a channel's stages: those of the LIVE channels `ys` before it. -/
def beforeStages (ys : List Chan) (s : State) : State :=
  forEach ys (fun c t => (liveStages (handAll s).1 c t).2) (armedStart s)

/-- What stands when every LIVE channel has advanced, with the outcomes of their stages 4. -/
def advancedStart (s : State) : Bank 4 Stage4 × State := advanceChannels (handAll s).1 (liveChans s) (armedStart s)

/-- What stands before a channel's publication: the publications of the channels `ys` before it. -/
def beforePublication (ys : List Chan) (s : State) : State :=
  forEach ys (publishChannel (advancedStart s).1) (advancedStart s).2

theorem frameStart_keeps : Keeps { timebase := true, reports := true } frameStart :=
  ⟨fun _ => Eq.trans (announceLock_keeps.on _) (Eq.trans (countFrame_keeps.on _) rfl)⟩

theorem armedStart_keeps :
    Keeps { ports := true, armed := true, timebase := true, reports := true } armedStart :=
  ⟨fun s => Eq.trans ((armPorts_keeps _).on _) (Eq.trans (handAll_keeps.on (frameStart s)) (frameStart_keeps.on s))⟩

theorem handAll_frameStart (s : State) : (handAll (frameStart s)).1 = (handAll s).1 := by
  have : handOn (frameStart s) = handOn s := by
    funext p
    unfold handOn State.portSet State.port
    rw [frameStart_keeps.settings, frameStart_keeps.ports]
  unfold handAll
  simp only [this]

theorem beforeStages_keeps (ys : List Chan) :
    Keeps { Foot.stages with ports := true, timebase := true } (beforeStages ys) :=
  ⟨fun s => Eq.trans ((Keeps.forEach (liveStages_keeps _) ys).on _) (armedStart_keeps.on s)⟩

/-- No update of the Fetch Unit has been made when the last LIVE channel advances: each advances on the Line Cache as it
stood at the frame event (R42). -/
theorem beforeStages_fetch (ys : List Chan) (s : State) : (beforeStages ys s).fetch = s.fetch :=
  (beforeStages_keeps ys).fetch s

/-- A channel that has not yet worked stands as it stood before the frame event. -/
theorem beforeStages_chan {ys : List Chan} {c : Chan} (h : c ∉ ys) (s : State) :
    (beforeStages ys s).chan c = s.chan c :=
  (forEach_same (π := fun t => State.chan t c) ys
    (fun _ hy t => liveStages_only _ _ t c fun e => h (e ▸ hy)) _).trans
    (congrArg (Bank.get · c) (armedStart_keeps.channels s))

theorem beforeStages_auth {ys : List Chan} {c : Chan} (h : c ∉ ys) (s : State) :
    (beforeStages ys s).auth c = s.auth c :=
  (forEach_same (π := fun t => State.auth t c) ys
    (fun _ hy t => liveStages_auth_ne _ t fun e => h (e ▸ hy)) _).trans
    (congrArg (Bank.get · c) (armedStart_keeps.authority s))

theorem beforeStages_slot (ys : List Chan) (s : State) :
    (beforeStages ys s).exchange.searcher.map (·.slot) = s.exchange.searcher.map (·.slot) :=
  (forEach_same (π := fun t => t.exchange.searcher.map (·.slot)) ys (fun _ _ t => liveStages_slot _ _ t) _).trans
    (congrArg (·.searcher.map (·.slot)) (armedStart_keeps.exchange s))

theorem advancedStart_state (s : State) : (advancedStart s).2 = beforeStages (liveChans s) s :=
  advanceChannels_state ..

theorem mem_liveChans {s : State} {c : Chan} : c ∈ liveChans s ↔ s.mode c = .live := by
  simp [liveChans, allChans, State.isLive]

theorem liveChans_nodup (s : State) : (liveChans s).Nodup := (List.nodup_finRange 4).filter _

/-- The outcome kept for a channel is that of its own stages. -/
theorem advanceChannels_outcome (handed : Bank 8 Handed) {c : Chan} (ys zs : List Chan) (h : c ∉ ys) (s : State) :
    (advanceChannels handed (ys ++ c :: zs) s).1.get c =
      (liveStages handed c (forEach ys (fun d t => (liveStages handed d t).2) s)).1 := by
  induction ys generalizing s with
  | nil => exact Bank.get_set_self ..
  | cons y ys ih =>
    have hy : c ≠ y := fun e => h (e ▸ List.mem_cons_self ..)
    refine Eq.trans ?_ (ih (fun m => h (List.mem_cons_of_mem _ m)) (liveStages handed y s).2)
    exact Bank.get_set_ne _ _ hy

/-- A LIVE channel makes its stages once, after those of the LIVE channels before it, and what they make of the channel
and of its authority stands when all have advanced. -/
theorem advancedStart_at {s : State} {c : Chan} (live : s.mode c = .live) : ∃ ys zs,
    liveChans s = ys ++ c :: zs ∧ c ∉ ys ∧ c ∉ zs ∧
    (advancedStart s).1.get c = (liveStages (handAll s).1 c (beforeStages ys s)).1 ∧
    (advancedStart s).2.chan c = (liveStages (handAll s).1 c (beforeStages ys s)).2.chan c ∧
    (advancedStart s).2.auth c = (liveStages (handAll s).1 c (beforeStages ys s)).2.auth c := by
  obtain ⟨ys, zs, e, h1, h2, h3⟩ := forEach_at (f := fun c t => (liveStages (handAll s).1 c t).2)
    (fun t => t.chan c) (mem_liveChans.2 live) (liveChans_nodup s)
    (fun y hy t => liveStages_only _ y t c (Ne.symm hy)) (armedStart s)
  refine ⟨ys, zs, e, h1, h2, ?_, ?_, ?_⟩
  · unfold advancedStart
    rw [e]
    exact advanceChannels_outcome _ ys zs h1 _
  · rw [advancedStart_state]
    exact h3
  · rw [advancedStart_state]
    unfold beforeStages
    rw [e, forEach_append, forEach_cons]
    exact forEach_same (π := fun t => State.auth t c) zs
      (fun y hy t => liveStages_auth_ne _ t fun h => h2 (h ▸ hy)) _

/-- A channel that makes no stages stands as it stood when the publications begin. -/
theorem advancedStart_chan {s : State} {c : Chan} (h : s.mode c ≠ .live) : (advancedStart s).2.chan c = s.chan c := by
  rw [advancedStart_state]
  exact beforeStages_chan (fun m => h (mem_liveChans.1 m)) s

theorem advancedStart_auth {s : State} {c : Chan} (h : s.mode c ≠ .live) : (advancedStart s).2.auth c = s.auth c := by
  rw [advancedStart_state]
  exact beforeStages_auth (fun m => h (mem_liveChans.1 m)) s

theorem advancedStart_keeps :
    Keeps { Foot.stages with ports := true, timebase := true } fun s => (advancedStart s).2 :=
  ⟨fun s => by rw [advancedStart_state]; exact (beforeStages_keeps _).on s⟩

theorem beforePublication_keeps (ys : List Chan) :
    Keeps { Foot.publicationFetch with exchange := true, armed := true, ports := true, timebase := true }
      (beforePublication ys) :=
  ⟨fun s => Eq.trans ((Keeps.forEach (publishChannel_keeps _) ys).on _) (advancedStart_keeps.on s)⟩

/-- A channel that has not yet published stands as the advances left it. -/
theorem beforePublication_chan {ys : List Chan} {c : Chan} (h : c ∉ ys) (s : State) :
    (beforePublication ys s).chan c = (advancedStart s).2.chan c :=
  forEach_same (π := fun t => State.chan t c) ys
    (fun _ hy t => publishChannel_only _ _ t c fun e => h (e ▸ hy)) _

theorem beforePublication_auth {ys : List Chan} {c : Chan} (h : c ∉ ys) (s : State) :
    (beforePublication ys s).auth c = (advancedStart s).2.auth c :=
  forEach_same (π := fun t => State.auth t c) ys
    (fun _ hy t => publishChannel_auth_ne _ t fun e => h (e ▸ hy)) _

theorem countFrame_frame (s : State) (h : s.engine = .running) : (countFrame s).frame = s.frame + 1 := by
  unfold State.frame countFrame State.modTimebase
  simp [State.running, h]
  rfl

theorem announceLock_frame (s : State) : (announceLock s).frame = s.frame := by
  unfold State.frame announceLock
  split
  · rw [(raise_keeps _).timebase]; rfl
  · rfl

theorem nextFree_frame (r : FrameRate) (t : Timebase) : (t.nextFree r).frameCounter = t.frameCounter := by
  unfold Timebase.nextFree
  split <;> rfl

/-- The frame event counts before its blocks work. -/
theorem frameStart_frame (s : State) (h : s.engine = .running) : (frameStart s).frame = s.frame + 1 := by
  unfold frameStart
  rw [announceLock_frame, countFrame_frame (s.modTimebase (Timebase.nextFree s.rate)) h]
  show (Timebase.nextFree _ _).frameCounter + 1 = _
  rw [nextFree_frame]
  rfl

/-- A free-running frame event in RUNNING. -/
theorem freeFrame_running (s : State) (free : s.timebase.lock = .free) (run : s.engine = .running) :
    freeFrame s = scanFrame (exchangeFrame (composeHeads (channelsFrame (frameStart s)))) := by
  have : (countFrame (s.modTimebase (Timebase.nextFree s.rate))).running = true := by
    simp only [State.running, State.engine, countFrame_keeps.area, State.modTimebase_area, beq_iff_eq]
    exact run
  unfold freeFrame frameBody
  rw [if_pos free, if_pos this]
  rfl

/-- The channels' part of it. -/
theorem channelsFrame_start (s : State) : channelsFrame (frameStart s) =
    forEach allPorts (writePortStatus (handAll s).1) (beforePublication (frameOrder s) s) := by
  have h : advanced (frameStart s) = advancedStart s := by
    unfold advanced advancedStart
    rw [handAll_frameStart, liveChans_congr (frameStart_keeps.settings s)]
    rfl
  rw [channelsFrame_eq, frameOrder_congr (frameStart_keeps.settings s), handAll_frameStart, h]
  rfl

/-- After the channels' part of a frame event, nothing changes of a channel but its EXCHANGE hold. -/
theorem freeFrame_chan (s : State) (free : s.timebase.lock = .free) (run : s.engine = .running) (c : Chan) :
    ∃ x, (freeFrame s).chan c = { (beforePublication (frameOrder s) s).chan c with exchange := x } := by
  rw [freeFrame_running s free run]
  refine ⟨((exchangeFrame (composeHeads (channelsFrame (frameStart s)))).chan c).exchange, ?_⟩
  refine (congrArg (Bank.get · c) (scanFrame_keeps.channels _)).trans ((exchangeFrame_chan c _).trans ?_)
  have : (composeHeads (channelsFrame (frameStart s))).chan c = (beforePublication (frameOrder s) s).chan c := by
    refine congrArg (Bank.get · c) ((composeHeads_keeps.channels _).trans ?_)
    rw [channelsFrame_start, (Keeps.forEach (writePortStatus_keeps _) allPorts).channels]
  rw [this]

theorem freeFrame_authority (s : State) (free : s.timebase.lock = .free) (run : s.engine = .running) :
    (freeFrame s).authority = (beforePublication (frameOrder s) s).authority := by
  rw [freeFrame_running s free run, scanFrame_keeps.authority, exchangeFrame_keeps.authority,
    composeHeads_keeps.authority, channelsFrame_start,
    (Keeps.forEach (writePortStatus_keeps _) allPorts).authority]

/-- Each channel publishes once, after the channels before it, and what that makes of the channel and of its authority
stands when all have published. -/
theorem beforePublication_at (s : State) (c : Chan) : ∃ ys zs, frameOrder s = ys ++ c :: zs ∧ c ∉ ys ∧ c ∉ zs ∧
    (beforePublication (frameOrder s) s).chan c =
      (makePublication (advancedStart s).1 c (beforePublication ys s)).chan c ∧
    (beforePublication (frameOrder s) s).auth c =
      (publishChannel (advancedStart s).1 c (beforePublication ys s)).auth c := by
  obtain ⟨ys, zs, e, h1, h2, h3⟩ := forEach_at (f := publishChannel (advancedStart s).1) (fun t => t.chan c)
    (mem_frameOrder s c) (frameOrder_nodup s) (fun y hy t => publishChannel_only _ y t c (Ne.symm hy))
    (advancedStart s).2
  refine ⟨ys, zs, e, h1, h2, h3.trans (publishChannel_chan ..), ?_⟩
  unfold beforePublication
  rw [e, forEach_append, forEach_cons]
  exact forEach_same (π := fun t => State.auth t c) zs
    (fun y hy t => publishChannel_auth_ne _ t fun h => h2 (h ▸ hy)) _

/-- A LIVE channel at a frame event, from its own stages and its own publication. `u` is the state in which its stages
begin, and `w` that in which it publishes. -/
theorem live_at {s : State} {c : Chan} (live : s.mode c = .live) : ∃ ys xs zs,
    liveChans s = ys ++ c :: xs ∧ c ∉ ys ∧ c ∉ xs ∧ c ∉ zs ∧
    let u := beforeStages ys s
    let w := beforePublication zs s
    (beforePublication (frameOrder s) s).chan c = (stage6 c (liveStages (handAll s).1 c u).1 w).chan c ∧
    w.chan c = (liveStages (handAll s).1 c u).2.chan c ∧
    w.auth c = (liveStages (handAll s).1 c u).2.auth c ∧
    (beforePublication (frameOrder s) s).auth c = w.auth c ∧
    (advancedStart s).1.get c = (liveStages (handAll s).1 c u).1 := by
  obtain ⟨ys, xs, e, h1, hx, e1, e2, e3⟩ := advancedStart_at live
  obtain ⟨zs, -, -, h2, -, e4, e5⟩ := beforePublication_at s c
  have lw : (beforePublication zs s).mode c = .live :=
    (mode_congr ((beforePublication_keeps zs).settings s) c).trans live
  refine ⟨ys, xs, zs, e, h1, hx, h2, ?_, (beforePublication_chan h2 s).trans e2, (beforePublication_auth h2 s).trans e3, ?_, e1⟩
  · rw [e4, ← e1]
    unfold makePublication
    rw [lw]
  · exact e5.trans (congrArg (Bank.get · c) (publishChannel_auth_live _ lw))

/-- A LIVE channel publishes the position, the speed, the demand and the view that its stages leave. -/
theorem live_position {s : State} {c : Chan} (live : s.mode c = .live) :
    let x := (advancedStart s).2.chan c
    let y := (beforePublication (frameOrder s) s).chan c
    y.anchor = x.anchor ∧ y.view = x.view ∧ y.pub.anchor = x.anchor ∧ y.pub.fraction = x.fraction ∧
      y.pub.speed = x.speed ∧ y.pub.demand = x.demand ∧ y.pub.holds = x.holds ∧ y.pub.view = x.view := by
  obtain ⟨zs, -, -, h, -, e, -⟩ := beforePublication_at s c
  have lw : (beforePublication zs s).mode c = .live :=
    (mode_congr ((beforePublication_keeps zs).settings s) c).trans live
  have f : (makePublication (advancedStart s).1 c (beforePublication zs s)).chan c =
      (stage6 c ((advancedStart s).1.get c) (beforePublication zs s)).chan c := by
    unfold makePublication
    rw [lw]
  dsimp only
  rw [e, f, stage6_chan, ← beforePublication_chan h s]
  simp only [livePublication, State.chan_modChan_self]
  exact ⟨rfl, rfl, rfl, rfl, rfl, rfl, rfl, rfl⟩

/-- The stages of the only LIVE channel. -/
theorem advancedStart_alone {s : State} {c : Chan} (h : liveChans s = [c]) :
    (advancedStart s).2 = (liveStages (handAll s).1 c (armedStart s)).2 := by
  rw [advancedStart_state, h]
  unfold beforeStages
  rw [forEach_cons, forEach_nil]

/-- A channel that is not LIVE stands at its publication as it stood before the frame event. -/
theorem still_at {s : State} {c : Chan} (h : s.mode c ≠ .live) : ∃ ys zs, frameOrder s = ys ++ c :: zs ∧ c ∉ ys ∧
    (beforePublication (frameOrder s) s).chan c =
      (makePublication (advancedStart s).1 c (beforePublication ys s)).chan c ∧
    (beforePublication ys s).chan c = s.chan c := by
  obtain ⟨ys, zs, e, h1, -, e1, -⟩ := beforePublication_at s c
  exact ⟨ys, zs, e, h1, e1, (beforePublication_chan h1 s).trans (advancedStart_chan h)⟩

/-- A follower's leader works before it. -/
theorem leader_before {s : State} {c l : Chan} {ys zs : List Chan} (h : frameOrder s = ys ++ c :: zs)
    (follower : s.mode c = .follow) (leader : s.mode l ≠ .follow) : l ∈ ys := by
  obtain ⟨xs, ws, e, m1, m2⟩ := frameOrder_split s
  rw [h] at e
  rcases List.append_eq_append_iff.1 e with ⟨as, h1, h2⟩ | ⟨bs, h1, h2⟩
  · cases as with
    | nil => simp at h1; rw [← h1]; exact (m1 l).2 leader
    | cons a as =>
      simp at h2
      have : c ∈ xs := by rw [h1, h2.1]; simp
      exact absurd follower ((m1 c).1 this)
  · rw [h1]
    exact List.mem_append_left _ ((m1 l).2 leader)

end Sys2Proof.Machine
end

