-- ==== Sys2Proof/Laws/Heads.lean ====
section
/-! SUPPORT. What a head draws, one lemma for each part of a raster, in the terms of Safety.lean (R134 to R136). -/

namespace Sys2Proof.Machine

set_option Elab.async false

/-- The element at a place of `n` lists of `w` elements each, one behind the other. -/
theorem flatMap_get {α : Type} (w n : Nat) (f : Nat → List α) (len : ∀ k, (f k).length = w) (x : Nat)
    (h : x < n * w) :
    ((List.range n).flatMap f)[x]? = (f (x / w))[x % w]? := by
  have wp : 0 < w := by
    rcases Nat.eq_zero_or_pos w with rfl | h'
    · simp at h
    · exact h'
  have flen : ∀ n, ((List.range n).flatMap f).length = n * w := by
    intro n
    induction n with
    | zero => simp
    | succ n ih =>
      rw [List.range_succ, List.flatMap_append, List.length_append, ih]
      simp [len, Nat.succ_mul]
  induction n with
  | zero => simp at h
  | succ n ih =>
    rw [List.range_succ, List.flatMap_append]
    by_cases lt : x < n * w
    · rw [List.getElem?_append_left (by rw [flen]; exact lt)]
      exact ih lt
    · rw [List.getElem?_append_right (by rw [flen]; omega), flen]
      have hq : x / w = n := by
        apply Nat.div_eq_of_lt_le
        · omega
        · exact h
      have hr : x % w = x - n * w := by
        have := Nat.div_add_mod x w
        rw [hq] at this
        rw [Nat.mul_comm] at this
        omega
      simp [hq, hr]

theorem cellPixels_shown (g : GlyphStore) (pair : ColourPair) (columns length : Nat) (text : List Byte) (y : Nat) :
    let pixels := ((List.range (min length columns)).flatMap fun k => cellPixels g pair (text.getD k 0) y)
      ++ List.replicate ((columns - min length columns) * g.width) pair.background
    pixels.length = columns * g.width ∧ ∀ x, x < columns * g.width →
      let image := g.images.get (text.getD (x / g.width) 0).toFin
      let bit := (byteAt image (y * ((g.width + 7) / 8) + x % g.width / 8)).getLsbD (7 - x % g.width % 8)
      pixels[x]? = some (if x / g.width < min length columns ∧ bit = true then pair.foreground
        else pair.background) := by
  dsimp only
  have len : ∀ k, (cellPixels g pair (text.getD k 0) y).length = g.width := by
    intro k; simp [cellPixels]
  have le : min length columns ≤ columns := Nat.min_le_right ..
  have flen : ((List.range (min length columns)).flatMap fun k =>
      cellPixels g pair (text.getD k 0) y).length = min length columns * g.width := by
    induction min length columns with
    | zero => simp
    | succ n ih =>
      rw [List.range_succ, List.flatMap_append, List.length_append, ih]
      rw [List.flatMap_singleton, len, Nat.succ_mul]
  generalize min length columns = n at *
  refine ⟨?_, fun x hx => ?_⟩
  · rw [List.length_append, flen, List.length_replicate, ← Nat.add_mul]
    congr 1; omega
  · by_cases lt : x < n * g.width
    · rw [List.getElem?_append_left (by rw [flen]; exact lt), flatMap_get _ _ _ len _ lt]
      have wp : 0 < g.width := by
        rcases Nat.eq_zero_or_pos g.width with h | h'
        · rw [h] at lt; simp at lt
        · exact h'
      have hq : x / g.width < n := Nat.div_lt_of_lt_mul (by rw [Nat.mul_comm]; exact lt)
      have hm : x % g.width < g.width := Nat.mod_lt _ wp
      unfold cellPixels
      rw [List.getElem?_map, List.getElem?_range hm]
      simp only [Option.map_some, hq, true_and]
      unfold glyphBit
      rfl
    · have hq : ¬ x / g.width < n := by
        intro h
        have wp : 0 < g.width := by
          rcases Nat.eq_zero_or_pos g.width with h | h'
          · rw [h] at hx; simp at hx
          · exact h'
        exact lt (by rwa [Nat.div_lt_iff_lt_mul wp] at h)
      rw [List.getElem?_append_right (by rw [flen]; omega), flen, List.getElem?_replicate, if_pos,
        if_neg (fun h => hq h.1)]
      rw [Nat.sub_mul]; omega

theorem textPixels_shown (g : GlyphStore) (hs : HeadSettings) (r : LineRecord) (y : Nat) :
    textShown g hs r y (textPixels g hs r y) := by
  unfold textShown textPixels HeadSettings.pair
  cases r.style <;> exact cellPixels_shown ..

theorem lineAtRow_lt {v : List ViewEntry} {r : Nat} {x : ViewEntry × Nat} (h : lineAtRow v r = some x) :
    r < viewSize v := by
  induction v generalizing r with
  | nil => cases h
  | cons e rest ih =>
    unfold lineAtRow at h
    unfold viewSize
    simp only [List.map_cons, List.sum_cons]
    split at h
    · omega
    · have := ih h
      unfold viewSize at this
      omega

theorem contentPixels_shown (g : GlyphStore) (hs : HeadSettings) (v : List ViewEntry) (f : Fetch) (row : Int)
    (y : Nat) : contentShown g hs v f row y (contentPixels g hs y (rowContent v f row)) := by
  unfold contentShown
  dsimp only
  refine ⟨fun h => ?_, fun e line pos hl => ?_⟩
  · have : rowContent v f row = .blank := by
      unfold rowContent
      split
      · rfl
      · rename_i h0
        have : lineAtRow v row.toNat = none := by
          cases hl : lineAtRow v row.toNat with
          | none => rfl
          | some x =>
            exfalso
            have : row.toNat < viewSize v := by
              clear h
              exact lineAtRow_lt hl
            omega
        rw [this]
    rw [this]; rfl
  · have cont : rowContent v f row = if !e.ready then .held else
        match f.lookup e.slot line with
        | none => .pending
        | some entry =>
          match entry.state with
          | .filling => .pending
          | .failed _ => .error
          | .resident r => if entry.malformed then .error else .text r := by
      unfold rowContent
      rw [if_neg (by omega), hl] <;> rfl
    rw [cont]
    refine ⟨fun h => by rw [if_pos (by simp [h])]; rfl, fun h h2 => by rw [if_neg (by simp [h]), h2]; rfl,
      fun x h h2 => ⟨fun h3 => ?_, fun n h3 => ?_, fun r h3 => ⟨fun h4 => ?_, fun h4 => ?_⟩⟩⟩
    all_goals rw [if_neg (by simp [h]), h2]; dsimp only; rw [h3]; dsimp only
    · rfl
    · rfl
    · rw [if_pos h4]; rfl
    · rw [if_neg (by simp [h4])]; exact textPixels_shown ..

theorem markerDrawn_shown (g : GlyphStore) (hs : HeadSettings) (holds : HoldSet) (x y : Nat)
    (hx : x < g.width) (hy : y < g.height) :
    markerShown hs.marker g.width g.height holds x y (markerDrawn (markerForm holds)
      (if hs.marker = .bar then barPlace g.width g.height x y else arrowPlace g.width g.height x y)
      g.width g.height x y) := by
  unfold markerShown
  dsimp only
  generalize g.width = w at *
  generalize g.height = h at *
  have form : markerForm holds = if holds.freeze = true ∨ holds.exchange = true then .barred
      else if holds.cue = true ∨ holds.boundary = true then .outlined else .solid := by
    unfold markerForm
    simp only [Bool.or_eq_true]
  have band1 : (h ≤ 3 * y ∧ 3 * (y + 1) ≤ 2 * h) → inBand h y = true := by
    intro k; unfold inBand; simp [k]
  have band2 : (3 * (y + 1) ≤ h ∨ 2 * h ≤ 3 * y) → inBand h y = false := by
    intro k; unfold inBand
    rw [if_neg (by simp; omega), if_pos (by simpa using k)]
  have deep : ∀ z : Nat, 0 < (2 * w * z - h * (x + 1) : Int) ∧
      (4 * (4 * w * w + h * h) : Int) < (2 * w * z - h * (x + 1)) * (2 * w * z - h * (x + 1)) →
      deepBelowEdge w h x z = true := by
    rintro z ⟨h1, h2⟩
    unfold deepBelowEdge
    dsimp only
    generalize (2 * (w : Int) * z - h * (x + 1)) = d at *
    rw [Bool.and_eq_true, decide_eq_true_eq, decide_eq_true_eq]
    refine ⟨h1, ?_⟩
    obtain ⟨n, rfl⟩ := Int.eq_ofNat_of_zero_le (Int.le_of_lt h1)
    rw [Int.toNat_natCast]
    exact_mod_cast h2
  refine ⟨fun mb => ?_, fun ma => ?_⟩
  · rw [if_pos mb, form]
    have place : barPlace w h x y =
        if (x < 2 ∨ w ≤ x + 2 ∨ y < 2 ∨ h ≤ y + 2) then .outline else .interior := by
      unfold barPlace
      simp only [Bool.or_eq_true, decide_eq_true_eq, or_assoc]
    rw [place]
    by_cases e : x < 2 ∨ w ≤ x + 2 ∨ y < 2 ∨ h ≤ y + 2
    · rw [if_pos e]
      exact ⟨fun _ => rfl, fun k => absurd e k, fun k => absurd e k⟩
    · rw [if_neg e]
      refine ⟨fun k => ?_, fun _ k => ?_, fun _ k => ?_⟩
      · obtain ⟨k1, k2⟩ := k.resolve_right e
        rw [if_neg k1, if_neg (fun l => k2 ⟨k1, l⟩)]
        rfl
      · rw [if_neg k.1, if_pos k.2]; rfl
      · rw [if_pos k]; exact ⟨band1, band2⟩
  · rw [if_neg (by rw [ma]; decide), form]
    have out : (2 * w * (y + 1) ≤ x * h ∨ 2 * w * (h - 1 - y + 1) ≤ x * h) ↔
        (2 * w * (y + 1) ≤ x * h ∨ 2 * w * (h - y) ≤ x * h) := by
      rw [show h - 1 - y + 1 = h - y by omega]
    unfold arrowPlace
    simp only [Bool.or_eq_true, decide_eq_true_eq, out]
    refine ⟨fun k => ?_, fun k k' => ?_, fun k k1 k2 => ?_, fun k k1 k2 => ?_, fun k k1 k2 k3 => ?_⟩
    · rw [if_pos k]; rfl
    all_goals
      have no : ¬ (2 * w * (y + 1) ≤ x * h ∨ 2 * w * (h - y) ≤ x * h) := by
        rintro (l | l)
        · have : 2 * w * y + 2 * w ≤ x * h := by rw [Nat.mul_add, Nat.mul_one] at l; exact l
          have := k.1
          rw [Nat.add_mul] at this
          omega
        · have := k.2
          rw [show h - y = h - 1 - y + 1 by omega, Nat.mul_add, Nat.mul_one] at l
          rw [Nat.add_mul] at this
          omega
      rw [if_neg no]
      simp only [k.1, k.2, decide_true, Bool.and_self, Bool.not_true, Bool.false_eq_true, if_false]
    · by_cases x2 : x < 2
      · rw [if_pos x2]; rfl
      · rw [if_neg x2]
        obtain ⟨k1, k2⟩ := k'.resolve_right x2
        rw [if_neg k1, if_neg (fun l => k2 ⟨k1, l⟩)]
        split <;> rfl
    · rw [if_pos k1]
      split
      · rfl
      · split
        · exact band1 k2
        · show (_ || inBand h y) = true
          rw [band1 k2, Bool.or_true]
    · rw [if_neg k2.1, if_pos k2.2, if_neg (by omega), if_pos (by rw [deep _ k1.2.1, deep _ k1.2.2]; rfl)]
      rfl
    · rw [if_pos k2, if_neg (by omega), if_pos (by rw [deep _ k1.2.1, deep _ k1.2.2]; rfl)]
      exact band2 k3

theorem markerColumn_shown (g : GlyphStore) (hs : HeadSettings) (holds : HoldSet) (y : Nat) :
    columnShown g hs holds y (markerColumn g hs holds y) := by
  unfold columnShown markerColumn HeadSettings.hasMarker
  dsimp only
  refine ⟨fun h => by simp [h], fun h => ?_⟩
  rw [if_neg (by simpa using h)]
  by_cases inr : inReadingRow g hs y = true
  · rw [if_pos inr]
    unfold inReadingRow at inr
    simp only [Bool.and_eq_true, decide_eq_true_eq] at inr
    unfold markerPixels
    refine ⟨by simp, fun x hx => ?_⟩
    rw [List.getElem?_map, List.getElem?_range hx]
    refine ⟨_, rfl, fun k => by omega, fun _ _ => markerDrawn_shown g hs holds x _ hx (by omega)⟩
  · rw [if_neg inr]
    unfold inReadingRow at inr
    simp only [Bool.and_eq_true, decide_eq_true_eq] at inr
    refine ⟨by simp, fun x hx => ⟨false, ?_, fun _ => rfl, fun a b => absurd ⟨a, b⟩ inr⟩⟩
    rw [List.getElem?_replicate, if_pos hx]; rfl

end Sys2Proof.Machine
end

