-- ==== Sys2Proof/Laws/Views.lean ====
section
/-! SUPPORT. View rows (R19): the row of a line and the line of a row go back and forth. -/

namespace Sys2Proof.Machine

set_option Elab.async false

/-- The line at a line's view row is that line. -/
theorem anchorAtRow_viewRow {v : List ViewEntry} {a : Anchor} {r : Nat} (h : viewRow v a = some r) :
    anchorAtRow v r = some a := by
  induction v generalizing r with
  | nil => cases h
  | cons e rest ih =>
    unfold viewRow at h
    unfold anchorAtRow lineAtRow
    split at h
    · rename_i slot
      split at h
      · rename_i line
        cases h
        rw [if_pos line]
        simp [slot]
      · cases h
    · cases hr : viewRow rest a with
      | none => simp [hr] at h
      | some r' =>
        simp [hr] at h
        subst h
        rw [if_neg (by omega), show e.count + r' - e.count = r' by omega]
        exact ih hr

/-- A line's view row lies in the view. -/
theorem viewRow_lt {v : List ViewEntry} {a : Anchor} {r : Nat} (h : viewRow v a = some r) : r < viewSize v := by
  induction v generalizing r with
  | nil => cases h
  | cons e rest ih =>
    unfold viewRow at h
    unfold viewSize
    simp only [List.map_cons, List.sum_cons]
    split at h
    · split at h
      · cases h; omega
      · cases h
    · cases hr : viewRow rest a with
      | none => simp [hr] at h
      | some r' =>
        simp [hr] at h
        subst h
        have := ih hr
        unfold viewSize at this
        omega

/-- A line of a story in the view stands in the view. -/
theorem viewRow_of_entryOf {v : List ViewEntry} {a : Anchor} {e : ViewEntry} (h : entryOf v a.slot = some e)
    (line : a.line < e.count) : ∃ r, viewRow v a = some r := by
  induction v with
  | nil => cases h
  | cons x rest ih =>
    unfold entryOf at h
    unfold viewRow
    by_cases hx : x.slot = a.slot
    · simp [List.find?, hx] at h
      subst h
      simp [hx, line]
    · have : (x.slot == a.slot) = false := by simp [hx]
      simp [List.find?, this] at h
      obtain ⟨r, hr⟩ := ih h
      simp [hx, hr]

/-- A row of the view has a line. -/
theorem lineAtRow_of_lt {v : List ViewEntry} {r : Nat} (h : r < viewSize v) : ∃ x, lineAtRow v r = some x := by
  induction v generalizing r with
  | nil => simp [viewSize] at h
  | cons e rest ih =>
    unfold lineAtRow
    split
    · exact ⟨_, rfl⟩
    · apply ih
      unfold viewSize at *
      simp only [List.map_cons, List.sum_cons] at h
      omega

end Sys2Proof.Machine
end

