-- ==== Sys2Proof/Laws/Stages.lean ====
section
/-! SUPPORT. The stages of a LIVE channel's frame event, one lemma for each, in the terms of Safety.lean: what it makes
of the channel's standing, and which reports it raises. -/

namespace Sys2Proof.Machine

set_option Elab.async false

/-! ### Posts (R165) -/

/-- From `s` to `t` posts were added to the Post Queue and drops were counted, and no more. -/
def Posts (s t : State) : Prop :=
  s.reports.queue <+: t.reports.queue ∧ (s.reports.dropped ≤ 65535 → s.reports.dropped ≤ t.reports.dropped) ∧
    (s.reports.dropped ≤ 65535 → t.reports.dropped ≤ 65535)

theorem Posts.refl (s : State) : Posts s s := ⟨List.prefix_refl _, fun _ => le_refl _, fun h => h⟩

theorem Posts.of_eq {s t : State} (h : t.reports = s.reports) : Posts s t := by
  unfold Posts; rw [h]; exact ⟨List.prefix_refl _, fun _ => le_refl _, fun h => h⟩

theorem Posts.trans {s t u : State} (h : Posts s t) (k : Posts t u) : Posts s u :=
  ⟨h.1.trans k.1, fun e => (h.2.1 e).trans (k.2.1 (h.2.2 e)), fun e => k.2.2 (h.2.2 e)⟩

/-- An operation after others that raise nothing. -/
theorem Posts.after {s u t : State} (k : Posts u t) (h : u.reports = s.reports) : Posts s t :=
  (Posts.of_eq h).trans k

theorem raise_posts (r : Report) (s : State) : Posts s (raise r s) := by
  obtain ⟨-, h⟩ | ⟨-, -, h⟩ | ⟨-, -, h⟩ := raise_cases r s <;> rw [h]
  · exact Posts.refl s
  · exact ⟨⟨_, rfl⟩, fun _ => le_refl _, fun h => h⟩
  · exact ⟨List.prefix_refl _, fun _ => by show _ ≤ min _ _; omega, fun _ => by show min _ _ ≤ _; omega⟩

theorem raiseRunning_posts (r : Report) (s : State) : Posts s (raiseRunning r s) := by
  unfold raiseRunning
  split
  · exact raise_posts r s
  · exact Posts.refl s

theorem forEach_posts {α : Type} {f : α → State → State} (h : ∀ x s, Posts s (f x s)) (xs : List α) (s : State) :
    Posts s (forEach xs f s) := by
  induction xs generalizing s with
  | nil => exact Posts.refl s
  | cons x xs ih => exact (h x s).trans (ih (f x s))

/-- A report raised between two states is among the posts, when none was dropped. -/
theorem posted_of_raise {s u t : State} {r : Report} (before : Posts s u) (run : u.engine ≠ .halted)
    (frame : u.frame = t.frame) (after : Posts (raise r u) t) : posted s t r := by
  intro room same
  obtain ⟨e, h⟩ | ⟨-, -, h⟩ | ⟨-, full, h⟩ := raise_cases r u
  · exact absurd e run
  · obtain ⟨more, hm⟩ := after.1
    rw [h] at hm
    rw [← hm, ← frame]
    simp
  · exfalso
    have h1 := before.2.1 (by omega)
    have h2 := before.2.2 (by omega)
    have h3 := after.2.1
    rw [h] at h3
    have h4 : min (u.reports.dropped + 1) 65535 ≤ t.reports.dropped := h3 (Nat.min_le_right ..)
    omega

theorem releaseHolder_posts (c : Chan) (cause : AuthorityCause) (s : State) : Posts s (releaseHolder c cause s) := by
  unfold releaseHolder
  split
  · exact Posts.refl s
  · exact Posts.after (raiseRunning_posts _ _) rfl

theorem quietStep_posts (handed : Bank 8 Handed) (c : Chan) (s : State) : Posts s (quietStep handed c s) := by
  unfold quietStep
  split
  · exact Posts.refl s
  · split
    · exact Posts.of_eq rfl
    · dsimp only
      split
      · exact releaseHolder_posts ..
      · exact Posts.of_eq rfl

theorem takeHolder_posts (c : Chan) (new : Source) (cause : AuthorityCause) (s : State) :
    Posts s (takeHolder c new cause s) := Posts.after (raiseRunning_posts _ _) rfl

theorem claimStep_posts (handed : Bank 8 Handed) (c : Chan) (s : State) : Posts s (claimStep handed c s) := by
  unfold claimStep
  dsimp only
  split
  · split
    · exact Posts.refl s
    · exact takeHolder_posts ..
  · split
    · split
      · exact Posts.refl s
      · exact (takeHolder_posts ..).trans (Posts.of_eq ((disarmPresenters_keeps c).reports _))
    · exact Posts.refl s

theorem discardJump_posts (handed : Bank 8 Handed) (c : Chan) (a : Option PortId) (p : PortId) (s : State) :
    Posts s (discardJump handed c a p s) := by
  unfold discardJump
  split
  · exact Posts.refl s
  · split
    · exact raiseRunning_posts ..
    · exact Posts.refl s

theorem evaluate_posts (handed : Bank 8 Handed) (c : Chan) (s : State) : Posts s (evaluate handed c s).2 :=
  (quietStep_posts handed c s).trans ((claimStep_posts handed c _).trans
    ((forEach_posts (discardJump_posts handed c _) allPorts _).trans (Posts.of_eq rfl)))

theorem reanchor_posts (c : Chan) (a : Option Anchor) (cause : MoveCause) (s : State) :
    Posts s (reanchor c a cause s) := Posts.after (raise_posts _ _) rfl

theorem checkAnchor_posts (c : Chan) (former : List ViewEntry) (s : State) : Posts s (checkAnchor c former s) := by
  unfold checkAnchor
  dsimp only
  split
  · exact Posts.refl s
  · exact Posts.of_eq rfl
  · exact reanchor_posts ..
  · split
    · split
      · exact Posts.refl s
      · exact reanchor_posts ..
    · exact reanchor_posts ..

theorem boundaryStage_posts (c : Chan) (s : State) : Posts s (boundaryStage c s) := by
  unfold boundaryStage
  dsimp only
  split
  · exact Posts.refl s
  · split
    · exact Posts.refl s
    · split
      · split
        · exact Posts.of_eq rfl
        · exact Posts.refl s
      · split
        · exact Posts.of_eq rfl
        · exact Posts.after (raise_posts _ _) rfl

theorem refuseJump_posts (c : Chan) (p : PortId) (j : StoryJump) (reason : CommandResult) (s : State) :
    Posts s (refuseJump c p j reason s) := Posts.after (raise_posts _ _) rfl

theorem storyJump_posts (c : Chan) (p : PortId) (j : StoryJump) (s : State) : Posts s (storyJump c p j s) := by
  unfold storyJump
  dsimp only
  split
  · exact refuseJump_posts ..
  · split
    · exact refuseJump_posts ..
    · split
      · exact Posts.of_eq rfl
      · exact refuseJump_posts ..

theorem advanceReports_posts (c : Chan) (old : Channel) (a : Option Anchor) (d : Int) (adv : Advance) (s : State) :
    Posts s (advanceReports c old a d adv s) := by
  unfold advanceReports
  split
  · exact raise_posts ..
  · exact Posts.refl s
  · exact Posts.refl s
  · split
    · exact Posts.refl s
    · exact Posts.after (raise_posts _ _) rfl
  all_goals
    split
    · exact Posts.refl s
    · split
      · exact Posts.refl s
      · exact raise_posts ..

theorem stage4_posts (c : Chan) (h : Handing) (s : State) : Posts s (stage4 c h s).2 := by
  unfold stage4
  dsimp only
  split
  · exact Posts.after (storyJump_posts ..) rfl
  · unfold advanceStage
    dsimp only
    split
    · exact Posts.of_eq rfl
    · exact Posts.after (advanceReports_posts ..) rfl

theorem stage5_posts (c : Chan) (s : State) : Posts s (stage5 c s) := Posts.of_eq ((stage5_keeps c).reports s)

theorem joinSearch_posts (c : Chan) (s : State) : Posts s (joinSearch c s) :=
  Posts.of_eq ((joinSearch_keeps c).reports s)

theorem takeView_posts (c : Chan) (s : State) : Posts s (takeView c s) := Posts.of_eq rfl

theorem liveSettled_posts (handed : Bank 8 Handed) (c : Chan) (s : State) : Posts s (liveSettled handed c s) := by
  have h1 := evaluate_posts handed c s
  unfold liveSettled
  generalize (evaluate handed c s).2 = a at h1 ⊢
  have h2 := takeView_posts c a
  generalize takeView c a = b at h2 ⊢
  have h3 := checkAnchor_posts c (s.chan c).view b
  generalize checkAnchor c (s.chan c).view b = d at h3 ⊢
  exact h1.trans (h2.trans (h3.trans ((joinSearch_posts c d).trans (boundaryStage_posts c _))))

theorem liveStages_posts (handed : Bank 8 Handed) (c : Chan) (s : State) : Posts s (liveStages handed c s).2 := by
  rw [liveStages_eq]
  have h1 := liveSettled_posts handed c s
  generalize liveSettled handed c s = a at h1 ⊢
  exact h1.trans ((stage4_posts c _ a).trans (stage5_posts c _))

theorem lampsAct_posts (c : Chan) (r : CrossingRecord) (s : State) : Posts s (lampsAct c r s) := by
  unfold lampsAct cuePassed
  have e : Posts s (forEach (List.finRange 4) (groupAct c r) s) :=
    Posts.of_eq ((Keeps.forEach (groupAct_keeps c r) _).reports s)
  split
  · exact e
  · exact e.trans (Posts.after (raise_posts _ _) rfl)

theorem publish_posts (c : Chan) (pub : Published) (es : List Entered) (xs : List Crossing) (s : State) :
    Posts s (publish c pub es xs s) := Posts.after (lampsAct_posts ..) rfl

theorem publishChannel_posts (outcomes : Bank 4 Stage4) (c : Chan) (s : State) :
    Posts s (publishChannel outcomes c s) := by
  refine Posts.trans ?_ (Posts.of_eq ((needUpdate_keeps c).reports _))
  unfold makePublication
  split
  · exact Posts.after (publish_posts ..) rfl
  · exact Posts.after (publish_posts ..) rfl
  · exact Posts.after (publish_posts ..) rfl

theorem frameStart_posts (s : State) : Posts s (frameStart s) := by
  unfold frameStart announceLock
  split
  · exact Posts.after (raise_posts _ _) rfl
  · exact Posts.of_eq rfl

theorem armedStart_posts (s : State) : Posts s (armedStart s) :=
  (frameStart_posts s).trans (Posts.of_eq (((armPorts_keeps _).reports _).trans (handAll_keeps.reports _)))

theorem beforeStages_posts (ys : List Chan) (s : State) : Posts s (beforeStages ys s) :=
  (armedStart_posts s).trans (forEach_posts (fun c t => liveStages_posts _ c t) ys _)

theorem scanFrame_posts (s : State) : Posts s (scanFrame s) := by
  unfold scanFrame
  split
  · exact Posts.of_eq rfl
  · exact Posts.after (raise_posts _ _) rfl

/-- The posts of a frame event after all channels have published. -/
theorem freeFrame_posts (s : State) (free : s.timebase.lock = .free) (run : s.engine = .running) :
    Posts (beforePublication (frameOrder s) s) (freeFrame s) := by
  rw [freeFrame_running s free run]
  refine Posts.trans (Posts.of_eq ?_) (scanFrame_posts _)
  rw [exchangeFrame_keeps.reports, composeHeads_keeps.reports, channelsFrame_start,
    (Keeps.forEach (writePortStatus_keeps _) allPorts).reports]

/-! ### Stage 2 (R27, R28) -/

theorem storiesAfter_split {k : Slot} (pre : List ViewEntry) (old : ViewEntry) (post : List ViewEntry)
    (h : ∀ e ∈ pre, e.slot ≠ k) (same : old.slot = k) : storiesAfter (pre ++ old :: post) k = post := by
  induction pre with
  | nil => simp [storiesAfter, same]
  | cons e pre ih =>
    simp only [List.cons_append, storiesAfter]
    rw [if_neg (h e (List.mem_cons_self ..))]
    exact ih fun x m => h x (List.mem_cons_of_mem _ m)

theorem storiesAfter_absent {k : Slot} (v : List ViewEntry) (h : ∀ e ∈ v, e.slot ≠ k) : storiesAfter v k = [] := by
  induction v with
  | nil => rfl
  | cons e v ih =>
    unfold storiesAfter
    rw [if_neg (h e (List.mem_cons_self ..))]
    exact ih fun x m => h x (List.mem_cons_of_mem _ m)

theorem entryOf_slot {v : List ViewEntry} {k : Slot} {e : ViewEntry} (h : entryOf v k = some e) : e.slot = k := by
  simpa using List.find?_some h

theorem findSome_first {v xs ys : List ViewEntry} {e e' : ViewEntry} (before : ∀ x ∈ xs, entryOf v x.slot = none)
    (h : entryOf v e.slot = some e') :
    (xs ++ e :: ys).findSome? (fun x => entryOf v x.slot) = some e' := by
  induction xs with
  | nil => simp [h]
  | cons x xs ih =>
    simp only [List.cons_append, List.findSome?_cons, before x (List.mem_cons_self ..)]
    exact ih fun y m => before y (List.mem_cons_of_mem _ m)

/-- The anchor that the model takes at a view change is that of R27. -/
theorem viewChangeTarget_changed (former v : List ViewEntry) (k : Slot) :
    viewChanged former v k (viewChangeTarget former v k) := by
  intro before after h
  have both : (if former.any (·.slot == k) then storiesAfter former k else former) = after ∧
      storiesBefore former k = before := by
    obtain ⟨old, e, same, others⟩ | ⟨e1, e2, others⟩ := h
    · have hb : ∀ x ∈ before, x.slot ≠ k := fun x m => others x (List.mem_append_left _ m)
      have ha : ∀ x ∈ after, x.slot ≠ k := fun x m => others x (List.mem_append_right _ m)
      subst e
      constructor
      · rw [if_pos (by simp [same])]
        exact storiesAfter_split _ _ _ (fun x m => hb x (List.mem_reverse.1 m)) same
      · unfold storiesBefore
        simp only [List.reverse_append, List.reverse_cons, List.reverse_reverse, List.append_assoc]
        exact storiesAfter_split _ _ _ (fun x m => ha x (List.mem_reverse.1 m)) same
    · subst e1 e2
      constructor
      · rw [if_neg]
        simpa using others
      · exact storiesAfter_absent _ fun x m => others x (List.mem_reverse.1 m)
  unfold viewChangeTarget
  dsimp only
  rw [both.1, both.2]
  refine ⟨fun xs e ys he hx hs => ?_, fun hn => ⟨fun xs e ys e' he hx h' => ?_, fun hb => ?_⟩⟩
  · obtain ⟨e', h'⟩ := Option.isSome_iff_exists.1 hs
    rw [he, findSome_first hx h']
    simp [entryOf_slot h']
  · rw [List.findSome?_eq_none_iff.2 hn, he, findSome_first hx h']
    simp [entryOf_slot h']
  · rw [List.findSome?_eq_none_iff.2 hn, List.findSome?_eq_none_iff.2 hb]

/-- A channel with another standing, key and Placed item. -/
def Channel.stand (x : Standing) (key : Option Key) (placed : Bool) (ch : Channel) : Channel :=
  { ch with
    anchor := x.anchor, fraction := x.fraction, speed := x.speed, cue := x.cue, boundary := x.boundary
    exchange := x.exchange, key := key, placed := placed }

theorem stand_standing (ch : Channel) : ch.stand ch.standing ch.key ch.placed = ch := rfl

theorem placeAt_stand (f : Fetch) (a : Option Anchor) (ch : Channel) :
    ∃ key, ch.placeAt f a = ch.stand (ch.standing.placed a) key true := ⟨_, rfl⟩

theorem reanchor_stand (c : Chan) (a : Option Anchor) (cause : MoveCause) (s : State) :
    ∃ key, (reanchor c a cause s).chan c = (s.chan c).stand ((s.chan c).standing.placed a) key true := by
  unfold reanchor
  rw [raise_chan, State.chan_modChan_self]
  exact placeAt_stand ..

/-- A report that an operation raises last, at a frame event from `s` to `t`, is among the posts when none was
dropped. -/
def Heard (s t u u' : State) : Prop :=
  ∀ r x, u' = raise r x → x.reports = u.reports → x.area = u.area → x.timebase = u.timebase → posted s t r

theorem heard {s t u u' : State} (before : Posts s u) (run : u.engine = .running) (frame : u.frame = t.frame)
    (after : Posts u' t) : Heard s t u u' := by
  rintro r x rfl hr ha ht
  refine posted_of_raise (before.trans (Posts.of_eq hr)) ?_ ?_ after
  · unfold State.engine at run ⊢; rw [ha, run]; decide
  · unfold State.frame at frame ⊢; rw [ht, frame]

theorem checkAnchor_stand {s t u : State} (c : Chan) (former : List ViewEntry) (st : u.stories = s.stories)
    (h : Heard s t u (checkAnchor c former u)) :
    ∃ y key, (checkAnchor c former u).chan c =
      (u.chan c).stand y key ((u.chan c).placed || replaced (u.chan c).view (u.chan c).anchor) ∧
    anchorChecked former (u.chan c).view (u.chan c).standing y ∧
    ∀ a, (u.chan c).anchor = some a → replaced (u.chan c).view (u.chan c).anchor →
      posted s t ⟨channelSlot c, .anchorMoved, if (entryOf (u.chan c).view a.slot).isSome then 2 else 1,
        anchorSlotWord y.anchor, natWord (anchorLine y.anchor), match y.anchor with
          | some b => (s.story b.slot).storyId
          | none => 0⟩ := by
  have moves : ∀ (b : Option Anchor) (cause : MoveCause), checkAnchor c former u = reanchor c b cause u →
      (∃ key, (checkAnchor c former u).chan c =
        (u.chan c).stand ((u.chan c).standing.placed b) key true) ∧
      posted s t ⟨channelSlot c, .anchorMoved, natWord cause.code, anchorSlotWord b, natWord (anchorLine b),
        match b with
          | some b => (s.story b.slot).storyId
          | none => 0⟩ := by
    intro b cause e
    refine ⟨e ▸ reanchor_stand c b cause u, ?_⟩
    have := h (anchorMoved u c cause b) _ e rfl rfl rfl
    unfold anchorMoved State.story at this
    rw [st] at this
    exact this
  unfold anchorChecked
  cases ha : (u.chan c).anchor with
  | none =>
    cases hv : (u.chan c).view with
    | nil =>
      refine ⟨(u.chan c).standing, (u.chan c).key, ?_, ?_, ?_⟩
      · unfold checkAnchor; dsimp only; rw [ha, hv]
        simp [Channel.standing, Channel.stand, replaced]
      · simp [Channel.standing, ha]
      · simp
    | cons e rest =>
      refine ⟨{ (u.chan c).standing with anchor := some ⟨e.slot, 0⟩, fraction := 0 },
        ((u.chan c).moveTo u.fetch (some ⟨e.slot, 0⟩) 0).key, ?_, ?_, ?_⟩
      · unfold checkAnchor; dsimp only; rw [ha, hv]
        dsimp only
        rw [State.chan_modChan_self]
        simp [Channel.stand, Channel.moveTo, Channel.standing, replaced]
      · simp [Channel.standing, ha]
      · simp
  | some a =>
    cases hv : (u.chan c).view with
    | nil =>
      obtain ⟨⟨key, e⟩, p⟩ := moves none .viewChange (by unfold checkAnchor; dsimp only; rw [ha, hv])
      refine ⟨(u.chan c).standing.placed none, key, by rw [e]; simp [replaced, entryOf],
        by simp [Channel.standing, ha, entryOf], ?_⟩
      rintro _ ⟨⟩ -
      exact p
    | cons x rest =>
      cases he : entryOf (x :: rest) a.slot with
      | some e =>
        by_cases lt : a.line < e.count
        · refine ⟨(u.chan c).standing, (u.chan c).key, ?_, ?_, ?_⟩
          · unfold checkAnchor; dsimp only; rw [ha, hv]; dsimp only; rw [he]; dsimp only; rw [if_pos lt]
            simp [Channel.standing, Channel.stand, replaced, he, lt]
          · simp only [Channel.standing, ha]
            refine ⟨by simp, by simp, ?_⟩
            rintro _ ⟨⟩
            rw [he]
            refine ⟨by simp, ?_, by simp⟩
            rintro _ ⟨⟩
            exact ⟨fun _ => trivial, fun h => absurd lt (by omega)⟩
          · rintro _ ⟨⟩ h
            simp [replaced, he, lt] at h
        · obtain ⟨⟨key, e1⟩, p⟩ := moves (some ⟨a.slot, e.count - 1⟩) .countClamp (by
            unfold checkAnchor; dsimp only; rw [ha, hv]; dsimp only; rw [he]; dsimp only; rw [if_neg lt])
          refine ⟨(u.chan c).standing.placed (some ⟨a.slot, e.count - 1⟩), key,
            by rw [e1]; simp [replaced, he, lt], ?_, ?_⟩
          · simp only [Channel.standing, ha]
            refine ⟨by simp, by simp, ?_⟩
            rintro _ ⟨⟩
            rw [he]
            refine ⟨by simp, ?_, by simp⟩
            rintro _ ⟨⟩
            exact ⟨fun h => absurd h lt, fun h => rfl⟩
          · rintro _ ⟨⟩ h
            rw [he]
            exact p
      | none =>
        obtain ⟨⟨key, e1⟩, p⟩ := moves (viewChangeTarget former (x :: rest) a.slot) .viewChange (by
            unfold checkAnchor; dsimp only; rw [ha, hv]; dsimp only; rw [he])
        refine ⟨(u.chan c).standing.placed (viewChangeTarget former (x :: rest) a.slot), key,
          by rw [e1]; simp [replaced, he], ?_, ?_⟩
        · simp only [Channel.standing, ha]
          refine ⟨by simp, by simp, ?_⟩
          rintro _ ⟨⟩
          rw [he]
          refine ⟨by simp, by simp, fun _ _ => ⟨?_, rfl⟩⟩
          exact viewChangeTarget_changed former (x :: rest) a.slot
        · rintro _ ⟨⟩ h
          rw [he]
          exact p

theorem joinSearch_stand {u : State} {c : Chan} (live : u.isLive c = true) :
    (joinSearch c u).chan c =
      { u.chan c with exchange := (u.chan c).exchange || joins u c (u.chan c).anchor } := by
  unfold joinSearch joins
  cases hs : u.exchange.searcher with
  | none => simp
  | some sr =>
    dsimp only
    simp only [live, true_and, Option.any_some]
    split
    · rename_i h
      rw [State.chan_modChan_self]
      have : ((u.chan c).anchor.map (·.slot) == some sr.slot && !sr.members.any (·.channel == c)) = true := by
        rw [Bool.and_eq_true, beq_iff_eq, Bool.not_eq_true', ← Bool.not_eq_true]
        exact h
      rw [this]
      simp [State.chan]
    · rename_i h
      have : ((u.chan c).anchor.map (·.slot) == some sr.slot && !sr.members.any (·.channel == c)) = false := by
        rw [← Bool.not_eq_true, Bool.and_eq_true, beq_iff_eq, Bool.not_eq_true', ← Bool.not_eq_true]
        exact h
      rw [this]
      simp

/-- The story of the anchor, where it stands in the view. -/
theorem boundaryStage_eq {u : State} {c : Chan} {a : Anchor} {e : ViewEntry} (ha : (u.chan c).anchor = some a)
    (he : entryOf (u.chan c).view a.slot = some e) : boundaryStage c u =
      if e.ready then
        if (nextStory (u.chan c).view a.slot).all (·.ready) then u.modChan c fun ch => { ch with boundary := false }
        else u
      else if (u.chan c).boundary then u.modChan c fun ch => { ch with boundary := true }
      else raise (boundaryHeld u c a.slot a.slot false) (u.modChan c fun ch => { ch with boundary := true }) := by
  unfold boundaryStage
  dsimp only
  rw [ha]
  dsimp only
  rw [he]

theorem boundaryStage_still {u : State} {c : Chan}
    (h : ∀ a, (u.chan c).anchor = some a → entryOf (u.chan c).view a.slot = none) : boundaryStage c u = u := by
  unfold boundaryStage
  dsimp only
  split
  · rfl
  · rename_i a ha
    rw [h a ha]

theorem boundaryStage_stand {s t u : State} (c : Chan) (st : u.stories = s.stories)
    (h : Heard s t u (boundaryStage c u)) :
    ∃ b, (boundaryStage c u).chan c = { u.chan c with boundary := b } ∧
      boundaryChecked (u.chan c).view (u.chan c).standing { (u.chan c).standing with boundary := b } ∧
      ∀ a, (u.chan c).anchor = some a → b = true → (u.chan c).boundary = false →
        posted s t ⟨channelSlot c, .boundaryHeld, slotWord a.slot, slotWord a.slot, 2, (s.story a.slot).storyId⟩ := by
  by_cases away : ∀ a, (u.chan c).anchor = some a → entryOf (u.chan c).view a.slot = none
  · refine ⟨(u.chan c).boundary, ?_, ⟨fun _ => rfl, fun a e h1 h2 => ?_⟩, by simp +contextual⟩
    · rw [boundaryStage_still away]
    · rw [away a h1] at h2; cases h2
  · obtain ⟨a, ha, e, he⟩ : ∃ a, (u.chan c).anchor = some a ∧ ∃ e, entryOf (u.chan c).view a.slot = some e := by
      by_contra no
      apply away
      intro a ha
      cases he : entryOf (u.chan c).view a.slot with
      | none => rfl
      | some e => exact absurd ⟨a, ha, e, he⟩ no
    have eq := boundaryStage_eq ha he
    have checked : ∀ b : Bool, (e.ready = false → b = true) →
        (e.ready = true → (∀ n, nextStory (u.chan c).view a.slot = some n → n.ready = true) → b = false) →
        (e.ready = true → (∃ n, nextStory (u.chan c).view a.slot = some n ∧ n.ready = false) →
          b = (u.chan c).boundary) →
        boundaryChecked (u.chan c).view (u.chan c).standing { (u.chan c).standing with boundary := b } := by
      intro b h1 h2 h3
      refine ⟨fun h0 => ?_, fun a' e' ha' he' => ?_⟩
      · have h0 : (u.chan c).anchor = none := h0
        rw [ha] at h0; cases h0
      · have ha' : (u.chan c).anchor = some a' := ha'
        rw [ha] at ha'; cases ha'
        rw [he] at he'; cases he'
        exact ⟨fun h => by rw [h1 h], fun h k => by rw [h2 h k], fun h k => by rw [h3 h k]; rfl⟩
    cases hr : e.ready with
    | true =>
      rw [hr, if_pos rfl] at eq
      by_cases hn : (nextStory (u.chan c).view a.slot).all (·.ready) = true
      · rw [if_pos hn] at eq
        refine ⟨false, by rw [eq, State.chan_modChan_self], checked _ (by simp [hr]) (by simp) ?_, by simp⟩
        rintro - ⟨n, h1, h2⟩
        rw [h1] at hn; simp [h2] at hn
      · rw [if_neg hn] at eq
        refine ⟨(u.chan c).boundary, by rw [eq], checked _ (by simp [hr]) ?_ (by simp), by simp +contextual⟩
        intro _ h1
        exfalso; apply hn
        cases hx : nextStory (u.chan c).view a.slot with
        | none => rfl
        | some n => simpa using h1 n hx
    | false =>
      rw [hr, if_neg (by simp)] at eq
      refine ⟨true, ?_, checked _ (by simp) (by simp [hr]) (by simp [hr]), ?_⟩
      · rw [eq]; split
        · rw [State.chan_modChan_self]
        · rw [raise_chan, State.chan_modChan_self]
      · intro a' ha' _ hb
        rw [ha] at ha'; cases ha'
        rw [if_neg (by simp [hb])] at eq
        have := h _ _ eq rfl rfl rfl
        unfold boundaryHeld State.story at this
        rw [st] at this
        exact this

/-! ### Stage 4 -/

theorem storyJump_stand {s t u : State} (c : Chan) (p : PortId) (j : StoryJump) (se : u.settings = s.settings)
    (h : Heard s t u (storyJump c p j u)) :
    ∃ done y key, (storyJump c p j u).chan c = (u.chan c).stand y key ((u.chan c).placed || done) ∧
      jumpActed s t c (u.chan c).view (u.chan c).freeze p j done (u.chan c).standing y := by
  have refused : ∀ reason, storyJump c p j u = refuseJump c p j reason u →
      (storyJump c p j u).chan c = (u.chan c).stand { (u.chan c).standing with
        speed := if (u.chan c).freeze || (u.chan c).exchange then 0 else
          max (-((s.chanSet c).vmax : Int)) (min (s.chanSet c).vmax (u.chan c).speed) }
        (u.chan c).key ((u.chan c).placed || false) ∧
      posted s t ⟨portSlot p, .jumpRefused, natWord c.val, natWord j.code, natWord reason.code,
        anchorSlotWord (u.chan c).anchor⟩ := by
    intro reason e
    refine ⟨?_, h _ _ e rfl rfl rfl⟩
    rw [e]
    unfold refuseJump
    rw [raise_chan, State.chan_modChan_self]
    unfold Channel.boundSpeed State.chanSet
    rw [se]
    have cl : ∀ (n : Nat) (x : Int), clampInt (-n) n x = max (-(n : Int)) (min n x) := by
      intro n x; unfold clampInt; split
      · omega
      · split <;> omega
    rw [cl]
    simp [Channel.stand, Channel.standing, Channel.fullHold]
  have acted : ∀ (done : Bool) (y : Standing),
      ((u.chan c).freeze = true → done = false ∧ y = { (u.chan c).standing with
        speed := if (u.chan c).freeze || (u.chan c).exchange then 0 else
          max (-((s.chanSet c).vmax : Int)) (min (s.chanSet c).vmax (u.chan c).speed) } ∧
        posted s t ⟨portSlot p, .jumpRefused, natWord c.val, natWord j.code, natWord CommandResult.frozen.code,
          anchorSlotWord (u.chan c).anchor⟩) →
      ((u.chan c).freeze = false → (u.chan c).exchange = true → done = false ∧
        y = { (u.chan c).standing with
          speed := if (u.chan c).freeze || (u.chan c).exchange then 0 else
            max (-((s.chanSet c).vmax : Int)) (min (s.chanSet c).vmax (u.chan c).speed) } ∧
        posted s t ⟨portSlot p, .jumpRefused, natWord c.val, natWord j.code, natWord CommandResult.busy.code,
          anchorSlotWord (u.chan c).anchor⟩) →
      ((u.chan c).freeze = false → (u.chan c).exchange = false →
        (∀ e, jumpTarget (u.chan c).view (u.chan c).anchor j = some e → e.ready = true →
          done = true ∧ y = (u.chan c).standing.placed (some ⟨e.slot, 0⟩)) ∧
        ((∀ e, jumpTarget (u.chan c).view (u.chan c).anchor j = some e → e.ready = false) → done = false ∧
          y = { (u.chan c).standing with
            speed := if (u.chan c).freeze || (u.chan c).exchange then 0 else
              max (-((s.chanSet c).vmax : Int)) (min (s.chanSet c).vmax (u.chan c).speed) } ∧
          posted s t ⟨portSlot p, .jumpRefused, natWord c.val, natWord j.code, natWord CommandResult.badTarget.code,
            anchorSlotWord (u.chan c).anchor⟩)) →
      jumpActed s t c (u.chan c).view (u.chan c).freeze p j done (u.chan c).standing y := by
    intro done y h1 h2 h3
    exact ⟨h1, h2, h3⟩
  cases hf : (u.chan c).freeze with
  | true =>
    obtain ⟨e1, e2⟩ := refused .frozen (by unfold storyJump holdRefusal; dsimp only; rw [hf]; rfl)
    rw [← hf]
    exact ⟨false, _, _, e1, acted _ _ (fun _ => ⟨rfl, rfl, e2⟩) (by simp [hf]) (by simp [hf])⟩
  | false =>
    cases hx : (u.chan c).exchange with
    | true =>
      obtain ⟨e1, e2⟩ := refused .busy (by unfold storyJump holdRefusal; dsimp only; rw [hf, hx]; rfl)
      rw [← hf]
      exact ⟨false, _, _, e1, acted _ _ (by simp [hf]) (fun _ _ => ⟨rfl, rfl, e2⟩) (by simp [hx])⟩
    | false =>
      rw [← hf]
      have bad : storyJump c p j u = refuseJump c p j .badTarget u →
          (∀ e, jumpTarget (u.chan c).view (u.chan c).anchor j = some e → e.ready = false) →
          ∃ done y key, (storyJump c p j u).chan c = (u.chan c).stand y key ((u.chan c).placed || done) ∧
            jumpActed s t c (u.chan c).view (u.chan c).freeze p j done (u.chan c).standing y := by
        intro e0 hn
        obtain ⟨e1, e2⟩ := refused .badTarget e0
        refine ⟨false, _, _, e1, acted _ _ (by simp [hf]) (by simp [hx]) fun _ _ => ⟨?_, fun _ => ⟨rfl, rfl, e2⟩⟩⟩
        intro e h1 h2
        rw [hn e h1] at h2; cases h2
      cases ht : jumpTarget (u.chan c).view (u.chan c).anchor j with
      | none =>
        refine bad ?_ ?_
        · unfold storyJump holdRefusal; dsimp only; rw [hf, hx, ht]; rfl
        · rw [ht]; simp
      | some e =>
        cases hr : e.ready with
        | false =>
          refine bad ?_ ?_
          · unfold storyJump holdRefusal; dsimp only; rw [hf, hx, ht]; simp [hr]
          · rw [ht]; rintro _ ⟨⟩; exact hr
        | true =>
          have e1 : storyJump c p j u = u.modChan c (Channel.placeAt u.fetch (some ⟨e.slot, 0⟩)) := by
            unfold storyJump holdRefusal; dsimp only; rw [hf, hx, ht]; simp [hr]
          obtain ⟨key, e2⟩ := placeAt_stand u.fetch (some ⟨e.slot, 0⟩) (u.chan c)
          refine ⟨true, (u.chan c).standing.placed (some ⟨e.slot, 0⟩), key, ?_,
            acted _ _ (by simp [hf]) (by simp [hx]) fun _ _ => ⟨?_, ?_⟩⟩
          · rw [e1, State.chan_modChan_self, e2, Bool.or_true]
          · intro e' h1 _
            rw [ht] at h1; cases h1; exact ⟨rfl, rfl⟩
          · intro hn
            have := hn e ht
            rw [hr] at this; cases this

/-- A landing is the end of a walk that reached its target. -/
theorem advance_landed {cs : ChannelSettings} {v : List ViewEntry} {f : Fetch} {row fraction : Nat} {speed : Int}
    {holds : HoldSet} {d j : Int} (h : (advance cs v f row fraction speed holds d j).landed.isSome) :
    (advance cs v f row fraction speed holds d j).stop = .reached := by
  have move : ∀ s x, (moveAdvance v f row fraction s x).landed = none := by
    intro s x; unfold moveAdvance; split <;> rfl
  unfold advance at h ⊢
  split
  · rfl
  · rename_i hf
    rw [if_neg hf] at h
    dsimp only at h ⊢
    split at h
    · rw [move] at h; cases h
    · split at h
      · rename_i hd
        rw [if_pos hd]
        rfl
      · rw [move] at h; cases h

/-- The reports of an advance change nothing of the channel but its starve count. -/
theorem advanceReports_count (c : Chan) (old : Channel) (a : Option Anchor) (d : Int) (adv : Advance) (u : State) :
    (advanceReports c old a d adv u).chan c = { u.chan c with starveCount :=
      if adv.landed.isNone && adv.stop.isHorizon && !old.starve then min (old.starveCount + 1) 65535
      else (u.chan c).starveCount } := by
  unfold advanceReports
  split
  · rename_i h
    rw [raise_chan, h]; rfl
  · rename_i h1 h2
    rw [h1, h2]; rfl
  · rename_i h1 h2
    rw [h1, h2]; rfl
  · rename_i l h1 h2
    rw [h1, h2]
    cases old.starve
    · rw [if_neg (by simp), raise_chan, State.chan_modChan_self]; rfl
    · rw [if_pos rfl]; rfl
  all_goals
    rename_i h1 h2
    rw [h1, h2]
    split
    · rfl
    · split
      · rfl
      · rw [raise_chan]; rfl

/-- Stage 4 without a story jump, where the anchor stands in the view. -/
theorem advanceReports_posted {s t u x : State} {c : Chan} {ch y : Channel} {d : Int} {adv : Advance}
    {a : Option Anchor} (st : x.stories = s.stories) (fe : x.fetch = s.fetch)
    (h : Heard s t u (advanceReports c ch a d adv x)) (hr : x.reports = u.reports) (ha : x.area = u.area)
    (ht : x.timebase = u.timebase)
    (starve : ch.starve = (s.chan c).starve) (count : ch.starveCount = (s.chan c).starveCount)
    (atEnd : ch.atEnd = (s.chan c).atEnd) (ya : y.anchor = a) :
    advancePosted s t c d adv ch.standing y.standing := by
  have stb : ∀ k, x.story k = s.story k := fun k => by unfold State.story; rw [st]
  unfold advanceReports at h
  refine ⟨fun cue hl => ?_, fun hl => ⟨fun l hs hst => ?_, fun k b hs hb hy => ?_, fun b hs he hy => ?_⟩⟩
  · rw [hl] at h
    dsimp only at h
    have := h _ _ rfl hr ha ht
    unfold cueWord at this
    rw [stb, fe] at this
    exact this
  · rw [hl, hs] at h
    dsimp only at h
    rw [if_neg (by rw [starve, hst]; simp)] at h
    have := h _ _ rfl hr ha ht
    rw [count] at this
    unfold horizonDirection at this
    by_cases hz : adv.fraction = 0
    · simp only [hz, if_true] at this ⊢; exact this
    · simp only [hz, if_false] at this ⊢; exact this
  · have hb : ch.boundary = false := hb
    have hy : y.anchor = some b := hy
    rw [← ya, hy, hl, hs] at h
    dsimp only at h
    rw [if_neg (by rw [hb]; simp)] at h
    have := h _ _ rfl hr ha ht
    unfold boundaryHeld at this
    rw [stb] at this
    exact this
  · have hy : y.anchor = some b := hy
    rw [← ya, hy, hl, hs] at h
    dsimp only at h
    rw [if_neg (by rw [atEnd, he]; simp)] at h
    have := h _ _ rfl hr ha ht
    rw [stb] at this
    exact this

theorem advanceTo_acted {v : List ViewEntry} {f : Fetch} {row : Nat} {adv : Advance} {ch : Channel} :
    advanceActed v row adv ch.standing (Channel.advanceTo f ((anchorAtRow v adv.row).or ch.anchor) adv
      (decide (adv.row * 1024 + adv.fraction < row * 1024 + ch.fraction)) ch).standing := by
  refine ⟨rfl, rfl, rfl, ?_, ?_, rfl⟩
  · show (if adv.landed.isSome then true else ch.cue && _ == ch.anchor) = true ↔ _
    cases adv.landed <;> simp [Channel.standing, Channel.advanceTo, Channel.moveTo]
  · show (match adv.stop with
      | .boundary _ => true
      | .reached => ch.boundary && !_
      | .horizon _ => ch.boundary && !_
      | .bottom => ch.boundary && !_
      | .top => ch.boundary && !_) = true ↔ _
    cases adv.stop <;> simp [Channel.standing]

theorem stage5_stand {u : State} {c : Chan} (live : u.isLive c = true) :
    (stage5 c u).chan c =
      let caught := !(u.chan c).exchange && joins u c (u.chan c).anchor
      { u.chan c with
        exchange := (u.chan c).exchange || caught
        speed := if caught then 0 else (u.chan c).speed } := by
  have h := joinSearch_stand live
  unfold stage5
  dsimp only
  rw [h]
  dsimp only
  cases hx : (u.chan c).exchange <;> cases hj : joins u c (u.chan c).anchor
  · simp; rw [h, hx, hj]; simp
  · simp; rw [h]; simp [hx, hj]
  · simp; rw [h]; simp [hx, hj]
  · simp; rw [h]; simp [hx, hj]

/-! ### The arbiter -/

theorem releaseHolder_console (c : Chan) (cause : AuthorityCause) (u : State) :
    ((releaseHolder c cause u).auth c).consoleDemand = (u.auth c).consoleDemand ∧
    ((releaseHolder c cause u).auth c).consoleJog = (u.auth c).consoleJog := by
  unfold releaseHolder
  split
  · exact ⟨rfl, rfl⟩
  · rw [show ∀ r (x : State), (raiseRunning r x).auth c = x.auth c from fun r x =>
      congrArg (·.get c) ((raiseRunning_keeps r).authority x)]
    constructor <;> simp [State.auth, State.modAuth]

theorem takeHolder_auth (c : Chan) (new : Source) (cause : AuthorityCause) (u : State) :
    (takeHolder c new cause u).auth c = { u.auth c with holder := some new, quiet := 0 } := by
  unfold takeHolder
  dsimp only
  rw [show ∀ r (x : State), (raiseRunning r x).auth c = x.auth c from fun r x =>
      congrArg (·.get c) ((raiseRunning_keeps r).authority x)]
  simp [State.auth, State.modAuth]

theorem disarm_auth (c d : Chan) (u : State) : (disarmPresenters c u).auth d = u.auth d :=
  congrArg (·.get d) ((disarmPresenters_keeps c).authority u)

/-- The evaluation leaves the console's values until it has handed them on. -/
theorem claimed_console (H : Bank 8 Handed) (c : Chan) (u : State) :
    ((claimStep H c (quietStep H c u)).auth c).consoleDemand = (u.auth c).consoleDemand ∧
    ((claimStep H c (quietStep H c u)).auth c).consoleJog = (u.auth c).consoleJog := by
  have q : ((quietStep H c u).auth c).consoleDemand = (u.auth c).consoleDemand ∧
      ((quietStep H c u).auth c).consoleJog = (u.auth c).consoleJog := by
    unfold quietStep
    split
    · exact ⟨rfl, rfl⟩
    · split
      · constructor <;> simp [State.auth, State.modAuth]
      · dsimp only
        split
        · exact releaseHolder_console ..
        · constructor <;> simp [State.auth, State.modAuth]
  generalize quietStep H c u = x at q ⊢
  rw [← q.1, ← q.2]
  unfold claimStep
  dsimp only
  split
  · split
    · exact ⟨rfl, rfl⟩
    · rw [takeHolder_auth]; exact ⟨rfl, rfl⟩
  · split
    · split
      · exact ⟨rfl, rfl⟩
      · rw [disarm_auth, takeHolder_auth]; exact ⟨rfl, rfl⟩
    · exact ⟨rfl, rfl⟩

theorem evaluate_holder (H : Bank 8 Handed) (c : Chan) (u : State) :
    ((evaluate H c u).2.auth c).holder = ((claimStep H c (quietStep H c u)).auth c).holder := by
  show ((clearConsoleJog c _).auth c).holder = _
  unfold clearConsoleJog
  rw [State.auth_modAuth_self]
  exact congrArg (fun b : Bank 4 Authority => (b.get c).holder)
    ((Keeps.forEach (discardJump_keeps H c _) allPorts).authority _)

theorem evaluate_armed (H : Bank 8 Handed) (c : Chan) (u : State) :
    (evaluate H c u).2.armed = (claimStep H c (quietStep H c u)).armed :=
  (Keeps.forEach (discardJump_keeps H c _) allPorts).armed _

/-- What the arbiter hands a channel, by the holder that its evaluation leaves (R118, R119). -/
theorem evaluate_handing {s t u : State} {c : Chan} (se : u.settings = s.settings) (au : u.auth c = s.auth c)
    (phase : ∀ p, (u.port p).phase = (s.port p).phase)
    (holder : (t.chan c).pub.holder = ((evaluate (handAll s).1 c u).2.auth c).holder)
    (armed : ∀ p, isSource s c p = true → t.armed.get p = (evaluate (handAll s).1 c u).2.armed.get p) :
    s.handing t c = ((evaluate (handAll s).1 c u).1.demand, (evaluate (handAll s).1 c u).1.jog,
      (evaluate (handAll s).1 c u).1.jump) := by
  rw [evaluate_holder] at holder
  rw [evaluate_armed] at armed
  have cons := claimed_console (handAll s).1 c u
  rw [au] at cons
  have kx : Keeps { reports := true, authority := true, armed := true }
      fun u => claimStep (handAll s).1 c (quietStep (handAll s).1 c u) :=
    ⟨fun u => Eq.trans ((claimStep_keeps ..).on _) ((quietStep_keeps ..).on u)⟩
  have sx := (kx.settings u).trans se
  have px := kx.ports u
  unfold evaluate
  dsimp only
  generalize claimStep (handAll s).1 c (quietStep (handAll s).1 c u) = x at *
  have get : ∀ p, (handAll s).1.get p = handOn s p := fun p => Bank.get_ofFn ..
  have src : isSource x c = isSource s c := by funext p; unfold isSource State.portSet; rw [sx]
  have role : portsOfRole x = portsOfRole s := by
    funext r; unfold portsOfRole State.role State.portSet; rw [sx]
  unfold State.handing
  dsimp only
  rw [holder]
  unfold holderItems admittedJumper jumpers
  simp only [get, src, role]
  cases hh : (x.auth c).holder with
  | none =>
    dsimp only
    rw [List.find?_filter]
    refine Prod.ext rfl (Prod.ext rfl ?_)
    dsimp only
    congr 1
    refine congrFun (congrArg List.find? ?_) _
    funext p
    cases hp : isSource s c p with
    | false => simp
    | true =>
      have : couldClaim { s with armed := t.armed } c p = couldClaim x c p := by
        unfold couldClaim
        have e1 : isSource { s with armed := t.armed } c p = isSource x c p := by rw [src]; rfl
        have e2 : (State.chanSet { s with armed := t.armed } c) = x.chanSet c := by
          unfold State.chanSet; rw [sx]
        have e3 : State.role { s with armed := t.armed } p = x.role p := by
          unfold State.role State.portSet; rw [sx]
        have e4 : (State.port { s with armed := t.armed } p).phase = (x.port p).phase := by
          rw [show x.port p = u.port p from congrArg (·.get p) px, phase]; rfl
        rw [e1, e2, e3, e4]
        rw [show (State.armed { s with armed := t.armed }).get p = x.armed.get p from armed p hp]
      rw [this]
      simp
  | some h =>
    cases h with
    | port p =>
      dsimp only
      refine Prod.ext rfl (Prod.ext rfl ?_)
      dsimp only
      have mem : p ∈ (portsOfRole s .operator ++ portsOfRole s .presenter).filter (fun p =>
          isSource s c p && (handOn s p).jump.isSome) ↔ (isSource s c p && (handOn s p).jump.isSome) = true := by
        rw [List.mem_filter]
        refine and_iff_right ?_
        rw [List.mem_append]
        unfold portsOfRole
        cases hr : s.role p <;> simp [allPorts, hr]
      cases hp : isSource s c p with
      | false =>
        rw [if_neg (by simp)]
        rw [if_neg (by rw [mem, hp]; simp)]
        rfl
      | true =>
        rw [if_pos rfl]
        cases hj : (handOn s p).jump with
        | none => rw [if_neg (by rw [mem, hj]; simp)]; rfl
        | some j =>
          rw [if_pos (by rw [mem, hj, hp]; simp)]
          simp [hj]
    | console => exact Prod.ext cons.1.symm (Prod.ext cons.2.symm rfl)

theorem storyJump_exchange (c : Chan) (p : PortId) (j : StoryJump) (u : State) :
    ((storyJump c p j u).chan c).exchange = (u.chan c).exchange := by
  unfold storyJump refuseJump
  dsimp only
  split
  · rw [raise_chan, State.chan_modChan_self]; rfl
  · split
    · rw [raise_chan, State.chan_modChan_self]; rfl
    · split
      · rw [State.chan_modChan_self]; rfl
      · rw [raise_chan, State.chan_modChan_self]; rfl

/-- A channel that has joined the search joins it no more. -/
theorem joinSearch_joins {u : State} {c : Chan} (live : u.isLive c = true) (a : Option Anchor) :
    joins (joinSearch c u) c a = (joins u c a && !joins u c (u.chan c).anchor) := by
  unfold joinSearch
  cases hs : u.exchange.searcher with
  | none => simp [joins, hs]
  | some sr =>
    dsimp only
    simp only [live, true_and]
    split
    · rename_i h
      have e : joins u c (u.chan c).anchor = true := by
        unfold joins
        rw [hs, Option.any_some, Bool.and_eq_true, beq_iff_eq, Bool.not_eq_true', ← Bool.not_eq_true]
        exact h
      rw [e]
      simp only [Bool.not_true, Bool.and_false]
      unfold joins
      have m : ∀ x, (joiningMember sr c x).channel = c := by
        intro x; unfold joiningMember
        split
        · rfl
        · split
          · rfl
          · split <;> rfl
      simp [m]
    · rename_i h
      have e : joins u c (u.chan c).anchor = false := by
        unfold joins
        rw [hs, Option.any_some, ← Bool.not_eq_true, Bool.and_eq_true, beq_iff_eq, Bool.not_eq_true', ← Bool.not_eq_true]
        exact h
      rw [e]
      simp

/-- What stages 1 to 5 make of a LIVE channel, in a state `u` of the frame event in which its stages begin. -/
theorem liveStages_stand {s t u : State} {c : Chan} {H : Bank 8 Handed} {d j : Int}
    {jump : Option (PortId × StoryJump)}
    (live : u.isLive c = true) (se : u.settings = s.settings) (st : u.stories = s.stories)
    (fe : u.fetch = s.fetch) (ch : u.chan c = s.chan c) (view : scriptView u c = scriptView s c)
    (join : ∀ a, joins u c a = joins s c a)
    (hand : (evaluate H c u).1 = ⟨d, j, jump⟩)
    (run : u.engine = .running) (frame : u.frame = t.frame) (before : Posts s u)
    (after : Posts (liveStages H c u).2 t) :
    let x := (s.chan c).standing
    let v := scriptView s c
    let fz := (s.chan c).freeze
    let out := liveStages H c u
    ∃ (y z w : Standing) (key : Option Key) (placed : Bool),
      anchorChecked (s.chan c).view v x y ∧
      boundaryChecked v { y with exchange := y.exchange || joins s c y.anchor } z ∧
      checksPosted s t c v x y z ∧
      out.2.chan c = { (s.chan c).stand
          { w with
            exchange := w.exchange || (!w.exchange && joins s c w.anchor)
            speed := if !w.exchange && joins s c w.anchor then 0 else w.speed } key placed with
        view := v, demand := d, starveCount := if out.1.starved && !(s.chan c).starve then
          min ((s.chan c).starveCount + 1) 65535 else (s.chan c).starveCount } ∧
      (∀ p k, jump = some (p, k) → ∃ done, jumpActed s t c v fz p k done z w ∧ out.1 = .still ∧
        placed = ((s.chan c).placed || replaced v x.anchor || done)) ∧
      (jump = none → placed = ((s.chan c).placed || replaced v x.anchor) ∧
        (z.anchor.bind (viewRow v) = none → w = z ∧ out.1 = .still) ∧
        ∀ row, z.anchor.bind (viewRow v) = some row →
          let adv := s.advanceAt c v fz z d j row
          advanceActed v row adv z w ∧ advancePosted s t c d adv z w ∧
          out.1 = ⟨adv.entered, adv.crossings, adv.stop.isHorizon⟩) := by
  intro x v fz out
  have houtv : out = _ := liveStages_eq H c u
  rw [show liveStages H c u = out from rfl, houtv] at after
  rw [hand] at houtv after
  -- the states between the stages
  unfold liveSettled at houtv after
  have kA := evaluate_keeps H c
  have pA := evaluate_posts H c u
  have seA := kA.settings u
  have stA := kA.stories u
  have feA := kA.fetch u
  have chA : (evaluate H c u).2.chan c = u.chan c := congrArg (·.get c) (kA.channels u)
  have viewA : scriptView (evaluate H c u).2 c = scriptView u c :=
    scriptView_congr seA (kA.rundown u) stA (by rw [kA.exchange]) (by simpa [State.isLive] using live) (by rw [chA])
  have exA := kA.exchange u
  have arA := kA.area u
  have tbA := kA.timebase u
  generalize hA : (evaluate H c u).2 = A at *
  -- stage 1
  have chB : (takeView c A).chan c = { s.chan c with view := v } := by
    unfold takeView
    rw [State.chan_modChan_self, viewA, view, chA, ch]
  have seB : (takeView c A).settings = s.settings := seA.trans se
  have stB : (takeView c A).stories = s.stories := stA.trans st
  have feB : (takeView c A).fetch = s.fetch := feA.trans fe
  have exB : (takeView c A).exchange = u.exchange := exA
  have arB : (takeView c A).area = u.area := arA
  have tbB : (takeView c A).timebase = u.timebase := tbA
  have pB : Posts s (takeView c A) := before.trans (pA.trans (takeView_posts c A))
  generalize hB : takeView c A = B at *
  have former : (u.chan c).view = (s.chan c).view := by rw [ch]
  rw [former] at houtv after
  -- stage 2
  have kC := checkAnchor_keeps c (s.chan c).view
  have pC := checkAnchor_posts c (s.chan c).view B
  have joinC := checkAnchor_stand (s := s) (t := t) (u := B) c (s.chan c).view stB
  have seC := (kC.settings B).trans seB
  have stC := (kC.stories B).trans stB
  have feC := (kC.fetch B).trans feB
  have exC := (kC.exchange B).trans exB
  have arC := (kC.area B).trans arB
  have tbC := (kC.timebase B).trans tbB
  generalize hC : checkAnchor c (s.chan c).view B = C at *
  -- joining
  have kD := joinSearch_keeps c
  have pD := joinSearch_posts c C
  have liveC : C.isLive c = true := by
    unfold State.isLive State.mode State.chanSet at live ⊢; rw [seC, ← se]; exact live
  have chD := joinSearch_stand liveC
  have joinsC : ∀ a, joins C c a = joins s c a := by
    intro a; rw [← join]; unfold joins; rw [exC]
  have exD : ∀ a, joins (joinSearch c C) c a = (joins s c a && !joins s c (C.chan c).anchor) := by
    intro a
    rw [← joinsC, ← joinsC]
    exact joinSearch_joins liveC a
  have seD := (kD.settings C).trans seC
  have stD := (kD.stories C).trans stC
  have feD := (kD.fetch C).trans feC
  have arD := (kD.area C).trans arC
  have tbD := (kD.timebase C).trans tbC
  generalize hD : joinSearch c C = D at *
  -- stage 3
  have kE := boundaryStage_keeps c
  have pE := boundaryStage_posts c D
  have bdE := boundaryStage_stand (s := s) (t := t) (u := D) c stD
  have exE := kE.exchange D
  have seE := (kE.settings D).trans seD
  have stE := (kE.stories D).trans stD
  have feE := (kE.fetch D).trans feD
  have arE := (kE.area D).trans arD
  have tbE := (kE.timebase D).trans tbD
  generalize hE : boundaryStage c D = E at *
  have liveE : E.isLive c = true := by
    unfold State.isLive State.mode State.chanSet at live ⊢; rw [seE, ← se]; exact live
  -- stages 4 and 5
  have k4 := stage4_keeps c ⟨d, j, jump⟩
  have p4 := stage4_posts c ⟨d, j, jump⟩ E
  have ex4 := k4.exchange E
  have se4 := (k4.settings E).trans seE
  have p5 := stage5_posts c (stage4 c ⟨d, j, jump⟩ E).2
  have live4 : (stage4 c ⟨d, j, jump⟩ E).2.isLive c = true := by
    unfold State.isLive State.mode State.chanSet at live ⊢; rw [se4, ← se]; exact live
  have ch5 := stage5_stand live4
  dsimp only at after houtv p4 p5 ex4 se4
  have post4 : Posts (stage4 c ⟨d, j, jump⟩ E).2 t := p5.trans after
  have postE : Posts E t := p4.trans post4
  have postC : Posts C t := pD.trans (pE.trans postE)
  -- standings
  obtain ⟨y, keyC, chC, act2, post2⟩ := joinC (heard pB (by unfold State.engine at run ⊢; rw [arB, run])
      (by unfold State.frame at frame ⊢; rw [tbB, frame]) postC)
  rw [chB] at chC act2 post2
  have yanchor : (C.chan c).anchor = y.anchor := by rw [chC]; rfl
  rw [yanchor] at chD exD
  have pC' := pB.trans pC
  have pD' := pC'.trans pD
  obtain ⟨b, chE, act3, post3⟩ := bdE (heard pD' (by unfold State.engine at run ⊢; rw [arD, run])
      (by unfold State.frame at frame ⊢; rw [tbD, frame]) postE)
  rw [joinsC, chC] at chD
  rw [chD] at chE act3 post3
  have pE' := pD'.trans pE
  let z : Standing := { y with exchange := y.exchange || joins s c y.anchor, boundary := b }
  have chE' : E.chan c = (Channel.stand z keyC ((s.chan c).placed || replaced v (s.chan c).anchor)
      { s.chan c with view := v }) := chE
  have checks : checksPosted s t c v x y z := ⟨post2, fun a ha hb hy => post3 a ha hb hy⟩
  have e4 : ∀ a, joins (stage4 c ⟨d, j, jump⟩ E).2 c a = (joins s c a && !joins s c y.anchor) := by
    intro a; rw [← exD]; unfold joins; rw [ex4, exE]
  have caught : ∀ w : Standing, w.exchange = z.exchange → (!w.exchange &&
      joins (stage4 c ⟨d, j, jump⟩ E).2 c w.anchor) = (!w.exchange && joins s c w.anchor) := by
    intro w hw
    rw [e4]
    have hz : z.exchange = (y.exchange || joins s c y.anchor) := rfl
    cases hj : joins s c y.anchor
    · simp
    · rw [hw, hz, hj]; simp
  have fin : ∀ (w : Standing) (key : Option Key) (placed : Bool) (n : Nat), w.exchange = z.exchange →
      (stage4 c ⟨d, j, jump⟩ E).2.chan c = { (s.chan c).stand w key placed with
        view := v, demand := d, starveCount := n } →
      out.2.chan c = { (s.chan c).stand
          { w with
            exchange := w.exchange || (!w.exchange && joins s c w.anchor)
            speed := if !w.exchange && joins s c w.anchor then 0 else w.speed } key placed with
        view := v, demand := d, starveCount := n } := by
    intro w key placed n hw h
    rw [houtv]
    dsimp only
    rw [ch5, h]
    have := caught w hw
    dsimp only [Channel.stand]
    rw [this]
  have runE : E.engine = .running := by unfold State.engine at run ⊢; rw [arE, run]
  have frameE : E.frame = t.frame := by unfold State.frame at frame ⊢; rw [tbE, frame]
  have chd : (E.modChan c fun ch => { ch with demand := d }).chan c =
      { Channel.stand z keyC ((s.chan c).placed || replaced v (s.chan c).anchor) { s.chan c with view := v } with
        demand := d } := by
    rw [State.chan_modChan_self, chE']
  have hear4 := heard (u := E.modChan c fun ch => { ch with demand := d }) (pE'.trans (Posts.of_eq rfl)) runE frameE
    post4
  generalize hm : (E.modChan c fun ch => { ch with demand := d }) = M at *
  have seM : M.settings = s.settings := by rw [← hm]; exact seE
  have stM : M.stories = s.stories := by rw [← hm]; exact stE
  have feM : M.fetch = s.fetch := by rw [← hm]; exact feE
  cases jump with
  | some pk =>
    obtain ⟨p, k⟩ := pk
    have e : stage4 c ⟨d, j, some (p, k)⟩ E = (.still, storyJump c p k M) := by
      unfold stage4; dsimp only; rw [hm]
    rw [e] at hear4 fin houtv
    obtain ⟨done, w, key, chJ, act4⟩ := storyJump_stand c p k seM hear4
    rw [chd] at chJ act4
    have wx : w.exchange = z.exchange := by
      have h1 := storyJump_exchange c p k M
      rw [chJ, chd] at h1
      exact h1
    refine ⟨y, z, w, key, ((s.chan c).placed || replaced v (s.chan c).anchor) || done, act2, act3, checks,
      fin w key _ _ wx ?_, ?_, by simp⟩
    · rw [chJ, houtv]
      rfl
    · rintro _ _ ⟨⟩
      refine ⟨done, act4, by rw [houtv], rfl⟩
  | none =>
    have e : stage4 c ⟨d, j, none⟩ E = advanceStage c d j M := by
      unfold stage4; dsimp only; rw [hm]
    rw [e] at hear4 fin houtv
    have row : (M.chan c).anchor.bind (viewRow (M.chan c).view) = z.anchor.bind (viewRow v) := by rw [chd]; rfl
    cases hr : z.anchor.bind (viewRow v) with
    | none =>
      have e1 : advanceStage c d j M = (.still, M) := by
        unfold advanceStage; dsimp only; rw [row, hr]
      rw [e1] at fin houtv
      refine ⟨y, z, z, keyC, (s.chan c).placed || replaced v (s.chan c).anchor, act2, act3, checks, fin z keyC _ _ rfl ?_, by simp, fun _ => ⟨rfl, ?_, ?_⟩⟩
      · rw [chd, houtv]
        rfl
      · rintro -
        exact ⟨rfl, by rw [houtv]⟩
      · rintro _ h; rw [hr] at h; cases h
    | some r =>
      let adv := s.advanceAt c v (s.chan c).freeze z d j r
      have eadv : advance (M.chanSet c) (M.chan c).view M.fetch r (M.chan c).fraction (M.chan c).speed
          (M.chan c).holds d j = adv := by
        unfold State.chanSet; rw [seM, feM, chd]; rfl
      have e1 : advanceStage c d j M = (⟨adv.entered, adv.crossings, adv.stop.isHorizon⟩,
          advanceReports c (M.chan c) ((anchorAtRow (M.chan c).view adv.row).or (M.chan c).anchor) d adv
            (M.modChan c (Channel.advanceTo M.fetch ((anchorAtRow (M.chan c).view adv.row).or (M.chan c).anchor) adv
              (decide (adv.row * 1024 + adv.fraction < r * 1024 + (M.chan c).fraction))))) := by
        unfold advanceStage; dsimp only; rw [row, hr]; dsimp only; rw [eadv]
      rw [e1] at fin houtv hear4
      let w : Standing := (Channel.advanceTo M.fetch ((anchorAtRow v adv.row).or z.anchor) adv
        (decide (adv.row * 1024 + adv.fraction < r * 1024 + z.fraction)) (M.chan c)).standing
      have hz : (M.chan c).standing = z := by rw [chd]; rfl
      have hv : (M.chan c).view = v := by rw [chd]; rfl
      have ha : (M.chan c).anchor = z.anchor := congrArg (·.anchor) hz
      have hf : (M.chan c).fraction = z.fraction := congrArg (·.fraction) hz
      have act4 : advanceActed v r adv z w := by
        have := advanceTo_acted (v := v) (f := M.fetch) (row := r) (adv := adv) (ch := M.chan c)
        rw [ha, hf, hz] at this
        exact this
      rw [hv, ha, hf] at hear4 fin houtv
      have post5 : advancePosted s t c d adv z w := by
        have := advanceReports_posted (s := s) (t := t) (u := M) (c := c) (ch := M.chan c)
          (x := M.modChan c (Channel.advanceTo M.fetch ((anchorAtRow v adv.row).or z.anchor) adv
            (decide (adv.row * 1024 + adv.fraction < r * 1024 + z.fraction))))
          (y := Channel.advanceTo M.fetch ((anchorAtRow v adv.row).or z.anchor) adv
            (decide (adv.row * 1024 + adv.fraction < r * 1024 + z.fraction)) (M.chan c)) stM feM hear4 rfl rfl rfl
          (by rw [chd]; rfl) (by rw [chd]; rfl) (by rw [chd]; rfl) rfl
        rw [hz] at this
        exact this
      have cnt := advanceReports_count c (M.chan c) ((anchorAtRow v adv.row).or z.anchor) d adv
        (M.modChan c (Channel.advanceTo M.fetch ((anchorAtRow v adv.row).or z.anchor) adv
          (decide (adv.row * 1024 + adv.fraction < r * 1024 + z.fraction))))
      rw [State.chan_modChan_self] at cnt
      have land : (adv.landed.isNone && adv.stop.isHorizon) = adv.stop.isHorizon := by
        cases hl : adv.landed with
        | none => simp
        | some a =>
          have : adv.stop = .reached := advance_landed (by show adv.landed.isSome = true; rw [hl]; rfl)
          rw [this]; rfl
      rw [land] at cnt
      refine ⟨y, z, w, (Channel.advanceTo M.fetch ((anchorAtRow v adv.row).or z.anchor) adv
        (decide (adv.row * 1024 + adv.fraction < r * 1024 + z.fraction)) (M.chan c)).key, (s.chan c).placed || replaced v (s.chan c).anchor, act2, act3, checks,
        fin w _ _ _ act4.2.2.2.2.2 ?_, by simp, fun _ => ⟨rfl, fun h => (by rw [hr] at h; cases h), ?_⟩⟩
      · rw [cnt, houtv]
        dsimp only
        have e2 : (M.chan c).starve = (s.chan c).starve := by rw [chd]; rfl
        have e3 : (M.chan c).starveCount = (s.chan c).starveCount := by rw [chd]; rfl
        rw [e2, e3]
        have e4 : ∀ a : Advance, ∀ b : Option Anchor, ∀ l : Bool, (Channel.advanceTo M.fetch b a l (M.chan c)) =
            { (s.chan c).stand (Channel.advanceTo M.fetch b a l (M.chan c)).standing
              (Channel.advanceTo M.fetch b a l (M.chan c)).key
              ((s.chan c).placed || replaced v (s.chan c).anchor) with view := v, demand := d } := by
          intro a b l
          rw [chd]
          rfl
        have e5 : (Channel.advanceTo M.fetch ((anchorAtRow v adv.row).or z.anchor) adv
          (decide (adv.row * 1024 + adv.fraction < r * 1024 + z.fraction)) (M.chan c)).starveCount =
            (s.chan c).starveCount := e3
        rw [e5]
        conv_lhs => rw [e4]
      · intro r' h'
        rw [hr] at h'
        cases h'
        exact ⟨act4, post5, by rw [houtv]⟩

/-! ### What the stages of one channel leave of the others' -/

theorem joinSearch_joins_ne {c d : Chan} (h : d ≠ c) (u : State) (a : Option Anchor) :
    joins (joinSearch c u) d a = joins u d a := by
  unfold joinSearch
  cases hs : u.exchange.searcher with
  | none => rfl
  | some sr =>
    dsimp only
    split
    · unfold joins
      have m : ∀ x, (joiningMember sr c x).channel = c := by
        intro x; unfold joiningMember
        split
        · rfl
        · split
          · rfl
          · split <;> rfl
      have : (c == d) = false := by simp [Ne.symm h]
      simp [m, hs, this]
    · rfl

theorem liveStages_joins_ne (H : Bank 8 Handed) {c d : Chan} (h : d ≠ c) (u : State) (a : Option Anchor) :
    joins (liveStages H c u).2 d a = joins u d a := by
  have congr : ∀ x y : State, x.exchange = y.exchange → joins x d a = joins y d a := by
    intro x y e; unfold joins; rw [e]
  have five : ∀ x, joins (stage5 c x) d a = joins x d a := by
    intro x
    unfold stage5
    dsimp only
    split
    · exact joinSearch_joins_ne h x a
    · exact joinSearch_joins_ne h x a
  rw [liveStages_eq, five, congr _ _ ((stage4_keeps ..).exchange _)]
  unfold liveSettled
  rw [congr _ _ ((boundaryStage_keeps c).exchange _), joinSearch_joins_ne h,
    congr _ _ ((checkAnchor_keeps ..).exchange _), congr _ _ ((takeView_keeps c).exchange _),
    congr _ _ ((evaluate_keeps H c).exchange _)]

theorem beforeStages_joins {ys : List Chan} {c : Chan} (h : c ∉ ys) (s : State) (a : Option Anchor) :
    joins (beforeStages ys s) c a = joins s c a := by
  refine (forEach_same (π := fun t => joins t c a) ys
    (fun d hd t => liveStages_joins_ne _ (c := d) (d := c) (fun e => h (e ▸ hd)) t a) _).trans ?_
  unfold joins
  rw [armedStart_keeps.exchange]

theorem disarm_ne {u : State} {c : Chan} {p : PortId} (h : isSource u c p = false) :
    (disarmPresenters c u).armed.get p = u.armed.get p := by
  have : ∀ x : State, x.settings = u.settings → ∀ ps : List PortId,
      (forEach ps (fun p t => if isSource t c p ∧ t.role p = .presenter then t.setArmed p false else t) x).armed.get p
        = x.armed.get p := by
    intro x hx ps
    induction ps generalizing x with
    | nil => rfl
    | cons q ps ih =>
      rw [forEach_cons]
      split
      · rename_i hq
        rw [ih (x.setArmed q false) hx]
        have ne : p ≠ q := by
          rintro rfl
          have : isSource x c p = isSource u c p := by unfold isSource State.portSet; rw [hx]
          rw [this, h] at hq
          exact absurd hq.1 (by simp)
        exact Bank.get_set_ne _ _ ne
      · exact ih x hx
  exact this u rfl allPorts

theorem evaluate_armed_ne (H : Bank 8 Handed) {c : Chan} {u : State} {p : PortId} (h : isSource u c p = false) :
    (evaluate H c u).2.armed.get p = u.armed.get p := by
  rw [evaluate_armed]
  have q := (quietStep_keeps H c).armed u
  have qs := (quietStep_keeps H c).settings u
  generalize quietStep H c u = x at *
  rw [← q]
  have hx : isSource x c p = false := by unfold isSource State.portSet at h ⊢; rw [qs]; exact h
  unfold claimStep
  dsimp only
  split
  · split
    · rfl
    · exact congrArg (·.get p) ((takeHolder_keeps ..).armed _)
  · split
    · split
      · rfl
      · rw [disarm_ne]
        · exact congrArg (·.get p) ((takeHolder_keeps ..).armed _)
        · unfold isSource State.portSet at hx ⊢; rw [(takeHolder_keeps ..).settings]; exact hx
    · rfl

theorem liveStages_armed (H : Bank 8 Handed) (c : Chan) (u : State) :
    (liveStages H c u).2.armed = (evaluate H c u).2.armed := by
  rw [liveStages_eq]
  dsimp only
  rw [(stage5_keeps c).armed, (stage4_keeps ..).armed]
  unfold liveSettled
  rw [(boundaryStage_keeps c).armed, (joinSearch_keeps c).armed, (checkAnchor_keeps ..).armed,
    (takeView_keeps c).armed]

/-- The arm flags of a channel's sources stand as its evaluation left them. -/
theorem laterStages_armed (H : Bank 8 Handed) {xs : List Chan} {c : Chan} {p : PortId} (h : c ∉ xs) (u : State)
    (src : isSource u c p = true) : (forEach xs (fun d t => (liveStages H d t).2) u).armed.get p = u.armed.get p := by
  induction xs generalizing u with
  | nil => rfl
  | cons d xs ih =>
    have ne : c ≠ d := fun e => h (e ▸ List.mem_cons_self ..)
    have sett := (liveStages_keeps H d).settings u
    rw [forEach_cons]
    refine (ih (fun m => h (List.mem_cons_of_mem _ m)) _ ?_).trans ?_
    · unfold isSource State.portSet at src ⊢; rw [sett]; exact src
    · rw [liveStages_armed, evaluate_armed_ne]
      unfold isSource at src ⊢
      simp at src ⊢
      intro _
      rw [src.2]; exact ne

/-! ### A LIVE channel's stages within the frame event -/

theorem beforeStages_timebase (ys : List Chan) (s : State) : (beforeStages ys s).timebase = (frameStart s).timebase :=
  ((Keeps.forEach (liveStages_keeps _) ys).timebase _).trans
    (((armPorts_keeps _).timebase _).trans (handAll_keeps.timebase _))

theorem beforePublication_timebase (zs : List Chan) (s : State) :
    (beforePublication zs s).timebase = (frameStart s).timebase := by
  unfold beforePublication
  rw [(Keeps.forEach (publishChannel_keeps _) zs).timebase, advancedStart_state]
  exact beforeStages_timebase ..

theorem freeFrame_timebase (s : State) (free : s.timebase.lock = .free) (run : s.engine = .running) :
    (freeFrame s).timebase = (frameStart s).timebase := by
  rw [freeFrame_running s free run, scanFrame_keeps.timebase, exchangeFrame_keeps.timebase,
    composeHeads_keeps.timebase, channelsFrame_start, (Keeps.forEach (writePortStatus_keeps _) allPorts).timebase]
  exact beforePublication_timebase ..

/-- The ports' states stand through the frame event. -/
theorem beforeStages_phase (ys : List Chan) (s : State) (p : PortId) :
    ((beforeStages ys s).port p).phase = (s.port p).phase := by
  unfold State.port
  rw [show (beforeStages ys s).ports = (armedStart s).ports from (Keeps.forEach (liveStages_keeps _) ys).ports _,
    show (armedStart s).ports = (handAll (frameStart s)).2.ports from (armPorts_keeps _).ports _]
  show (((frameStart s).ports.map Port.handedOn).get p).phase = _
  rw [Bank.get_map, frameStart_keeps.ports]
  rfl

theorem advancedStart_split {s : State} {c : Chan} {ys xs : List Chan} (h : liveChans s = ys ++ c :: xs) :
    (advancedStart s).2 = forEach xs (fun d t => (liveStages (handAll s).1 d t).2)
      (liveStages (handAll s).1 c (beforeStages ys s)).2 := by
  rw [advancedStart_state, h]
  unfold beforeStages
  rw [forEach_append, forEach_cons]

/-- The posts of a frame event after the stages of one channel. -/
theorem liveStages_after {s : State} {c : Chan} {ys xs : List Chan} (free : s.timebase.lock = .free)
    (run : s.engine = .running) (h : liveChans s = ys ++ c :: xs) :
    Posts (liveStages (handAll s).1 c (beforeStages ys s)).2 (freeFrame s) := by
  have h1 : Posts (liveStages (handAll s).1 c (beforeStages ys s)).2 (advancedStart s).2 := by
    rw [advancedStart_split h]
    exact forEach_posts (fun d t => liveStages_posts _ d t) xs _
  have h2 : Posts (advancedStart s).2 (beforePublication (frameOrder s) s) :=
    forEach_posts (fun d t => publishChannel_posts _ d t) _ _
  exact h1.trans (h2.trans (freeFrame_posts s free run))

/-- The arm flags of a channel's sources at the end of the frame event are those of its evaluation. -/
theorem freeFrame_armed {s : State} {c : Chan} {ys xs : List Chan} {p : PortId} (free : s.timebase.lock = .free)
    (run : s.engine = .running) (h : liveChans s = ys ++ c :: xs) (n : c ∉ xs) (src : isSource s c p = true) :
    (freeFrame s).armed.get p = (evaluate (handAll s).1 c (beforeStages ys s)).2.armed.get p := by
  have h1 : (freeFrame s).armed = (advancedStart s).2.armed := by
    rw [freeFrame_running s free run, scanFrame_keeps.armed, exchangeFrame_keeps.armed,
      composeHeads_keeps.armed, channelsFrame_start, (Keeps.forEach (writePortStatus_keeps _) allPorts).armed]
    unfold beforePublication
    rw [(Keeps.forEach (publishChannel_keeps _) (frameOrder s)).armed]
  rw [h1, advancedStart_split h, laterStages_armed _ n, liveStages_armed]
  unfold isSource State.portSet at src ⊢
  rw [(liveStages_keeps _ c).settings, (beforeStages_keeps ys).settings]
  exact src

/-- What the arbiter hands a LIVE channel at a frame event, by the evaluation before its stages. -/
theorem freeFrame_handing {s : State} {c : Chan} (free : s.timebase.lock = .free) (run : s.engine = .running)
    (live : s.mode c = .live) : ∃ ys xs, liveChans s = ys ++ c :: xs ∧ c ∉ ys ∧
    let out := (evaluate (handAll s).1 c (beforeStages ys s)).1
    s.handing (freeFrame s) c = (out.demand, out.jog, out.jump) := by
  obtain ⟨ys, xs, zs, e, n1, n2, -, e1, -, e3, -, -⟩ := live_at live
  obtain ⟨x, fin⟩ := freeFrame_chan s free run c
  rw [stage6_chan] at e1
  rw [e1] at fin
  have holder : ((freeFrame s).chan c).pub.holder =
      ((evaluate (handAll s).1 c (beforeStages ys s)).2.auth c).holder := by
    rw [fin]
    show ((beforePublication zs s).auth c).holder = _
    rw [e3]
    exact congrArg (fun b : Bank 4 Authority => (b.get c).holder) (liveStages_auth ..)
  exact ⟨ys, xs, e, n1, evaluate_handing ((beforeStages_keeps ys).settings s) (beforeStages_auth n1 s)
    (beforeStages_phase ys s) holder fun p => freeFrame_armed free run e n2⟩

end Sys2Proof.Machine
end

