-- ==== Sys2Proof/Laws/Lamps.lean ====
section
/-! SUPPORT. What a frame event in RUNNING can do to the Line Cache, and what the Lamp Unit does at each publication. -/

namespace Sys2Proof.Machine

set_option Elab.async false

/-! ### The Line Cache through a frame event (R78, R82) -/

theorem Place.Issued.trans {p q r : Place} (h : p.Issued q) (k : q.Issued r) : p.Issued r := by
  obtain rfl | ⟨e, n, rfl, rfl⟩ | ⟨⟨e, rfl, he⟩, hp⟩ := h
  · exact k
  · obtain rfl | ⟨e', n', h1, rfl⟩ | ⟨hr, hq⟩ := k
    · exact .inr (.inl ⟨e, n, rfl, rfl⟩)
    · cases h1; exact .inr (.inl ⟨e, n', rfl, rfl⟩)
    · exact .inr (.inr ⟨hr, fun x hx => by cases hx; have := hq _ rfl; exact this⟩)
  · obtain rfl | ⟨e', n', h1, rfl⟩ | ⟨-, hq⟩ := k
    · exact .inr (.inr ⟨⟨e, rfl, he⟩, hp⟩)
    · cases h1; exact .inr (.inr ⟨⟨_, rfl, he⟩, hp⟩)
    · exact absurd he (hq _ rfl)

theorem Fetch.Issued.refl (f : Fetch) : f.Issued f := fun _ => .inl rfl

theorem Fetch.Issued.trans {f g h : Fetch} (a : f.Issued g) (b : g.Issued h) : f.Issued h := fun i => (a i).trans (b i)

/-- The place of an evicted entry held a RESIDENT or FAILED one. -/
theorem victim_evictable {f : Fetch} {frame : Word} {i : Fin 512} (h : f.victim frame = some i) :
    (f.evictable frame (f.cache.get i)).isSome := by
  have : ∀ (xs : List (Fin 512)) (best : Option (Fin 512 × Nat)),
      (∀ b, best = some b → (f.evictable frame (f.cache.get b.1)).isSome) →
      ∀ b, xs.foldl (fun best i =>
        match f.evictable frame (f.cache.get i) with
        | none => best
        | some age =>
          match best with
          | none => some (i, age)
          | some (_, old) => if old < age then some (i, age) else best) best = some b →
        (f.evictable frame (f.cache.get b.1)).isSome := by
    intro xs
    induction xs with
    | nil => exact fun best hb => hb
    | cons x xs ih =>
      intro best hb
      refine ih _ ?_
      intro b h'
      dsimp only at h'
      split at h'
      · exact hb b h'
      · rename_i age hx
        split at h'
        · cases h'; rw [hx]; rfl
        · split at h'
          · cases h'; rw [hx]; rfl
          · exact hb b h'
  unfold Fetch.victim at h
  obtain ⟨b, hb, rfl⟩ := Option.map_eq_some_iff.1 h
  exact this _ none (by simp) b hb

/-- The place chosen for a read holds no FILLING entry. -/
theorem choosePlace_free {f : Fetch} {frame : Word} {k : Slot} {line : Nat} {i : Fin 512} {n : Nat}
    (h : f.choosePlace frame k line = some (i, n)) : ∀ e, f.cache.get i = .held e → e.state ≠ .filling := by
  intro e he
  unfold Fetch.choosePlace at h
  split at h
  · rename_i j hj
    cases h
    have := List.find?_some hj
    rw [he] at this
    intro hf
    simp [Place.ownFailure, hf] at this
  · split at h
    · rename_i j hj
      cases h
      have := List.find?_some hj
      rw [he] at this
      cases this
    · obtain ⟨j, hj, e'⟩ := Option.map_eq_some_iff.1 h
      cases e'
      have := victim_evictable hj
      rw [he] at this
      intro hf
      simp [Fetch.evictable, hf] at this

theorem issueAll_issued (s : State) : s.fetch.Issued (issueAll s).fetch :=
  issueAll_induct (P := fun t => s.fetch.Issued t.fetch) (fun u t h e => by
    obtain ⟨-, -, q, i, n, -, hp, rfl⟩ := issueOne_some h
    refine e.trans fun j => ?_
    show Place.Issued _ ((u.fetch.cache.set i _).get j)
    rw [Bank.get_set]
    split
    · rename_i e'
      subst e'
      exact .inr (.inr ⟨⟨_, rfl, rfl⟩, choosePlace_free hp⟩)
    · exact .inl rfl) s (Fetch.Issued.refl _)

theorem needUpdate_issued (c : Chan) (s : State) : s.fetch.Issued (needUpdate c s).fetch := by
  refine Fetch.Issued.trans ?_ (issueAll_issued _)
  intro i
  show Place.Issued _ ((s.fetch.cache.map _).get i)
  rw [Bank.get_map]
  cases s.fetch.cache.get i with
  | free => exact .inl rfl
  | withdrawn => exact .inl rfl
  | held e =>
    show Place.Issued _ (if _ then .held { e with lastNeeded := s.frame } else .held e)
    split
    · exact .inr (.inl ⟨e, _, rfl, rfl⟩)
    · exact .inl rfl

theorem publishChannel_issued (outcomes : Bank 4 Stage4) (c : Chan) (s : State) :
    s.fetch.Issued (publishChannel outcomes c s).fetch := by
  have := needUpdate_issued c (makePublication outcomes c s)
  rw [(makePublication_keeps outcomes c).fetch] at this
  exact this

theorem forEach_issued (outcomes : Bank 4 Stage4) (cs : List Chan) (s : State) :
    s.fetch.Issued (forEach cs (publishChannel outcomes) s).fetch :=
  forEach_induct (P := fun t => s.fetch.Issued t.fetch) cs
    (fun c _ t h => h.trans (publishChannel_issued outcomes c t)) s (Fetch.Issued.refl _)

/-! ### The Lamp Unit at a publication (R141, R142, R144, R145) -/

theorem groupAct_ne {c : Chan} {r : CrossingRecord} {g h : GroupId} (ne : g ≠ h) (s : State) :
    (groupAct c r h s).lamps.pattern.get g = s.lamps.pattern.get g := by
  unfold groupAct
  split
  · exact Bank.get_set_ne _ _ ne
  · rfl

/-- The pattern of a group after a publication of channel `c`. -/
def publishedPattern (s : State) (c : Chan) (r : CrossingRecord) (g : GroupId) : BitVec 4 :=
  if s.settings.groupChannel.get g = c then
    match s.settings.groupMode.get g with
    | .latch => latchPattern r (s.lamps.pattern.get g)
    | .span => spanPattern s.fetch (s.chan c).pub.anchor
  else s.lamps.pattern.get g

theorem cuePassed_pattern (c : Chan) (xs : List Crossing) (s : State) :
    (cuePassed c xs s).lamps.pattern = s.lamps.pattern := by
  unfold cuePassed
  split
  · rfl
  · rw [(raise_keeps _).lamps]

theorem cuePassed_strobe (c : Chan) (xs : List Crossing) (s : State) :
    (cuePassed c xs s).lamps.strobe = if xs = [] then s.lamps.strobe else s.lamps.strobe.set c 100 := by
  unfold cuePassed
  split
  · rename_i h
    rw [if_pos (List.getLast?_eq_none_iff.1 h)]
  · rename_i x h
    rw [(raise_keeps _).lamps, if_neg]
    rintro rfl
    cases h

theorem lampsAct_pattern (c : Chan) (r : CrossingRecord) (g : GroupId) (s : State) :
    (lampsAct c r s).lamps.pattern.get g = publishedPattern s c r g := by
  unfold lampsAct
  rw [cuePassed_pattern]
  obtain ⟨ys, zs, -, h1, h2, e⟩ := forEach_at (f := groupAct c r) (fun t => t.lamps.pattern.get g)
    (List.mem_finRange g) (List.nodup_finRange 4) (fun y hy t => groupAct_ne (Ne.symm hy) t) s
  rw [e]
  have k : Keeps { lamps := true } (forEach ys (groupAct c r)) := Keeps.forEach (groupAct_keeps c r) ys
  have old : (forEach ys (groupAct c r) s).lamps.pattern.get g = s.lamps.pattern.get g :=
    forEach_same (π := fun t => t.lamps.pattern.get g) ys (fun y hy t => groupAct_ne (g := g) (h := y) (fun e => h1 (e ▸ hy)) t) s
  have se := k.settings s
  have fe := k.fetch s
  have ch := k.channels s
  generalize forEach ys (groupAct c r) s = u at *
  unfold groupAct publishedPattern State.chan
  rw [se, fe, ch, old]
  split
  · simp only [Bank.get_set_self] <;> cases s.settings.groupMode.get g <;> rfl
  · exact old

theorem lampsAct_strobe (c : Chan) (r : CrossingRecord) (s : State) :
    (lampsAct c r s).lamps.strobe = if r.crossings = [] then s.lamps.strobe else s.lamps.strobe.set c 100 := by
  have : (forEach (List.finRange 4) (groupAct c r) s).lamps.strobe = s.lamps.strobe :=
    forEach_same (π := fun t => t.lamps.strobe) _ (fun g _ t => by unfold groupAct; split <;> rfl) s
  unfold lampsAct
  rw [cuePassed_strobe, this]

/-- CUE_PASSED (R145) is raised last, by the last signalling crossing. -/
theorem lampsAct_raises (c : Chan) (r : CrossingRecord) (s : State) {x : Crossing}
    (h : r.crossings.getLast? = some x) : ∃ u, lampsAct c r s = raise ⟨channelSlot c, .cuePassed,
      slotWord x.line.slot, natWord x.line.line, natWord r.crossings.length, natWord x.direction.code⟩ u ∧
      u.reports = s.reports ∧ u.area = s.area ∧ u.timebase = s.timebase := by
  have k : Keeps { lamps := true } (forEach (List.finRange 4) (groupAct c r)) := Keeps.forEach (groupAct_keeps c r) _
  unfold lampsAct cuePassed
  rw [h]
  exact ⟨_, rfl, k.reports s, k.area s, k.timebase s⟩

/-! ### The publications of a frame event -/

/-- The crossing record that a channel's publication hands to the Lamp Unit (R140), in the state before it. -/
def recordOf (outcomes : Bank 4 Stage4) (s : State) (c : Chan) : CrossingRecord :=
  match s.mode c with
  | .live => ⟨(s.chan c).placed, (outcomes.get c).entered, (outcomes.get c).crossings⟩
  | .off => ⟨(s.chan c).placed, [], []⟩
  | .follow => ⟨(s.chan c).placed, followEntered s.fetch (s.chan c).pub.anchor
      (derivePosition (s.chan (s.chanSet c).leader).view (s.chan (s.chanSet c).leader).pub (s.chanSet c).offset).1, []⟩

theorem publish_lamps (c : Chan) (pub : Published) (es : List Entered) (xs : List Crossing) (s : State) : ∃ u,
    publish c pub es xs s = lampsAct c ⟨(s.chan c).placed, es, xs⟩ u ∧ u.lamps = s.lamps ∧
    u.settings = s.settings ∧ u.fetch = s.fetch ∧ u.reports = s.reports ∧ u.area = s.area ∧
    u.timebase = s.timebase :=
  ⟨_, rfl, rfl, rfl, rfl, rfl, rfl, rfl⟩

/-- A publication hands the channel's record to the Lamp Unit last, from a state that agrees with the state before it in
the lamps, the settings and the cache. -/
theorem makePublication_lamps (outcomes : Bank 4 Stage4) (c : Chan) (s : State) : ∃ u,
    makePublication outcomes c s = lampsAct c (recordOf outcomes s c) u ∧ u.lamps = s.lamps ∧
    u.settings = s.settings ∧ u.fetch = s.fetch ∧ u.reports = s.reports ∧ u.area = s.area ∧
    u.timebase = s.timebase := by
  unfold makePublication recordOf
  cases h : s.mode c with
  | live =>
    obtain ⟨u, e, rest⟩ := publish_lamps c (livePublication (s.modChan c
      (Channel.settle s.fetch (outcomes.get c).starved)) c) (outcomes.get c).entered (outcomes.get c).crossings
      (s.modChan c (Channel.settle s.fetch (outcomes.get c).starved))
    rw [State.chan_modChan_self] at e
    exact ⟨u, e, rest⟩
  | off =>
    obtain ⟨u, e, rest⟩ := publish_lamps c (offPublication (clearConsoleJog c s) c) [] [] (clearConsoleJog c s)
    exact ⟨u, e, rest⟩
  | follow =>
    have := publish_lamps c
    unfold followFrame
    dsimp only
    obtain ⟨u, e, rest⟩ := this (followPublication ((clearConsoleJog c s).modChan c fun ch =>
      Channel.settle (clearConsoleJog c s).fetch false
        { ch.moveTo (clearConsoleJog c s).fetch (derivePosition (s.chan (s.chanSet c).leader).view
            (s.chan (s.chanSet c).leader).pub (s.chanSet c).offset).1 (derivePosition
            (s.chan (s.chanSet c).leader).view (s.chan (s.chanSet c).leader).pub (s.chanSet c).offset).2 with
          view := (s.chan (s.chanSet c).leader).view }) c)
      (followEntered s.fetch (s.chan c).pub.anchor (derivePosition (s.chan (s.chanSet c).leader).view
        (s.chan (s.chanSet c).leader).pub (s.chanSet c).offset).1) [] ((clearConsoleJog c s).modChan c fun ch =>
      Channel.settle (clearConsoleJog c s).fetch false
        { ch.moveTo (clearConsoleJog c s).fetch (derivePosition (s.chan (s.chanSet c).leader).view
            (s.chan (s.chanSet c).leader).pub (s.chanSet c).offset).1 (derivePosition
            (s.chan (s.chanSet c).leader).view (s.chan (s.chanSet c).leader).pub (s.chanSet c).offset).2 with
          view := (s.chan (s.chanSet c).leader).view })
    rw [State.chan_modChan_self] at e
    exact ⟨u, e, rest⟩

/-! ### The lamps through the frame event -/

theorem publishChannel_lamps (outcomes : Bank 4 Stage4) (c : Chan) (s : State) :
    (publishChannel outcomes c s).lamps = (makePublication outcomes c s).lamps := (needUpdate_keeps c).lamps _

theorem publishChannel_pattern (outcomes : Bank 4 Stage4) (c : Chan) (g : GroupId) (s : State) :
    (publishChannel outcomes c s).lamps.pattern.get g =
      if s.settings.groupChannel.get g = c then
        match s.settings.groupMode.get g with
        | .latch => latchPattern (recordOf outcomes s c) (s.lamps.pattern.get g)
        | .span => spanPattern s.fetch ((publishChannel outcomes c s).chan c).pub.anchor
      else s.lamps.pattern.get g := by
  obtain ⟨u, e, la, se, fe, -⟩ := makePublication_lamps outcomes c s
  have ch : (publishChannel outcomes c s).chan c = u.chan c := by
    rw [publishChannel_chan, e]
    exact congrArg (Bank.get · c) ((lampsAct_keeps ..).channels u)
  rw [publishChannel_lamps, e, lampsAct_pattern, ch]
  unfold publishedPattern
  rw [la, se, fe]

theorem publishChannel_strobe (outcomes : Bank 4 Stage4) (c : Chan) (s : State) :
    (publishChannel outcomes c s).lamps.strobe =
      if (recordOf outcomes s c).crossings = [] then s.lamps.strobe else s.lamps.strobe.set c 100 := by
  obtain ⟨u, e, la, -⟩ := makePublication_lamps outcomes c s
  rw [publishChannel_lamps, e, lampsAct_strobe, la]

/-- What the Lamp Unit makes of a channel's publication stands at the end of the frame event. `w` is the state before
that publication. -/
theorem freeFrame_lamps (s : State) (c : Chan) (free : s.timebase.lock = .free) (run : s.engine = .running) :
    ∃ zs, let w := beforePublication zs s
      let r := recordOf (advancedStart s).1 w c
      c ∉ zs ∧ s.fetch.Issued w.fetch ∧ w.fetch.Issued (freeFrame s).fetch ∧
      ((freeFrame s).chan c).pub = ((makePublication (advancedStart s).1 c w).chan c).pub ∧
      (∀ g, s.settings.groupChannel.get g = c → (freeFrame s).lamps.pattern.get g =
        match s.settings.groupMode.get g with
        | .latch => latchPattern r (s.lamps.pattern.get g)
        | .span => spanPattern w.fetch ((freeFrame s).chan c).pub.anchor) ∧
      (freeFrame s).lamps.strobe.get c = (if r.crossings = [] then s.lamps.strobe.get c else 100) ∧
      ∀ x, r.crossings.getLast? = some x → posted s (freeFrame s) ⟨channelSlot c, .cuePassed,
        slotWord x.line.slot, natWord x.line.line, natWord r.crossings.length, natWord x.direction.code⟩ := by
  obtain ⟨zs, ws, e, h1, h2, e1, -⟩ := beforePublication_at s c
  have split : beforePublication (frameOrder s) s = forEach ws (publishChannel (advancedStart s).1)
      (publishChannel (advancedStart s).1 c (beforePublication zs s)) := by
    unfold beforePublication
    rw [e, forEach_append, forEach_cons]
  have tail : (freeFrame s).lamps = (beforePublication (frameOrder s) s).lamps ∧
      (freeFrame s).fetch = (beforePublication (frameOrder s) s).fetch := by
    rw [freeFrame_running s free run, scanFrame_keeps.lamps, exchangeFrame_keeps.lamps,
      composeHeads_keeps.lamps, scanFrame_keeps.fetch, exchangeFrame_keeps.fetch, composeHeads_keeps.fetch,
      channelsFrame_start, (Keeps.forEach (writePortStatus_keeps _) allPorts).lamps,
      (Keeps.forEach (writePortStatus_keeps _) allPorts).fetch]
    exact ⟨rfl, rfl⟩
  have pub : ((freeFrame s).chan c).pub = ((publishChannel (advancedStart s).1 c (beforePublication zs s)).chan c).pub := by
    obtain ⟨x, hx⟩ := freeFrame_chan s free run c
    rw [hx]
    show ((beforePublication (frameOrder s) s).chan c).pub = _
    rw [e1, publishChannel_chan]
  have kw := beforePublication_keeps zs
  have begins : (advancedStart s).2.fetch = s.fetch := advancedStart_keeps.fetch s
  have lamps0 : (advancedStart s).2.lamps = s.lamps := advancedStart_keeps.lamps s
  have ne : ∀ (o : Bank 4 Stage4) (d : Chan) (u : State), d ≠ c → u.settings = s.settings →
      (∀ g, s.settings.groupChannel.get g = c →
        (publishChannel o d u).lamps.pattern.get g = u.lamps.pattern.get g) ∧
      (publishChannel o d u).lamps.strobe.get c = u.lamps.strobe.get c := by
    intro o d u hd hu
    refine ⟨fun g hg => ?_, ?_⟩
    · rw [publishChannel_pattern, hu, if_neg]
      rw [hg]; exact Ne.symm hd
    · rw [publishChannel_strobe]
      split
      · rfl
      · exact Bank.get_set_ne _ _ (Ne.symm hd)
  have many : ∀ (o : Bank 4 Stage4) (ds : List Chan) (u : State), c ∉ ds → u.settings = s.settings →
      (∀ g, s.settings.groupChannel.get g = c →
        (forEach ds (publishChannel o) u).lamps.pattern.get g = u.lamps.pattern.get g) ∧
      (forEach ds (publishChannel o) u).lamps.strobe.get c = u.lamps.strobe.get c := by
    intro o ds
    induction ds with
    | nil => exact fun u _ _ => ⟨fun _ _ => rfl, rfl⟩
    | cons d ds ih =>
      intro u hd hu
      have hd' : c ∉ ds := fun m => hd (List.mem_cons_of_mem _ m)
      have hne : d ≠ c := fun e => hd (e ▸ List.mem_cons_self ..)
      have h := ih (publishChannel o d u) hd' (((publishChannel_keeps o d).settings u).trans hu)
      have k := ne o d u hne hu
      rw [forEach_cons]
      exact ⟨fun g hg => (h.1 g hg).trans (k.1 g hg), h.2.trans k.2⟩
  have before := many (advancedStart s).1 zs (advancedStart s).2 h1 (advancedStart_keeps.settings s)
  have after := many (advancedStart s).1 ws
    (publishChannel (advancedStart s).1 c (beforePublication zs s)) h2
    (((publishChannel_keeps _ c).settings _).trans (kw.settings s))
  rw [lamps0] at before
  refine ⟨zs, h1, ?_, ?_, ?_, fun g hg => ?_, ?_, fun x hx => ?_⟩
  · have := forEach_issued (advancedStart s).1 zs (advancedStart s).2
    rw [begins] at this
    exact this
  · rw [tail.2, split]
    exact (publishChannel_issued _ c _).trans (forEach_issued _ ws _)
  · rw [pub, publishChannel_chan]
  · rw [tail.1, split, after.1 g hg, publishChannel_pattern, pub, kw.settings s, if_pos hg]
    have := before.1 g hg
    rw [show (beforePublication zs s).lamps.pattern.get g = s.lamps.pattern.get g from this]
  · rw [tail.1, split, after.2, publishChannel_strobe]
    have := before.2
    split
    · exact this
    · exact Bank.get_set_self ..
  · obtain ⟨u, eu, la, se, fe, hr, ha, ht⟩ := makePublication_lamps (advancedStart s).1 c (beforePublication zs s)
    obtain ⟨v, ev, vr, va, vt⟩ := lampsAct_raises c _ u hx
    have start : Posts s (beforePublication zs s) := by
      have h1 : Posts s (advancedStart s).2 := by
        rw [advancedStart_state]; exact beforeStages_posts ..
      exact h1.trans (forEach_posts (fun d t => publishChannel_posts _ d t) _ _)
    refine posted_of_raise (u := v) (start.trans (Posts.of_eq (vr.trans hr))) ?_ ?_ ?_
    · have : v.engine = s.engine := by
        unfold State.engine; rw [va, ha, kw.area s]
      rw [this, run]; decide
    · unfold State.frame
      rw [vt, ht, beforePublication_timebase, freeFrame_timebase s free run]
    · refine Posts.trans (t := publishChannel (advancedStart s).1 c (beforePublication zs s)) ?_
        (Posts.trans ?_ (freeFrame_posts s free run))
      · rw [← ev, ← eu]
        exact Posts.of_eq ((needUpdate_keeps c).reports _)
      · rw [split]
        exact forEach_posts (fun d t => publishChannel_posts _ d t) _ _

end Sys2Proof.Machine
end

