-- ==== Sys2Proof/Laws/Motion.lean ====
section
/-! SUPPORT. The walks (R52 to R56): where they can end, and which lines they enter. -/

namespace Sys2Proof.Machine

set_option Elab.async false

/-- A clamped number lies within its bounds. -/
theorem clampInt_mem {lo hi x : Int} (h : lo ≤ hi) : lo ≤ clampInt lo hi x ∧ clampInt lo hi x ≤ hi := by
  unfold clampInt
  split
  · omega
  · split <;> omega

theorem clampInt_natAbs (b : Nat) (x : Int) : (clampInt (-b) b x).natAbs ≤ b := by
  have := clampInt_mem (lo := -b) (hi := b) (x := x) (by omega)
  omega

/-- A forward walk ends at a fraction of 0..1023. -/
theorem walkForward_fraction (v : List ViewEntry) (f : Fetch) (target fuel row : Nat) (es : List Entered)
    (xs : List Crossing) : (walkForward v f target fuel row es xs).fraction ≤ 1023 := by
  induction fuel generalizing row es xs with
  | zero => simp [walkForward]
  | succ n ih =>
    unfold walkForward
    split
    · simp only [endForward]; omega
    · split
      · exact Nat.le_refl _
      · split
        · exact Nat.le_refl _
        · split
          · exact Nat.le_refl _
          · exact ih ..

/-- A backward walk that begins above its target ends at a fraction of 0..1023. -/
theorem walkBackward_fraction (v : List ViewEntry) (f : Fetch) (target : Int) (fuel row : Nat)
    (es : List Entered) (xs : List Crossing) (h : target < (row : Int) * 1024 + 1024) :
    (walkBackward v f target fuel row es xs).fraction ≤ 1023 := by
  induction fuel generalizing row es xs with
  | zero => simp [walkBackward]
  | succ n ih =>
    unfold walkBackward
    split
    · simp only [endBackward]; omega
    · split
      · exact Nat.zero_le _
      · split
        · exact Nat.zero_le _
        · split
          · exact Nat.zero_le _
          · split
            · exact Nat.zero_le _
            · apply ih
              rename_i below _ _ _ _ _ _ _ _
              omega

/-- Every advance ends at a fraction of 0..1023. -/
theorem advance_fraction (cs : ChannelSettings) (v : List ViewEntry) (f : Fetch) (row fraction : Nat)
    (speed : Int) (holds : HoldSet) (demand jog : Int) (h : fraction ≤ 1023) :
    (advance cs v f row fraction speed holds demand jog).fraction ≤ 1023 := by
  have move : ∀ s d, (moveAdvance v f row fraction s d).fraction ≤ 1023 := by
    intro s d
    unfold moveAdvance
    split
    · exact h
    · show (walkBy v f row fraction d).fraction ≤ 1023
      unfold walkBy
      dsimp only
      split
      · exact walkForward_fraction ..
      · apply walkBackward_fraction; omega
  unfold advance
  split
  · exact h
  · dsimp only
    split
    · exact move ..
    · split
      · exact Nat.zero_le _
      · exact move ..

/-- The lines that a walk enters are resident, when those it has entered before are. -/
theorem walkForward_entered (v : List ViewEntry) (f : Fetch) (target fuel row : Nat) (es : List Entered)
    (xs : List Crossing) (h : ∀ e ∈ es, f.resident e.line.slot e.line.line = true) :
    ∀ e ∈ (walkForward v f target fuel row es xs).entered, f.resident e.line.slot e.line.line = true := by
  induction fuel generalizing row es xs with
  | zero => exact h
  | succ n ih =>
    unfold walkForward
    split
    · exact h
    · split
      · exact h
      · split
        · exact h
        · split
          · exact h
          · rename_i r hr
            apply ih
            intro e he
            rcases List.mem_append.1 he with he | he
            · exact h e he
            · cases List.mem_singleton.1 he
              simp [Fetch.resident, hr]

theorem walkBackward_entered (v : List ViewEntry) (f : Fetch) (target : Int) (fuel row : Nat)
    (es : List Entered) (xs : List Crossing) (h : ∀ e ∈ es, f.resident e.line.slot e.line.line = true) :
    ∀ e ∈ (walkBackward v f target fuel row es xs).entered, f.resident e.line.slot e.line.line = true := by
  induction fuel generalizing row es xs with
  | zero => exact h
  | succ n ih =>
    unfold walkBackward
    split
    · exact h
    · split
      · exact h
      · split
        · exact h
        · split
          · exact h
          · split
            · exact h
            · rename_i r hr
              apply ih
              intro e he
              rcases List.mem_append.1 he with he | he
              · exact h e he
              · cases List.mem_singleton.1 he
                simp [Fetch.resident, hr]

/-! ### The walks by the rows of the view (R48 to R57) -/

theorem rowsAfter_succ (row n : Nat) : rowsAfter row (n + 1) = (row + 1) :: rowsAfter (row + 1) n := by
  unfold rowsAfter
  rw [List.range_succ_eq_map]
  simp only [List.map_cons, List.map_map, Nat.add_zero]
  refine congrArg _ (List.map_congr_left fun m _ => ?_)
  simp only [Function.comp_apply]
  omega

theorem rowReady_some {v : List ViewEntry} {row : Nat} {e : ViewEntry} {line : Nat}
    (h : lineAtRow v row = some (e, line)) : rowReady v row = e.ready := by simp [rowReady, h]

theorem rowRecord_some {v : List ViewEntry} {f : Fetch} {row : Nat} {e : ViewEntry} {line : Nat}
    (h : lineAtRow v row = some (e, line)) :
    rowRecord v f row = (f.record e.slot line).map fun r => (⟨e.slot, line⟩, r) := by simp [rowRecord, h]

theorem linesEntered_cons (v : List ViewEntry) (f : Fetch) {r : Nat} {rs : List Nat} {a : Anchor} {rec : LineRecord}
    (h : rowRecord v f r = some (a, rec)) :
    linesEntered v f (r :: rs) = ⟨a, rec.pattern⟩ :: linesEntered v f rs := by simp [linesEntered, h]

theorem topsCrossed_cons (v : List ViewEntry) (f : Fetch) (r : Nat) (rs : List Nat) (dir : Anchor → Direction) :
    topsCrossed v f (r :: rs) dir = ((rowRecord v f r).bind fun x =>
      if x.2.cue.signalling then some ⟨x.1, dir x.1⟩ else none).toList ++ topsCrossed v f rs dir := by
  unfold topsCrossed
  rw [List.filterMap_cons]
  split <;> rename_i h <;> rw [h] <;> rfl

/-- The forward walk, from any row and with any record before it. -/
theorem walkForward_walked (v : List ViewEntry) (f : Fetch) (speed : Int) (target fuel row : Nat) (es : List Entered)
    (xs : List Crossing) (here : row * 1024 ≤ target) (far : target < (row + fuel) * 1024) :
    ∃ n adv, WalkedForward v f row n target speed adv ∧ walkForward v f target fuel row es xs =
      ⟨adv.row, adv.fraction, es ++ adv.entered, xs ++ adv.crossings, adv.stop⟩ ∧
      adv.speed = storedSpeed speed adv.stop ∧ adv.landed = none := by
  induction fuel generalizing row es xs with
  | zero => omega
  | succ fuel ih =>
    unfold walkForward
    split
    · rename_i lt
      have le : target - row * 1024 ≤ 1023 := by omega
      have at_ : row * 1024 + (target - row * 1024) = target := by omega
      have void : ∀ m, m < 0 → opensForward v f (row + m) := fun m h => absurd h (Nat.not_lt_zero m)
      have same : ∀ stop, (⟨row, target - row * 1024, es, xs, stop⟩ : Walk) =
          ⟨row, target - row * 1024, es ++ [], xs ++ [], stop⟩ := by simp
      unfold endForward
      by_cases h : target - row * 1024 = 1023
      · have full : row * 1024 + 1023 ≤ target := by rw [← at_, h]
        rw [if_pos h]
        cases hl : lineAtRow v (row + 1) with
        | none =>
          exact ⟨0, ⟨row, target - row * 1024, 0, [], [], .bottom, none⟩,
            ⟨rfl, le, void, rfl, rfl, nofun, nofun, nofun, fun _ => ⟨h, rfl, full, hl⟩, nofun⟩, same _, rfl, rfl⟩
        | some x =>
          obtain ⟨e, line⟩ := x
          cases hr : e.ready with
          | true =>
            exact ⟨0, ⟨row, target - row * 1024, speed, [], [], .reached, none⟩,
              ⟨rfl, le, void, rfl, rfl, fun _ => ⟨at_, rfl, fun _ => (rowReady_some hl).trans hr⟩, nofun, nofun, nofun,
                nofun⟩, by simp [hr], rfl, rfl⟩
          | false =>
            refine ⟨0, ⟨row, target - row * 1024, 0, [], [], .boundary e.slot, none⟩,
              ⟨rfl, le, void, rfl, rfl, nofun, nofun, ?_, nofun, nofun⟩, by simp [hr], rfl, rfl⟩
            rintro k ⟨⟩
            exact ⟨h, rfl, full, e, line, hl, rfl, fun _ => hr, fun _ => hr⟩
      · rw [if_neg h]
        exact ⟨0, ⟨row, target - row * 1024, speed, [], [], .reached, none⟩,
          ⟨rfl, le, void, rfl, rfl, fun _ => ⟨at_, rfl, fun e => absurd e h⟩, nofun, nofun, nofun, nofun⟩, same _, rfl, rfl⟩
    · rename_i ge
      have next : (row + 1) * 1024 ≤ target := Nat.le_of_not_lt ge
      have full : row * 1024 + 1023 ≤ target := by rw [Nat.add_mul] at next; exact Nat.le_trans (Nat.add_le_add_left (by decide) _) next
      have void : ∀ m, m < 0 → opensForward v f (row + m) := fun m h => absurd h (Nat.not_lt_zero m)
      have stays : ∀ stop : WalkEnd, (⟨row, 1023, es, xs, stop⟩ : Walk) =
          ⟨row, 1023, es ++ [], xs ++ [], stop⟩ := by simp
      cases hl : lineAtRow v (row + 1) with
      | none =>
        refine ⟨0, ⟨row, 1023, 0, [], [], .bottom, none⟩, ?_, stays _, rfl, rfl⟩
        exact ⟨rfl, Nat.le_refl 1023, void, rfl, rfl, nofun, nofun, nofun,
          fun _ => ⟨rfl, rfl, full, hl⟩, nofun⟩
      | some x =>
        obtain ⟨e, line⟩ := x
        dsimp only
        by_cases hr : (rowReady v row && e.ready) = true
        · rw [hr]
          have hr : rowReady v row = true ∧ e.ready = true := by simpa using hr
          cases hrec : f.record e.slot line with
          | none =>
            refine ⟨0, ⟨row, 1023, speed, [], [], .horizon ⟨e.slot, line⟩, none⟩, ?_, stays _, rfl, rfl⟩
            refine ⟨rfl, Nat.le_refl 1023, void, rfl, rfl, nofun, ?_, nofun, nofun, nofun⟩
            rintro _ ⟨⟩
            exact ⟨rfl, rfl, next, hr.1, (rowReady_some hl).trans hr.2,
              by show anchorAtRow v (row + 1) = _; simp [anchorAtRow, hl], hrec⟩
          | some r =>
            dsimp only [Bool.not_true]
            rw [if_neg (by simp)]
            obtain ⟨n, adv, w, ew, es', el⟩ := ih (row + 1) (es ++ [⟨⟨e.slot, line⟩, r.pattern⟩])
              (xs ++ crossingOf ⟨e.slot, line⟩ r .forward) next
              (by rw [show row + 1 + fuel = row + (fuel + 1) by omega]; exact far)
            have rr : rowRecord v f (row + 1) = some (⟨e.slot, line⟩, r) := by rw [rowRecord_some hl, hrec]; rfl
            have first : opensForward v f row := ⟨hr.1, (rowReady_some hl).trans hr.2, by rw [rr]; rfl⟩
            refine ⟨n + 1, { adv with
              entered := ⟨⟨e.slot, line⟩, r.pattern⟩ :: adv.entered
              crossings := crossingOf ⟨e.slot, line⟩ r .forward ++ adv.crossings }, ?_, ?_, es', el⟩
            · refine ⟨by show adv.row = _; rw [w.place]; omega, w.fraction, ?_, ?_, ?_, w.reached, w.horizon, w.boundary,
                w.bottom, w.top⟩
              · intro m hm
                cases m with
                | zero => exact first
                | succ m =>
                  have := w.opens m (by omega)
                  rw [show row + (m + 1) = row + 1 + m by omega]
                  exact this
              · rw [rowsAfter_succ, linesEntered_cons v f rr, ← w.entered]
              · rw [rowsAfter_succ, topsCrossed_cons, ← w.crossings, rr]
                simp only [Option.bind_some, crossingOf]
                split <;> rfl
            · rw [ew]; simp
        · have hr' : (rowReady v row && e.ready) = false := by simpa using hr
          rw [hr']
          refine ⟨0, ⟨row, 1023, 0, [], [], .boundary e.slot, none⟩, ?_, stays _, rfl, rfl⟩
          refine ⟨rfl, Nat.le_refl 1023, void, rfl, rfl, nofun, nofun, ?_, nofun, nofun⟩
          rintro _ ⟨⟩
          refine ⟨rfl, rfl, full, e, line, hl, rfl, fun h => ?_, fun h => ?_⟩
          · have h : target = row * 1024 + 1023 := h
            omega
          · have h : rowReady v row = true := h
            rw [h] at hr'; simpa using hr'

theorem upperBoundary_iff (v : List ViewEntry) (row : Nat) : upperBoundary v row = true ↔ closedAbove v row := by
  unfold upperBoundary closedAbove
  constructor
  · intro h
    split at h
    · rename_i p n e m hp he
      rw [Bool.and_eq_true, bne_iff_ne, Bool.not_eq_true'] at h
      exact ⟨(p, n), (e, m), hp, he, h.1, h.2⟩
    · cases h
  · rintro ⟨p, e, hp, he, h1, h2⟩
    rw [hp, he]
    simp [h1, h2]

theorem leftCrossing_eq (v : List ViewEntry) (f : Fetch) (row : Nat) : leftCrossing v f row =
    ((rowRecord v f row).bind fun x =>
      if x.2.cue.signalling then some (⟨x.1, .backward⟩ : Crossing) else none).toList := by
  unfold leftCrossing rowRecord
  cases lineAtRow v row with
  | none => rfl
  | some x =>
    obtain ⟨e, line⟩ := x
    dsimp only
    cases h : f.record e.slot line with
    | none => simp [h]
    | some r =>
      simp only [h, crossingOf, Option.bind_some, Option.map_some]
      split <;> rfl

theorem range_back (row n : Nat) (g : Nat → Nat) (shift : ∀ m, g (m + 1) = row - 1 - m) (zero : g 0 = row) :
    (List.range (n + 1)).map g = row :: (List.range n).map (row - 1 - ·) := by
  rw [List.range_succ_eq_map]
  simp only [List.map_cons, List.map_map, zero]
  exact congrArg _ (List.map_congr_left fun m _ => shift m)

/-- The backward walk, from any row of the view and with any record before it. -/
theorem walkBackward_walked (v : List ViewEntry) (f : Fetch) (speed : Int) (target : Int) (fuel row : Nat)
    (es : List Entered) (xs : List Crossing) (inside : row < viewSize v) (here : target < row * 1024 + 1024)
    (far : (row : Int) * 1024 + 1024 ≤ target + fuel * 1024) :
    ∃ n adv, WalkedBackward v f row n target speed adv ∧ walkBackward v f target fuel row es xs =
      ⟨adv.row, adv.fraction, es ++ adv.entered, xs ++ adv.crossings, adv.stop⟩ ∧
      adv.speed = storedSpeed speed adv.stop ∧ adv.landed = none := by
  induction fuel generalizing row es xs with
  | zero => omega
  | succ fuel ih =>
    have void : ∀ m, m < 0 → opensBackward v f (row - m) := fun m h => absurd h (Nat.not_lt_zero m)
    have still : ∀ (x : Nat) (stop : WalkEnd), (⟨row, x, es, xs, stop⟩ : Walk) = ⟨row, x, es ++ [], xs ++ [], stop⟩ := by
      simp
    have fwd : ∀ stop : WalkEnd, (stop = .reached ∨ stop = .top ∨ ∃ l, stop = .horizon l) →
        stop ≠ .bottom ∧ ∀ k, stop ≠ .boundary k := by
      rintro _ (rfl | rfl | ⟨l, rfl⟩) <;> exact ⟨nofun, nofun⟩
    have top : target ≤ (row : Int) * 1024 → row = 0 ∨ closedAbove v row →
        ∃ n adv, WalkedBackward v f row n target speed adv ∧ (⟨row, 0, es, xs, .top⟩ : Walk) =
          ⟨adv.row, adv.fraction, es ++ adv.entered, xs ++ adv.crossings, adv.stop⟩ ∧
          adv.speed = storedSpeed speed adv.stop ∧ adv.landed = none := fun h1 h2 =>
      ⟨0, ⟨row, 0, 0, [], [], .top, none⟩,
        ⟨rfl, Nat.zero_le _, void, rfl, rfl, nofun, nofun, fun _ => ⟨rfl, rfl, h1, h2⟩, fwd _ (.inr (.inl rfl))⟩,
        still _ _, rfl, rfl⟩
    unfold walkBackward
    split
    · rename_i le
      unfold endBackward
      by_cases h : (target - (row : Int) * 1024).toNat = 0 ∧ (row = 0 ∨ upperBoundary v row = true)
      · rw [if_pos h, h.1]
        exact top (by omega) (h.2.imp id (upperBoundary_iff v row).1)
      · rw [if_neg h]
        refine ⟨0, ⟨row, (target - (row : Int) * 1024).toNat, speed, [], [], .reached, none⟩,
          ⟨rfl, by dsimp only; omega, void, rfl, rfl, fun _ => ⟨by dsimp only; omega, rfl, fun e => ?_⟩, nofun, nofun,
            fwd _ (.inl rfl)⟩, still _ _, rfl, rfl⟩
        have e : (target - (row : Int) * 1024).toNat = 0 := e
        by_contra no
        apply h
        refine ⟨e, ?_⟩
        by_contra no'
        apply no
        refine ⟨?_, fun k => no' (.inr ((upperBoundary_iff v row).2 k))⟩
        exact Nat.pos_of_ne_zero fun z => no' (.inl z)
    · rename_i ge
      have above : target < (row : Int) * 1024 := Int.not_le.1 ge
      split
      · rename_i z
        exact top (Int.le_of_lt above) (.inl z)
      · rename_i pos
        have pos : 0 < row := Nat.pos_of_ne_zero pos
        split
        · rename_i ub
          exact top (Int.le_of_lt above) (.inr ((upperBoundary_iff v row).1 ub))
        · rename_i ub
          have ub : ¬ closedAbove v row := fun h => ub ((upperBoundary_iff v row).2 h)
          obtain ⟨⟨e, line⟩, hl⟩ := lineAtRow_of_lt (v := v) (r := row - 1) (Nat.lt_of_le_of_lt (Nat.sub_le ..) inside)
          rw [hl]
          dsimp only
          cases hrec : f.record e.slot line with
          | none =>
            refine ⟨0, ⟨row, 0, speed, [], [], .horizon ⟨e.slot, line⟩, none⟩,
              ⟨rfl, Nat.zero_le _, void, rfl, rfl, nofun, ?_, nofun, fwd _ (.inr (.inr ⟨_, rfl⟩))⟩, still _ _, rfl, rfl⟩
            rintro _ ⟨⟩
            exact ⟨rfl, rfl, above, pos, ub, by show anchorAtRow v (row - 1) = _; simp [anchorAtRow, hl], hrec⟩
          | some r =>
            dsimp only
            obtain ⟨n, adv, w, ew, es', el⟩ := ih (row - 1) (es ++ [⟨⟨e.slot, line⟩, r.pattern⟩])
              (xs ++ leftCrossing v f row) (Nat.lt_of_le_of_lt (Nat.sub_le ..) inside)
              (by push_cast [Nat.cast_sub pos]; omega) (by push_cast [Nat.cast_sub pos] at far ⊢; omega)
            have rr : rowRecord v f (row - 1) = some (⟨e.slot, line⟩, r) := by rw [rowRecord_some hl, hrec]; rfl
            refine ⟨n + 1, { adv with
              entered := ⟨⟨e.slot, line⟩, r.pattern⟩ :: adv.entered
              crossings := leftCrossing v f row ++ adv.crossings }, ?_, ?_, es', el⟩
            · refine ⟨by show adv.row + (n + 1) = _; have := w.place; omega, w.fraction, ?_, ?_, ?_, w.reached, w.horizon,
                w.top, w.forward⟩
              · intro m hm
                cases m with
                | zero => exact ⟨pos, ub, by rw [Nat.sub_zero, rr]; rfl⟩
                | succ m =>
                  have := w.opens m (by omega)
                  rw [show row - (m + 1) = row - 1 - m by omega]
                  exact this
              · rw [range_back (row - 1) n (row - 1 - ·) (fun m => by omega) rfl, linesEntered_cons v f rr,
                  ← w.entered]
              · rw [range_back row n (row - ·) (fun m => by omega) rfl, topsCrossed_cons, ← w.crossings,
                  leftCrossing_eq]
            · rw [ew]; simp

/-- The walk of an advance (R51, R52). -/
theorem moveAdvance_moved (v : List ViewEntry) (f : Fetch) (row fraction : Nat) (speed delta : Int)
    (inside : row < viewSize v) (le : fraction ≤ 1023) :
    Moved v f row fraction speed delta (moveAdvance v f row fraction speed delta) := by
  unfold moveAdvance
  by_cases z : delta = 0
  · rw [if_pos z]
    exact ⟨rfl, fun _ => rfl, fun h => absurd z (by omega), fun h => absurd z (by omega)⟩
  · rw [if_neg z]
    unfold walkBy
    dsimp only
    by_cases pos : 0 < delta
    · rw [if_pos pos]
      obtain ⟨n, adv, w, e, sp, la⟩ := walkForward_walked v f speed (row * 1024 + fraction + delta.toNat)
        (delta.natAbs / 1024 + 2) row [] [] (by omega) (by omega)
      rw [e]
      have : (⟨adv.row, adv.fraction, storedSpeed speed adv.stop, [] ++ adv.entered, [] ++ adv.crossings, adv.stop, none⟩ :
          Advance) = adv := by rw [← sp, ← la]; rfl
      rw [this]
      exact ⟨la, fun h => absurd h z, fun _ => ⟨n, w⟩, fun h => absurd h (by omega)⟩
    · rw [if_neg pos]
      obtain ⟨n, adv, w, e, sp, la⟩ := walkBackward_walked v f speed ((row : Int) * 1024 + fraction + delta)
        (delta.natAbs / 1024 + 2) row [] [] inside (by omega) (by omega)
      push_cast
      rw [e]
      have : (⟨adv.row, adv.fraction, storedSpeed speed adv.stop, [] ++ adv.entered, [] ++ adv.crossings, adv.stop, none⟩ :
          Advance) = adv := by rw [← sp, ← la]; rfl
      rw [this]
      exact ⟨la, fun h => absurd h z, fun h => absurd h pos, fun _ => ⟨n, w⟩⟩

/-- The cue search finds the nearest stopping cue of the reach, and nothing else (R48). -/
theorem cueSearch_iff (v : List ViewEntry) (f : Fetch) (fuel row q : Nat) : cueSearch v f fuel row = some q ↔
    ∃ n, q = row + n ∧ 1 ≤ n ∧ n ≤ fuel ∧ ∀ m, m < n → opensForward v f (row + m) ∧
      ∀ a r, rowRecord v f (row + m + 1) = some (a, r) → (r.cue.stopping = true ↔ m + 1 = n) := by
  induction fuel generalizing row with
  | zero =>
    refine ⟨nofun, ?_⟩
    rintro ⟨n, -, h1, h2, -⟩
    omega
  | succ fuel ih =>
    have closed : ¬ opensForward v f row → ¬ ∃ n, q = row + n ∧ 1 ≤ n ∧ n ≤ fuel + 1 ∧ ∀ m, m < n →
        opensForward v f (row + m) ∧
        ∀ a r, rowRecord v f (row + m + 1) = some (a, r) → (r.cue.stopping = true ↔ m + 1 = n) := by
      rintro h ⟨n, -, h1, -, h2⟩
      exact h (h2 0 (by omega)).1
    unfold cueSearch
    cases hl : lineAtRow v (row + 1) with
    | none =>
      dsimp only
      refine ⟨nofun, fun h => absurd h (closed fun o => ?_)⟩
      have := o.2.1
      simp [rowReady, hl] at this
    | some x =>
      obtain ⟨e, line⟩ := x
      dsimp only
      by_cases hr : (rowReady v row && e.ready) = true
      · rw [if_neg (by rw [hr]; simp)]
        rw [Bool.and_eq_true] at hr
        cases hrec : f.record e.slot line with
        | none =>
          dsimp only
          refine ⟨nofun, fun h => absurd h (closed fun o => ?_)⟩
          have := o.2.2
          rw [rowRecord_some hl, hrec] at this
          cases this
        | some r =>
          dsimp only
          have rr : rowRecord v f (row + 1) = some (⟨e.slot, line⟩, r) := by rw [rowRecord_some hl, hrec]; rfl
          have first : opensForward v f row := ⟨hr.1, (rowReady_some hl).trans hr.2, by rw [rr]; rfl⟩
          by_cases hs : r.cue.stopping = true
          · rw [if_pos hs]
            constructor
            · rintro ⟨⟩
              refine ⟨1, rfl, le_refl _, by omega, fun m hm => ?_⟩
              obtain rfl : m = 0 := by omega
              refine ⟨first, fun a r' h => ?_⟩
              rw [show row + 0 + 1 = row + 1 by rfl, rr] at h
              cases h
              simp [hs]
            · rintro ⟨n, rfl, h1, -, h2⟩
              have := (h2 0 (by omega)).2 _ _ rr
              have : n = 1 := by have := this.1 hs; omega
              rw [this]
          · rw [if_neg hs, ih]
            constructor
            · rintro ⟨n, rfl, h1, h2, h3⟩
              refine ⟨n + 1, by omega, by omega, by omega, fun m hm => ?_⟩
              cases m with
              | zero =>
                refine ⟨first, fun a r' h => ?_⟩
                rw [show row + 0 + 1 = row + 1 by rfl, rr] at h
                cases h
                simp [hs]; omega
              | succ m =>
                have := h3 m (by omega)
                rw [show row + (m + 1) = row + 1 + m by omega]
                refine ⟨this.1, fun a r' h => (this.2 a r' h).trans (by omega)⟩
            · rintro ⟨n, rfl, h1, h2, h3⟩
              have ne : n ≠ 1 := by
                rintro rfl
                exact hs (((h3 0 (by omega)).2 _ _ rr).2 rfl)
              obtain ⟨k, rfl⟩ : ∃ k, n = k + 1 := ⟨n - 1, by omega⟩
              refine ⟨k, by omega, by omega, by omega, fun m hm => ?_⟩
              have := h3 (m + 1) (by omega)
              rw [show row + (m + 1) = row + 1 + m by omega] at this
              exact ⟨this.1, fun a r' h => (this.2 a r' h).trans (by omega)⟩
      · rw [if_pos (by rw [Bool.not_eq_true', ← Bool.not_eq_true]; exact hr)]
        refine ⟨nofun, fun h => absurd h (closed fun o => hr ?_)⟩
        rw [Bool.and_eq_true, ← rowReady_some hl]
        exact ⟨o.1, o.2.1⟩

theorem topsCrossed_map (v : List ViewEntry) (f : Fetch) (rows : List Nat) (cue : Anchor) :
    (topsCrossed v f rows fun _ => .forward).map (landingCrossing cue) =
      topsCrossed v f rows fun a => if some cue = some a then .landing else .forward := by
  unfold topsCrossed
  rw [List.map_filterMap]
  refine List.filterMap_congr fun r _ => ?_
  cases rowRecord v f r with
  | none => rfl
  | some x =>
    dsimp only [Option.bind_some]
    split
    · simp only [Option.map_some, landingCrossing]
      by_cases h : x.1 = cue
      · rw [if_pos h, if_pos (by rw [h])]
      · rw [if_neg h, if_neg (fun e => h (Option.some.inj e).symm)]
    · rfl

/-- A landing (R50). -/
theorem landAdvance_landed (v : List ViewEntry) (f : Fetch) (row n : Nat) (cue : CueAhead v f row n) :
    Landed v f row n (landAdvance v f row (row + n)) := by
  obtain ⟨h1, -, h3⟩ := cue
  obtain ⟨k, adv, w, e, -, -⟩ := walkForward_walked v f 0 ((row + n) * 1024) (row + n - row + 1) row [] []
    (by omega) (by rw [show row + n - row + 1 = n + 1 by omega]; omega)
  have away : ¬ k < n := by
    intro lt
    obtain ⟨o1, o2, o3⟩ := (h3 k lt).1
    rw [← w.place] at o1 o2 o3
    obtain ⟨x, hx⟩ : ∃ x, lineAtRow v (adv.row + 1) = some x := by
      cases hx : lineAtRow v (adv.row + 1) with
      | none => simp [rowRecord, hx] at o3
      | some x => exact ⟨x, rfl⟩
    have hp := w.place
    have hf := w.fraction
    cases hs : adv.stop with
    | reached => have := (w.reached hs).1; omega
    | horizon l =>
      obtain ⟨-, -, -, -, -, hl, hn⟩ := w.horizon l hs
      simp only [anchorAtRow, hx, Option.map_some, Option.some.injEq] at hl
      subst hl
      simp [rowRecord, hx, hn] at o3
    | boundary j =>
      obtain ⟨-, -, -, e', line, hl, -, -, hr⟩ := w.boundary j hs
      have := hr o1
      rw [rowReady_some hl, this] at o2
      cases o2
    | bottom =>
      have := (w.bottom hs).2.2.2
      rw [hx] at this; cases this
    | top => exact w.top hs
  have kn : k = n := by
    have hp := w.place
    have near : k ≤ n := by
      cases hs : adv.stop with
      | reached => have := (w.reached hs).1; omega
      | horizon l => have := (w.horizon l hs).2.2.1; omega
      | boundary j => have := (w.boundary j hs).2.2.1; omega
      | bottom => have := (w.bottom hs).2.2.1; omega
      | top => exact absurd hs w.top
    omega
  subst kn
  unfold landAdvance
  rw [e]
  dsimp only
  refine ⟨rfl, rfl, rfl, rfl, rfl, by rw [← w.entered]; rfl, ?_⟩
  cases ha : anchorAtRow v (row + k) with
  | none =>
    exfalso
    have := (h3 (k - 1) (by omega)).1.2.2
    rw [show row + (k - 1) + 1 = row + k by omega] at this
    cases hx : lineAtRow v (row + k) with
    | none => simp [rowRecord, hx] at this
    | some x => simp [anchorAtRow, hx] at ha
  | some a =>
    dsimp only
    rw [← topsCrossed_map, ← w.crossings]
    rfl

end Sys2Proof.Machine
end

