-- ==== Sys2Proof/Laws/Settings.lean ====
section
/-! SUPPORT. What a settings take does to every block (R158 step 5): the arbiter, the channels, the ports, the timebase,
the lamps and the reports, gathered in `applySettings_acted` and `settingsTake_acted`. -/

namespace Sys2Proof.Machine

set_option Elab.async false

/-- One step of a list changes the thing `π` of its own unit alone, so the list does to it what that one step does. -/
theorem forEach_own {α β : Type} {f : α → State → State} (π : State → β) (g : State → β) {x : α} {xs : List α}
    (mem : x ∈ xs) (nodup : xs.Nodup) (other : ∀ y, y ≠ x → ∀ s, π (f y s) = π s) (same : ∀ s, π (f x s) = g s)
    (stable : ∀ y, y ≠ x → ∀ s, g (f y s) = g s) (s : State) : π (forEach xs f s) = g s := by
  obtain ⟨ys, zs, rfl⟩ := List.append_of_mem mem
  have hn : x ∉ ys ∧ x ∉ zs := by
    rw [List.nodup_append] at nodup
    exact ⟨fun h => nodup.2.2 x h x (List.mem_cons_self ..) rfl, (List.nodup_cons.1 nodup.2.1).1⟩
  rw [forEach_append, forEach_cons]
  exact (forEach_same zs (fun y hy => other y fun e => hn.2 (e ▸ hy)) _).trans
    ((same _).trans (forEach_same ys (fun y hy => stable y fun e => hn.1 (e ▸ hy)) s))

/-! ### The Authority Arbiter (R117, R120) -/

/-- What a release leaves of a channel's authority. -/
def Authority.released (a : Authority) : Authority := { a with holder := none, quiet := 0 }

/-- A release of a channel without a holder changes nothing. -/
theorem releaseHolder_auth (c : Chan) (cause : AuthorityCause) (s : State) : (releaseHolder c cause s).auth c =
    if (s.auth c).holder = none then s.auth c else (s.auth c).released := by
  unfold releaseHolder
  split
  · rename_i h; simp [h]
  · rename_i h
    rw [if_neg (by simp [h])]
    simp [State.auth, (raiseRunning_keeps _).authority, State.modAuth, Authority.released]

/-- The releases of R117 that a change of a port's settings causes. -/
def releasedByPort (old : Settings) (s : State) (c : Chan) (xs : List PortId) : Prop :=
  ∃ p ∈ xs, (s.auth c).holder = some (.port p) ∧ (old.ports.get p).channel = c ∧
    (portRestarts (old.ports.get p) (s.portSet p) = true ∨ (old.ports.get p).role ≠ (s.portSet p).role)

theorem releaseForPort_auth (old : Settings) (c : Chan) (p : PortId) (s : State) :
    (releasedByPort old s c [p] ∧ (releaseForPort old p s).auth c = (s.auth c).released) ∨
    (¬ releasedByPort old s c [p] ∧ (releaseForPort old p s).auth c = s.auth c) := by
  by_cases hc : (old.ports.get p).channel = c
  · unfold releaseForPort releasedByPort
    by_cases hh : (s.auth c).holder = some (.port p)
    · by_cases hx : portRestarts (old.ports.get p) (s.portSet p) = true ∨
        (old.ports.get p).role ≠ (s.portSet p).role
      · refine .inl ⟨⟨p, by simp, hh, hc, hx⟩, ?_⟩
        have : (portRestarts (old.ports.get p) (s.portSet p) || (old.ports.get p).role != (s.portSet p).role) =
            true := by simpa using hx
        simp only [hc, hh, this, beq_self_eq_true, Bool.and_self, if_true]
        rw [releaseHolder_auth]
        simp [hh]
      · refine .inr ⟨fun ⟨q, hq, _, _, h⟩ => hx (by simpa [List.mem_singleton.1 hq] using h), ?_⟩
        have : (portRestarts (old.ports.get p) (s.portSet p) || (old.ports.get p).role != (s.portSet p).role) =
            false := by simpa using hx
        simp [this]
    · refine .inr ⟨fun ⟨q, hq, h, _⟩ => hh (by simpa [List.mem_singleton.1 hq] using h), ?_⟩
      simp [hc, hh]
  · refine .inr ⟨fun ⟨q, hq, _, h, _⟩ => hc (by simpa [List.mem_singleton.1 hq] using h), ?_⟩
    unfold releaseForPort
    dsimp only
    split
    · exact releaseHolder_ne _ s (Ne.symm hc)
    · rfl

theorem releaseForPorts_auth (old : Settings) (c : Chan) (xs : List PortId) (s : State) :
    (releasedByPort old s c xs ∧ (forEach xs (releaseForPort old) s).auth c = (s.auth c).released) ∨
    (¬ releasedByPort old s c xs ∧ (forEach xs (releaseForPort old) s).auth c = s.auth c) := by
  induction xs generalizing s with
  | nil => exact .inr ⟨fun ⟨_, h⟩ => (nomatch h.1), rfl⟩
  | cons p xs ih =>
    rw [forEach_cons]
    have settings : ∀ q, (releaseForPort old p s).portSet q = s.portSet q := fun q => by
      unfold State.portSet; rw [(releaseForPort_keeps old p).settings]
    obtain ⟨h1, e1⟩ | ⟨h1, e1⟩ := releaseForPort_auth old c p s
    · refine .inl ⟨?_, ?_⟩
      · obtain ⟨q, hq, h⟩ := h1
        rw [List.mem_singleton.1 hq] at h
        exact ⟨p, by simp, h⟩
      · have none : ((releaseForPort old p s).auth c).holder = none := by rw [e1]; rfl
        obtain ⟨⟨q, _, h, _⟩, _⟩ | ⟨-, e⟩ := ih (releaseForPort old p s)
        · rw [none] at h; cases h
        · rw [e, e1]
    · have iff : releasedByPort old (releaseForPort old p s) c xs ↔ releasedByPort old s c (p :: xs) := by
        constructor
        · rintro ⟨q, hq, h⟩
          exact ⟨q, List.mem_cons_of_mem _ hq, by simpa [settings, e1] using h⟩
        · rintro ⟨q, hq, h⟩
          rcases List.mem_cons.1 hq with rfl | hq
          · exact absurd ⟨q, by simp, h⟩ h1
          · exact ⟨q, hq, by simpa [settings, e1] using h⟩
      obtain ⟨h, e⟩ | ⟨h, e⟩ := ih (releaseForPort old p s)
      · exact .inl ⟨iff.1 h, by rw [e, e1]⟩
      · exact .inr ⟨fun x => h (iff.2 x), by rw [e, e1]⟩

theorem modeChanges_iff (old : Settings) (s t : State) (c : Chan) (ho : s.settings = old) :
    channelChanges (old.channels.get c) (t.chanSet c) = true ↔ modeChanges s t c := by
  subst ho
  unfold channelChanges modeChanges State.chanSet
  simp

/-- The releases that a change of the channel's authority mode or mode causes. -/
def releasedByChannel (old : Settings) (s : State) (c : Chan) (h : Source) : Prop :=
  ((old.channels.get c).authMode ≠ (s.chanSet c).authMode ∧
    (s.chanSet c).authMode.admits (sourceRole s h) = false) ∨
  channelChanges (old.channels.get c) (s.chanSet c) = true

theorem releaseForAuthority_auth (old : Settings) (c : Chan) (s : State) :
    (releaseForAuthority old c s).auth c =
      if (s.auth c).holder.any (fun h => !(s.chanSet c).authMode.admits (sourceRole s h)) &&
        (old.channels.get c).authMode != (s.chanSet c).authMode then (s.auth c).released else s.auth c := by
  unfold releaseForAuthority holderNotAdmitted
  rw [Bool.and_comm]
  split
  · rename_i h
    rw [releaseHolder_auth, if_neg]
    intro e
    simp [e] at h
  · rfl

theorem releaseForMode_auth (old : Settings) (c : Chan) (s : State) : (releaseForMode old c s).auth c =
    if channelChanges (old.channels.get c) (s.chanSet c) = true ∧ (s.auth c).holder ≠ none then
      (s.auth c).released else s.auth c := by
  unfold releaseForMode
  by_cases h : channelChanges (old.channels.get c) (s.chanSet c) = true
  · rw [if_pos h, releaseHolder_auth]
    by_cases e : (s.auth c).holder = none <;> simp [h, e]
  · simp [h]

theorem clearConsole_auth (old : Settings) (c : Chan) (s : State) : (clearConsole old c s).auth c =
    if (old.channels.get c).mode ≠ (s.chanSet c).mode ∨ (old.channels.get c).authMode ≠ (s.chanSet c).authMode then
      { s.auth c with consoleDemand := 0, consoleJog := 0 } else s.auth c := by
  unfold clearConsole
  by_cases h : (old.channels.get c).mode ≠ (s.chanSet c).mode ∨
      (old.channels.get c).authMode ≠ (s.chanSet c).authMode
  · rw [if_pos h, if_pos (by simpa using h), State.auth_modAuth_self]
  · rw [if_neg h, if_neg (by simpa using h)]

theorem releaseForAuthority_ne (old : Settings) {c d : Chan} (s : State) (h : d ≠ c) :
    (releaseForAuthority old c s).auth d = s.auth d := by
  unfold releaseForAuthority
  split
  · exact releaseHolder_ne _ s h
  · rfl

theorem releaseForMode_ne (old : Settings) {c d : Chan} (s : State) (h : d ≠ c) :
    (releaseForMode old c s).auth d = s.auth d := by
  unfold releaseForMode
  split
  · exact releaseHolder_ne _ s h
  · rfl

theorem clearConsole_ne (old : Settings) {c d : Chan} (s : State) (h : d ≠ c) :
    (clearConsole old c s).auth d = s.auth d := by
  unfold clearConsole
  split
  · exact s.auth_modAuth_ne _ h
  · rfl

theorem mem_allChans (c : Chan) : c ∈ allChans := List.mem_finRange c
theorem allChans_nodup : allChans.Nodup := List.nodup_finRange 4
theorem mem_allPorts (p : PortId) : p ∈ allPorts := List.mem_finRange p
theorem allPorts_nodup : allPorts.Nodup := List.nodup_finRange 8

/-- What of a state the settings alone decide. -/
theorem chanSet_congr {s t : State} (h : t.settings = s.settings) (c : Chan) : t.chanSet c = s.chanSet c := by
  unfold State.chanSet; rw [h]
theorem portSet_congr {s t : State} (h : t.settings = s.settings) (p : PortId) : t.portSet p = s.portSet p := by
  unfold State.portSet; rw [h]
theorem sourceRole_congr {s t : State} (h : t.settings = s.settings) (x : Source) :
    sourceRole t x = sourceRole s x := by
  cases x
  · show (t.portSet _).role = (s.portSet _).role
    rw [portSet_congr h]
  · rfl

/-- A fold of steps that each change the authority of their own channel does to one channel what its own step does. -/
theorem forEach_auth {f : Chan → State → State} (own : Chan → State → Authority)
    (keeps : ∀ c, Keeps { authority := true, reports := true } (f c))
    (ne : ∀ c d s, d ≠ c → (f c s).auth d = s.auth d) (self : ∀ c s, (f c s).auth c = own c s)
    (stable : ∀ c (s t : State), t.settings = s.settings → t.auth c = s.auth c → own c t = own c s)
    (c : Chan) (s : State) : (forEach allChans f s).auth c = own c s :=
  forEach_own (fun t => t.auth c) (own c) (mem_allChans c) allChans_nodup (fun y hy t => ne y c t (Ne.symm hy))
    (self c) (fun y hy t => stable c t _ ((keeps y).settings t) (ne y c t (Ne.symm hy))) s

/-- What the arbiter's take leaves of one channel. -/
theorem authorityTake_auth (old : Settings) (c : Chan) (s : State) :
    let released := ∃ h, (s.auth c).holder = some h ∧
      (releasedByPort old s c allPorts ∨ releasedByChannel old s c h)
    let cleared := (old.channels.get c).mode ≠ (s.chanSet c).mode ∨
      (old.channels.get c).authMode ≠ (s.chanSet c).authMode
    (released → ((authorityTake old s).auth c).holder = none ∧ ((authorityTake old s).auth c).quiet = 0) ∧
    (¬ released → ((authorityTake old s).auth c).holder = (s.auth c).holder ∧
      ((authorityTake old s).auth c).quiet = (s.auth c).quiet) ∧
    (cleared → ((authorityTake old s).auth c).consoleDemand = 0 ∧ ((authorityTake old s).auth c).consoleJog = 0) ∧
    (¬ cleared → ((authorityTake old s).auth c).consoleDemand = (s.auth c).consoleDemand ∧
      ((authorityTake old s).auth c).consoleJog = (s.auth c).consoleJog) := by
  intro released cleared
  have k1 : (forEach allPorts (releaseForPort old) s).settings = s.settings :=
    (Keeps.forEach (releaseForPort_keeps old) allPorts).settings s
  generalize hu : forEach allPorts (releaseForPort old) s = u at k1
  have k2 : (forEach allChans (releaseForAuthority old) u).settings = u.settings :=
    (Keeps.forEach (releaseForAuthority_keeps old) allChans).settings u
  have e2 := forEach_auth (f := releaseForAuthority old) _ (releaseForAuthority_keeps old)
    (fun _ _ s h => releaseForAuthority_ne old s h) (releaseForAuthority_auth old)
    (fun c s t h e => by simp only [e, chanSet_congr h, sourceRole_congr h]) c u
  generalize hv : forEach allChans (releaseForAuthority old) u = v at k2 e2
  have k3 : (forEach allChans (releaseForMode old) v).settings = v.settings :=
    (Keeps.forEach (releaseForMode_keeps old) allChans).settings v
  have e3 := forEach_auth (f := releaseForMode old) _ (releaseForMode_keeps old)
    (fun _ _ s h => releaseForMode_ne old s h) (releaseForMode_auth old)
    (fun c s t h e => by simp only [e, chanSet_congr h]) c v
  generalize hw : forEach allChans (releaseForMode old) v = w at k3 e3
  have e4 := forEach_auth (f := clearConsole old) _
    (clearConsole_keeps old)
    (fun _ _ s h => clearConsole_ne old s h) (clearConsole_auth old)
    (fun c s t h e => by simp only [e, chanSet_congr h]) c w
  have ht : authorityTake old s = forEach allChans (clearConsole old) w := by
    subst hw hv hu; rfl
  rw [← ht] at e4
  have c2 := chanSet_congr k1 c
  have c3 := (chanSet_congr k2 c).trans c2
  have c4 := (chanSet_congr k3 c).trans c3
  have r2 := fun h => sourceRole_congr (s := s) (t := u) k1 h
  rw [c4] at e4
  rw [c3] at e3
  rw [c2] at e2
  have e1 := releaseForPorts_auth old c allPorts s
  rw [hu] at e1
  have key : (released → w.auth c = (s.auth c).released) ∧ (¬ released → w.auth c = s.auth c) := by
    cases hh : (s.auth c).holder with
    | none =>
      have hr : ¬ released := fun ⟨h, e, _⟩ => by rw [hh] at e; cases e
      refine ⟨fun h => absurd h hr, fun _ => ?_⟩
      obtain ⟨⟨p, _, e, _⟩, _⟩ | ⟨-, e1⟩ := e1
      · rw [hh] at e; cases e
      · rw [e1] at e2
        simp [hh] at e2
        rw [e2] at e3
        simpa [hh] using e3
    | some h =>
      obtain ⟨h1, e1⟩ | ⟨h1, e1⟩ := e1
      · refine ⟨fun _ => ?_, fun hr => absurd ⟨h, hh, .inl h1⟩ hr⟩
        rw [e1] at e2
        simp [Authority.released] at e2
        rw [e2] at e3
        simpa [Authority.released] using e3
      · have iff : released ↔ releasedByChannel old s c h := by
          refine ⟨fun ⟨h', e, hr⟩ => ?_, fun hr => ⟨h, hh, .inr hr⟩⟩
          rw [hh] at e
          cases e
          exact hr.resolve_left h1
        rw [iff]
        unfold releasedByChannel
        rw [e1] at e2
        simp only [hh, Option.any_some, r2] at e2
        by_cases hm : (old.channels.get c).authMode ≠ (s.chanSet c).authMode ∧
            (s.chanSet c).authMode.admits (sourceRole s h) = false
        · have e2 : v.auth c = (s.auth c).released := by rw [e2]; simp [hm.1, hm.2]
          rw [e2] at e3
          have e3 : w.auth c = (s.auth c).released := by simpa [Authority.released] using e3
          exact ⟨fun _ => e3, fun hr => absurd (.inl hm) hr⟩
        · have e2 : v.auth c = s.auth c := by
            rw [e2, if_neg]
            simpa [and_comm] using hm
          rw [e2] at e3
          simp only [hh, ne_eq, reduceCtorEq, not_false_eq_true, and_true] at e3
          by_cases hc : channelChanges (old.channels.get c) (s.chanSet c) = true
          · exact ⟨fun _ => by rw [e3, if_pos hc], fun hr => absurd (.inr hc) hr⟩
          · exact ⟨fun hr => absurd (hr.resolve_left hm) hc, fun _ => by rw [e3, if_neg hc]⟩
  by_cases hcl : cleared
  · rw [if_pos hcl] at e4
    refine ⟨fun hr => ?_, fun hr => ?_, fun _ => ?_, fun h => absurd hcl h⟩
    · rw [e4, key.1 hr]; exact ⟨rfl, rfl⟩
    · rw [e4, key.2 hr]; exact ⟨rfl, rfl⟩
    · rw [e4]; exact ⟨rfl, rfl⟩
  · rw [if_neg hcl] at e4
    refine ⟨fun hr => ?_, fun hr => ?_, fun h => absurd h hcl, fun _ => ?_⟩
    · rw [e4, key.1 hr]; exact ⟨rfl, rfl⟩
    · rw [e4, key.2 hr]; exact ⟨rfl, rfl⟩
    · rw [e4]
      by_cases hr : released
      · rw [key.1 hr]; exact ⟨rfl, rfl⟩
      · rw [key.2 hr]; exact ⟨rfl, rfl⟩

/-! ### The channels (R22) -/

/-- A channel that comes into the searched story as a LIVE one joins the search: the test on the searcher. -/
def joinTest (k : Option Slot) (c : Chan) (s : State) : Bool :=
  s.exchange.searcher.any fun sr => k == some sr.slot && !sr.members.any (·.channel == c)

theorem joiningMember_channel (sr : Searcher) (c : Chan) (k : Option Key) : (joiningMember sr c k).channel = c := by
  unfold joiningMember
  repeat' split
  all_goals rfl

/-- Another channel that joins the search changes no channel's test. -/
theorem joinTest_join {c d : Chan} (k : Option Slot) (s : State) (h : d ≠ c) :
    joinTest k c (joinSearch d s) = joinTest k c s := by
  unfold joinTest joinSearch
  cases e : s.exchange.searcher with
  | none => simp [e]
  | some sr =>
    dsimp only
    split
    · have : (d == c) = false := by simpa using h
      simp [joiningMember_channel, this]
    · simp [e]

theorem joinTest_leave {c d : Chan} (k : Option Slot) (s : State) (h : d ≠ c) :
    joinTest k c (leaveSearchList d s) = joinTest k c s := by
  unfold joinTest leaveSearchList
  cases e : s.exchange.searcher with
  | none => simp
  | some sr =>
    have : (sr.members.filter fun m => m.channel != d).any (·.channel == c) =
        sr.members.any (·.channel == c) := by
      rw [List.any_filter]
      congr 1
      funext m
      by_cases hm : m.channel = c
      · simp [hm, Ne.symm h]
      · simp [hm]
    simp [this]

/-- A join of a LIVE channel adds EXCHANGE exactly when its test holds. -/
theorem joinSearch_self (c : Chan) (s : State) (live : s.mode c = .live) : (joinSearch c s).chan c =
    { s.chan c with exchange := (s.chan c).exchange || joinTest ((s.chan c).anchor.map (·.slot)) c s } := by
  unfold joinSearch joinTest
  cases e : s.exchange.searcher with
  | none => simp
  | some sr =>
    have hl : s.isLive c = true := by simp [State.isLive, live]
    dsimp only
    split
    · rename_i h
      rw [State.chan_modChan_self]
      obtain ⟨-, h2, h3⟩ := h
      have : ((s.chan c).anchor.map (·.slot) == some sr.slot && !sr.members.any (·.channel == c)) = true := by
        rw [h2, Bool.eq_false_iff.2 h3]
        simp
      simp only [Option.any_some, this, Bool.or_true]
      rfl
    · rename_i h
      have : ((s.chan c).anchor.map (·.slot) == some sr.slot && !sr.members.any (·.channel == c)) = false := by
        simp only [hl, true_and] at h
        by_cases hk : (s.chan c).anchor.map (·.slot) = some sr.slot
        · simpa [hk] using h
        · simp [hk]
      simp [this]

/-- What the channels' take leaves of one channel. -/
def channelAfterTake (old : Settings) (c : Chan) (s : State) : Channel :=
  let was := old.channels.get c
  let now := s.chanSet c
  if channelChanges was now then
    let ch := { (s.chan c).changeMode was.mode now.mode with placed := true }
    if now.mode = .live then { ch with exchange := ch.exchange || joinTest (ch.anchor.map (·.slot)) c s } else ch
  else s.chan c

theorem channelTake_self (old : Settings) (c : Chan) (s : State) :
    (channelTake old c s).chan c = channelAfterTake old c s := by
  unfold channelTake channelAfterTake
  dsimp only
  split
  · split
    · rename_i live
      have e := joinSearch_self c (s.modChan c fun ch =>
        { ch.changeMode (old.channels.get c).mode (s.chanSet c).mode with placed := true }) live
      rw [State.chan_modChan_self] at e
      exact e
    · exact State.chan_modChan_self s c fun ch =>
        { ch.changeMode (old.channels.get c).mode (s.chanSet c).mode with placed := true }
  · rfl

theorem channelTake_ne (old : Settings) {c d : Chan} (s : State) (h : d ≠ c) :
    (channelTake old c s).chan d = s.chan d := by
  unfold channelTake
  dsimp only
  split
  · split
    · rw [(joinSearch_chan c d _).2 h, s.chan_modChan_ne _ h]
    · exact s.chan_modChan_ne (fun ch =>
        { ch.changeMode (old.channels.get c).mode (s.chanSet c).mode with placed := true }) h
  · rfl

theorem channelTake_test (old : Settings) {c d : Chan} (k : Option Slot) (s : State) (h : d ≠ c) :
    joinTest k c (channelTake old d s) = joinTest k c s := by
  unfold channelTake
  dsimp only
  split
  · split
    · exact joinTest_join k _ h
    · exact joinTest_leave k _ h
  · rfl

theorem channelTakes_chan (old : Settings) (c : Chan) (s : State) :
    (forEach allChans (channelTake old) s).chan c = channelAfterTake old c s :=
  forEach_own (fun t => t.chan c) (channelAfterTake old c) (mem_allChans c) allChans_nodup
    (fun _ hy t => channelTake_ne old t (Ne.symm hy)) (channelTake_self old c)
    (fun y hy t => by
      unfold channelAfterTake
      rw [channelTake_ne old t (Ne.symm hy), chanSet_congr ((channelTake_keeps old y).settings t)]
      dsimp only
      rw [channelTake_test old _ t hy]) s

/-! ### The ports (R96) -/

theorem lineTake_port (was now : PortSettings) (p : PortId) (l : LineId) (s : State) :
    (lineTake was now p l s).port p =
      if isButton now.mode l && (was.invert.get l != now.invert.get l || was.action.get l != now.action.get l) then
        { s.port p with buttons := (s.port p).buttons.set l .reset, reverseSet := (s.port p).reverseSet.set l false }
      else s.port p := by
  unfold lineTake
  split
  · exact s.port_modPort_self p fun q =>
      { q with buttons := q.buttons.set l .reset, reverseSet := q.reverseSet.set l false }
  · rfl

theorem lineTake_ne (was now : PortSettings) {p q : PortId} (l : LineId) (s : State) (h : q ≠ p) :
    (lineTake was now p l s).port q = s.port q := by
  unfold lineTake
  split
  · exact s.port_modPort_ne (fun q =>
      { q with buttons := q.buttons.set l .reset, reverseSet := q.reverseSet.set l false }) h
  · rfl

/-- What the ports' take leaves of one port. -/
def portAfterTake (old : Settings) (p : PortId) (s : State) : Port :=
  let was := old.ports.get p
  let now := s.portSet p
  if portRestarts was now then (s.port p).restart now.mode
  else
    let line := fun (l : LineId) (q : Port) =>
      if isButton now.mode l && (was.invert.get l != now.invert.get l || was.action.get l != now.action.get l) then
        { q with buttons := q.buttons.set l .reset, reverseSet := q.reverseSet.set l false }
      else q
    line .c (line .b (line .a ((s.port p).adjust was now)))

theorem portTake_self (old : Settings) (p : PortId) (s : State) :
    (portTake old p s).port p = portAfterTake old p s := by
  unfold portTake portAfterTake
  dsimp only
  split
  · exact s.port_modPort_self p _
  · have : ∀ t : State, (forEach allLines (lineTake (old.ports.get p) (s.portSet p) p) t).port p = _ := fun t => by
      rw [allLines, forEach_cons, forEach_cons, forEach_cons, forEach_nil, lineTake_port, lineTake_port, lineTake_port]
    split
    · rw [show ∀ (t : State), (t.setArmed p false).port p = t.port p from fun _ => rfl, this,
        State.port_modPort_self]
    · rw [this, State.port_modPort_self]

theorem portTake_ne (old : Settings) {p q : PortId} (s : State) (h : q ≠ p) :
    (portTake old p s).port q = s.port q := by
  unfold portTake
  dsimp only
  split
  · exact s.port_modPort_ne _ h
  · have : ∀ t : State, (forEach allLines (lineTake (old.ports.get p) (s.portSet p) p) t).port q = t.port q :=
      fun t => forEach_same (π := fun t => t.port q) _ (fun l _ t => lineTake_ne _ _ l t h) t
    split
    · exact (this _).trans (s.port_modPort_ne _ h)
    · exact (this _).trans (s.port_modPort_ne _ h)

theorem portTakes_port (old : Settings) (p : PortId) (s : State) :
    (forEach allPorts (portTake old) s).port p = portAfterTake old p s :=
  forEach_own (fun t => t.port p) (portAfterTake old p) (mem_allPorts p) allPorts_nodup
    (fun _ hy t => portTake_ne old t (Ne.symm hy)) (portTake_self old p)
    (fun y hy t => by
      unfold portAfterTake
      rw [portTake_ne old t (Ne.symm hy), portSet_congr ((portTake_keeps old y).settings t)]) s

theorem portTakes_armed (old : Settings) (p : PortId) (s : State) :
    (forEach allPorts (portTake old) s).armed.get p =
      (s.armed.get p && !portRestarts (old.ports.get p) (s.portSet p) &&
        (old.ports.get p).role == (s.portSet p).role) := by
  have lines : ∀ was now q (t : State), (forEach allLines (lineTake was now q) t).armed = t.armed :=
    fun was now q t => forEach_same (π := State.armed) _ (fun l _ t => by unfold lineTake; split <;> rfl) t
  refine forEach_own (fun t => t.armed.get p) (fun s => s.armed.get p &&
    !portRestarts (old.ports.get p) (s.portSet p) && (old.ports.get p).role == (s.portSet p).role)
    (mem_allPorts p) allPorts_nodup (fun y hy t => ?_) (fun t => ?_) (fun y hy t => ?_) s
  · unfold portTake
    dsimp only
    split
    · exact Bank.get_set_ne _ _ (Ne.symm hy)
    · split
      · exact (Bank.get_set_ne _ _ (Ne.symm hy)).trans (by rw [lines]; rfl)
      · rw [lines]; rfl
  · unfold portTake
    dsimp only
    split
    · rename_i h; simp [State.setArmed, h]
    · rename_i h
      split
      · rename_i hr
        have : ((old.ports.get p).role == (t.portSet p).role) = false := by simpa using hr
        simp [State.setArmed, this]
      · rename_i hr
        have : ((old.ports.get p).role == (t.portSet p).role) = true := by simpa using hr
        rw [lines]
        simp [this, h]
  · rw [portSet_congr ((portTake_keeps old y).settings t)]
    congr 2
    unfold portTake
    dsimp only
    split
    · exact Bank.get_set_ne _ _ (Ne.symm hy)
    · split
      · exact (Bank.get_set_ne _ _ (Ne.symm hy)).trans (by rw [lines]; rfl)
      · rw [lines]; rfl

/-! ### The pressed-line sets (R22, R96) -/

/-- One line of one channel's pressed-line set. -/
def State.pressedLine (s : State) (c : Chan) (p : PortId) (l : LineId) : Bool :=
  ((s.chan c).pressed.get p).get l

theorem pressedLine_set (s : State) (c d : Chan) (p q : PortId) (l m : LineId) (on : Bool) :
    (setPressed c p l on s).pressedLine d q m =
      if d = c ∧ q = p ∧ m = l then on else s.pressedLine d q m := by
  unfold State.pressedLine setPressed
  by_cases hc : d = c
  · subst hc
    rw [State.chan_modChan_self]
    by_cases hp : q = p
    · subst hp
      by_cases hl : m = l
      · subst hl; simp
      · simp [hl, Trio.get_set_ne _ _ hl]
    · simp [hp, Bank.get_set_ne _ _ hp]
  · simp [hc, s.chan_modChan_ne _ hc]

/-- A line's reset at a take. -/
def lineReset (was now : PortSettings) (l : LineId) : Bool :=
  isButton now.mode l && (was.invert.get l != now.invert.get l || was.action.get l != now.action.get l)

theorem pressedLine_line (was now : PortSettings) (p : PortId) (k : LineId) (s : State) (d : Chan) (q : PortId)
    (m : LineId) : (lineTake was now p k s).pressedLine d q m =
      (s.pressedLine d q m && !(decide (d = now.channel ∧ q = p ∧ m = k) && lineReset was now k)) := by
  unfold lineTake lineReset
  split
  · rename_i h
    rw [pressedLine_set, h]
    split
    · rename_i e; simp [e]
    · rename_i e; simp [e]; rfl
  · rename_i h
    simp only [Bool.not_eq_true] at h
    simp [h]

theorem pressedLine_port (old : Settings) (p : PortId) (s : State) (d : Chan) (q : PortId) (m : LineId) :
    (portTake old p s).pressedLine d q m = (s.pressedLine d q m && !(decide (q = p) &&
      (if portRestarts (old.ports.get p) (s.portSet p) then decide (d = (old.ports.get p).channel)
       else decide (d = (s.portSet p).channel) && lineReset (old.ports.get p) (s.portSet p) m))) := by
  unfold portTake
  dsimp only
  split
  · show (unpressPort _ p s).pressedLine d q m = _
    unfold unpressPort State.pressedLine
    by_cases hd : d = (old.ports.get p).channel
    · rw [hd, State.chan_modChan_self]
      by_cases hq : q = p
      · subst hq; simp
      · simp [hq, Bank.get_set_ne _ _ hq]
    · simp [hd, s.chan_modChan_ne _ hd]
  · have : ∀ t : State, (forEach allLines (lineTake (old.ports.get p) (s.portSet p) p) t).pressedLine d q m =
        (t.pressedLine d q m && !(decide (q = p) && (decide (d = (s.portSet p).channel) &&
          lineReset (old.ports.get p) (s.portSet p) m))) := fun t => by
      rw [allLines, forEach_cons, forEach_cons, forEach_cons, forEach_nil, pressedLine_line, pressedLine_line,
        pressedLine_line]
      by_cases hq : q = p <;> by_cases hd : d = (s.portSet p).channel <;> cases m <;> simp [hq, hd]
    split
    · exact this (s.modPort p _)
    · exact this (s.modPort p _)

theorem portTakes_pressed (old : Settings) (s : State) (d : Chan) (q : PortId) (m : LineId) :
    (forEach allPorts (portTake old) s).pressedLine d q m = (s.pressedLine d q m &&
      !(if portRestarts (old.ports.get q) (s.portSet q) then decide (d = (old.ports.get q).channel)
        else decide (d = (s.portSet q).channel) && lineReset (old.ports.get q) (s.portSet q) m)) := by
  refine forEach_own (fun t => t.pressedLine d q m) (fun s => s.pressedLine d q m &&
      !(if portRestarts (old.ports.get q) (s.portSet q) then decide (d = (old.ports.get q).channel)
        else decide (d = (s.portSet q).channel) && lineReset (old.ports.get q) (s.portSet q) m))
    (mem_allPorts q) allPorts_nodup (fun y hy t => ?_) (fun t => ?_) (fun y hy t => ?_) s
  · rw [pressedLine_port]; simp [Ne.symm hy]
  · rw [pressedLine_port]; simp
  · rw [portSet_congr ((portTake_keeps old y).settings t), pressedLine_port]
    simp [Ne.symm hy]

/-- The ports' take changes nothing of a channel but its pressed-line set. -/
theorem portTakes_chan (old : Settings) (s : State) (c : Chan) :
    (forEach allPorts (portTake old) s).chan c =
      { s.chan c with pressed := ((forEach allPorts (portTake old) s).chan c).pressed } := by
  have press : ∀ (d : Chan) (p : PortId) (t : State) (g : Channel → Bank 8 (Trio Bool)),
      (t.modChan d fun ch => { ch with pressed := g ch }).chan c =
        { t.chan c with pressed := ((t.modChan d fun ch => { ch with pressed := g ch }).chan c).pressed } := by
    intro d p t g
    by_cases h : c = d
    · subst h; rw [State.chan_modChan_self]
    · rw [t.chan_modChan_ne _ h]
  refine forEach_induct (P := fun t => t.chan c = { s.chan c with pressed := (t.chan c).pressed }) _
    (fun p _ t ht => ?_) s rfl
  have step : ∀ u : State, u.chan c = { t.chan c with pressed := (u.chan c).pressed } →
      u.chan c = { s.chan c with pressed := (u.chan c).pressed } := fun u hu => by rw [hu, ht]
  refine step _ ?_
  unfold portTake
  dsimp only
  split
  · exact press (old.ports.get p).channel p (t.modPort p _) fun ch => ch.pressed.set p (Trio.fill false)
  · have lines : ∀ u : State, u.chan c = t.chan c →
        (forEach allLines (lineTake (old.ports.get p) (t.portSet p) p) u).chan c =
          { t.chan c with pressed :=
            ((forEach allLines (lineTake (old.ports.get p) (t.portSet p) p) u).chan c).pressed } := fun u hu =>
      forEach_induct (P := fun v => v.chan c = { t.chan c with pressed := (v.chan c).pressed }) _
        (fun l _ v hv => by
          have : (lineTake (old.ports.get p) (t.portSet p) p l v).chan c =
              { v.chan c with pressed := ((lineTake (old.ports.get p) (t.portSet p) p l v).chan c).pressed } := by
            unfold lineTake
            split
            · exact press (t.portSet p).channel p (v.modPort p _) fun ch =>
                ch.pressed.set p ((ch.pressed.get p).set l false)
            · rfl
          rw [this, hv]) u (by rw [hu])
    split
    · exact lines (t.modPort p _) rfl
    · exact lines (t.modPort p _) rfl

/-! ### The lamps and the reports (R143, R168) -/

theorem groupTakes_pattern (old : Settings) (s : State) (g : GroupId) :
    (forEach (List.finRange 4) (groupTake old) s).lamps.pattern.get g =
      if old.groupChannel.get g = s.settings.groupChannel.get g ∧ old.groupMode.get g = s.settings.groupMode.get g then
        s.lamps.pattern.get g else 0 := by
  have keeps : ∀ y (t : State), (groupTake old y t).settings = t.settings := fun y t => by
    unfold groupTake; split <;> rfl
  have ne : ∀ y, y ≠ g → ∀ t : State, (groupTake old y t).lamps.pattern.get g = t.lamps.pattern.get g :=
    fun y hy t => by
      unfold groupTake
      split
      · exact Bank.get_set_ne _ _ (Ne.symm hy)
      · rfl
  refine forEach_own (fun t => t.lamps.pattern.get g) (fun s =>
    if old.groupChannel.get g = s.settings.groupChannel.get g ∧ old.groupMode.get g = s.settings.groupMode.get g then
        s.lamps.pattern.get g else 0) (List.mem_finRange g) (List.nodup_finRange 4) ne (fun t => ?_)
    (fun y hy t => by rw [keeps y t, ne y hy t]) s
  unfold groupTake
  by_cases h : old.groupChannel.get g = t.settings.groupChannel.get g ∧ old.groupMode.get g = t.settings.groupMode.get g
  · rw [if_pos h, if_neg (by simp [h.1, h.2])]
  · rw [if_neg h, if_pos (by simpa [Decidable.or_iff_not_not_and_not] using h)]
    exact Bank.get_set_self ..

theorem groupTakes_strobe (old : Settings) (s : State) :
    (forEach (List.finRange 4) (groupTake old) s).lamps.strobe = s.lamps.strobe :=
  forEach_same (π := fun t => t.lamps.strobe) _ (fun g _ t => by unfold groupTake; split <;> rfl) s

/-- The part of the Report Unit that raising a report does not touch. -/
theorem releaseHolder_classes (c : Chan) (cause : AuthorityCause) (s : State) :
    ((releaseHolder c cause s).reports.causes, (releaseHolder c cause s).reports.postponed) =
      (s.reports.causes, s.reports.postponed) := by
  unfold releaseHolder
  split
  · rfl
  · rw [raiseRunning_reports]; rfl

theorem authorityTake_classes (old : Settings) (s : State) :
    ((authorityTake old s).reports.causes, (authorityTake old s).reports.postponed) =
      (s.reports.causes, s.reports.postponed) := by
  unfold authorityTake
  refine (forEach_same (π := fun t => (t.reports.causes, t.reports.postponed)) _ (fun c _ t => ?_) _).trans
    ((forEach_same (π := fun t => (t.reports.causes, t.reports.postponed)) _ (fun c _ t => ?_) _).trans
    ((forEach_same (π := fun t => (t.reports.causes, t.reports.postponed)) _ (fun c _ t => ?_) _).trans
    (forEach_same (π := fun t => (t.reports.causes, t.reports.postponed)) _ (fun p _ t => ?_) _)))
  · unfold clearConsole; split <;> rfl
  · unfold releaseForMode; split
    · exact releaseHolder_classes ..
    · rfl
  · unfold releaseForAuthority; split
    · exact releaseHolder_classes ..
    · rfl
  · unfold releaseForPort; dsimp only; split
    · exact releaseHolder_classes ..
    · rfl

theorem timebaseTake_classes (rate : FrameRate) (select : RefSelect) (s : State) :
    ((timebaseTake rate select s).reports.causes, (timebaseTake rate select s).reports.postponed) =
      (s.reports.causes, s.reports.postponed) := by
  unfold timebaseTake
  split
  · rfl
  · split
    · rw [raiseRunning_reports]; rfl
    · rfl

/-! ### The take (R158) -/

/-- Each block of the state that a settings take leaves, from the part of the take that acts on it. -/
theorem applySettings_blocks (new : Settings) (s : State) :
    let s₀ := { s with settings := new }
    let s₁ := authorityTake s.settings s₀
    let s₂ := forEach allChans (channelTake s.settings) s₁
    let s₃ := forEach allPorts (portTake s.settings) s₂
    let s₄ := timebaseTake s.settings.frameRate s.settings.refSelect s₃
    let t := applySettings new s
    t.authority = s₁.authority ∧ t.channels = s₃.channels ∧ t.ports = s₃.ports ∧ t.armed = s₃.armed ∧
    t.timebase = s₄.timebase ∧ t.lamps = (lampsTake s.settings s₄).lamps ∧
    t.reports = (releasePostponed s₄).reports ∧
    s₁.settings = new ∧ s₂.settings = new ∧ s₃.settings = new ∧ s₄.settings = new := by
  intro s₀ s₁ s₂ s₃ s₄ t
  have k1 : s₁.settings = new := (authorityTake_keeps s.settings).settings s₀
  have c2 := Keeps.forEach (channelTake_keeps s.settings) allChans
  have c3 := Keeps.forEach (portTake_keeps s.settings) allPorts
  have k2 : s₂.settings = new := (c2.settings s₁).trans k1
  have k3 : s₃.settings = new := (c3.settings s₂).trans k2
  have c4 := timebaseTake_keeps s.settings.frameRate s.settings.refSelect
  have k4 : s₄.settings = new := (c4.settings s₃).trans k3
  have c5 := lampsTake_keeps s.settings
  have ht : t = releasePostponed (lampsTake s.settings s₄) := rfl
  refine ⟨?_, ?_, ?_, ?_, ?_, ?_, ?_, k1, k2, k3, k4⟩
  · rw [ht, releasePostponed_keeps.authority, c5.authority]
    exact (c4.authority s₃).trans ((c3.authority s₂).trans (c2.authority s₁))
  · rw [ht, releasePostponed_keeps.channels, c5.channels]; exact c4.channels s₃
  · rw [ht, releasePostponed_keeps.ports, c5.ports]; exact c4.ports s₃
  · rw [ht, releasePostponed_keeps.armed, c5.armed]; exact c4.armed s₃
  · rw [ht, releasePostponed_keeps.timebase, c5.timebase]
  · rw [ht, releasePostponed_keeps.lamps]
  · rw [ht]
    unfold releasePostponed
    rw [c5.reports, c5.settings]

theorem portChanges_iff (s t : State) (p : PortId) :
    portRestarts (s.portSet p) (t.portSet p) = true ↔ portChanges s t p := by
  unfold portRestarts portChanges; simp

theorem lineChanges_iff (s t : State) (p : PortId) (l : LineId) :
    lineReset (s.portSet p) (t.portSet p) l = true ↔ lineChanges s t p l := by
  unfold lineReset lineChanges; simp

theorem applySettings_authority (new : Settings) (s : State) (c : Chan) :
    authorityActed s (applySettings new s) c := by
  obtain ⟨ha, -⟩ := applySettings_blocks new s
  have hs := applySettings_settings new s
  generalize applySettings new s = t at ha hs
  have key := authorityTake_auth s.settings c { s with settings := new }
  unfold authorityActed
  have hc : t.chanSet c = ({ s with settings := new } : State).chanSet c := chanSet_congr hs c
  have hp : ∀ p, t.portSet p = ({ s with settings := new } : State).portSet p := portSet_congr hs
  have hr : ∀ h, sourceRole t h = sourceRole { s with settings := new } h := sourceRole_congr hs
  have h1 : t.auth c = (authorityTake s.settings { s with settings := new }).auth c := by
    unfold State.auth; rw [ha]
  have iff : ∀ h, (releasedByPort s.settings { s with settings := new } c allPorts ∨
      releasedByChannel s.settings { s with settings := new } c h) ∧ (s.auth c).holder = some h ↔
      takeReleases s t c h ∧ (s.auth c).holder = some h := by
    intro h
    refine and_congr_left fun hh => ?_
    unfold takeReleases releasedByChannel
    have hm : channelChanges (s.settings.channels.get c) (({ s with settings := new } : State).chanSet c) = true ↔
        modeChanges s t c := by rw [← hc]; exact modeChanges_iff s.settings s t c rfl
    rw [hm, hc, hr h]
    have hport : releasedByPort s.settings { s with settings := new } c allPorts ↔
        ∃ p, h = .port p ∧ (s.portSet p).channel = c ∧ (portChanges s t p ∨ s.role p ≠ t.role p) := by
      unfold releasedByPort
      constructor
      · rintro ⟨p, -, h2, h3, h4⟩
        have : some h = some (.port p) := hh.symm.trans h2
        cases this
        refine ⟨p, rfl, h3, ?_⟩
        rw [← hp] at h4
        exact h4.imp (portChanges_iff s t p).1 id
      · rintro ⟨p, rfl, h3, h4⟩
        refine ⟨p, mem_allPorts p, hh, h3, ?_⟩
        rw [← hp]
        exact h4.imp (portChanges_iff s t p).2 id
    rw [hport]
    constructor
    · rintro (h | h | h)
      · exact .inr (.inr h)
      · exact .inr (.inl h)
      · exact .inl h
    · rintro (h | h | h)
      · exact .inr (.inr h)
      · exact .inr (.inl h)
      · exact .inl h
  have rel : (∃ h, (s.auth c).holder = some h ∧ (releasedByPort s.settings { s with settings := new } c allPorts ∨
      releasedByChannel s.settings { s with settings := new } c h)) ↔
      ∃ h, (s.auth c).holder = some h ∧ takeReleases s t c h :=
    exists_congr fun h => and_comm.trans ((iff h).trans and_comm)
  rw [← rel, h1, hc]
  exact key

theorem applySettings_channel (new : Settings) (s : State) (c : Chan) :
    channelActed s (applySettings new s) c ∧ pressedActed s (applySettings new s) c := by
  obtain ⟨-, hch, -, -, -, -, -, k1, k2, k3, -⟩ := applySettings_blocks new s
  have hs := applySettings_settings new s
  generalize applySettings new s = t at hch hs
  have b1 : ∀ x : State, x = authorityTake s.settings { s with settings := new } →
      x.chan c = s.chan c ∧ x.exchange = s.exchange := fun x hx => by
    subst hx
    unfold State.chan
    rw [(authorityTake_keeps s.settings).channels, (authorityTake_keeps s.settings).exchange]
    exact ⟨rfl, rfl⟩
  generalize hs1 : authorityTake s.settings { s with settings := new } = s₁ at *
  obtain ⟨b1, b1x⟩ := b1 s₁ rfl
  have e2 := channelTakes_chan s.settings c s₁
  generalize hs2 : forEach allChans (channelTake s.settings) s₁ = s₂ at *
  have e3 := portTakes_chan s.settings s₂ c
  have p3 := fun p l => portTakes_pressed s.settings s₂ c p l
  generalize hs3 : forEach allPorts (portTake s.settings) s₂ = s₃ at *
  have ht : t.chan c = s₃.chan c := by unfold State.chan; rw [hch]
  have hc : s₁.chanSet c = t.chanSet c := chanSet_congr (k1.trans hs.symm) c
  have hp : ∀ p, s₂.portSet p = t.portSet p := portSet_congr (k2.trans hs.symm)
  have test : ∀ k, joinTest k c s₁ = joinTest k c s := fun k => by unfold joinTest; rw [b1x]
  unfold channelAfterTake at e2
  rw [hc, b1] at e2
  dsimp only at e2
  simp only [test] at e2
  have hm : channelChanges (s.settings.channels.get c) (t.chanSet c) = true ↔ modeChanges s t c :=
    modeChanges_iff s.settings s t c rfl
  have hold : s.settings.channels.get c = s.chanSet c := rfl
  rw [hold] at hm e2
  have val : t.chan c = { s₂.chan c with pressed := (t.chan c).pressed } := by rw [ht]; exact e3
  constructor
  · unfold channelActed
    dsimp only
    generalize t.chan c = y at val
    by_cases h : modeChanges s t c
    · rw [if_pos (hm.2 h)] at e2
      rw [e2] at val
      have off : joinTest none c s = false := by
        unfold joinTest
        cases s.exchange.searcher <;> rfl
      refine ⟨fun x => absurd h x, fun hw hn => ?_, fun hw hn => ?_, fun hw hn => ?_, fun hw hn => ?_,
        fun hw hn => ?_, fun hw hn _ => ?_⟩
      · rw [if_pos hn, hw, hn] at val
        refine val.trans ?_
        have step : ∀ (x : Channel) (b : Bool), b = false → { x with exchange := false || b } =
            ({ x with exchange := false } : Channel) := fun x b h => by rw [h]; rfl
        exact step { Channel.vacate (s.chan c) with placed := true, pressed := y.pressed } _ off
      · rw [if_neg (by simp [hn]), hn] at val
        cases hw' : (s.chanSet c).mode
        · exact absurd hw' hw
        · rw [hw'] at val; exact val
        · rw [hw'] at val; exact val
      · rw [if_neg (by simp [hn]), hw, hn] at val; exact val
      · rw [if_neg (by simp [hn]), hw, hn] at val; exact val
      · rw [if_pos hn, hw, hn] at val; exact val
      · rw [if_neg (by simp [hn]), hw, hn] at val; exact val
    · rw [if_neg (fun x => h (hm.1 x))] at e2
      rw [e2] at val
      have same : (s.chanSet c).mode = (t.chanSet c).mode := by
        by_cases e : (s.chanSet c).mode = (t.chanSet c).mode
        · exact e
        · exact absurd (.inl e) h
      refine ⟨fun _ => val, fun hw hn => ?_, fun hw hn => ?_, fun hw hn => ?_, fun hw hn => ?_,
        fun hw hn => ?_, fun _ _ x => absurd x h⟩
      all_goals
        exfalso
        rw [hn] at same
        first
        | exact hw same
        | (rw [hw] at same; cases same)
  · intro p l
    have hpl : ((t.chan c).pressed.get p).get l = s₃.pressedLine c p l := by rw [ht]; rfl
    have hs2l : s₂.pressedLine c p l = true ↔ ((s.chan c).pressed.get p).get l = true ∧
        (s.chanSet c).mode = (t.chanSet c).mode := by
      unfold State.pressedLine
      rw [e2]
      by_cases h : channelChanges (s.chanSet c) (t.chanSet c) = true
      · rw [if_pos h]
        cases hw : (s.chanSet c).mode <;> cases hn : (t.chanSet c).mode <;>
          simp [Channel.changeMode, Channel.vacate, Channel.restart]
      · rw [if_neg h]
        have same : (s.chanSet c).mode = (t.chanSet c).mode := by
          by_cases e : (s.chanSet c).mode = (t.chanSet c).mode
          · exact e
          · exact absurd (hm.2 (.inl e)) h
        simp [same]
    rw [hpl, p3 p l, hp p, Bool.and_eq_true, hs2l, and_assoc]
    refine and_congr_right fun _ => and_congr_right fun _ => ?_
    have hq : portRestarts (s.settings.ports.get p) (t.portSet p) = true ↔ portChanges s t p := portChanges_iff s t p
    have hl : lineReset (s.settings.ports.get p) (t.portSet p) l = true ↔ lineChanges s t p l :=
      lineChanges_iff s t p l
    by_cases hx : portChanges s t p
    · rw [if_pos (hq.2 hx)]
      rw [Bool.not_eq_true', decide_eq_false_iff_not]
      exact ⟨fun n => ⟨fun ⟨_, e⟩ => n e.symm, fun ⟨e, _⟩ => e hx⟩, fun ⟨n, _⟩ e => n ⟨hx, e.symm⟩⟩
    · rw [if_neg (fun y => hx (hq.1 y))]
      rw [Bool.not_eq_true', Bool.and_eq_false_iff, decide_eq_false_iff_not, ← Bool.not_eq_true, hl]
      constructor
      · rintro (n | n)
        · exact ⟨fun ⟨e, _⟩ => hx e, fun ⟨_, _, e⟩ => n e.symm⟩
        · exact ⟨fun ⟨e, _⟩ => hx e, fun ⟨_, e, _⟩ => n e⟩
      · rintro ⟨_, n⟩
        by_cases e : c = (t.portSet p).channel
        · exact .inr fun x => n ⟨hx, x, e.symm⟩
        · exact .inl e

/-- A line's reset, on the port alone. -/
def Port.resetLine (b : LineId → Bool) (l : LineId) (q : Port) : Port :=
  if b l = true then { q with buttons := q.buttons.set l .reset, reverseSet := q.reverseSet.set l false } else q

theorem Port.resetLines_eq (b : LineId → Bool) (q : Port) :
    let y := resetLine b .c (resetLine b .b (resetLine b .a q))
    (∀ l, (b l = true → y.buttons.get l = .reset ∧ y.reverseSet.get l = false) ∧
      (¬ b l = true → y.buttons.get l = q.buttons.get l ∧ y.reverseSet.get l = q.reverseSet.get l)) ∧
    y = { q with buttons := y.buttons, reverseSet := y.reverseSet } := by
  unfold resetLine
  dsimp only
  refine ⟨fun l => ?_, ?_⟩
  · cases ha : b .a <;> cases hb : b .b <;> cases hc : b .c <;> cases l <;>
      simp [ha, hb, hc, Trio.get, Trio.set]
  · cases b .a <;> cases b .b <;> cases b .c <;> rfl

theorem Port.adjust_eq (was now : PortSettings) (q : Port) :
    let capture := now.mode = .lever ∧ was.invert.a ≠ now.invert.a
    let wheel := now.mode = .wheel ∧ (was.invert.a ≠ now.invert.a ∨ was.invert.b ≠ now.invert.b)
    let y := q.adjust was now
    (capture → y.periodStart = none ∧ y.highTime = none) ∧
    (¬ capture → y.periodStart = q.periodStart ∧ y.highTime = q.highTime) ∧
    (wheel → y.quad = none) ∧ (¬ wheel → y.quad = q.quad) ∧
    (was.wheelFunction ≠ now.wheelFunction → y.jog = 0 ∧ y.standing = 0) ∧
    (was.wheelFunction = now.wheelFunction → y.jog = q.jog ∧ y.standing = q.standing) ∧
    y = { q with
      periodStart := y.periodStart, highTime := y.highTime, quad := y.quad, jog := y.jog, standing := y.standing } := by
  intro capture wheel y
  have hc : (now.mode == .lever && (was.invert.a != now.invert.a)) = true ↔ capture := by simp [capture]
  have hw : (now.mode == .wheel && ((was.invert.a != now.invert.a) || (was.invert.b != now.invert.b))) = true ↔
      wheel := by simp [wheel]
  have hf : (was.wheelFunction != now.wheelFunction) = true ↔ was.wheelFunction ≠ now.wheelFunction := by simp
  have hy : y = q.adjust was now := rfl
  unfold Port.adjust at hy
  dsimp only at hy
  rw [← hc, ← hw]
  generalize capture = x at *
  generalize (now.mode == .lever && (was.invert.a != now.invert.a)) = cb at *
  generalize (now.mode == .wheel && ((was.invert.a != now.invert.a) || (was.invert.b != now.invert.b))) = wb at *
  rw [← hf, show (was.wheelFunction = now.wheelFunction) ↔ ¬ (was.wheelFunction != now.wheelFunction) = true by simp]
  generalize (was.wheelFunction != now.wheelFunction) = fb at *
  clear_value y
  subst hy
  cases cb <;> cases wb <;> cases fb <;> simp

theorem applySettings_port (new : Settings) (s : State) (p : PortId) :
    portActed s (applySettings new s) p ∧ armActed s (applySettings new s) p := by
  obtain ⟨-, -, hpo, har, -, -, -, k1, k2, k3, -⟩ := applySettings_blocks new s
  have hs := applySettings_settings new s
  generalize applySettings new s = t at hpo har hs
  have b1 : ∀ x : State, x = authorityTake s.settings { s with settings := new } →
      x.ports = s.ports ∧ x.armed = s.armed := fun x hx => by
    subst hx
    rw [(authorityTake_keeps s.settings).ports, (authorityTake_keeps s.settings).armed]
    exact ⟨rfl, rfl⟩
  generalize hs1 : authorityTake s.settings { s with settings := new } = s₁ at *
  obtain ⟨b1, b1a⟩ := b1 s₁ rfl
  have b2 := (Keeps.forEach (channelTake_keeps s.settings) allChans).ports s₁
  have b2a := (Keeps.forEach (channelTake_keeps s.settings) allChans).armed s₁
  generalize hs2 : forEach allChans (channelTake s.settings) s₁ = s₂ at *
  have e3 := portTakes_port s.settings p s₂
  have a3 := portTakes_armed s.settings p s₂
  have ep : s₂.port p = s.port p := by unfold State.port; rw [b2, b1]
  have hp : ∀ p, s₂.portSet p = t.portSet p := portSet_congr (k2.trans hs.symm)
  have ht : t.port p = portAfterTake s.settings p s₂ := by rw [← e3]; unfold State.port; rw [hpo]
  have hold : s.settings.ports.get p = s.portSet p := rfl
  rw [hp p, b2a, b1a, hold] at a3
  unfold portAfterTake at ht
  rw [hp p, ep, hold] at ht
  dsimp only at ht
  have hq := portChanges_iff s t p
  have hl := lineChanges_iff s t p
  constructor
  · unfold portActed
    dsimp only
    generalize t.port p = y at ht
    by_cases hx : portChanges s t p
    · refine ⟨fun _ => ?_, fun h => absurd hx h⟩
      rw [if_pos (hq.2 hx)] at ht
      rw [ht]
      unfold Port.restart
      cases (t.portSet p).mode <;> rfl
    · refine ⟨fun h => absurd h hx, fun _ => ?_⟩
      rw [if_neg (fun h => hx (hq.1 h))] at ht
      have ht : y = Port.resetLine (lineReset (s.portSet p) (t.portSet p)) .c
          (Port.resetLine (lineReset (s.portSet p) (t.portSet p)) .b
            (Port.resetLine (lineReset (s.portSet p) (t.portSet p)) .a
              ((s.port p).adjust (s.portSet p) (t.portSet p)))) := ht
      obtain ⟨r1, r2⟩ := Port.resetLines_eq (lineReset (s.portSet p) (t.portSet p))
        ((s.port p).adjust (s.portSet p) (t.portSet p))
      rw [← ht] at r1 r2
      obtain ⟨q1, q2, q3, q4, q5, q6, q7⟩ := Port.adjust_eq (s.portSet p) (t.portSet p) (s.port p)
      generalize (s.port p).adjust (s.portSet p) (t.portSet p) = z at r1 r2 q1 q2 q3 q4 q5 q6 q7
      have zb : z.buttons = (s.port p).buttons := by rw [q7]
      have zr : z.reverseSet = (s.port p).reverseSet := by rw [q7]
      have yp : y.periodStart = z.periodStart ∧ y.highTime = z.highTime ∧ y.quad = z.quad ∧ y.jog = z.jog ∧
          y.standing = z.standing := by rw [r2]; exact ⟨rfl, rfl, rfl, rfl, rfl⟩
      obtain ⟨y1, y2, y3, y4, y5⟩ := yp
      refine ⟨fun l => ⟨fun h => (r1 l).1 ((hl l).2 h), fun h => ?_⟩, ?_, ?_, ?_, ?_, ?_, ?_, ?_⟩
      · rw [← zb, ← zr]; exact (r1 l).2 fun x => h ((hl l).1 x)
      · rw [y1, y2]; exact q1
      · rw [y1, y2]; exact q2
      · rw [y3]; exact q3
      · rw [y3]; exact q4
      · rw [y4, y5]; exact q5
      · rw [y4, y5]; exact q6
      · rw [y1, y2, y3, y4, y5]
        refine r2.trans ?_
        generalize y.buttons = yb
        generalize y.reverseSet = yr
        rw [q7]
  · unfold armActed
    rw [har, a3]
    rw [Bool.and_eq_true, Bool.and_eq_true, Bool.not_eq_true', beq_iff_eq, and_assoc, ← hq, Bool.not_eq_true]
    rfl

theorem applySettings_acted (new : Settings) (s : State) : SettingsActed s (applySettings new s) := by
  refine ⟨applySettings_channel new s, applySettings_port new s, applySettings_authority new s, ?_, ?_, ?_⟩
  all_goals
    obtain ⟨-, -, -, -, htb, hla, hre, k1, k2, k3, k4⟩ := applySettings_blocks new s
    have hs := applySettings_settings new s
    have c4 := timebaseTake_keeps s.settings.frameRate s.settings.refSelect
    have c3 := Keeps.forEach (portTake_keeps s.settings) allPorts
    have c2 := Keeps.forEach (channelTake_keeps s.settings) allChans
    have c1 := authorityTake_keeps s.settings
  · unfold lampsActed
    rw [hla, hs]
    unfold lampsTake
    dsimp only
    refine ⟨rfl, ?_, fun g => ?_⟩
    · rw [groupTakes_strobe, c4.lamps, c3.lamps, c2.lamps, c1.lamps]
    · rw [groupTakes_pattern, c4.lamps, c3.lamps, c2.lamps, c1.lamps, k4]
  · unfold classesActed
    intro k
    have cl := (timebaseTake_classes s.settings.frameRate s.settings.refSelect
      (forEach allPorts (portTake s.settings) (forEach allChans (channelTake s.settings)
        (authorityTake s.settings { s with settings := new }))))
    rw [c3.reports, c2.reports, authorityTake_classes] at cl
    obtain ⟨cl1, cl2⟩ := Prod.mk.inj cl
    rw [hre, hs]
    unfold releasePostponed
    dsimp only
    rw [cl1, cl2, k4]
    cases k <;> exact ⟨rfl, rfl⟩
  · unfold timebaseActed
    dsimp only
    rw [htb, hs]
    have tb : (forEach allPorts (portTake s.settings) (forEach allChans (channelTake s.settings)
        (authorityTake s.settings { s with settings := new }))).timebase = s.timebase := by
      rw [c3.timebase, c2.timebase, c1.timebase]
    generalize (forEach allPorts (portTake s.settings) (forEach allChans (channelTake s.settings)
        (authorityTake s.settings { s with settings := new }))) = u at k3 tb
    by_cases h : s.settings.frameRate ≠ new.frameRate ∨ s.settings.refSelect ≠ new.refSelect
    · have hn : ¬ (u.rate = s.settings.frameRate ∧ u.settings.refSelect = s.settings.refSelect) := by
        unfold State.rate
        rw [k3]
        rintro ⟨e1, e2⟩
        exact h.elim (fun x => x e1.symm) fun x => x e2.symm
      refine ⟨fun x => absurd h x, fun _ hl => ?_, fun _ hl => ?_⟩
      · unfold timebaseTake
        rw [if_neg hn, if_neg (by rw [tb, hl]; simp)]
        unfold State.modTimebase
        rw [tb]
      · unfold timebaseTake
        rw [if_neg hn, if_pos (by rw [tb, hl])]
        rw [(raiseRunning_keeps _).timebase]
        unfold State.modTimebase State.rate
        rw [tb, k3]
        rfl
    · have he : u.rate = s.settings.frameRate ∧ u.settings.refSelect = s.settings.refSelect := by
        unfold State.rate
        rw [k3]
        rw [not_or, not_not, not_not] at h
        exact ⟨h.1.symm, h.2.symm⟩
      refine ⟨fun _ => ?_, fun x => absurd x h, fun x => absurd x h⟩
      unfold timebaseTake
      rw [if_pos he, tb]

/-- The acts of a take speak of no block but these, and of the classes alone in the Report Unit. -/
theorem SettingsActed.congr {s s' t t' : State} (h : SettingsActed s t)
    (before : s'.settings = s.settings ∧ s'.channels = s.channels ∧ s'.ports = s.ports ∧ s'.armed = s.armed ∧
      s'.authority = s.authority ∧ s'.lamps = s.lamps ∧ s'.timebase = s.timebase ∧ s'.exchange = s.exchange ∧
      s'.reports.causes = s.reports.causes ∧ s'.reports.postponed = s.reports.postponed)
    (after : t'.settings = t.settings ∧ t'.channels = t.channels ∧ t'.ports = t.ports ∧ t'.armed = t.armed ∧
      t'.authority = t.authority ∧ t'.lamps = t.lamps ∧ t'.timebase = t.timebase ∧
      t'.reports.causes = t.reports.causes ∧ t'.reports.postponed = t.reports.postponed) : SettingsActed s' t' := by
  obtain ⟨a1, a2, a3, a4, a5, a6, a7, a8, a9, a10⟩ := before
  obtain ⟨b1, b2, b3, b4, b5, b6, b7, b9, b10⟩ := after
  have role : ∀ x, sourceRole t' x = sourceRole t x := sourceRole_congr b1
  obtain ⟨h1, h2, h3, h4, h5, h6⟩ := h
  refine ⟨fun c => ?_, fun p => ?_, fun c => ?_, ?_, ?_, ?_⟩
  · have := h1 c
    simp only [channelActed, pressedActed, modeChanges, portChanges, lineChanges, State.chanSet, State.portSet,
      State.chan, a1, a2, a8, b1, b2] at this ⊢
    exact this
  · have := h2 p
    simp only [portActed, armActed, portChanges, lineChanges, State.portSet, State.role,
      State.port, a1, a3, a4, b1, b3, b4] at this ⊢
    exact this
  · have := h3 c
    simp only [authorityActed, takeReleases, modeChanges, portChanges, State.chanSet, State.portSet, State.role,
      State.auth, role, a1, a5, b1, b5] at this ⊢
    exact this
  · simp only [lampsActed, a1, a6, b1, b6] at h4 ⊢
    exact h4
  · simp only [classesActed, a9, a10, b1, b9, b10] at h5 ⊢
    exact h5
  · simp only [timebaseActed, a1, a7, b1, b7] at h6 ⊢
    exact h6

theorem settingsTake_acted (block : List Byte) (inStart : Bool) (s : State) :
    SettingsActed s (settingsTake block inStart s) := by
  have h := applySettings_acted (settingsOf block)
    { s with area := { s.area with takenGeneration := blockGeneration block } }
  refine h.congr ⟨rfl, rfl, rfl, rfl, rfl, rfl, rfl, rfl, rfl, rfl⟩ ?_
  have k : ∀ r address bytes (u : State), (raise r (issueWrite .takenGeneration address bytes none u)).reports =
      { u.reports with
        queue := (raise r (issueWrite .takenGeneration address bytes none u)).reports.queue
        dropped := (raise r (issueWrite .takenGeneration address bytes none u)).reports.dropped } :=
    fun r address bytes u => raise_reports r (issueWrite .takenGeneration address bytes none u)
  unfold settingsTake answerTake
  refine ⟨?_, ?_, ?_, ?_, ?_, ?_, ?_, ?_, ?_⟩
  · exact (raise_keeps _).settings _
  · exact (raise_keeps _).channels _
  · exact (raise_keeps _).ports _
  · exact (raise_keeps _).armed _
  · exact (raise_keeps _).authority _
  · exact (raise_keeps _).lamps _
  · exact (raise_keeps _).timebase _
  · rw [k]
  · rw [k]

end Sys2Proof.Machine
end

