-- ==== Sys2Proof/Laws/Scan.lean ====
section
/-! SUPPORT. What a settings take and the completion of a scan post and write (R6, R12, R158, R159, R162). -/

namespace Sys2Proof.Machine

set_option Elab.async false

/-! ### A settings take (R158) -/

theorem releaseForPort_posts (old : Settings) (p : PortId) (s : State) : Posts s (releaseForPort old p s) := by
  unfold releaseForPort
  dsimp only
  split
  · exact releaseHolder_posts ..
  · exact Posts.refl s

theorem releaseForAuthority_posts (old : Settings) (c : Chan) (s : State) : Posts s (releaseForAuthority old c s) := by
  unfold releaseForAuthority
  split
  · exact releaseHolder_posts ..
  · exact Posts.refl s

theorem releaseForMode_posts (old : Settings) (c : Chan) (s : State) : Posts s (releaseForMode old c s) := by
  unfold releaseForMode
  split
  · exact releaseHolder_posts ..
  · exact Posts.refl s

theorem clearConsole_posts (old : Settings) (c : Chan) (s : State) : Posts s (clearConsole old c s) := by
  unfold clearConsole
  split
  · exact Posts.of_eq rfl
  · exact Posts.refl s

theorem authorityTake_posts (old : Settings) (s : State) : Posts s (authorityTake old s) :=
  (forEach_posts (releaseForPort_posts old) _ _).trans ((forEach_posts (releaseForAuthority_posts old) _ _).trans
    ((forEach_posts (releaseForMode_posts old) _ _).trans (forEach_posts (clearConsole_posts old) _ _)))

theorem timebaseTake_posts (a : FrameRate) (b : RefSelect) (s : State) : Posts s (timebaseTake a b s) := by
  unfold timebaseTake
  split
  · exact Posts.refl s
  · split
    · exact Posts.after (raiseRunning_posts ..) rfl
    · exact Posts.of_eq rfl

theorem timebaseTake_frame (a : FrameRate) (b : RefSelect) (s : State) : (timebaseTake a b s).frame = s.frame := by
  unfold timebaseTake State.frame
  split
  · rfl
  · split
    · rw [(raiseRunning_keeps _).timebase]; rfl
    · rfl

theorem releasePostponed_posts (s : State) : Posts s (releasePostponed s) :=
  ⟨List.prefix_refl _, fun _ => le_refl _, fun h => h⟩

/-- What the blocks do at a settings take adds posts alone, and counts no frame. -/
theorem applySettings_posts (new : Settings) (s : State) :
    Posts s (applySettings new s) ∧ (applySettings new s).frame = s.frame := by
  have h1 := authorityTake_posts s.settings { s with settings := new }
  have h2 : (forEach allPorts (portTake s.settings) (forEach allChans (channelTake s.settings)
      (authorityTake s.settings { s with settings := new }))).reports =
      (authorityTake s.settings { s with settings := new }).reports :=
    ((Keeps.forEach (portTake_keeps s.settings) _).reports _).trans
      ((Keeps.forEach (channelTake_keeps s.settings) _).reports _)
  have f2 : (forEach allPorts (portTake s.settings) (forEach allChans (channelTake s.settings)
      (authorityTake s.settings { s with settings := new }))).frame = s.frame := by
    unfold State.frame
    rw [(Keeps.forEach (portTake_keeps s.settings) _).timebase,
      (Keeps.forEach (channelTake_keeps s.settings) _).timebase, (authorityTake_keeps s.settings).timebase]
  unfold applySettings
  dsimp only
  generalize forEach allPorts (portTake s.settings) (forEach allChans (channelTake s.settings)
      (authorityTake s.settings { s with settings := new })) = x at h2 f2 ⊢
  generalize authorityTake s.settings { s with settings := new } = y at h1 h2
  have h3 := timebaseTake_posts s.settings.frameRate s.settings.refSelect x
  have f3 := timebaseTake_frame s.settings.frameRate s.settings.refSelect x
  generalize timebaseTake s.settings.frameRate s.settings.refSelect x = z at h3 f3 ⊢
  have h4 : (lampsTake s.settings z).reports = z.reports := (lampsTake_keeps _).reports z
  have f4 : (lampsTake s.settings z).frame = z.frame := by
    unfold State.frame; rw [(lampsTake_keeps _).timebase]
  refine ⟨?_, ?_⟩
  · exact (show Posts s y from h1).trans ((Posts.of_eq h2).trans
      (h3.trans ((Posts.of_eq h4).trans (releasePostponed_posts _))))
  · show (lampsTake s.settings z).frame = _
    rw [f4, f3, f2]

theorem settingsTakenReport_eq (block : List Byte) (b : Bool) :
    settingsTakenReport block b = takenReport block (boolWord b) := by
  unfold settingsTakenReport takenReport blockGeneration
  dsimp only
  cases adjustedIndices block <;> rfl

theorem raise_frame (r : Report) (s : State) : (raise r s).frame = s.frame := by
  unfold State.frame; rw [(raise_keeps _).timebase]

/-- A settings take adds posts alone, SETTINGS_TAKEN among them but in HALTED, and counts no frame. -/
theorem settingsTake_posts (block : List Byte) (b : Bool) (s : State) :
    Posts s (settingsTake block b s) ∧ (settingsTake block b s).frame = s.frame ∧
    (s.engine ≠ .halted → posted s (settingsTake block b s) (takenReport block (boolWord b))) := by
  obtain ⟨w, hw, p, f, e⟩ : ∃ w, settingsTake block b s = raise (settingsTakenReport block b) w ∧ Posts s w ∧
      w.frame = s.frame ∧ w.engine = s.engine := by
    let u : State := { s with area := { s.area with takenGeneration := blockGeneration block } }
    obtain ⟨h, f⟩ := applySettings_posts (settingsOf block) u
    exact ⟨_, rfl, (show Posts s _ from h).trans (Posts.of_eq ((issueWrite_keeps ..).reports _)),
      (congrArg Timebase.frameCounter ((issueWrite_keeps ..).timebase _)).trans f,
      by unfold State.engine; rw [(issueWrite_keeps ..).area, (applySettings_keeps _).area]⟩
  rw [hw, ← settingsTakenReport_eq]
  exact ⟨p.trans (raise_posts _ _), (raise_frame _ _).trans f, fun h =>
    posted_of_raise p (by rw [e]; exact h) (raise_frame _ _).symm (Posts.refl _)⟩

/-- A settings take issues one write, of the taken generation at byte 4 of the block. -/
theorem settingsTake_writes (block : List Byte) (b : Bool) (s : State) :
    (settingsTake block b s).writes = s.writes ++ [⟨s.nextTag, .takenGeneration,
          s.area.baseInForce + s.area.header.settings.setWidth 64 + 4, wordBytes (word block 0), none⟩] ∧
    (settingsTake block b s).nextTag = s.nextTag + 1 := by
  unfold settingsTake answerTake
  dsimp only
  rw [(raise_keeps _).writes, (raise_keeps _).nextTag]
  unfold issueWrite State.areaAddress
  dsimp only
  rw [(applySettings_keeps _).writes, (applySettings_keeps _).nextTag, (applySettings_keeps _).area]
  exact ⟨rfl, rfl⟩

/-! ### The command slots (R159) -/

/-- A command slot issues no write but its answer. -/
theorem runSlot_writes (n : CmdSlot) (bytes : List Byte) (s : State) :
    ∃ a, (runSlot n bytes s).writes = s.writes ++ a ∧ ∀ w ∈ a, ∃ m, w.target = .commandResult m := by
  let x := commandOf bytes
  show ∃ a, (runCommand n x.request x.code (commandAct x) s).writes = s.writes ++ a ∧ _
  obtain ⟨-, -, e⟩ | ⟨-, e⟩ := runCommand_cases n x.request x.code (commandAct x) s <;> rw [e]
  · have k : ((commandAct x s).2).writes = s.writes := Keeps.writes (commandAct_keeps x) s
    generalize commandAct x s = y at k ⊢
    rw [← k]
    exact ⟨_, rfl, fun w hw => ⟨n, by rw [List.mem_singleton.1 hw]⟩⟩
  · exact ⟨[], by simp, by simp⟩

theorem rescanCommands_writes (d : ScanData) (s : State) :
    ∃ a, (rescanCommands d s).writes = s.writes ++ a ∧ ∀ w ∈ a, ∃ m, w.target = .commandResult m := by
  unfold rescanCommands
  generalize List.finRange 4 = xs
  induction xs generalizing s with
  | nil => exact ⟨[], by simp [forEach], by simp⟩
  | cons n xs ih =>
    rw [forEach_cons]
    obtain ⟨a, h1, h2⟩ := runSlot_writes n (d.slots.getD n.val []) s
    obtain ⟨b, h3, h4⟩ := ih (runSlot n (d.slots.getD n.val []) s)
    refine ⟨a ++ b, by rw [h3, h1, List.append_assoc], fun w hw => ?_⟩
    rcases List.mem_append.1 hw with h | h
    · exact h2 w h
    · exact h4 w h

/-! ### The shadows and the settings of a scan -/

theorem raise_length (r : Report) (s : State) : (raise r s).reports.queue.length ≤ s.reports.queue.length + 1 := by
  obtain ⟨-, h⟩ | ⟨-, -, h⟩ | ⟨-, -, h⟩ := raise_cases r s <;> rw [h] <;> simp

theorem failedEntries_eq (d : ScanData) :
    failedEntries d = (List.finRange 256).filter fun k : Slot => d.entries[k.val]? = some .busError := by
  unfold failedEntries
  refine List.filter_congr fun k _ => ?_
  unfold scanEntry
  rw [List.getD_eq_getElem?_getD]
  cases d.entries[k.val]? with
  | none => rfl
  | some x => cases x <;> rfl

/-- The ENTRY_READ_FAULT report of the story entries that failed (R12). -/
def entryFault (d : ScanData) (k : Slot) (s : State) : Report :=
  ⟨12, .entryReadFault, natWord (failedEntries d).length, natWord k.val, (s.story k).storyId, 0xFFFFFFFF⟩

/-- The ENTRY_READ_FAULT report of a failed read of the rundown request generation (R6). -/
def requestFault : Report := ⟨12, .entryReadFault, 256, 0xFFFFFFFF, 0, 1⟩

/-- Step 1 of a scan completion posts one report for the entries that failed and one for the rundown, and no more. -/
theorem rescanShadows_posts (d : ScanData) (s : State) (run : s.engine = .running) :
    Posts s (rescanShadows d s) ∧ (rescanShadows d s).frame = s.frame ∧
    (∀ k rest, failedEntries d = k :: rest → ∀ t, Posts (rescanShadows d s) t → t.frame = s.frame →
      posted s t (entryFault d k s)) ∧
    (d.rundownRequest = .busError → ∀ t, Posts (rescanShadows d s) t → t.frame = s.frame →
      posted s t requestFault) ∧
    (rescanShadows d s).reports.queue.length ≤ s.reports.queue.length + (if failedEntries d = [] then 0 else 1) +
        (if d.rundownRequest = .busError then 1 else 0) := by
  unfold rescanShadows
  obtain ⟨w0, hw0, hs⟩ : ∃ w0, w0 = { s with stories := Bank.ofFn fun k => rescannedStory d k (s.story k) } ∧
      ∀ k ∈ failedEntries d, (w0.story k).storyId = (s.story k).storyId := by
    refine ⟨_, rfl, fun k hk => ?_⟩
    have : scanEntry d k = .busError := by simpa [failedEntries] using hk
    show ((Bank.ofFn fun k => rescannedStory d k (s.story k)).get k).storyId = _
    rw [Bank.get_ofFn]
    unfold rescannedStory
    rw [this]
  rw [← hw0]
  have p0 : Posts s w0 := Posts.of_eq (by rw [hw0])
  have q0 : w0.reports = s.reports := by rw [hw0]
  have f0 : w0.frame = s.frame := by rw [hw0]; rfl
  have e0 : w0.engine = .running := by rw [hw0]; exact run
  clear hw0
  obtain ⟨w1, hw1, p1, s1, e1, f1, l1, r1⟩ : ∃ w1, w1 = rescanRundown d w0 ∧ Posts w0 w1 ∧
      w1.stories = w0.stories ∧ w1.engine = .running ∧ w1.frame = s.frame ∧
      w1.reports.queue.length ≤ s.reports.queue.length + (if d.rundownRequest = .busError then 1 else 0) ∧
      (d.rundownRequest = .busError → w1 = raise requestFault w0) := by
    unfold rescanRundown
    cases hr : d.rundownRequest with
    | data b =>
      dsimp only
      exact ⟨_, rfl, Posts.of_eq rfl, rfl, e0, f0, by simp [q0], fun h => by simp at h⟩
    | busError =>
      dsimp only
      refine ⟨_, rfl, raise_posts _ _, (raise_keeps _).stories _, ?_, (raise_frame _ _).trans f0, ?_, fun _ => rfl⟩
      · unfold State.engine; rw [(raise_keeps _).area]; exact e0
      · rw [if_pos rfl, ← q0]; exact raise_length ..
  rw [← hw1]
  clear hw1
  obtain ⟨u, hu, p2, f2, l2, r2⟩ : ∃ u, u = raiseEntryFaults d w1 ∧ Posts w1 u ∧ u.frame = s.frame ∧
      u.reports.queue.length ≤ w1.reports.queue.length + (if failedEntries d = [] then 0 else 1) ∧
      (∀ k rest, failedEntries d = k :: rest → u = raise (entryFault d k s) w1) := by
    unfold raiseEntryFaults entryFault
    cases hf : failedEntries d with
    | nil => exact ⟨_, rfl, Posts.refl _, f1, by simp, fun k rest h => by simp at h⟩
    | cons k rest =>
      dsimp only
      refine ⟨_, rfl, raise_posts _ _, (raise_frame _ _).trans f1, ?_, fun k' rest' h => ?_⟩
      · rw [if_neg (by simp)]; exact raise_length ..
      · obtain ⟨rfl, rfl⟩ := List.cons.inj h
        have : (w1.story k).storyId = (s.story k).storyId := by
          unfold State.story; rw [s1]; exact hs k (by rw [hf]; simp)
        rw [this]; rfl
  rw [← hu]
  clear hu
  refine ⟨p0.trans (p1.trans p2), f2, fun k rest hk t ht ft => ?_, fun hr t ht ft => ?_, by omega⟩
  · rw [r2 k rest hk] at ht
    exact posted_of_raise (p0.trans p1) (by rw [e1]; decide) (f1.trans ft.symm) ht
  · have := p2.trans ht
    rw [r1 hr] at this
    exact posted_of_raise p0 (by rw [e0]; decide) (f0.trans ft.symm) this

/-- Step 2 of a scan completion posts SETTINGS_TAKEN when the generation read differs. -/
theorem rescanSettings_posts (d : ScanData) (s : State) (run : s.engine = .running) :
    Posts s (rescanSettings d s) ∧ (rescanSettings d s).frame = s.frame ∧
    (word d.settingsGeneration 0 ≠ s.area.takenGeneration →
      posted s (rescanSettings d s) (takenReport d.settingsBlock 0)) := by
  unfold rescanSettings
  by_cases h : word d.settingsGeneration 0 = s.area.takenGeneration
  · rw [if_pos h]; exact ⟨Posts.refl _, rfl, fun k => absurd h k⟩
  · rw [if_neg h]
    obtain ⟨a, b, c⟩ := settingsTake_posts d.settingsBlock false s
    exact ⟨a, b, fun _ => c (by rw [run]; decide)⟩

/-- A post of the middle stays among the posts. -/
theorem posted_between {s u v t : State} {r : Report} (a : Posts s u) (b : posted u v r) (m : Posts u v)
    (c : Posts v t) (f : t.frame = v.frame) : posted s t r := by
  intro room same
  have h1 := a.2.1 (by omega)
  have h2 := a.2.2 (by omega)
  have h3 := m.2.1 h2
  have h4 := c.2.1 (m.2.2 h2)
  rw [f]
  exact c.1.subset (b (by omega) (by omega))

end Sys2Proof.Machine
end

