-- ==== Sys2Proof/Tests/Slice0.lean ====
section
/-! SUPPORT. Tests: ill-formed terms that the well-formedness check refuses, the worked cases of the chapters, and, for each
statement of Certificates/Slice0/Obligations.lean with hypotheses, states and operands that meet them. -/

namespace Sys2Proof.Tests

set_option Elab.async false

open Sys2Proof.Machine

set_option maxRecDepth 20000

/-! ### Small states -/

def lows : Bank 8 Lines := Bank.fill 8 (Trio.fill false)
def highs : Bank 8 Lines := Bank.fill 8 (Trio.fill true)

/-- The reset state with the engine in a state. -/
def engineAt (e : EngineState) : State := { State.reset with area := { Area.reset with engine := e } }
def running : State := engineAt .running
/-- HALTED, with the cause and the HALT bit of a bad Area header. -/
def halted : State :=
  { State.reset with
    area := { Area.reset with engine := .halted, haltCause := .badArea }
    reports := { Reports.reset with halt := true } }

def withChannel (c : Chan) (x : ChannelSettings) (s : State) : State :=
  { s with settings := { s.settings with channels := s.settings.channels.set c x } }
def withPort (p : PortId) (x : PortSettings) (q : Port) (s : State) : State :=
  { s with settings := { s.settings with ports := s.settings.ports.set p x }, ports := s.ports.set p q }
def liveSettings : ChannelSettings := { ChannelSettings.reset with mode := .live }
/-- RUNNING with channel 0 LIVE. -/
def live : State := withChannel 0 liveSettings running
def atTime (n : Word) (s : State) : State :=
  { s with timebase := { s.timebase with captureCount := n } }

/-- A cache with these places first. -/
def cacheOf (xs : List Place) : Bank 512 Place :=
  ⟨(xs ++ List.replicate 512 Place.free).take 512, by simp⟩
def plain (key : Key) (cue : CueCode) : LineRecord := ⟨key, 0, .normal, cue, none, []⟩
def resident (k : Slot) (line : Nat) (cue : CueCode) : Place :=
  .held ⟨k, line, .resident (plain 0 cue), false, 0, 0⟩

/-! ### Well-formed terms -/

/-- A write that the register window takes is no ignored write. -/
theorem test_wf_register : (Instr.registerWriteIgnored 0x0C 4 1).wellFormed = false := by decide
theorem test_wf_header : (Instr.areaHeaderReadDone 0 (zeros 47)).wellFormed = false := by decide
theorem test_wf_glyph : (Instr.glyphStoreLoadReadDone 0 (zeros 577)).wellFormed = false := by decide
theorem test_wf_settings : (Instr.startSettingsReadDone 0 (zeros 16)).wellFormed = false := by decide
theorem test_wf_full_take : (Instr.fullTake 0 ⟨zeros 544, [], []⟩).wellFormed = false := by decide
theorem test_wf_line : (Instr.fetchCompletion 0 (.data (zeros 95))).wellFormed = false := by decide
theorem test_wf_scan :
    (Instr.scanCompletion 0 ⟨.data (zeros 3), [], zeros 4, [], []⟩).wellFormed = false := by decide
/-- The codes 1 to 7 are commands (R160). -/
theorem test_wf_unknown : (Instr.unknownCommand 0 1 7).wellFormed = false := by decide
theorem test_wf_versions : (Instr.directTakeReadDone 0 (.data (zeros 11))).wellFormed = false ∧
    (Instr.searchVersionReadDone 0 (.data (zeros 13))).wellFormed = false := by decide
theorem test_wf_key : (Instr.keyReadDone 0 (.data (zeros 1))).wellFormed = false := by decide
theorem test_wf_list : (Instr.rundownListReadDone 0 (.data [])).wellFormed = false ∧
    (Instr.rundownListReadDone 0 (.data (zeros 257))).wellFormed = false := by decide
theorem test_wf_slot : (Instr.postReadDone 0 (.data (zeros 28))).wellFormed = false := by decide
/-- An ignored write is well formed. -/
theorem test_wf_ignored : (Instr.registerWriteIgnored 0x0C 2 1).wellFormed = true := by decide

/-! ### The worked cases of the chapters -/

/-- spec/01, Forming the Views: list A of length 6 keeps 12, 7, 40, 3, 99 and ignores slot 7 at position 3. -/
theorem test_order_list : takeList [12, 7, 40, 7, 3, 99] = ⟨[12, 7, 40, 3, 99], 1, some (7, 3)⟩ := by decide
/-- R5: a length above 256 is taken as 256. -/
theorem test_list_length : listLength 256 = 256 ∧ listLength 257 = 256 ∧ listLength 0 = 0 := by decide

/-- spec/01, Forming the Views: SC0's view, and the counting through it. -/
def sc0View : List ViewEntry := [⟨12, 18, true⟩, ⟨7, 25, true⟩, ⟨40, 9, false⟩]
theorem test_view_rows : viewSize sc0View = 52 ∧ viewRow sc0View ⟨7, 4⟩ = some 22 ∧
    anchorAtRow sc0View 32 = some ⟨7, 14⟩ ∧ anchorAtRow sc0View 47 = some ⟨40, 4⟩ ∧
    anchorAtRow sc0View 52 = none := by decide

/-- spec/01, Forming the Views: a null block has the count 0, and is reported. -/
theorem test_null_block : takeVersion ⟨0, 5⟩ = ⟨0, 0, true⟩ := by decide

/-- spec/03, The Speed Curve. -/
def curve : ChannelSettings :=
  { ChannelSettings.reset with
    vmax := 4096, accel := 64
    curve := ⟨[0, 8, 24, 48, 80, 120, 168, 224, 288, 360, 440, 528, 624, 728, 840, 960, 1088], by decide⟩ }
theorem test_curve : targetSpeed curve .empty 700 = 522 ∧ targetSpeed curve .empty (-100) = -17 ∧
    targetSpeed curve .empty 63 = 7 ∧ targetSpeed curve .empty 0 = 0 ∧
    targetSpeed curve .empty 1024 = 1088 := by decide
/-- spec/03: the curve point is clamped to Vmax. -/
theorem test_curve_clamp : curveSpeed { curve with vmax := 1000 } 1000 = 1000 := by decide
/-- spec/03: a falling span is truncated toward zero. -/
theorem test_curve_falls : curveSpeed { curve with
    curve := ⟨[0, 8, 24, 48, 80, 120, 168, 224, 288, 360, 500, 300, 0, 0, 0, 0, 0], by decide⟩ } 673 = 397 := by
  decide

/-- spec/03, Approach and Landing: the rows 2, 4 and 20 of the table, then frame 27's landing. -/
def linear : ChannelSettings :=
  { curve with
    curve := ⟨[0, 128, 256, 384, 512, 640, 768, 896, 1024, 1152, 1280, 1408, 1536, 1664, 1792, 1920, 2048],
      by decide⟩ }
theorem test_approach : slewedSpeed linear 768 (targetSpeed linear .empty 1024) = 832 ∧
    approachCap linear 5376 = 672 ∧ approachCap linear 4116 = 514 ∧ approachCap linear 489 = 64 := by decide
def oneStory : List ViewEntry := [⟨0, 10, true⟩]
def aheadOfCue : Fetch := ⟨cacheOf [resident 0 6 .stop], [], Bank.fill 4 []⟩
theorem test_landing : let adv := advance linear oneStory aheadOfCue 5 983 64 .empty 1024 0
    adv.row = 6 ∧ adv.fraction = 0 ∧ adv.speed = 0 ∧ adv.landed = some ⟨0, 6⟩ := by decide

/-- spec/03, Limits of the Walk: the horizon (rows a and b), and the boundary (row b). -/
def lines11 : Fetch := ⟨cacheOf [resident 12 11 .none], [], Bank.fill 4 []⟩
theorem test_horizon : let a := moveAdvance sc0View lines11 10 900 600 600
    let b := moveAdvance sc0View lines11 11 476 600 600
    a.row = 11 ∧ a.fraction = 476 ∧ a.stop = .reached ∧
    b.row = 11 ∧ b.fraction = 1023 ∧ b.speed = 600 ∧ b.stop = .horizon ⟨12, 12⟩ := by decide
theorem test_boundary : let b := moveAdvance sc0View ⟨cacheOf [resident 40 0 .none], [], Bank.fill 4 []⟩ 42 476 700 700
    b.row = 42 ∧ b.fraction = 1023 ∧ b.speed = 0 ∧ b.stop = .boundary 40 := by decide
/-- spec/03, Limits of the Walk: the end and the top of the view. -/
theorem test_end_and_top : let e := moveAdvance [⟨40, 9, true⟩] lines11 8 600 500 500
    let t := moveAdvance sc0View lines11 0 36 (-216) (-216)
    e.row = 8 ∧ e.fraction = 1023 ∧ e.speed = 0 ∧ e.stop = .bottom ∧
    t.row = 0 ∧ t.fraction = 0 ∧ t.speed = 0 ∧ t.stop = .top := by decide

/-- spec/06, A Lever from Mode Entry to Loss and Recovery: c1, c3, c6, c7 and c8. -/
theorem test_lever : let ps := PortSettings.reset
    leverPosition 1300 2000 = 2662 ∧ leverDemand ps 2662 = 366 ∧ leverDemand ps (leverPosition 1310 2000) = 380 ∧
    leverPosition 1020 2000 = 2088 ∧ leverDemand ps 2088 = 0 ∧
    leverPosition 700 2000 = 1433 ∧ leverDemand ps 1433 = -367 ∧ validSample 3000 4500 = false := by decide

/-- spec/06, R100: the order of the quadrature pairs. -/
theorem test_quadrature : quadStep (false, false) (true, false) = .forward ∧
    quadStep (true, false) (false, false) = .backward ∧ quadStep (true, false) (false, true) = .error := by decide

/-- spec/08, Composing One Window: fraction 300 of a cell of height 40 gives the smooth offset 11. -/
theorem test_smooth_offset : smoothOffset { GlyphStore.reset with height := 40 } 300 = 11 := by decide

/-- spec/08, Composing One Window: a malformed line and a FAILED one show ERROR, a FILLING one PENDING, a line of a
story that is not ready HELD, and a row outside the view is blank. -/
theorem test_row_content :
    let f : Fetch := ⟨cacheOf [.held ⟨12, 15, .resident (plain 0 .none), true, 0, 0⟩,
      .held ⟨7, 3, .filling, false, 0, 0⟩, .held ⟨7, 4, .failed 0, false, 0, 1⟩], [], Bank.fill 4 []⟩
    rowContent sc0View f 15 = .error ∧ rowContent sc0View f 21 = .pending ∧ rowContent sc0View f 22 = .error ∧
    rowContent sc0View f 43 = .held ∧ rowContent sc0View f (-1) = .blank ∧ rowContent sc0View f 52 = .blank := by
  decide

/-- spec/11, One Channel Slot Through a Frame: a taken count that differs counts one overwritten report. -/
theorem test_overwritten : overwrittenCount 5 (zeros 28 ++ [5, 0, 0, 0]) = 0 ∧
    overwrittenCount 6 (zeros 28 ++ [5, 0, 0, 0]) = 1 ∧
    overwrittenCount 6 (zeros 6 ++ [255] ++ zeros 21 ++ [5, 0, 0, 0]) = 255 := by decide

/-- spec/12, Reading One Story Entry: present, ready, mask SC0 and SC1, request 42, mode NOW. -/
theorem test_story_entry :
    let st := scannedStory ([1, 1, 3, 0, 0, 0, 0, 0, 42, 0, 0, 0, 1, 0, 0, 0] ++ zeros 48) Story.reset
    st.present = true ∧ st.ready = true ∧ st.mask = 3 ∧ st.request = 42 ∧ st.mode = .now := by decide

/-! ### Witnesses: states and operands that meet the hypotheses of the statements, clause by clause -/

/-- The step answers a next state. -/
def Steps (s : State) : Prop := ∃ t, step s = .next t
/-- The command answers a next state. -/
def Runs (c : Instr) (s : State) : Prop := ∃ t, exec c s = .next t

theorem witness_StepRunsTheFrontCommand : State.reset.pending = [] := rfl

/-- A full Post Queue, and the dropped-post count at its end. -/
def fullQueue : State :=
  { running with
    reports := { Reports.reset with
      queue := List.replicate 16 ⟨⟨0, .mark, 0, 0, 0, 0⟩, 0⟩, dropped := 65535 }
    pending := [.frameEvent] }
theorem witness_StepKeepsReportBounds : fullQueue.reports.bounded ∧ Steps fullQueue :=
  ⟨⟨by decide, by decide⟩, _, rfl⟩

/-- A port with its items at the ends of their ranges. -/
def edgePort : Port :=
  { Port.reset with
    phase := .active, position := 4095, value := -1024, validRun := 4, invalidRun := 8, edgeAge := 255
    timeLost := 65535, lostCount := 65535, errorCount := 65535, jog := -65536, standing := 1024
    lastHigh := 65535, lastPeriod := 65535, buttons := Trio.fill ⟨.pressed, 31⟩ }
def edgePorts : State := { running with ports := Bank.fill 8 edgePort, pending := [.sampleEvent lows] }
theorem witness_StepKeepsPortRanges : portsInRange edgePorts ∧ Steps edgePorts := by
  refine ⟨fun p => ?_, _, rfl⟩
  have : edgePorts.port p = edgePort := by revert p; decide
  rw [this]
  exact ⟨by decide, by decide, by decide, by decide, by decide, by decide, by decide, by decide, by decide,
    by decide, ⟨by decide, by decide⟩, fun l => by cases l <;> decide⟩

/-- A full Fetch Queue with 8 issued entries. -/
def fullFetch : State :=
  { running with
    fetch := { Fetch.reset with
      queue := List.replicate 8 ⟨0, 0, ⟨1, 0, 0, false⟩, .issued ⟨7, 0, 96⟩ 0 false⟩ ++
        List.replicate 24 ⟨0, 1, ⟨1, 1, 0, false⟩, .waiting⟩ }
    pending := [.fetchCompletion 7 .busError] }
theorem witness_StepKeepsFetchBounds : fullFetch.fetch.bounded ∧ Steps fullFetch :=
  ⟨⟨by decide, by decide⟩, _, rfl⟩

/-- A channel at the bottom of a line. -/
def lowChannel : Channel :=
  { Channel.reset with
    anchor := some ⟨3, 4⟩, fraction := 1023
    pub := { Published.reset with anchor := some ⟨3, 4⟩, fraction := 1023 } }
def lowChannels : State := { live with channels := Bank.fill 4 lowChannel, pending := [.frameEvent] }
theorem witness_StepKeepsPositions : channelsPositioned lowChannels ∧ Steps lowChannels := by
  refine ⟨fun c => ?_, _, rfl⟩
  have : lowChannels.chan c = lowChannel := by revert c; decide
  rw [this]
  exact ⟨⟨⟨by decide, (fun h => nomatch h)⟩, ⟨by decide, (fun h => nomatch h)⟩⟩, fun _ => rfl⟩

/-- A frame scan in progress. -/
def scanning : Scan := ⟨.frame, 0, ⟨4, []⟩, ⟨0, 1796⟩⟩
/-- RUNNING with a scan, a direct take and a post's read in flight. -/
def busy : State :=
  { running with
    area := { running.area with scan := some scanning }
    exchange := { Exchange.idle with takes := [⟨9, 1, .clear, ⟨5, 0, 12⟩⟩] }
    reports := { Reports.reset with current := some ⟨⟨⟨0, .mark, 0, 0, 0, 0⟩, 0⟩, .read ⟨6, 0, 32⟩⟩ }
    pending := [.stop false] }
theorem busy_consistent : busy.engineConsistent :=
  ⟨by decide, by decide, by decide, by decide, (fun _ _ h => nomatch h), (fun h => absurd rfl h)⟩
theorem witness_StepKeepsEngineConsistency : busy.engineConsistent ∧ Steps busy := ⟨busy_consistent, _, rfl⟩

theorem halted_consistent : halted.engineConsistent :=
  ⟨by decide, by decide, by decide, by decide, (fun _ h => nomatch h), (fun _ _ h => nomatch h)⟩
theorem witness_OnlyAResetLeavesHalted :
    Instr.wellFormed (.areaLoWrite 0) = true ∧ halted.engineConsistent ∧ halted.engine = .halted ∧
    Instr.areaLoWrite 0 ≠ .powerOnReset ∧ (∀ run look, Instr.areaLoWrite 0 ≠ .softReset run look) ∧
    Runs (.areaLoWrite 0) halted :=
  ⟨rfl, halted_consistent, rfl, (fun h => nomatch h), (fun _ _ h => nomatch h), _, rfl⟩

theorem witness_AreaBaseIsFixedOutsideStopped :
    Instr.wellFormed (.areaHiWrite 1) = true ∧ running.engine ≠ .stopped ∧
    Instr.areaHiWrite 1 ≠ .powerOnReset ∧ Runs (.areaHiWrite 1) running :=
  ⟨rfl, by decide, (fun h => nomatch h), _, rfl⟩

/-- Every bit of IRQ_CAUSE set. -/
def irqFull : State :=
  { running with reports := { Reports.reset with causes := ⟨true, true, true, true, true⟩, halt := true } }
theorem witness_OnlyTheHostClearsIrqCause :
    Instr.wellFormed .postBegin = true ∧ Instr.postBegin ≠ .powerOnReset ∧
    (∀ run look, Instr.postBegin ≠ .softReset run look) ∧ (∀ v, Instr.postBegin ≠ .irqCauseWrite v) ∧
    Runs .postBegin irqFull ∧ (∀ k, irqFull.reports.causes.get k = true) ∧ irqFull.reports.halt = true :=
  ⟨rfl, (fun h => nomatch h), (fun _ _ h => nomatch h), (fun _ h => nomatch h), ⟨_, rfl⟩,
    fun k => by cases k <;> rfl, rfl⟩

/-- A post of slot 17 in each phase: its read is 1, its write 2. -/
def markPost : Post := ⟨⟨17, .started, 1, 0, 0, 0⟩, 0⟩
def posting (x : PostPhase) (s : State) : State :=
  { s with reports := { s.reports with current := some ⟨markPost, x⟩ } }
def reading : State := posting (.read ⟨1, 0, 32⟩) running
def writing : State := posting (.write ⟨2, 0, 28⟩ [] 1) running
theorem witness_PostCountsAdvanceByOne : writing.reports.counted ∧
    Instr.wellFormed (.postWriteDone 2 .written) = true ∧ Instr.postWriteDone 2 .written ≠ .powerOnReset ∧
    (∀ run look, Instr.postWriteDone 2 .written ≠ .softReset run look) ∧
    Runs (.postWriteDone 2 .written) writing :=
  ⟨fun _ _ _ _ h => by cases h; rfl, rfl, (fun h => nomatch h), (fun _ _ h => nomatch h), _, rfl⟩

/-! ### Engine control -/

def placed : State := { State.reset with area := { Area.reset with areaLo := 0x1000 } }
theorem witness_RunStartsTheSequence :
    (placed.engine = .stopped ∧ placed.area.base ≠ 0) ∧
    (State.reset.engine = .stopped ∧ State.reset.area.base = 0) := by decide

theorem witness_StopDropsTheWork : (engineAt .starting).engine = .starting ∧ busy.engine = .running := by decide

theorem witness_LookNowAndTheRowsWithoutEffect :
    (running.engine = .running ∧ running.area.scan = none) ∧ (busy.engine = .running ∧ busy.area.scan.isSome) ∧
    halted.engine = .halted ∧ State.reset.engine = .stopped ∧ (engineAt .starting).engine = .starting := by
  decide

theorem witness_AreaRegistersAreTakenInStopped :
    State.reset.engine = .stopped ∧ running.engine ≠ .stopped := by decide

theorem witness_RegisterWindowIgnoresTheRest :
    ((4 : Nat) ≠ 4 ∨ 0x10 ∉ [0x04, 0x08, 0x0C, 0x14]) ∧ ((8 : Nat) ≠ 4 ∨ 0x04 ∉ [0x04, 0x08, 0x0C, 0x14]) ∧
    ((4 : Nat) ≠ 4 ∨ 0x0C ∉ [0x00, 0x04, 0x08, 0x10, 0x14]) ∧
    ((2 : Nat) ≠ 4 ∨ 0x00 ∉ [0x00, 0x04, 0x08, 0x10, 0x14]) := by decide

/-! ### The start sequence -/

def starting (x : StartStep) : State :=
  { engineAt .starting with area := { (engineAt .starting).area with start := some x } }
theorem witness_AreaHeaderIsChecked :
    let s := starting (.header ⟨3, 0x1000, 48⟩);
    s.area.start = some (.header ⟨3, 0x1000, 48⟩) ∧
    headerGood ([0x4B, 0x53, 0x50, 0x41, 1, 0, 0, 0] ++ zeros 40) = true ∧
    headerGood ([0x4B, 0x53, 0x50, 0x41, 2, 0, 0, 0] ++ zeros 40) = false ∧ s.engine = .starting := by decide

theorem witness_GlyphStoreIsLoaded :
    (starting (.glyphHead ⟨4, 0, 16⟩)).area.start = some (.glyphHead ⟨4, 0, 16⟩) ∧
    (let reads : List (Request × Fin 256) := [(⟨5, 16, 40⟩, 0), (⟨6, 56, 40⟩, 255)];
      (starting (.glyphImages reads)).area.start = some (.glyphImages reads) ∧
      reads.find? (fun x => x.1.tag == 6) = some (⟨6, 56, 40⟩, 255) ∧
      reads.filter (fun x => x.1.tag != 6) = [(⟨5, 16, 40⟩, 0)]) ∧
    (let last : List (Request × Fin 256) := [(⟨6, 56, 40⟩, 255)];
      (starting (.glyphImages last)).area.start = some (.glyphImages last) ∧
      last.find? (fun x => x.1.tag == 6) = some (⟨6, 56, 40⟩, 255) ∧
      last.filter (fun x => x.1.tag != 6) = []) := by decide

theorem witness_StartTakesTheSettings :
    (starting (.settings ⟨8, 0, 1796⟩)).area.start = some (.settings ⟨8, 0, 1796⟩) ∧
    (starting (.settings ⟨8, 0, 1796⟩)).engine ≠ .halted := ⟨rfl, by decide⟩

/-- A full take with a kept cache entry. -/
def taking : State :=
  { starting (.fullTake ⟨9, [⟨0, 544⟩]⟩) with
    fetch := ⟨cacheOf [resident 5 0 .none], [], Bank.fill 4 []⟩ }
def emptyTake : FullTakeData := ⟨[], [], []⟩
theorem adopted_empty (k : Slot) (s : State) : raiseAdopted emptyTake k s = s := by
  have : entryRead emptyTake k = [] := rfl
  unfold raiseAdopted
  rw [this]
  rfl
theorem witness_FullTakeAdoptsTheArea :
    taking.area.start = some (.fullTake ⟨9, [⟨0, 544⟩]⟩) ∧
    (∃ e, taking.fetch.cache.get 0 = .held e ∧ e.state ≠ .filling) ∧ taking.engine = .starting ∧
    taking.reports.dropped < 65535 ∧
    ∃ t, exec (.fullTake 9 emptyTake) taking = .next t ∧ t.reports.dropped = taking.reports.dropped := by
  refine ⟨rfl, ⟨_, rfl, by decide⟩, rfl, by decide, _, rfl, ?_⟩
  have none : ∀ (xs : List Slot) (s : State), forEach xs (raiseAdopted emptyTake) s = s := by
    intro xs
    induction xs with
    | nil => intro s; rfl
    | cons k xs ih => intro s; show forEach xs _ (raiseAdopted emptyTake k s) = s; rw [adopted_empty, ih]
  show (completeFullTake emptyTake taking).reports.dropped = 0
  unfold completeFullTake adoptStories
  rw [none]
  decide

/-! ### Settings fields -/

theorem witness_SettingsFieldsAreTreated :
    fieldKind 3 = .number 64 16384 ∧ fieldKind 0 = .named 3 0 ∧ fieldKind 444 = .onOff ∧ fieldKind 328 = .colour ∧
    fieldKind 445 = .unread ∧ fieldKind 323 = .readingRow := by decide

/-- R174: the first and the last index of the ranges of the table that are no single field. -/
theorem test_field_kinds : [6, 7, 23, 24, 27, 28, 111, 112, 303, 304, 305, 306, 319, 320, 328, 415, 416, 419, 420, 423,
    424, 439, 440, 444, 445].map fieldKind =
    [.number 16 1024, .number 0 16384, .number 0 16384, .named 3 2, .unread, .named 3 0, .unread, .named 4 0, .unread,
      .named 5 1, .named 2 0, .unread, .unread, .onOff, .colour, .colour, .number 0 3, .number 0 3, .named 2 0,
      .named 2 0, .named 7 0, .named 7 0, .onOff, .onOff, .unread] := by decide

/-- A settings block of these first fields, the others 0. -/
def blockOf (fields : List Word) : List Byte := zeros 16 ++ fields.flatMap wordBytes
/-- Channel 0 LIVE; channel 1 FOLLOW of channel `leader`. -/
def followBlock (leader : Word) : List Byte := blockOf ([1] ++ List.replicate 27 0 ++ [2, leader])
theorem witness_FollowCheckOfATake :
    ((settingsOf (followBlock 0)).channels.get 1).mode = .follow ∧
    (modeWritten (followBlock 1) 1 = .follow ∧ ((settingsOf (followBlock 1)).channels.get 1).leader = 1) ∧
    (modeWritten (followBlock 2) 1 = .follow ∧
      modeWritten (followBlock 2) ((settingsOf (followBlock 2)).channels.get 1).leader ≠ .live) := by decide

/-! ### The timebase and the frame event -/

def withTimebase (x : Timebase) (s : State) : State := { s with timebase := x }
def lockedAt (missed : Nat) (now : Word) : State :=
  withTimebase { Timebase.reset with lock := .locked, missed := missed, captureCount := now } running
def withHead (h : HeadId) (x : HeadSettings) (s : State) : State :=
  { s with settings := { s.settings with heads := s.settings.heads.set h x } }
def smallHead : HeadSettings := { HeadSettings.reset with enable := true, rows := 8, columns := 24 }
theorem witness_FrameEventOutsideRunning :
    (lockedAt 0 0).timebase.lock = .locked ∧
    (let s := withHead 0 smallHead halted;
      s.timebase.lock = .free ∧ s.engine ≠ .running ∧ (s.headSet 0).enable = true ∧ s.engine = .halted ∧
      (s.headSet 1).enable = false) := by
  decide

theorem witness_FrameEventInRunning :
    (running.timebase.lock = .free ∧ running.engine = .running ∧ running.area.scan = none ∧
      running.exchange.searcher = none ∧ running.exchange.rundown = none ∧
      running.rundown.request = running.rundown.done) ∧
    (busy.timebase.lock = .free ∧ busy.engine = .running ∧ busy.area.scan = some scanning) ∧
    (let s := { running with rundown := { Rundown.reset with request := 1 } };
      s.timebase.lock = .free ∧ s.engine = .running ∧ s.exchange.searcher = none ∧ s.exchange.rundown = none ∧
      s.rundown.request ≠ s.rundown.done) := by decide

/-! ### REF -/

def refFree (run : Nat) (edge : Option Word) (now : Word) : State :=
  { running with
    settings := { Settings.reset with refSelect := .ref }
    timebase := { Timebase.reset with qualifyingRun := run, lastEdge := edge, captureCount := now } }
theorem witness_RefEdgesAreMeasuredInFree :
    (running.timebase.lock = .free ∧ running.settings.refSelect = .internal) ∧
    (let s := refFree 0 none 5;
      s.timebase.lock = .free ∧ s.settings.refSelect = .ref ∧ s.timebase.lastEdge = none) ∧
    (let s := refFree 6 (some 0) 40800;
      s.timebase.lock = .free ∧ s.settings.refSelect = .ref ∧ s.timebase.lastEdge = some 0 ∧
      s.timebase.qualifyingRun < 7) ∧
    (let s := refFree 7 (some 0) 40801;
      s.timebase.lock = .free ∧ s.settings.refSelect = .ref ∧ s.timebase.lastEdge = some 0 ∧
      inWindow s.rate (s.timebase.captureCount - 0).toNat = false) := by decide

theorem witness_EighthGoodPeriodLocks : let s := refFree 7 (some 0) 39200;
    s.timebase.lock = .free ∧ s.settings.refSelect = .ref ∧ s.timebase.lastEdge = some 0 ∧
    s.timebase.qualifyingRun = 7 ∧ inWindow s.rate (s.timebase.captureCount - 0).toNat = true ∧
    s.engine = .running ∧ { s with area := Area.reset }.engine ≠ .running := by decide

theorem witness_RefEdgesInLocked :
    (let s := lockedAt 0 40800;
      s.timebase.lock = .locked ∧
      inWindow s.rate (s.timebase.captureCount - s.timebase.periodStart).toNat = true) ∧
    (let s := lockedAt 0 39199;
      s.timebase.lock = .locked ∧
      (s.timebase.captureCount - s.timebase.periodStart).toNat < (refWindow s.rate).1) := by decide

theorem witness_WindowCloseCountsAMiss :
    running.timebase.lock = .free ∧ ((lockedAt 0 0).timebase.lock = .locked ∧ (lockedAt 0 0).timebase.missed = 0) ∧
    ((lockedAt 1 0).timebase.lock = .locked ∧ (lockedAt 1 0).timebase.missed = 1 ∧
      (lockedAt 1 0).engine = .running ∧ (lockedAt 1 0).reports.queue.length ≤ 14) ∧
    (let s := { lockedAt 1 0 with area := Area.reset };
      s.timebase.lock = .locked ∧ s.timebase.missed = 1 ∧ s.engine ≠ .running) := by decide

/-- R129: a lock in force is announced at the first frame event in RUNNING, also when the timebase is lost at it. -/
theorem test_lock_announced_and_lost :
    let s := lockedAt 1 0;
    let t := windowClose { s with timebase := { s.timebase with announceLock := true } };
    t.reports.queue.map (·.report.code) = [.refLocked, .refLost] ∧ t.timebase.lock = .free := by decide

/-! ### Heads -/

def twoByTwo : Raster := ⟨2, 2, [[.black, .white], [.white, .black]]⟩
theorem witness_RastersHaveTheirSizeAndMoves :
    (let s := withHead 0 smallHead running;
      s.engine ≠ .halted ∧ ∃ r, composedRaster s 0 = some r ∧ ∃ row, row ∈ r.rows) ∧
    twoByTwo.rows.length = twoByTwo.height ∧ (∀ row ∈ twoByTwo.rows, row.length = twoByTwo.width) ∧
    1 < twoByTwo.width ∧ 1 < twoByTwo.height :=
  ⟨⟨by decide, _, rfl, _, List.mem_cons_self ..⟩, by decide, by decide, by decide, by decide⟩

/-! ### Hand ports -/

def lever : PortSettings := { PortSettings.reset with mode := .lever }
def wheel (f : WheelFunction) : PortSettings := { PortSettings.reset with mode := .wheel, wheelFunction := f }
def leverAt (q : Port) : State := withPort 0 lever q live
theorem witness_SampleEventActs :
    let s := { leverAt { Port.reset with phase := .active, edgeAge := 48 } with
      lamps := { Lamps.reset with strobe := Bank.fill 4 1 } }
    (s.portSet 0).mode = .lever ∧ timesOut s 0 = false ∧ (∀ c, s.lamps.strobe.get c = 1) ∧
    isButton (s.portSet 0).mode .b = true ∧ isButton (s.portSet 0).mode .a = false := by decide

theorem witness_QuadratureSampleCounts :
    (let s := withPort 1 (wheel .jog) Port.reset running;
      (s.portSet 1).mode = .wheel ∧ (s.port 1).quad = none) ∧
    (∀ f, let s := withPort 1 (wheel f) { Port.reset with quad := some (false, false) } running;
      (s.portSet 1).mode = .wheel ∧ (s.port 1).quad = some (false, false) ∧ s.engine = .running ∧
      (s.portSet 1).wheelFunction = f ∧ (s.portSet 1).invert.a = false ∧ (s.portSet 1).invert.b = false) ∧
    (let old := (false, false);
      let one := (true, false);
      let both := (true, true);
      (old.1 ≠ both.1 ∧ old.2 ≠ both.2) ∧ (old.1 = one.1 ↔ old.2 ≠ one.2)) ∧
    (withPort 1 (wheel .jog) Port.reset halted).engine ≠ .running :=
  ⟨by decide, fun f => by cases f <;> decide, by decide, by decide⟩

/-- A period that began at count 0, with the high time 1300, and its end at 2000. -/
def midPeriod (phase : PortPhase) (valid invalid : Nat) (now : Word) : State :=
  atTime now (leverAt { Port.reset with
    phase := phase, validRun := valid, invalidRun := invalid, periodStart := some 0, highTime := some 1300 })
theorem witness_LeverEdgeActs :
    (let s := leverAt Port.reset;
      (s.portSet 0).mode = .lever ∧ true ≠ (s.portSet 0).invert.a ∧ (s.port 0).periodStart = none ∧
      false = (s.portSet 0).invert.a) ∧
    (let s := leverAt { Port.reset with periodStart := some 0 };
      (s.portSet 0).mode = .lever ∧ false = (s.portSet 0).invert.a ∧ (s.port 0).periodStart = some 0 ∧
      (s.port 0).highTime = none) ∧
    (let s := midPeriod .active 0 0 4000;
      (s.port 0).periodStart = some 0 ∧ (s.port 0).phase = .active ∧
      (1000 ≤ 4000 ∧ 4000 ≤ 4000 ∧ 0 < (s.port 0).highTime.getD 0 ∧ (s.port 0).highTime.getD 0 < 4000)) ∧
    (let s := midPeriod .active 0 0 4001;
      (s.port 0).periodStart = some 0 ∧ ¬ (s.timebase.captureCount - 0).toNat ≤ 4000) := by decide

theorem witness_LeverStateMoves :
    (∀ phase, phase = .acquiring ∨ phase = .lost → let s := midPeriod phase 3 0 2000;
      (s.portSet 0).mode = .lever ∧ s.completedPeriod 0 = some (1300, 2000) ∧ validSample 1300 2000 = true ∧
      (s.port 0).phase = phase ∧ (s.port 0).validRun = 3) ∧
    (∀ now : Word, now = 2000 ∨ now = 2600 → let s := midPeriod .recenter 0 0 now;
      (s.portSet 0).mode = .lever ∧ s.completedPeriod 0 = some (1300, now.toNat) ∧
      validSample 1300 now.toNat = true ∧ (s.port 0).phase = .recenter) ∧
    (leverDemand lever (leverPosition 1300 2000) ≠ 0 ∧ leverDemand lever (leverPosition 1300 2600) = 0) ∧
    (∀ phase, phase = .active ∨ phase = .recenter →
      let s := { midPeriod phase 0 7 999 with authority := Bank.fill 4 ⟨some (.port 0), 0, 0, 0⟩ };
      s.completedPeriod 0 = some (1300, 999) ∧ validSample 1300 999 = false ∧ (s.port 0).phase = phase ∧
      (s.port 0).invalidRun = 7 ∧ s.holds 0 = true) ∧
    (let s := leverAt { Port.reset with phase := .recenter, edgeAge := 49 };
      (s.portSet 0).mode = .lever ∧ (s.port 0).phase = .recenter ∧
      (s.portSet 0).lossLimit ≤ min ((s.port 0).edgeAge + 1) 255) :=
  ⟨fun _ h => by rcases h with rfl | rfl <;> decide, fun _ h => by rcases h with rfl | rfl <;> decide, by decide,
    fun _ h => by rcases h with rfl | rfl <;> decide, by decide⟩

/-- A KEYS port with `action` on line B, the line held at `level` for the debounce count less one. -/
def keyed (action : Action) (level : ButtonLevel) (s : State) : State :=
  withPort 2 { PortSettings.reset with mode := .keys, action := ⟨.none, action, .none⟩ }
    { Port.reset with phase := .active, buttons := ⟨⟨.released, 0⟩, ⟨level, 4⟩, ⟨.released, 0⟩⟩ } s
/-- Line B of port 2 high, and every other line low. -/
def lineHigh : Bank 8 Lines := lows.set 2 ⟨false, true, false⟩
theorem witness_ButtonsPerformTheirActions :
    (∀ x : Action, let s := keyed x .released live;
      isButton (s.portSet 2).mode .b = true ∧ (s.portSet 2).debounce ≤ ((s.port 2).buttons.get .b).run + 1 ∧
      ((s.port 2).buttons.get .b).level = .released ∧
      xor ((s.portSet 2).invert.get .b) ((lineHigh.get 2).get .b) = true ∧ s.engine = .running ∧
      (s.portSet 2).action.get .b = x ∧ s.mode (s.portSet 2).channel = .live ∧
      s.reports.queue.length < 16 ∧ ∀ p', timesOut s p' = false) ∧
    (∀ (p' : PortId) (l' : LineId), accepts (keyed .storyNext .released live) p' l' (lineHigh.get p') = true →
      p' = 2 ∧ l' = .b) ∧
    (let s := withPort 3 { wheel .speed with action := ⟨.none, .none, .zero⟩ }
        { Port.reset with phase := .active, buttons := Trio.fill ⟨.released, 4⟩ } live;
      (s.portSet 3).action.get .c = .zero ∧ (s.portSet 3).mode = .wheel ∧
      isButton (s.portSet 3).mode .c = true) ∧
    (keyed .take .released halted).engine ≠ .running ∧
    (∀ x : Action, let s := keyed x .pressed live;
      ((s.port 2).buttons.get .b).level = .pressed ∧
      xor ((s.portSet 2).invert.get .b) ((lows.get 2).get .b) = false ∧ s.engine ≠ .halted) ∧
    (keyed .freezeHold .pressed halted).engine = .halted := by
  refine ⟨fun x => by cases x <;> decide, ?_, by decide, by decide, fun x => by cases x <;> decide, by decide⟩
  intro p' l'
  revert p'
  cases l' <;> decide

/-! ### Authority -/

/-- Channel 0 held by `h`, its quiet count one below the release time. -/
def held (h : Source) (s : State) : State :=
  { s with authority := s.authority.set 0 { Authority.reset with holder := some h, quiet := 24 } }
theorem witness_QuietHoldersRelease :
    let s := held .console (withPort 1 { wheel .jog with channel := 1 } { Port.reset with jog := 256 } live);
    s.timebase.lock = .free ∧ s.engine = .running ∧ s.mode 0 = .live ∧ (s.auth 0).holder = some .console ∧
    (s.chanSet 0).releaseTime ≤ min ((s.auth 0).quiet + 1) 255 ∧
    sourceActive s (handAll s).1 0 .console = false ∧ portActive s (handAll s).1 1 = true ∧
    ∀ p, isSource s 0 p = true → portActive s (handAll s).1 p = false := by decide

/-- Presenter port 0 holds channel 0 with a demand of 500; operator port 1 hands a jog. -/
def contested : State :=
  held (.port 0)
    (withPort 1 { wheel .jog with role := .operator } { Port.reset with phase := .active, jog := 256 }
      (withPort 0 lever { Port.reset with phase := .active, value := 500 } live))
theorem witness_OperatorsTakeOver :
    contested.timebase.lock = .free ∧ contested.engine = .running ∧ contested.mode 0 = .live ∧
    (contested.chanSet 0).authMode = .takeover ∧ (contested.auth 0).holder = some (.port 0) ∧
    contested.role 0 = .presenter ∧ portActive contested (handAll contested).1 0 = true ∧
    ((serviceOrder contested).filter fun y => claims contested (handAll contested).1 0 y &&
      sourceRole contested y == .operator).head? = some (.port 1) ∧
    isSource contested 0 0 = true := by decide

/-! ### Views and held channels -/

/-- Story 12 of 3 lines in channel 0's view, and channel 0 anchored in it with the position given. -/
def story12 (n : Nat) : Story := { Story.reset with present := true, ready := true, mask := 15, count := n }
def scripted (n : Nat) (a : Anchor) (s : State) : State :=
  { s with
    stories := s.stories.set 12 (story12 n), rundown := { s.rundown with order := [12] }
    channels := s.channels.set 0 { s.chan 0 with anchor := some a, fraction := 300 } }
theorem witness_FullHoldsStandStill :
    (let s := scripted 3 ⟨12, 2⟩ live;
      let s := { s with channels := s.channels.set 0 { s.chan 0 with latch := true } };
      s.timebase.lock = .free ∧ s.engine = .running ∧ s.mode 0 = .live ∧ (s.chan 0).freeze = true ∧
      (s.chan 0).anchor = some ⟨12, 2⟩ ∧ entryOf (scriptView s 0) 12 = some ⟨12, 3, true⟩ ∧ 2 < 3) ∧
    (let s := scripted 3 ⟨12, 2⟩ live;
      let s := { s with channels := s.channels.set 0 { s.chan 0 with exchange := true } };
      (s.chan 0).exchange = true ∧ entryOf (scriptView s 0) 12 = some ⟨12, 3, true⟩) ∧
    Runs .frameEvent (scripted 3 ⟨12, 2⟩ live) :=
  ⟨by decide, by decide, _, rfl⟩

/-- What the arbiter hands the only LIVE channel, when its evaluation gives it. -/
theorem handed_alone (s : State) (d j : Int) (x : Option (PortId × StoryJump)) (free : s.timebase.lock = .free)
    (run : s.engine = .running) (live : s.mode 0 = .live) (alone : liveChans s = [0])
    (demand : (evaluate (handAll s).1 0 (armedStart s)).1.demand = d)
    (jog : (evaluate (handAll s).1 0 (armedStart s)).1.jog = j)
    (jump : (evaluate (handAll s).1 0 (armedStart s)).1.jump = x) : s.handing (freeFrame s) 0 = (d, j, x) := by
  have hand := freeFrame_handing free run live
  obtain ⟨ys, xs, e, -, hand⟩ := hand
  rw [alone] at e
  have none : ys = [] := List.eq_nil_of_length_eq_zero (by have := congrArg List.length e; simp at this; omega)
  rw [none] at hand
  have begins : beforeStages [] s = armedStart s := by unfold beforeStages; rw [forEach_nil]
  rw [begins] at hand
  dsimp only at hand
  rw [hand, demand, jog, jump]
/-- Channel 0 stands at an anchor, with story 12 of 3 lines in its view. -/
def standing (a : Option Anchor) : State :=
  let s := scripted 3 ⟨12, 0⟩ live
  { s with channels := s.channels.set 0 { s.chan 0 with anchor := a } }
/-- Port 0 of channel 0 has a story jump, with the latch on or off. -/
def jumping (latch : Bool) : State :=
  let s := scripted 3 ⟨12, 2⟩ live
  withPort 0 { PortSettings.reset with mode := .keys, role := .operator }
    { Port.reset with phase := .active, jump := some (.next, .a) }
    { s with channels := s.channels.set 0 { s.chan 0 with latch := latch } }
theorem witness_FullHoldsStandStill_stages :
    (∀ a ∈ ([some ⟨12, 2⟩, some ⟨12, 3⟩, some ⟨7, 0⟩, none] : List (Option Anchor)), let s := standing a;
      s.timebase.lock = .free ∧ s.engine = .running ∧ s.mode 0 = .live ∧ Runs .frameEvent s ∧
      s.handing (freeFrame s) 0 = (0, 0, none)) ∧
    replaced (scriptView (standing none) 0) (some ⟨12, 2⟩) = false ∧
    replaced (scriptView (standing none) 0) (some ⟨12, 3⟩) = true ∧
    replaced (scriptView (standing none) 0) (some ⟨7, 0⟩) = true ∧
    replaced (scriptView (standing none) 0) none = true ∧
    ∀ latch, let s := jumping latch; s.timebase.lock = .free ∧ s.engine = .running ∧ s.mode 0 = .live ∧
      Runs .frameEvent s ∧ s.handing (freeFrame s) 0 = (0, 0, some (0, .next)) := by
  refine ⟨fun a ha => ?_, by decide, by decide, by decide, by decide, fun latch => ?_⟩
  · fin_cases ha <;> exact ⟨by decide, by decide, by decide, ⟨_, rfl⟩, handed_alone _ _ _ _ (by decide) (by decide)
      (by decide) (by decide) (by decide) (by decide) (by decide)⟩
  · cases latch <;> exact ⟨by decide, by decide, by decide, ⟨_, rfl⟩, handed_alone _ _ _ _ (by decide) (by decide)
      (by decide) (by decide) (by decide) (by decide) (by decide)⟩

/-- Channel 1 follows channel 0, which stands frozen on line 1 of the 3 lines of story 12, at an offset. -/
def followed (offset : Int) (a : Option Anchor) : State :=
  let s := scripted 3 ⟨12, 1⟩ live
  withChannel 1 { ChannelSettings.reset with mode := .follow, leader := 0, offset := offset }
    { s with channels := s.channels.set 0 { s.chan 0 with anchor := a, latch := true } }
/-- What the leader publishes, when its own frame-event work gives it. -/
theorem leader_publishes (s : State) (free : s.timebase.lock = .free) (run : s.engine = .running)
    (alone : liveChans s = [0]) (a : Option Anchor) (v : List ViewEntry)
    (h : ((liveStages (handAll s).1 0 (armedStart s)).2.chan 0).anchor = a ∧
      ((liveStages (handAll s).1 0 (armedStart s)).2.chan 0).view = v) :
    ∃ t, exec .frameEvent s = .next t ∧ (t.chan 0).pub.anchor = a ∧ (t.chan 0).view = v := by
  obtain ⟨x, e⟩ := freeFrame_chan s free run 0
  have live : s.mode 0 = .live := mem_liveChans.1 (alone ▸ List.mem_cons_self)
  obtain ⟨-, hv, ha, -⟩ := live_position live
  rw [advancedStart_alone alone] at hv ha
  exact ⟨_, rfl, (congrArg (·.pub.anchor) e).trans (ha.trans h.1), (congrArg (·.view) e).trans (hv.trans h.2)⟩
theorem witness_FollowersDeriveFromTheirLeaders :
    (∀ o ∈ ([-2, -1, 1, 2] : List Int), let s := followed o (some ⟨12, 1⟩);
      s.timebase.lock = .free ∧ s.engine = .running ∧ s.mode 1 = .follow ∧ (s.chanSet 1).leader = 0 ∧
      s.mode 0 = .live ∧ ∃ t, exec .frameEvent s = .next t ∧ (t.chan 0).pub.anchor = some ⟨12, 1⟩ ∧
        (t.chan 0).view = [⟨12, 3, true⟩]) ∧
    viewRow [⟨12, 3, true⟩] ⟨12, 1⟩ = some 1 ∧
    (let s := { followed 0 none with rundown := Rundown.reset };
      s.timebase.lock = .free ∧ s.engine = .running ∧ s.mode 1 = .follow ∧ (s.chanSet 1).leader = 0 ∧
      s.mode 0 = .live ∧ ∃ t, exec .frameEvent s = .next t ∧ (t.chan 0).pub.anchor = none ∧
        (t.chan 0).view = []) := by
  refine ⟨fun o ho => ?_, by decide, ?_⟩
  · fin_cases ho <;>
      exact ⟨by decide, by decide, by decide, by decide, by decide,
        leader_publishes _ (by decide) (by decide) (by decide) _ _ ⟨by decide, by decide⟩⟩
  · exact ⟨by decide, by decide, by decide, by decide, by decide,
      leader_publishes _ (by decide) (by decide) (by decide) _ _ ⟨by decide, by decide⟩⟩

/-- A NOW story in which a LIVE channel stands frozen, with a request that is not done: it needs the searcher. -/
def contestedStory : State :=
  let s := followed 0 (some ⟨12, 1⟩)
  { s with stories := s.stories.set 12 { story12 3 with request := 1, mode := .now } }
theorem witness_FrameEventInRunning_search :
    contestedStory.timebase.lock = .free ∧ contestedStory.engine = .running ∧
    contestedStory.exchange.searcher = none ∧ contestedStory.exchange.rundown = none ∧
    contestedStory.rundown.request = contestedStory.rundown.done ∧
    ∃ t, exec .frameEvent contestedStory = .next t ∧ liveAnchored t 12 = true ∧
      (List.finRange 256).find? (fun k =>
        (contestedStory.story k).request != (contestedStory.story k).done
          && !contestedStory.exchange.takes.any (·.slot == k) && (contestedStory.story k).mode == .now
          && contestedStory.rundown.order.contains k && liveAnchored t k) = some 12 := by
  have anchored : liveAnchored (freeFrame contestedStory) 12 = true := by
    obtain ⟨x, e⟩ := freeFrame_chan contestedStory (by decide) (by decide) 0
    have hm : (freeFrame contestedStory).isLive 0 = true := by
      have hs : (freeFrame contestedStory).settings = contestedStory.settings := freeFrame_keeps.settings _
      unfold State.isLive
      rw [mode_congr hs]
      decide
    have ha : anchoredIn (freeFrame contestedStory) 12 0 = true := by
      have alone : liveChans contestedStory = [0] := by decide
      have live : contestedStory.mode 0 = .live := by decide
      have : ((beforePublication (frameOrder contestedStory) contestedStory).chan 0).anchor = some ⟨12, 1⟩ := by
        rw [(live_position live).1, advancedStart_alone alone]
        decide
      unfold anchoredIn
      rw [e]
      simp [this]
    simp only [liveAnchored, allChans, List.any_eq_true]
    exact ⟨0, by simp, by simp [hm, ha]⟩
  refine ⟨by decide, by decide, by decide, by decide, by decide, _, rfl, anchored, ?_⟩
  have : (fun k : Slot => (contestedStory.story k).request != (contestedStory.story k).done
      && !contestedStory.exchange.takes.any (·.slot == k) && (contestedStory.story k).mode == .now
      && contestedStory.rundown.order.contains k && liveAnchored (freeFrame contestedStory) k) = (· == 12) := by
    funext k
    by_cases h : k = 12
    · subst h
      rw [anchored]
      decide
    · have : contestedStory.story k = Story.reset := by
        show ((Bank.set _ 12 _).get k) = _
        rw [Bank.get_set_ne _ _ h]
        show ((Bank.set _ 12 _).get k) = _
        rw [Bank.get_set_ne _ _ h, show State.stories live = Bank.fill 256 Story.reset from rfl, Bank.get_fill]
      rw [this]
      simp [Story.reset, h]
  rw [this]
  decide

/-! ### The Fetch Unit -/

def waitingLine : QueueEntry := ⟨3, 7, ⟨1, 0, 0, false⟩, .waiting⟩
/-- Line 7 of story 3 waits, over a cache. -/
def waitingOn (cache : Bank 512 Place) : State :=
  { running with fetch := { Fetch.reset with cache := cache, queue := [waitingLine] } }
def failedLine : CacheEntry := ⟨3, 7, .failed 0, false, 0, 4⟩
/-- Channel 0 has published line 1 of story 12, which head 0 shows. -/
def published12 : State :=
  withHead 0 smallHead (live.modChan 0 fun ch => { ch with
    view := [⟨12, 3, true⟩], pub := { ch.pub with mode := .live, anchor := some ⟨12, 1⟩ } })
theorem witness_FetchIssues_need :
    (published12.chan 0).pub.mode ≠ .off ∧ (published12.chan 0).pub.anchor = some ⟨12, 1⟩ ∧
    viewRow (published12.chan 0).view ⟨12, 1⟩ = some 1 ∧ anchorAtRow (published12.chan 0).view 0 = some ⟨12, 0⟩ ∧
    (published12.chan 1).pub.mode = .off ∧ (published12.headSet 0).enable = true ∧
    (∃ n, n ∈ channelNeed published12 0 ∧ n.rank.cls = 1) ∧ (∃ n, n ∈ channelNeed published12 0 ∧ n.rank.cls = 2) :=
  ⟨by decide, by decide, by decide, by decide, by decide, by decide, ⟨⟨12, 1, ⟨1, 0, 0, false⟩⟩, by decide, rfl⟩,
    ⟨⟨12, 0, ⟨2, 1, 0, true⟩⟩, by decide, rfl⟩⟩
theorem witness_RastersHaveTheirSizeAndMoves_states :
    ((running.headSet 0).enable = false) ∧
    (let s := withHead 0 smallHead halted; (s.headSet 0).enable = true ∧ s.engine = .halted) ∧
    (let s := published12.modHead 0 fun x => { x with blank := true };
      (s.headSet 0).enable = true ∧ s.engine ≠ .halted ∧ (s.head 0).blank = true) ∧
    (let s := withHead 0 smallHead running;
      (s.headSet 0).enable = true ∧ s.engine ≠ .halted ∧ (s.head 0).blank = false ∧
      (s.chan (s.headSet 0).channel).pub.mode = .off) ∧
    (let s := published12;
      (s.headSet 0).enable = true ∧ s.engine = .running ∧ (s.head 0).blank = false ∧
      let ch := s.chan (s.headSet 0).channel
      ch.pub.mode ≠ .off ∧ ch.pub.anchor.bind (viewRow ch.view) = some 1) := by decide

/-- R9: of two needed lines, one at the taken count of its story, the other alone waits to be read. -/
theorem test_lines_beyond_the_count :
    let f : Fetch := { Fetch.reset with
      cache := ⟨List.replicate 512 .free, by simp⟩
      needs := (Bank.fill 4 []).set 0 [⟨12, 2, ⟨1, 0, 0, false⟩⟩, ⟨12, 3, ⟨1, 1, 0, false⟩⟩] };
    ((f.updateQueue (fun _ line => line < 3) 0).queue.map (·.line)) = [2] := by decide +kernel

theorem witness_FetchIssues :
    (let s := waitingOn (cacheOf [.free, .held failedLine]);
      s.engine = .running ∧ s.fetch.issuedCount < 8 ∧
      s.fetch.queue.find? QueueEntry.isWaiting = some waitingLine ∧
      s.fetch.choosePlace s.frame waitingLine.slot waitingLine.line = some (1, 4)) ∧
    8 ≤ fullFetch.fetch.issuedCount ∧ halted.engine ≠ .running ∧
    (∀ q ∈ running.fetch.queue, q.isWaiting = false) := by
  exact ⟨by decide, by decide, by decide, by decide⟩

/-- The read 7 of line 7 of story 3 is in flight into place 0, and the line has failed before. -/
def filling (stale : Bool) : State :=
  { running with
    fetch := { Fetch.reset with
      cache := cacheOf [if stale then .withdrawn else .held ⟨3, 7, .filling, false, 0, 4⟩]
      queue := [⟨3, 7, ⟨1, 0, 0, false⟩, .issued ⟨7, 0, 96⟩ 0 stale⟩] } }
theorem witness_FetchCompletes :
    (∀ stale, ∃ q, (filling stale).fetch.issuedEntry 7 = some q ∧ q.state = .issued ⟨7, 0, 96⟩ 0 stale) ∧
    (filling false).fetch.cache.get 0 = .held ⟨3, 7, .filling, false, 0, 4⟩ ∧
    (byteAt (zeros 2 ++ [80] ++ zeros 93) 2).toNat ≤ 80 ∧ 80 < (byteAt (zeros 2 ++ [81] ++ zeros 93) 2).toNat :=
  ⟨fun stale => by cases stale <;> exact ⟨_, rfl, rfl⟩, rfl, by decide, by decide⟩

/-! ### Writes and scans -/

def statusWrite : Write := ⟨4, .channelStatus 1, 0, [], none⟩
def storyWrite : Write := ⟨5, .storyFields 2, 0, [], some ⟨13, .exchangeDone, 2, 1, 0, 0⟩⟩
theorem witness_WritesComplete :
    (∀ w ∈ [statusWrite, storyWrite], let s := { running with writes := [statusWrite, storyWrite] };
      s.writes.find? (·.tag == w.tag) = some w ∧ s.writes.find? (·.target == w.target) = some w ∧
      s.engine ≠ .halted ∧ s.reports.queue.length < 16) ∧
    statusWrite.report = none ∧ storyWrite.report.isSome ∧
    (let s := { halted with writes := [statusWrite] };
      s.writes.find? (·.tag == 4) = some statusWrite ∧
      s.writes.find? (·.target == .channelStatus 1) = some statusWrite ∧ s.engine = .halted) := by decide

theorem witness_ScanCompletionTakesTheArea :
    busy.area.scan = some scanning ∧ busy.engine = .running ∧
    (let d : ScanData := ⟨.data (zeros 4), .busError :: List.replicate 255 (.data (zeros 64)), zeros 4, [], []⟩;
      d.entries[(0 : Slot).val]? = some .busError ∧ d.entries[(255 : Slot).val]? = some (.data (zeros 64)) ∧
      word d.settingsGeneration 0 = busy.area.takenGeneration) ∧
    (let d : ScanData := ⟨.busError, [], [1, 0, 0, 0], zeros 1796, []⟩;
      d.rundownRequest = .busError ∧ word d.settingsGeneration 0 ≠ busy.area.takenGeneration) := by decide

theorem witness_ScanCompletionTakesTheArea_posts :
    (let d : ScanData := ⟨.data (zeros 4), .busError :: List.replicate 255 (.data (zeros 64)), zeros 4, [], []⟩;
      busy.reports.dropped < 65535 ∧ (completeScan d busy).reports.dropped = busy.reports.dropped) ∧
    (let d : ScanData := ⟨.busError, [], [1, 0, 0, 0], [1, 0, 0, 0], []⟩;
      (completeScan d busy).reports.dropped = busy.reports.dropped) := by decide +kernel

/-- The codes of the command slots, and one that is none of the seven (R160). -/
theorem witness_ScanCompletionTakesTheArea_codes : ∀ code ∈ ([0, 1, 2, 3, 4, 5, 6, 7, 8] : List Byte),
    word (zeros 4 ++ [code] ++ zeros 27) 4 = code.setWidth 32 := by decide
/-- R156: a scan makes its 262 reads, each at its own address. -/
theorem test_scan_reads : (beginScan .frame running).area.scan.map (fun sc => sc.group.reads.length) = some 262 := by
  decide

theorem witness_AreaReadFaultsHalt :
    (busy.area.scan = some scanning ∧ busy.engine = .running) ∧
    ∀ x : StartStep, x.awaits 9 = true → (starting x).area.start = some x ∧ (starting x).engine = .starting :=
  ⟨by decide, fun _ _ => ⟨rfl, rfl⟩⟩
theorem witness_AreaReadFaultsHalt_start : StartStep.awaits 9 (.glyphImages [(⟨8, 0, 40⟩, 0), (⟨9, 40, 40⟩, 1)]) = true ∧
    StartStep.awaits 9 (.header ⟨9, 0, 48⟩) = true := by decide

/-! ### Commands -/

theorem witness_JumpPlacesTheAnchor : let s := scripted 3 ⟨12, 2⟩ live;
    s.engine = .running ∧ s.area.commandDone.get 0 ≠ 1 ∧ s.mode 0 = .live ∧ (s.chan 0).freeze = false ∧
    (s.chan 0).exchange = false ∧ entryOf (scriptView s 0) 12 = some ⟨12, 3, true⟩ ∧
    (s.story 12).ready = true := by decide

/-- The chapter's operands of JUMP: line 1, a line at the count, and a negative one. -/
theorem test_jump_operands : lineOperand 3 1 = (1, .ok) ∧ lineOperand 3 2 = (2, .ok) ∧
    lineOperand 3 3 = (2, .clamped) ∧ lineOperand 3 (-1) = (0, .clamped) := by decide

theorem witness_ConsoleCommandsAct :
    live.engine = .running ∧ live.area.commandDone.get 3 ≠ 7 ∧ live.mode 0 = .live ∧
    (live.chanSet 0).authMode ≠ .presenter := by decide

theorem test_clamped_operands : clampOperand 64 64 = (64, .ok) ∧ clampOperand 64 65 = (64, .clamped) ∧
    clampOperand 64 (-65) = (-64, .clamped) ∧ clampOperand 1024 (-1024) = (-1024, .ok) := by decide

theorem witness_OtherCommandsAct :
    live.engine = .running ∧ live.area.commandDone.get 1 ≠ 9 ∧ live.mode 0 = .live ∧
    ((0 : Word) = 0 ∧ 7 < (8 : Word).toNat) := by decide

def presented : State := withChannel 0 { liveSettings with authMode := .presenter } running
theorem witness_CommandRefusals :
    (halted.engine ≠ .running ∧ live.area.commandDone.get 0 = 0) ∧
    (live.engine = .running ∧ live.area.commandDone.get 0 ≠ 1) ∧
    ((-1 : Word).toInt < 0 ∧ 3 < (4 : Word).toInt ∧ 255 < (256 : Word).toInt ∧ 5 < (6 : Word).toInt) ∧
    live.mode 1 ≠ .live ∧ live.mode 0 = .live ∧
    (({ live with channels := live.channels.set 0 { live.chan 0 with latch := true } }).chan 0).freeze = true ∧
    (let s := { live with channels := live.channels.set 0 { live.chan 0 with exchange := true } };
      s.mode 0 = .live ∧ (s.chan 0).freeze = false ∧ (s.chan 0).exchange = true) ∧
    ((live.chan 0).freeze = false ∧ (live.chan 0).exchange = false ∧ entryOf (scriptView live 0) 12 = none) ∧
    (presented.mode 0 = .live ∧ (presented.chanSet 0).authMode = .presenter) := by decide

/-! ### Exchanges -/

/-- Story 12 in TAKING; with `seen`, channel 0 has published a position in it. -/
def takingStory (mode : ExchangeMode) (seen : Bool) : State :=
  let s := scripted 3 ⟨12, 2⟩ live
  { s with
    exchange := { Exchange.idle with takes := [⟨12, 6, mode, ⟨5, 0, 12⟩⟩] }
    channels := s.channels.set 0 { s.chan 0 with
      anchor := if seen then some ⟨12, 2⟩ else none
      pub := { Published.reset with mode := .live, anchor := if seen then some ⟨12, 2⟩ else none } } }
theorem witness_DirectTakesEnd : ∀ mode seen, let s := takingStory mode seen;
    s.exchange.takes.find? (·.request.tag == 5) = some ⟨12, 6, mode, ⟨5, 0, 12⟩⟩ ∧
    directAllowed { s with exchange := { s.exchange with takes := s.exchange.takes.filter (·.request.tag != 5) } }
      12 mode = !seen := by
  intro mode seen
  cases mode <;> cases seen <;> decide

/-- R62: a window that was published stands in sight when a take has made its channel OFF. -/
theorem test_window_stays_published :
    let s := published12;
    let s := s.modChan 0 fun ch => { ch with pub := { ch.pub with view := [⟨12, 3, true⟩, ⟨13, 2, true⟩] } };
    windowIn s 13 smallHead = true ∧ windowIn (s.modChan 0 (Channel.changeMode .live .off)) 13 smallHead = true := by
  decide

/-- Channel 0 anchored in story 12, with a search of it; read 9 is in flight. -/
def searching (phase : SearchPhase) (target : Option Key) : State :=
  let s := scripted 3 ⟨12, 2⟩ live
  { s with
    exchange := { Exchange.idle with searcher := some ⟨12, 6, .now, phase, [⟨0, target, none, false⟩]⟩ }
    channels := s.channels.set 0 { s.chan 0 with exchange := true } }
theorem witness_KeySearchRuns :
    (let s := searching (.versionRead ⟨9, 0, 12⟩) (some 5);
      s.exchange.searcher.isSome ∧ allFound [⟨0, some 5, none, false⟩] = false ∧
      (searching (.versionRead ⟨9, 0, 12⟩) none).exchange.searcher.isSome ∧
      allFound [⟨0, none, none, false⟩] = true ∧
      (let bytes : List Byte := [0, 0, 1, 0, 0, 0, 0, 0, 2, 0, 0, 0];
        long bytes 0 &&& 0xFFFFFFFFFFFFFFF0 ≠ 0 ∧ 0 < min (word bytes 8).toNat 4096) ∧
      long (zeros 12) 0 &&& 0xFFFFFFFFFFFFFFF0 = 0) ∧
    (∀ back, let s := searching (.keys ⟨9, 0x10000, 2⟩ 0x10000 2 0 back) (some 5);
      s.exchange.searcher.isSome ∧
      allFound ([⟨0, some 5, none, false⟩].map (SearchMember.compare (half ([6, 0] : List Byte) 0) 0)) = false ∧
      (if back then 0 else 0 + 1) < 2 ∧
      allFound ([⟨0, some 5, none, false⟩].map (SearchMember.compare (half ([5, 0] : List Byte) 0) 0)) = true ∧
      allFound ([⟨0, none, none, false⟩].map (SearchMember.compare (half ([6, 0] : List Byte) 0) 0)) = true ∧
      ([⟨0, some 5, none, false⟩].map (SearchMember.channel)).Nodup) ∧
    (searching (.keys ⟨9, 0x10000, 2⟩ 0x10000 1 0 false) (some 5)).exchange.searcher.isSome ∧
    1 ≤ (if false = true then 0 else 0 + 1) :=
  ⟨by decide, fun back => by cases back <;> decide, by decide, by decide⟩

/-- A rundown take of list B with a read in flight. -/
def takingList (x : RundownRead) (length : Nat) : State :=
  { running with exchange := { Exchange.idle with rundown := some ⟨2, .b, x, ⟨9, 0, length⟩⟩ } }
theorem witness_RundownExchangeEnds :
    (takingList .length 4).exchange.rundown = some ⟨2, .b, .length, ⟨9, 0, 4⟩⟩ ∧
    ([1, 1, 0, 0] : List Byte).length = 4 ∧ min (word ([1, 1, 0, 0] : List Byte) 0).toNat 256 = 256 ∧
    (zeros 4).length = 4 ∧ min (word (zeros 4) 0).toNat 256 = 0 ∧
    (takingList .slots 3).exchange.rundown = some ⟨2, .b, .slots, ⟨9, 0, 3⟩⟩ ∧
    ([7, 8, 7] : List Byte).length = 3 := by decide
/-- R5: the slot numbers that the length counts are read, and no others. -/
theorem test_slots_read_by_length :
    ((rundownRead 9 (.data [3, 0, 0, 0]) (takingList .length 4)).exchange.rundown.map
      fun x => (x.reading, x.request.address, x.request.length)) = some (.slots, 288, 3) ∧
    rundownRead 9 (.data [7, 8]) (takingList .slots 3) = takingList .slots 3 ∧
    (rundownRead 9 (.data [7, 8, 7]) (takingList .slots 3)).rundown.order = [7, 8] := by decide +kernel

/-! ### Posts -/

theorem witness_PostsArePerformed :
    (let s := { running with reports := { Reports.reset with queue := [markPost] } };
      s.reports.current = none ∧ s.reports.queue = [markPost] ∧ s.engine ≠ .halted) ∧
    (reading.reports.current = some ⟨markPost, .read ⟨1, 0, 32⟩⟩ ∧ reading.engine ≠ .halted) ∧
    (writing.reports.current = some ⟨markPost, .write ⟨2, 0, 28⟩ [] 1⟩ ∧ writing.engine ≠ .halted) := by decide

/-! ### Motion and lamps -/

theorem witness_MotionKeepsItsLimits :
    ((100 : Int).natAbs ≤ linear.vmax ∧ (100 - 36 : Int).natAbs ≤ linear.accel) ∧
    (∃ e, e ∈ (advance linear oneStory aheadOfCue 5 983 64 .empty 1024 0).entered) ∧
    (lowChannels.timebase.lock = .free ∧ lowChannels.engine = .running ∧ lowChannels.mode 0 = .live ∧
      channelsPositioned lowChannels ∧ Runs .frameEvent lowChannels) := by
  exact ⟨by decide, ⟨_, List.mem_cons_self ..⟩, by decide, by decide, by decide,
    witness_StepKeepsPositions.1, _, rfl⟩
theorem witness_MotionKeepsItsLimits_advance :
    (16 = (1024 : Int).natAbs / 64 ∧ 15 = (-1023 : Int).natAbs / 64 ∧ 0 = (63 : Int).natAbs / 64) ∧
    (9 < viewSize oneStory ∧ 0 < viewSize oneStory) ∧
    CueAhead oneStory aheadOfCue 5 1 ∧ (∀ n, ¬ CueAhead oneStory aheadOfCue 9 n) ∧
    0 < slewedSpeed linear 64 (targetSpeed linear .empty 1024) ∧ effectiveJog .empty 0 = 0 := by
  refine ⟨by decide, by decide, ⟨by decide, by decide, fun m hm => ?_⟩, fun n h => ?_, by decide, by decide⟩
  · obtain rfl : m = 0 := by omega
    refine ⟨⟨by decide, by decide, by decide⟩, fun a r h => ?_⟩
    have : (rowRecord oneStory aheadOfCue (5 + 0 + 1)).map (fun x => x.2.cue.stopping) = some true := by decide
    rw [h] at this
    simpa using this
  · have := (h.2.2 0 h.1).1.2.1
    revert this
    decide

/-- R47: without an advance S is cut to the Vmax in force, and is 0 under a full hold. -/
theorem test_bounded_speed :
    ({ Channel.reset with speed := -1500 }.boundSpeed 1024).speed = -1024 ∧
    ({ Channel.reset with speed := 1000 }.boundSpeed 1024).speed = 1000 ∧
    ({ Channel.reset with speed := 1000, latch := true }.boundSpeed 1024).speed = 0 := by decide

theorem witness_LampGroupsAct :
    let f : Fetch := ⟨cacheOf [.held ⟨5, 1, .resident { plain 0 .none with pattern := some 9 }, false, 0, 0⟩], [],
      Bank.fill 4 []⟩;
    (∃ rec, f.record 5 1 = some rec) ∧ f.resident 5 2 = false ∧
    ∀ select, ∃ s : State, s.settings.markSelect.get 15 = select := by
  refine ⟨⟨_, rfl⟩, by decide, fun select => ⟨{ running with settings :=
    { Settings.reset with markSelect := Bank.fill 16 select } }, ?_⟩⟩
  cases select <;> rfl

/-- A crossing of line 2 of story 12, which carries a signalling cue. -/
def crossing : State :=
  let s := scripted 3 ⟨12, 1⟩ live
  { s with
    channels := s.channels.set 0 { s.chan 0 with fraction := 1000, speed := 100 }
    fetch := { Fetch.reset with cache := cacheOf [resident 12 2 .signal] } }
theorem witness_LampGroupsAct_frame :
    (let s := crossing;
      s.timebase.lock = .free ∧ s.engine = .running ∧ s.mode 0 = .live ∧ s.mode 1 = .off ∧ Runs .frameEvent s ∧
      s.settings.groupChannel.get 0 = 0 ∧ s.settings.groupMode.get 0 = .latch ∧
      s.handing (freeFrame s) 0 = (0, 0, none) ∧
      (s.advanceAt 0 (scriptView s 0) false (s.chan 0).standing 0 0 1).crossings = [⟨⟨12, 2⟩, .forward⟩]) ∧
    (let s := followed 0 (some ⟨12, 1⟩);
      let u := { s with
        settings := { s.settings with groupMode := Bank.fill 4 .span, groupChannel := Bank.fill 4 1 } };
      u.timebase.lock = .free ∧ u.engine = .running ∧ u.mode 1 = .follow ∧ Runs .frameEvent u ∧
      u.settings.groupChannel.get 0 = 1 ∧ u.settings.groupMode.get 0 = .span) ∧
    ∀ driven select, ∃ s : State, s.lamps.driven = driven ∧ (s.portSet 0).lampSelect = select := by
  refine ⟨⟨by decide, by decide, by decide, by decide, ⟨_, rfl⟩, by decide, by decide,
    handed_alone _ _ _ _ (by decide) (by decide) (by decide) (by decide) (by decide) (by decide) (by decide),
    by decide⟩,
    ⟨by decide, by decide, by decide, ⟨_, rfl⟩, by decide, by decide⟩, fun driven select =>
      ⟨{ withPort 0 { PortSettings.reset with lampSelect := select } Port.reset running with
        lamps := { Lamps.reset with driven := driven } }, rfl, rfl⟩⟩

end Sys2Proof.Tests
end

section
/-! PROOFS. The reset state (R155): each unit of a bank stands at its own reset value, and a black raster is black. -/

namespace Sys2Proof.Machine

@[simp] theorem State.reset_chan (c : Chan) : State.reset.chan c = .reset := Bank.get_fill ..
@[simp] theorem State.reset_port (p : PortId) : State.reset.port p = .reset := Bank.get_fill ..
@[simp] theorem State.reset_auth (c : Chan) : State.reset.auth c = .reset := Bank.get_fill ..
@[simp] theorem State.reset_head (h : HeadId) : State.reset.head h = .reset := Bank.get_fill ..
@[simp] theorem State.reset_story (k : Slot) : State.reset.story k = .reset := Bank.get_fill ..
@[simp] theorem State.reset_chanSet (c : Chan) : State.reset.chanSet c = .reset := Bank.get_fill ..
@[simp] theorem State.reset_portSet (p : PortId) : State.reset.portSet p = .reset := Bank.get_fill ..
@[simp] theorem State.reset_headSet (h : HeadId) : State.reset.headSet h = .reset := Bank.get_fill ..

theorem ClassFlags.none_get (k : ReportClass) : ClassFlags.none.get k = false := by cases k <;> rfl

theorem Channel.reset_holds : Channel.reset.holds = ⟨false, false, false, false⟩ := by decide

/-- Every pixel of a black raster is black. -/
theorem Raster.black_pixels {width height : Nat} {row : List Rgb} (hr : row ∈ (Raster.black width height).rows)
    {x : Rgb} (hx : x ∈ row) : x = .black := by
  obtain rfl := List.eq_of_mem_replicate hr
  exact List.eq_of_mem_replicate hx

/-- Every image of the reset glyph store is all background (R131). -/
theorem GlyphStore.reset_images (k : Fin 256) {b : Byte} (hb : b ∈ GlyphStore.reset.images.get k) : b = 0 := by
  rw [GlyphStore.reset, Bank.get_fill] at hb
  exact List.eq_of_mem_replicate hb

/-- Settles O3: each clause is one block, read through the reset value of each of its units. -/
theorem resetLeavesTheStatedValues : Obligations.ResetLeavesTheStatedValues := by
  unfold Obligations.ResetLeavesTheStatedValues
  refine ⟨⟨rfl, rfl, rfl, rfl, rfl, rfl, rfl, fun _ => Bank.get_fill .., rfl⟩, fun c => ?channel, fun p => ?port,
    State.reset_auth, fun _ => Bank.get_fill .., ⟨rfl, rfl, rfl, rfl, rfl, rfl, rfl⟩,
    ⟨rfl, rfl, fun k _ => GlyphStore.reset_images k⟩, fun h => ?head,
    ⟨fun _ => Bank.get_fill .., fun _ => Bank.get_fill .., rfl⟩,
    ⟨fun _ => Bank.get_fill .., rfl, rfl, rfl, ClassFlags.none_get, rfl⟩, rfl, fun k => ?story, fun c => ?channelSet,
    fun p => ?portSet, ⟨rfl, rfl, ClassFlags.none_get, fun _ => ⟨Bank.get_fill .., Bank.get_fill ..⟩,
      fun _ => Bank.get_fill ..⟩, fun h => ?headSet, rfl, rfl, fun _ => Bank.get_fill .., fun _ => Bank.get_fill .., rfl⟩
  case channel =>
    simp only [State.reset_chan]
    exact ⟨rfl, rfl, rfl, Channel.reset_holds, rfl, fun _ _ => by simp [Channel.reset], rfl, rfl, rfl, rfl, rfl, rfl⟩
  case port => simp [Port.reset, Button.reset]
  case head =>
    simp only [State.reset_head]
    exact ⟨rfl, rfl, rfl, fun _ hr _ hx => Raster.black_pixels hr hx⟩
  case story => simp [Story.reset]
  case channelSet => simp [ChannelSettings.reset]
  case portSet => simp [PortSettings.reset]
  case headSet => simp [HeadSettings.reset, ColourPair.reset, Rgb.white, Rgb.black]

end Sys2Proof.Machine
end

section
/-! PROOFS. The order list take of R5, and the reads and the end of a rundown exchange (R73, R74). -/

namespace Sys2Proof.Machine

/-! ### The order list take (R5) -/

/-- The list holds at `i` the first thing that stands before it already. -/
def FirstRepeat (xs : List Slot) (k : Slot) (i : Nat) : Prop :=
  xs[i]? = some k ∧ k ∈ xs.take i ∧ (xs.take i).Nodup

/-- A first repeat of a longer list is one of the list, or stands at the new end of a list that has none. -/
theorem firstRepeat_append (xs : List Slot) (s k : Slot) (i : Nat) : FirstRepeat (xs ++ [s]) k i ↔
    FirstRepeat xs k i ∨ (i = xs.length ∧ k = s ∧ s ∈ xs ∧ xs.Nodup) := by
  unfold FirstRepeat
  rcases Nat.lt_trichotomy i xs.length with h | rfl | h
  · simp [List.getElem?_append_left h, List.take_append_of_le_length h.le, h.ne]
  · simp only [List.getElem?_append_right le_rfl, Nat.sub_self, List.getElem?_cons_zero, Option.some.injEq,
      List.take_left, List.getElem?_eq_none (le_refl xs.length), reduceCtorEq, false_and, false_or, true_and]
    constructor
    · rintro ⟨rfl, mem, nodup⟩
      exact ⟨rfl, mem, nodup⟩
    · rintro ⟨rfl, mem, nodup⟩
      exact ⟨rfl, mem, nodup⟩
  · simp [List.getElem?_eq_none (l := xs ++ [s]) (i := i) (by simp; omega), List.getElem?_eq_none h.le, h.ne']

/-- What the walk of R5 has taken when it has passed the slot numbers `xs`. -/
structure TakenList.Of (xs : List Slot) (t : TakenList) : Prop where
  nodup : t.kept.Nodup
  mem : ∀ k, k ∈ t.kept ↔ k ∈ xs
  ordered : t.kept.Pairwise fun j k => xs.idxOf j < xs.idxOf k
  counted : t.kept.length + t.ignored = xs.length
  none : t.first = none ↔ xs.Nodup
  some : ∀ k i, t.first = some (k, i) ↔ FirstRepeat xs k i

/-- Slot numbers added at the end leave the order of first occurrences. -/
theorem TakenList.Of.ordered_append {xs : List Slot} {t : TakenList} (h : t.Of xs) (s : Slot) :
    t.kept.Pairwise fun j k => (xs ++ [s]).idxOf j < (xs ++ [s]).idxOf k :=
  h.ordered.imp_of_mem fun hj hk lt => by
    rw [List.idxOf_append_of_mem ((h.mem _).1 hj), List.idxOf_append_of_mem ((h.mem _).1 hk)]
    exact lt

/-- A slot number kept already is ignored. -/
theorem TakenList.Of.ignore {xs : List Slot} {t : TakenList} (h : t.Of xs) {s : Slot} (seen : s ∈ t.kept) :
    TakenList.Of (xs ++ [s]) ⟨t.kept, t.ignored + 1, t.first.or (.some (s, xs.length))⟩ where
  nodup := h.nodup
  mem k := by
    have := (h.mem s).1 seen
    simp only [h.mem, List.mem_append, List.mem_singleton]
    exact ⟨.inl, fun | .inl hk => hk | .inr e => e ▸ this⟩
  ordered := h.ordered_append s
  counted := by
    have := h.counted
    simp only [List.length_append, List.length_singleton]
    omega
  none := by
    have : s ∈ xs := (h.mem s).1 seen
    simp [List.nodup_append, this]
  some k i := by
    have hs : s ∈ xs := (h.mem s).1 seen
    rw [firstRepeat_append, ← h.some]
    cases hf : t.first with
    | none => simp [hs, h.none.1 hf, eq_comm, and_comm]
    | some x =>
      have : ¬ xs.Nodup := fun n => by simp [h.none.2 n] at hf
      simp [this]

/-- A new slot number is kept, behind the others. -/
theorem TakenList.Of.keep {xs : List Slot} {t : TakenList} (h : t.Of xs) {s : Slot} (new : s ∉ t.kept) :
    TakenList.Of (xs ++ [s]) { t with kept := t.kept ++ [s] } where
  nodup := List.nodup_append.2 ⟨h.nodup, List.nodup_singleton s, fun a ha b hb e => by
    rw [List.mem_singleton] at hb
    exact new (hb ▸ e ▸ ha)⟩
  mem k := by simp [h.mem]
  ordered := by
    have hs : s ∉ xs := fun m => new ((h.mem s).2 m)
    refine List.pairwise_append.2 ⟨h.ordered_append s, List.pairwise_singleton .., fun j hj k hk => ?_⟩
    rw [List.mem_singleton.1 hk, List.idxOf_append_of_mem ((h.mem j).1 hj), List.idxOf_append_of_notMem hs]
    exact Nat.lt_of_lt_of_le (List.idxOf_lt_length_of_mem ((h.mem j).1 hj)) (Nat.le_add_right ..)
  counted := by
    have := h.counted
    simp only [List.length_append, List.length_singleton]
    omega
  none := by
    have hs : s ∉ xs := fun m => new ((h.mem s).2 m)
    rw [h.none, List.nodup_append]
    refine ⟨fun n => ⟨n, List.nodup_singleton s, fun a ha b hb e => ?_⟩, And.left⟩
    rw [List.mem_singleton] at hb
    exact hs (hb ▸ e ▸ ha)
  some k i := by
    have hs : s ∉ xs := fun m => new ((h.mem s).2 m)
    simp [firstRepeat_append, h.some, hs]

theorem walkList_of {xs : List Slot} {t : TakenList} (h : t.Of xs) (ys : List Slot) :
    (walkList ys xs.length t).Of (xs ++ ys) := by
  induction ys generalizing xs t with
  | nil => simpa [walkList] using h
  | cons s ys ih =>
    rw [List.append_cons]
    unfold walkList
    split
    · rename_i seen
      simpa using ih (h.ignore seen)
    · rename_i new
      simpa using ih (h.keep new)

theorem takeList_of (bytes : List Byte) : (takeList bytes).Of (listedSlots bytes) :=
  walkList_of (xs := []) (t := ⟨[], 0, none⟩)
    ⟨List.nodup_nil, fun _ => Iff.rfl, List.Pairwise.nil, rfl, by simp, by simp [FirstRepeat]⟩ _

/-! ### The rundown exchange (R74) -/

/-- A completion that brings as many bytes as the read asked for is the read's. -/
theorem rundownRead_data {tag : Nat} {s : State} {x : RundownTake} (run : s.exchange.rundown = some x)
    (mine : x.request.tag = tag) {bytes : List Byte} (length : bytes.length = x.request.length) :
    rundownRead tag (.data bytes) s = rundownBytes x bytes s := by
  simp [rundownRead, run, mine, ReadResult.hasLength, length]

theorem rundownRead_busError {tag : Nat} {s : State} {x : RundownTake} (run : s.exchange.rundown = some x)
    (mine : x.request.tag = tag) : rundownRead tag .busError s =
      raise (rundownFault (natWord x.list.code)) { s with exchange := { s.exchange with rundown := none } } := by
  simp [rundownRead, run, mine, ReadResult.hasLength]

/-- Raising a report adds to the same reports wherever the engine state, the frame number and the reports agree. -/
theorem raise_reports_congr (r : Report) {s t : State} (reports : t.reports = s.reports)
    (engine : t.engine = s.engine) (frame : t.frame = s.frame) : (raise r t).reports = (raise r s).reports := by
  unfold raise State.halted
  rw [reports, engine, frame]
  split
  · exact reports
  · split <;> rfl

/-- The end of a rundown exchange (R74): the next state, whose reports are those of the DUPLICATE_SLOT post alone. -/
theorem takeRundown_eq (x : RundownTake) (slots : List Byte) (s : State) : takeRundown x slots s =
    { s with
      exchange := { s.exchange with rundown := none }
      rundown := ⟨(takeList slots).kept, x.list, s.rundown.request, x.generation⟩
      writes := s.writes ++ [⟨s.nextTag, .rundownFields, s.areaAddress s.area.header.rundown 4,
        wordBytes x.generation ++ wordBytes (natWord x.list.code),
        some ⟨13, .exchangeDone, 256, natWord x.list.code, natWord (takeList slots).kept.length, 0⟩⟩]
      reports := (raiseDuplicates x.list (takeList slots) s).reports
      nextTag := s.nextTag + 1 } := by
  let t : State := { s with
    exchange := { s.exchange with rundown := none }
    rundown := ⟨(takeList slots).kept, x.list, s.rundown.request, x.generation⟩ }
  have posts : (raiseDuplicates x.list (takeList slots) t).reports =
      (raiseDuplicates x.list (takeList slots) s).reports := by
    unfold raiseDuplicates
    split
    · rfl
    · exact raise_reports_congr _ rfl rfl rfl
  have rest := mask_eq ((raiseDuplicates_keeps x.list (takeList slots)).same t)
  rw [posts] at rest
  show issueWrite .rundownFields _ _ _ (raiseDuplicates x.list (takeList slots) t) = _
  rw [rest]
  rfl

/-- What the statement says of an end: the list taken is active, one write is issued, and a repeat is reported. -/
theorem takeRundown_ends (x : RundownTake) (slots : List Byte) (s : State) :
    let taken := takeList slots
    let t := takeRundown x slots s
    t.rundown = ⟨taken.kept, x.list, s.rundown.request, x.generation⟩ ∧
    t.writes = s.writes ++ [⟨s.nextTag, .rundownFields, s.areaAddress s.area.header.rundown 4,
      wordBytes x.generation ++ wordBytes (natWord x.list.code),
      some ⟨13, .exchangeDone, 256, natWord x.list.code, natWord taken.kept.length, 0⟩⟩] ∧
    t.reports = (raiseDuplicates x.list taken s).reports ∧
    t = { s with
      exchange := { s.exchange with rundown := none }, rundown := t.rundown, writes := t.writes
      reports := t.reports, nextTag := s.nextTag + 1 } := by
  intro taken t
  have e : t = _ := takeRundown_eq x slots s
  rw [e]
  exact ⟨rfl, rfl, rfl, rfl⟩

/-- Settles O57: the walk of R5 by induction on the list, and each read of the exchange by the bytes it asked for. -/
theorem rundownExchangeEnds : Obligations.RundownExchangeEnds := by
  unfold Obligations.RundownExchangeEnds
  refine ⟨fun bytes => ?_, fun tag s x run mine => ?_⟩
  · have h := takeList_of bytes
    exact ⟨rfl, h.nodup, h.mem, h.ordered, h.counted, h.none, h.some⟩
  have ends : ∀ {bytes slots : List Byte}, bytes.length = x.request.length →
      rundownBytes x bytes s = takeRundown x slots s →
      exec (.rundownListReadDone tag (.data bytes)) s = .next (takeRundown x slots s) := fun length e =>
    congrArg Host.Outcome.next ((rundownRead_data run mine length).trans e)
  refine ⟨fun reading asked bytes length => ⟨fun pos => ?_, fun zero => ?_⟩, fun reading bytes length => ?_, ?_⟩
  · refine congrArg Host.Outcome.next ((rundownRead_data run mine (length.trans asked.symm)).trans ?_)
    obtain ⟨r, -⟩ | ⟨-, z, -⟩ | ⟨-, -, e⟩ := rundownBytes_cases x bytes s
    · rw [reading] at r; cases r
    · exact absurd z pos.ne'
    · exact e
  · refine ⟨_, ends (slots := []) (length.trans asked.symm) ?_, takeRundown_ends x [] s⟩
    obtain ⟨r, -⟩ | ⟨-, -, e⟩ | ⟨-, p, -⟩ := rundownBytes_cases x bytes s
    · rw [reading] at r; cases r
    · exact e
    · exact absurd zero p.ne'
  · refine ⟨_, ends length ?_, takeRundown_ends x bytes s⟩
    obtain ⟨-, e⟩ | ⟨r, -⟩ | ⟨r, -⟩ := rundownBytes_cases x bytes s
    · exact e
    · rw [reading] at r; cases r
    · rw [reading] at r; cases r
  · exact congrArg Host.Outcome.next (rundownRead_busError run mine)

end Sys2Proof.Machine
end

section
/-! PROOFS. What a version take gives (R9), what invalidation leaves of the Line Cache (R87), what a flip and a failed
take leave (R63 to R65), and the end of a direct take. -/

namespace Sys2Proof.Machine

/-! ### The version take (R9) -/

theorem takeVersion_address (v : RawVersion) : (takeVersion v).address = takenAddress v.address := by
  unfold takeVersion
  dsimp only
  split <;> rfl

/-- The count is taken as 0 at the address 0, and else as found, up to 4096. -/
theorem takeVersion_count (v : RawVersion) :
    (takeVersion v).count = if takenAddress v.address = 0 then 0 else min v.count.toNat 4096 := by
  unfold takeVersion
  dsimp only
  by_cases h : takenAddress v.address = 0
  · by_cases n : 0 < min v.count.toNat 4096
    · rw [if_pos ⟨h, n⟩, if_pos h]
    · rw [if_neg fun x => n x.2, if_pos h]
      exact Nat.eq_zero_of_not_pos n
  · rw [if_neg fun x => h x.1, if_neg h]

/-! ### Invalidation (R87) -/

/-- No cache entry and no waiting read is of a story. -/
def Fetch.Without (k : Slot) (f : Fetch) : Prop :=
  (∀ i e, f.cache.get i = .held e → e.slot ≠ k) ∧ ∀ q ∈ f.queue, q.isWaiting = true → q.slot ≠ k

/-- A place that holds an entry after an invalidation held it before, and the entry is of no chosen story, when
entries are freed. -/
theorem Place.invalidate_held {chosen : Slot → Bool} {p : Place} {e : CacheEntry}
    (h : p.invalidate chosen true = .held e) : p = .held e ∧ chosen e.slot = false := by
  cases p with
  | free => cases h
  | withdrawn => cases h
  | held x =>
    unfold Place.invalidate at h
    cases hc : chosen x.slot with
    | false =>
      simp only [hc, Bool.false_eq_true, if_false, Place.held.injEq] at h
      exact ⟨congrArg _ h, h ▸ hc⟩
    | true => simp only [hc, if_true] at h; split at h <;> cases h

theorem QueueEntry.makeStale_waiting (q : QueueEntry) : q.makeStale.isWaiting = q.isWaiting := by
  obtain ⟨_, _, _, state⟩ := q
  cases state <;> rfl

theorem Fetch.invalidate_without (f : Fetch) (k : Slot) : (f.invalidate (· == k)).Without k := by
  refine ⟨fun i e h => ?_, fun q h w => ?_⟩
  · have : ((f.cache.get i).invalidate (· == k) true) = .held e := (Bank.get_map ..).symm.trans h
    simpa using (Place.invalidate_held this).2
  · obtain ⟨p, hp, rfl⟩ := List.mem_map.1 h
    obtain ⟨-, left⟩ := List.mem_filter.1 hp
    by_cases c : p.slot = k
    · simp only [c, beq_self_eq_true, if_true, QueueEntry.makeStale_waiting] at w
      have notIssued : p.isIssued = false := by simpa [QueueEntry.isWaiting] using w
      simp [notIssued, c] at left
    · simp [c]

/-- An entry that waits after an issue waited before it. -/
theorem issueOne_waiting {s t : State} (h : issueOne s = some t) : ∀ q ∈ t.fetch.queue, q.isWaiting = true →
    q ∈ s.fetch.queue := by
  obtain ⟨-, -, p, i, n, -, -, rfl⟩ := issueOne_some h
  intro q hq waits
  rcases List.mem_append.1 hq with hq | hq
  · exact (List.mem_filter.1 hq).1
  · rcases List.mem_cons.1 hq with rfl | hq
    · cases waits
    · exact (List.mem_filter.1 (List.mem_of_mem_tail hq)).1

/-- An issue moves the first waiting entry into the cache, so it brings no other story there. -/
theorem issueOne_without {k : Slot} {s t : State} (h : issueOne s = some t) (w : s.fetch.Without k) :
    t.fetch.Without k := by
  refine ⟨?_, fun p hp waits => w.2 p (issueOne_waiting h p hp waits) waits⟩
  obtain ⟨-, -, q, i, n, hq, -, rfl⟩ := issueOne_some h
  intro j e he
  have he : (s.fetch.cache.set i _).get j = .held e := he
  rw [Bank.get_set] at he
  split at he
  · cases he
    exact w.2 q (List.mem_of_find?_eq_some hq) (List.find?_some hq)
  · exact w.1 j e he

/-- No cache entry of a story is left when it has been invalidated, also when issuing has followed. -/
theorem invalidateStory_without (k : Slot) (s : State) : (invalidateStory k s).fetch.Without k :=
  issueAll_induct (P := fun t => t.fetch.Without k) (fun _ _ => issueOne_without) _ (s.fetch.invalidate_without k)

/-! ### The ends of a take (R63 to R65) -/

/-- A flip leaves no cache entry of its story. -/
theorem flip_without (k : Slot) (generation : Word) (address : Addr) (count : Nat) (s : State) :
    (flip k generation address count s).fetch.Without k := by
  unfold flip
  rw [(writeStoryFields_keeps ..).fetch]
  exact invalidateStory_without ..

/-- A flip issues one write: the story's part-written fields, with EXCHANGE_DONE to follow. -/
theorem flip_writes (k : Slot) (generation : Word) (address : Addr) (count : Nat) (s : State) : ∃ tag,
    (flip k generation address count s).writes = s.writes ++ [⟨tag, .storyFields k, s.entryAddress k 48,
      wordBytes (natWord (s.story k).side.other.code) ++ wordBytes generation ++ wordBytes 1,
      some ⟨13, .exchangeDone, slotWord k, natWord (s.story k).side.other.code, natWord count,
        (s.story k).storyId⟩⟩] := by
  let t := s.modStory k fun st => { st with
    side := (s.story k).side.other, address := address, count := count, done := generation, result := resultDone }
  have story : (invalidateStory k t).story k = t.story k :=
    congrArg (·.get k) ((invalidateStory_keeps k).stories t)
  have mine : t.story k = { s.story k with
      side := (s.story k).side.other, address := address, count := count, done := generation
      result := resultDone } := State.story_modStory_self ..
  refine ⟨(invalidateStory k t).nextTag, ?_⟩
  show (writeStoryFields k _ (invalidateStory k t)).writes = _
  unfold writeStoryFields issueWrite State.entryAddress State.areaAddress
  dsimp only
  rw [story, mine, (invalidateStory_keeps k).writes, (invalidateStory_keeps k).area]
  rfl

/-- A take that fails leaves the version, and issues one write with EXCHANGE_FAILED to follow. -/
theorem failTake_eq (k : Slot) (generation : Word) (stage : FailedStage) (line : Word) (s : State) :
    failTake k generation stage line s = { s with
      stories := s.stories.set k { s.story k with done := generation, result := 2 }
      writes := s.writes ++ [⟨s.nextTag, .storyFields k, s.entryAddress k 48,
        wordBytes (natWord (s.story k).side.code) ++ wordBytes generation ++ wordBytes 2,
        some ⟨13, .exchangeFailed, slotWord k, natWord stage.code, line, (s.story k).storyId⟩⟩]
      nextTag := s.nextTag + 1 } := by
  unfold failTake writeStoryFields
  dsimp only
  rw [State.story_modStory_self]
  rfl

/-! ### A direct take (R63) -/

theorem raiseIf_keeps (b : Bool) (r : Report) : Keeps { reports := true } fun s => if b then raise r s else s :=
  ⟨fun s => by
    cases b
    · rfl
    · exact (raise_keeps r).on s⟩

/-- What a flip makes of a state that differs from `s` in the reports and the takes in progress alone. -/
theorem flip_ends {s u : State} {k : Slot} {generation : Word} {address : Addr} {count : Nat}
    (stories : u.stories = s.stories) (writes : u.writes = s.writes) (area : u.area = s.area) :
    let t := flip k generation address count u
    let flipped := { s.story k with
      side := (s.story k).side.other, address := address, count := count, done := generation, result := 1 }
    t.story k = flipped ∧ (∀ j, j ≠ k → t.story j = s.story j) ∧
    ∃ w, t.writes = s.writes ++ [w] ∧ w.target = .storyFields k ∧ w.address = s.entryAddress k 48 ∧
      w.bytes = wordBytes (natWord flipped.side.code) ++ wordBytes generation ++ wordBytes 1 ∧
      w.report = some ⟨13, .exchangeDone, slotWord k, natWord flipped.side.code, natWord count,
        (s.story k).storyId⟩ := by
  intro t flipped
  have story : ∀ j, u.story j = s.story j := fun j => congrArg (·.get j) stories
  have after : t.stories = s.stories.set k flipped := by
    rw [flip_stories, stories, story k]
    rfl
  obtain ⟨tag, hw⟩ := flip_writes k generation address count u
  rw [writes, story k] at hw
  refine ⟨(congrArg (·.get k) after).trans (Bank.get_set_self ..),
    fun j h => (congrArg (·.get j) after).trans (Bank.get_set_ne _ _ h), _, hw, rfl, ?_, rfl, rfl⟩
  show u.entryAddress k 48 = _
  unfold State.entryAddress State.areaAddress
  rw [area]

/-- Settles O55: the three outcomes of the version read, by its result and the check. -/
theorem directTakesEnd : Obligations.DirectTakesEnd := by
  unfold Obligations.DirectTakesEnd
  intro tag s x found k st rest
  have ended : ∀ r, exec (.directTakeReadDone tag r) s = .next (endDirectTake tag r s) := fun _ => rfl
  refine ⟨fun bytes allowed => ?_, fun bytes refused => ?_, ?_⟩
  case refine_1 =>
    intro address count flipped
    let v := takeVersion (rawVersion bytes)
    let report := nullBlock k (rest.story k).side.other (rawVersion bytes).count (rest.story k).storyId
    let u := if v.nullBlock then raise report rest else rest
    have keeps : Keeps { reports := true } fun s => if v.nullBlock then raise report s else s := raiseIf_keeps ..
    have e : endDirectTake tag (.data bytes) s = flip k x.generation address count u := by
      have ha : v.address = address := takeVersion_address _
      have hc : v.count = count := takeVersion_count _
      unfold endDirectTake
      rw [found, ← ha, ← hc]
      exact if_pos allowed
    obtain ⟨mine, others, w, hw, target, place, bytes', report'⟩ := flip_ends (s := s) (u := u) (k := k)
      (generation := x.generation) (address := address) (count := count)
      (keeps.stories rest) (keeps.writes rest) (keeps.area rest)
    exact ⟨_, w, (ended _).trans (congrArg _ e), mine, others, (flip_without ..).1, hw, target, place, bytes', report',
      ((flip_keeps ..).exchange _).trans (keeps.exchange rest),
      ((flip_keeps ..).channels _).trans (keeps.channels rest),
      ((flip_keeps ..).rundown _).trans (keeps.rundown rest)⟩
  case refine_2 =>
    rw [ended]
    unfold endDirectTake
    rw [found]
    exact congrArg _ (if_neg (by rw [refused]; decide))
  case refine_3 =>
    rw [ended]
    unfold endDirectTake
    rw [found]
    exact congrArg _ (failTake_eq ..)

end Sys2Proof.Machine
end

section
/-! PROOFS. The full take (R2, R90, R152): what each block holds when it has been made. -/

namespace Sys2Proof.Machine

/-! ### The story shadow (R2) -/

theorem adoptStories_stories (d : FullTakeData) (s : State) :
    (adoptStories d s).stories = Bank.ofFn fun k => (adoptedStory (entryRead d k)).1 := by
  have one : ∀ k, Keeps { reports := true } (raiseAdopted d k) := fun k => raiseIf_keeps ..
  unfold adoptStories
  rw [(Keeps.forEach one _).stories]

theorem adoptRundown_rundown (bytes : List Byte) (s : State) : (adoptRundown bytes s).rundown =
    ⟨(headerList bytes (selectorOf (word bytes 8))).kept, selectorOf (word bytes 8), word bytes 0, word bytes 4⟩ := by
  unfold adoptRundown
  rw [(raiseDuplicates_keeps ..).rundown]

/-- Each field of an adopted story, from the entry's bytes (R2, R9, R176). -/
theorem adoptedStory_fields (e : List Byte) : let st := (adoptedStory e).1
    st.present = (byteAt e 0 != 0) ∧ st.ready = (byteAt e 1 != 0) ∧
    st.mask = (byteAt e 2).setWidth 4 ∧ st.storyId = word e 4 ∧ st.request = word e 8 ∧
    st.mode = (if word e 12 = 1 then .now else .clear) ∧
    (word e 48 = 0 → st.side = .a) ∧ (word e 48 = 1 → st.side = .b) ∧
    st.done = word e 52 ∧ st.result = word e 56 ∧
    st.address = takenAddress (rawVersion (versionBytes e st.side)).address ∧
    st.count = if st.address = 0 then 0 else min (rawVersion (versionBytes e st.side)).count.toNat 4096 := by
  intro st
  have address : st.address = takenAddress (rawVersion (versionBytes e st.side)).address := takeVersion_address _
  refine ⟨rfl, rfl, (BitVec.setWidth_eq_extractLsb' (by decide)).symm, rfl, rfl, rfl, fun h => ?_, fun h => ?_, rfl, rfl, address, ?_⟩
  · show sideOf _ = _
    rw [h]
    rfl
  · show sideOf _ = _
    rw [h]
    rfl
  · rw [address]
    exact takeVersion_count _

/-! ### The state before STARTED is posted -/

/-- The full take but for its last post. -/
def fullTaken (d : FullTakeData) (s : State) : State :=
  let t := adoptRundown d.rundown (adoptStories d s)
  { t with
    fetch := t.fetch.invalidate (versionChanged s.stories t.stories)
    area := { t.area with
      commandDone := Bank.ofFn fun n => commandDoneOf (d.slots.getD n.val [])
      engine := .running
      start := none }
    timebase := { t.timebase with announceLock := t.timebase.lock == .locked } }

theorem completeFullTake_eq (d : FullTakeData) (s : State) :
    completeFullTake d s = raise (startedReport (fullTaken d s)) (fullTaken d s) := rfl

/-- The full take replaces two shadows and the done generations, invalidates what has changed, and enters RUNNING; but
for its posts it changes nothing else. -/
theorem fullTaken_eq (d : FullTakeData) (s : State) : fullTaken d s = { s with
    stories := Bank.ofFn fun k => (adoptedStory (entryRead d k)).1
    rundown := ⟨(headerList d.rundown (selectorOf (word d.rundown 8))).kept, selectorOf (word d.rundown 8),
      word d.rundown 0, word d.rundown 4⟩
    fetch := s.fetch.invalidate
      (versionChanged s.stories (Bank.ofFn fun k => (adoptedStory (entryRead d k)).1))
    area := { s.area with
      commandDone := Bank.ofFn fun n => commandDoneOf (d.slots.getD n.val [])
      engine := .running
      start := none }
    timebase := { s.timebase with announceLock := s.timebase.lock == .locked }
    reports := (fullTaken d s).reports } := by
  have keeps := ((adoptRundown_keeps d.rundown).on (G := { stories := true, rundown := true, reports := true })
    (adoptStories d s)).trans ((adoptStories_keeps d).on s)
  have rundown := adoptRundown_rundown d.rundown (adoptStories d s)
  have stories : (adoptRundown d.rundown (adoptStories d s)).stories = _ :=
    ((adoptRundown_keeps _).stories _).trans (adoptStories_stories d s)
  have e := mask_eq keeps
  unfold fullTaken
  generalize adoptRundown d.rundown (adoptStories d s) = t at e rundown stories ⊢
  rw [stories, rundown] at e
  rw [e]
  rfl

theorem raiseAdopted_posts (d : FullTakeData) (k : Slot) (s : State) : Posts s (raiseAdopted d k s) := by
  unfold raiseAdopted
  dsimp only
  split
  · exact raise_posts ..
  · exact Posts.refl s

theorem raiseDuplicates_posts (list : Side) (t : TakenList) (s : State) : Posts s (raiseDuplicates list t s) := by
  unfold raiseDuplicates
  split
  · exact Posts.refl s
  · exact raise_posts ..

theorem fullTaken_posts (d : FullTakeData) (s : State) : Posts s (fullTaken d s) := by
  have stories : Posts s (adoptStories d s) := (forEach_posts (raiseAdopted_posts d) _ _).after rfl
  have rundown : Posts (adoptStories d s) (adoptRundown d.rundown (adoptStories d s)) :=
    (raiseDuplicates_posts ..).after rfl
  exact stories.trans (rundown.trans (Posts.of_eq rfl))

/-- The last report raised, when no report was dropped, stands at the end of the Post Queue. -/
theorem raise_last {s u : State} {r : Report} (before : Posts s u) (run : u.engine ≠ .halted)
    (room : s.reports.dropped < 65535) (same : (raise r u).reports.dropped = s.reports.dropped) :
    (raise r u).reports.queue.getLast? = some ⟨r, u.frame⟩ := by
  obtain ⟨halted, -⟩ | ⟨-, -, e⟩ | ⟨-, -, e⟩ := raise_cases r u
  · exact absurd halted run
  · rw [e]
    exact List.getLast?_concat
  · have grown : s.reports.dropped ≤ u.reports.dropped := before.2.1 room.le
    have counted : min (u.reports.dropped + 1) 65535 = s.reports.dropped := by rw [e] at same; exact same
    omega

/-! ### The Line Cache (R90) -/

/-- An entry that is not FILLING stands through an invalidation, unless its story is chosen. -/
theorem Place.invalidate_settled (chosen : Slot → Bool) {e : CacheEntry} (settled : e.state ≠ .filling) :
    (Place.held e).invalidate chosen true = if chosen e.slot then .free else .held e := by
  show (if chosen e.slot then _ else _) = _
  split
  · split
    · exact absurd ‹_› settled
    · rfl
    · rfl
  · rfl

theorem versionChanged_iff (before after : Bank 256 Story) (k : Slot) : versionChanged before after k = false ↔
    (after.get k).side = (before.get k).side ∧ (after.get k).address = (before.get k).address ∧
      (after.get k).count = (before.get k).count := by
  simp only [versionChanged, Bool.or_eq_false_iff, bne_eq_false_iff_eq, and_assoc]
  rw [eq_comm, eq_comm (a := (before.get k).address), eq_comm (a := (before.get k).count)]

/-- Settles O25: the state before the last post is known block by block, and the post touches the reports alone. -/
theorem fullTakeAdoptsTheArea : Obligations.FullTakeAdoptsTheArea := by
  unfold Obligations.FullTakeAdoptsTheArea
  intro tag d s g step mine
  let u := fullTaken d s
  let t := raise (startedReport u) u
  have eu : u = _ := fullTaken_eq d s
  have done : fullTakeDone tag d s = t := by
    unfold fullTakeDone
    rw [step]
    exact if_pos mine
  have area : t.area = u.area := (raise_keeps _).area u
  have stories : t.stories = u.stories := (raise_keeps _).stories u
  have rundown : t.rundown = u.rundown := (raise_keeps _).rundown u
  have fetch : t.fetch = u.fetch := (raise_keeps _).fetch u
  have story : ∀ k, t.story k = (adoptedStory (entryRead d k)).1 := fun k => by
    unfold State.story
    rw [stories, eu]
    exact Bank.get_ofFn ..
  refine ⟨t, congrArg _ done, ?_, ?_, fun k => ?_, ?_, ?_, ?_, ?_, fun n => ?_, fun i e held settled => ?_, ?_,
    fun _ room same => ?_⟩
  case refine_1 => unfold State.engine; rw [area, eu]
  case refine_2 => rw [area, eu]
  case refine_3 =>
    intro e
    dsimp only
    rw [story k]
    exact adoptedStory_fields e
  case refine_4 => rw [rundown, eu]; rfl
  case refine_5 => rw [rundown, eu]
  case refine_6 => rw [rundown, eu]
  case refine_7 => rw [rundown, eu]
  case refine_8 => rw [area, eu]; exact Bank.get_ofFn ..
  case refine_9 =>
    have place : t.fetch.cache.get i =
        (s.fetch.cache.get i).invalidate (versionChanged s.stories t.stories) true := by
      rw [fetch, stories, eu]
      exact Bank.get_map ..
    rw [place, held, Place.invalidate_settled _ settled]
    have changed := versionChanged_iff s.stories t.stories e.slot
    cases hc : versionChanged s.stories t.stories e.slot with
    | false => exact (if_pos (changed.1 hc)).symm
    | true => exact (if_neg fun same => by rw [changed.2 same] at hc; cases hc).symm
  case refine_10 =>
    have timebase : t.timebase = { s.timebase with announceLock := s.timebase.lock == .locked } := by
      rw [(raise_keeps _).timebase u, eu]
    rw [← timebase, ← done]
    exact mask_eq ((fullTakeDone_keeps tag d).same s)
  case refine_11 =>
    have running : u.engine ≠ .halted := by unfold State.engine; rw [eu]; exact EngineState.noConfusion
    have frame : u.frame = s.frame := by rw [eu]; rfl
    have glyphs : u.glyphs = s.glyphs := by rw [eu]
    rw [raise_last (fullTaken_posts d s) running room same, frame, rundown]
    unfold startedReport
    rw [glyphs]
    rfl

end Sys2Proof.Machine
end

section
/-! PROOFS. The completion of a frame scan (R156): the shadows after step 1, a command slot's effect on the Area Port
(R159), and the command that each code names (R160). -/

namespace Sys2Proof.Machine

/-! ### The shadows (R3, R6, R12) -/

/-- The story entries that failed raise one report, or none. -/
theorem raiseEntryFaults_raises (d : ScanData) (s : State) :
    raiseEntryFaults d s = s ∨ ∃ r, raiseEntryFaults d s = raise r s := by
  unfold raiseEntryFaults
  split
  · exact .inl rfl
  · exact .inr ⟨_, rfl⟩

theorem raiseEntryFaults_keeps (d : ScanData) : Keeps { reports := true } (raiseEntryFaults d) := by
  refine ⟨fun s => ?_⟩
  obtain e | ⟨r, e⟩ := raiseEntryFaults_raises d s <;> rw [e]
  exact (raise_keeps r).on s

theorem rescanRundown_keeps (d : ScanData) : Keeps { rundown := true, reports := true } (rescanRundown d) := by
  refine ⟨fun s => ?_⟩
  unfold rescanRundown
  split
  · rfl
  · exact (raise_keeps _).on s

theorem rescanShadows_story (d : ScanData) (s : State) (k : Slot) :
    (rescanShadows d s).story k = rescannedStory d k (s.story k) := by
  unfold rescanShadows State.story
  rw [(raiseEntryFaults_keeps d).stories, (rescanRundown_keeps d).stories]
  exact Bank.get_ofFn ..

/-- The rundown request generation enters the shadow (R3). -/
theorem rescanShadows_rundown {d : ScanData} {bytes : List Byte} (s : State) (read : d.rundownRequest = .data bytes) :
    (rescanShadows d s).rundown = { s.rundown with request := word bytes 0 } := by
  unfold rescanShadows
  rw [(raiseEntryFaults_keeps d).rundown]
  unfold rescanRundown
  rw [read]

/-- A failed read leaves the rundown shadow (R6). -/
theorem rescanShadows_rundown_failed {d : ScanData} (s : State) (failed : d.rundownRequest = .busError) :
    (rescanShadows d s).rundown = s.rundown := by
  unfold rescanShadows
  rw [(raiseEntryFaults_keeps d).rundown]
  unfold rescanRundown
  rw [failed]
  exact (raise_keeps _).rundown _

/-- The posts of step 1 touch no class of the Report Unit. -/
theorem rescanShadows_classes (d : ScanData) (s : State) :
    (rescanShadows d s).reports.causes = s.reports.causes ∧
    (rescanShadows d s).reports.postponed = s.reports.postponed := by
  have raised : ∀ r (w : State), (raise r w).reports.causes = w.reports.causes ∧
      (raise r w).reports.postponed = w.reports.postponed := fun r w => by
    rw [raise_reports]
    exact ⟨rfl, rfl⟩
  have faults : ∀ w : State, (raiseEntryFaults d w).reports.causes = w.reports.causes ∧
      (raiseEntryFaults d w).reports.postponed = w.reports.postponed := fun w => by
    obtain e | ⟨r, e⟩ := raiseEntryFaults_raises d w <;> rw [e]
    · exact ⟨rfl, rfl⟩
    · exact raised r w
  unfold rescanShadows
  refine ⟨(faults _).1.trans ?_, (faults _).2.trans ?_⟩ <;> unfold rescanRundown <;> split
  · rfl
  · exact (raised _ _).1
  · rfl
  · exact (raised _ _).2

/-- A scan takes six fields of a story entry that it reads (R3). -/
theorem scannedStory_eq (e : List Byte) (old : Story) : scannedStory e old = { old with
    present := byteAt e 0 != 0, ready := byteAt e 1 != 0, mask := (byteAt e 2).setWidth 4
    storyId := word e 4, request := word e 8
    mode := if word e 12 = 1 then .now else .clear } := by
  unfold scannedStory
  rw [BitVec.setWidth_eq_extractLsb' (by decide)]
  rfl

theorem scanEntry_of_get {d : ScanData} {k : Slot} {r : ReadResult} (h : d.entries[k.val]? = some r) :
    scanEntry d k = r := by
  unfold scanEntry
  rw [List.getD_eq_getElem?_getD, h]
  rfl

/-! ### The command slots (R159, R160) -/

/-- In RUNNING a slot's done generation becomes the request read, and nothing else of the Area Port changes. -/
theorem runSlot_area (n : CmdSlot) (bytes : List Byte) {s : State} (run : s.engine = .running) :
    (runSlot n bytes s).area =
      { s.area with commandDone := s.area.commandDone.set n (word bytes 0) } := by
  let x := commandOf bytes
  show (runCommand n x.request x.code (commandAct x) s).area = _
  obtain ⟨-, -, e⟩ | ⟨stale, e⟩ := runCommand_cases n x.request x.code (commandAct x) s
  · have same : ((commandAct x s).2).area = s.area := Keeps.area (commandAct_keeps x) s
    rw [e]
    unfold answerCommand
    rw [(issueWrite_keeps ..).area]
    dsimp only
    rw [same]
    rfl
  · have done : s.area.commandDone.get n = word bytes 0 := stale.resolve_left fun h => h run
    rw [e, ← done, Bank.set_get]

theorem runSlot_engine (n : CmdSlot) (bytes : List Byte) {s : State} (run : s.engine = .running) :
    (runSlot n bytes s).engine = .running :=
  (congrArg Area.engine (runSlot_area n bytes run)).trans run

theorem rescanCommands_eq (d : ScanData) (s : State) : rescanCommands d s =
    runSlot 3 (d.slots.getD 3 []) (runSlot 2 (d.slots.getD 2 []) (runSlot 1 (d.slots.getD 1 [])
      (runSlot 0 (d.slots.getD 0 []) s))) := rfl

/-- The four slots of a scan change the done generations of the Area Port alone. -/
theorem rescanCommands_area (d : ScanData) {s : State} (run : s.engine = .running) :
    (rescanCommands d s).area = { s.area with
      commandDone := Bank.ofFn fun n : CmdSlot => word (d.slots.getD n.val []) 0 } := by
  have run₁ := runSlot_engine 0 (d.slots.getD 0 []) run
  have run₂ := runSlot_engine 1 (d.slots.getD 1 []) run₁
  have run₃ := runSlot_engine 2 (d.slots.getD 2 []) run₂
  have all : (((s.area.commandDone.set 0 (word (d.slots.getD 0 []) 0)).set 1 (word (d.slots.getD 1 []) 0)).set 2
      (word (d.slots.getD 2 []) 0)).set 3 (word (d.slots.getD 3 []) 0) =
      Bank.ofFn fun n : CmdSlot => word (d.slots.getD n.val []) 0 :=
    Bank.ext_get fun n => by fin_cases n <;> simp [Bank.get_set]
  rw [rescanCommands_eq, runSlot_area _ _ run₃, runSlot_area _ _ run₂, runSlot_area _ _ run₁, runSlot_area _ _ run,
    ← all]

/-- A slot's execution is the command that its code names, on the slot's operands (R160). -/
theorem runSlot_eq (n : CmdSlot) (bytes : List Byte) (s : State) : runSlot n bytes s =
    runCommand n (word bytes 0) (word bytes 4) (commandAct (commandOf bytes)) s := rfl

theorem commandAct_unknown {x : Command} (h : x.code.toNat = 0 ∨ 7 < x.code.toNat) :
    commandAct x = refuse .unknown := by
  have ne : ∀ i : Word, 0 < i.toNat → i.toNat ≤ 7 → x.code ≠ i := by
    rintro i low high rfl
    omega
  unfold commandAct
  rw [if_neg (ne 1 (by decide) (by decide)), if_neg (ne 2 (by decide) (by decide)),
    if_neg (ne 3 (by decide) (by decide)), if_neg (ne 4 (by decide) (by decide)),
    if_neg (ne 5 (by decide) (by decide)), if_neg (ne 6 (by decide) (by decide)),
    if_neg (ne 7 (by decide) (by decide))]

/-- Each code of a slot runs as the row of its command does. -/
theorem runSlot_rows (n : CmdSlot) (bytes : List Byte) (x : State) :
    let request := word bytes 0
    let code := word bytes 4
    let (a, b, c) := (word bytes 8, word bytes 12, word bytes 16)
    let runs := fun i : Instr => exec i x = .next (runSlot n bytes x)
    (code = 1 → runs (.jump n request a b c)) ∧ (code = 2 → runs (.nudge n request a b)) ∧
    (code = 3 → runs (.setDemand n request a b)) ∧ (code = 4 → runs (.go n request a)) ∧
    (code = 5 → runs (.freeze n request a b)) ∧ (code = 6 → runs (.headBlank n request a b)) ∧
    (code = 7 → runs (.refreshStory n request a)) ∧
    (code.toNat = 0 ∨ 7 < code.toNat → runs (.unknownCommand n request code)) := by
  have named : ∀ {code : Word} {act}, word bytes 4 = code → commandAct (commandOf bytes) = act →
      runSlot n bytes x = runCommand n (word bytes 0) code act x := by
    rintro _ _ rfl rfl
    rfl
  have act : ∀ {code : Word}, word bytes 4 = code → (commandOf bytes).code = code := fun h => h
  refine ⟨fun h => ?_, fun h => ?_, fun h => ?_, fun h => ?_, fun h => ?_, fun h => ?_, fun h => ?_, fun h => ?_⟩
  case refine_8 => exact congrArg _ (named rfl (commandAct_unknown h)).symm
  all_goals
    refine congrArg Host.Outcome.next (named h ?_).symm
    unfold commandAct
    rw [act h]
    rfl

/-! ### The completion (R156) -/

/-- Settles O48: `u` is the state after step 1, `v` that after the settings, and `t` that after the four slots. -/
theorem scanCompletionTakesTheArea : Obligations.ScanCompletionTakesTheArea := by
  unfold Obligations.ScanCompletionTakesTheArea
  intro tag d s sc scan mine run slot
  let u := rescanShadows d s
  let v := rescanSettings d u
  let t := endScan (rescanCommands d v)
  have uarea : u.area = s.area := (rescanShadows_keeps d).area s
  have urun : u.engine = .running := (congrArg Area.engine uarea).trans run
  have varea : ∃ g, v.area = { s.area with takenGeneration := g } := by
    show ∃ g, (rescanSettings d u).area = _
    unfold rescanSettings
    split
    · exact ⟨_, uarea⟩
    · rw [settingsTake_area, uarea]
      exact ⟨_, rfl⟩
  obtain ⟨taken, varea⟩ := varea
  have vrun : v.engine = .running := (congrArg Area.engine varea).trans run
  have carea := rescanCommands_area d vrun
  have tarea : t.area = { v.area with
      scan := none, commandDone := Bank.ofFn fun n : CmdSlot => word (d.slots.getD n.val []) 0 } :=
    congrArg (fun a : Area => { a with scan := none }) carea
  have stories : t.stories = u.stories :=
    (endScan_keeps.stories _).trans (((rescanCommands_keeps d).stories v).trans ((rescanSettings_keeps d).stories u))
  have rundown : t.rundown = u.rundown :=
    (endScan_keeps.rundown _).trans (((rescanCommands_keeps d).rundown v).trans ((rescanSettings_keeps d).rundown u))
  have reports : t.reports = v.reports :=
    (endScan_keeps.reports _).trans ((rescanCommands_keeps d).reports v)
  have frame : t.frame = v.frame := congrArg Timebase.frameCounter
    ((endScan_keeps.timebase _).trans ((rescanCommands_keeps d).timebase v))
  have story : ∀ k, t.story k = rescannedStory d k (s.story k) := fun k => by
    unfold State.story
    rw [stories]
    exact rescanShadows_story d s k
  obtain ⟨posts₁, frame₁, entries, request, length⟩ := rescanShadows_posts d s run
  obtain ⟨posts₂, frame₂, settings⟩ := rescanSettings_posts d u urun
  have posts₃ : Posts v t := Posts.of_eq reports
  have tframe : t.frame = s.frame := frame.trans (frame₂.trans frame₁)
  refine ⟨u, v, t, ?_, ?_, ?_, fun k e read => ?_, fun k failed => ?_, fun bytes read => ?_, fun failed => ?_, ?_, ?_,
    ?_, stories.symm, rundown.symm, fun k rest failed => ?_, fun failed => request failed t (posts₂.trans posts₃) tframe,
    ?_, fun same => if_pos (same.trans (congrArg Area.takenGeneration uarea.symm)), fun differs => ?_, ?_, reports,
    congrArg endScan (rescanCommands_eq d v), runSlot_rows, ?_, ?_, fun n => ?_, ?_, ?_, tframe⟩
  case refine_1 =>
    have : scanIs tag s = true := by simp [scanIs, scan, mine]
    exact congrArg Host.Outcome.next (if_pos this)
  case refine_2 => rw [tarea]
  case refine_3 => exact (congrArg Area.engine tarea).trans vrun
  case refine_4 => rw [story, rescannedStory, scanEntry_of_get read]; exact scannedStory_eq ..
  case refine_5 => rw [story, rescannedStory, scanEntry_of_get failed]
  case refine_6 => exact rundown.trans (rescanShadows_rundown s read)
  case refine_7 => exact rundown.trans (rescanShadows_rundown_failed s failed)
  case refine_8 => exact mask_eq ((rescanShadows_keeps d).same s)
  case refine_9 => exact (rescanShadows_classes d s).1
  case refine_10 => exact (rescanShadows_classes d s).2
  case refine_11 =>
    rw [← failedEntries_eq d] at failed ⊢
    exact entries k rest failed t (posts₂.trans posts₃) tframe
  case refine_12 => rw [← failedEntries_eq d]; exact length
  case refine_13 =>
    have differs : word d.settingsGeneration 0 ≠ u.area.takenGeneration := by rw [uarea]; exact differs
    have ev : v = settingsTake d.settingsBlock false u := if_neg differs
    obtain ⟨writes, nextTag⟩ := settingsTake_writes d.settingsBlock false u
    have keeps := settingsTake_keeps d.settingsBlock false
    refine ⟨?_, ?_, ?_, ?_, ?_, ?_, ?_, posted_between posts₁ (settings differs) posts₂ posts₃ frame⟩
    · rw [ev]; exact settingsTake_acted ..
    · rw [ev]; exact settingsTake_settings ..
    · exact congrArg Area.takenGeneration ((congrArg State.area ev).trans (settingsTake_area ..))
    · rw [ev, writes, (rescanShadows_keeps d).writes, (rescanShadows_keeps d).nextTag, uarea]
    · rw [ev, nextTag, (rescanShadows_keeps d).nextTag]
    · rw [ev, keeps.fetch, (rescanShadows_keeps d).fetch]
    · rw [ev, keeps.heads, (rescanShadows_keeps d).heads]
  case refine_14 =>
    obtain ⟨answers, writes, targets⟩ := rescanCommands_writes d v
    exact ⟨answers, (endScan_keeps.writes _).trans writes, targets⟩
  case refine_15 => exact (endScan_keeps.settings _).trans ((rescanCommands_keeps d).settings v)
  case refine_16 => rw [tarea]
  case refine_17 => rw [tarea]; exact Bank.get_ofFn ..
  case refine_18 => rw [tarea, varea]
  case refine_19 =>
    rw [(endScan_keeps.glyphs _), (rescanCommands_keeps d).glyphs, (rescanSettings_keeps d).glyphs,
      (rescanShadows_keeps d).glyphs]

end Sys2Proof.Machine
end

section
/-! PROOFS. What a channel needs (R77), the order of ranks (R78), and one issue (R82). -/

namespace Sys2Proof.Machine

/-! ### The first of each line (R78) -/

/-- Two needs are of one line. -/
def Need.SameLine (m n : Need) : Prop := m.slot = n.slot ∧ m.line = n.line

theorem firstOfEachLine_append (xs ys : List Need) : firstOfEachLine (xs ++ ys) =
    ys.foldl (fun acc n =>
      if acc.any (fun m => m.slot == n.slot && m.line == n.line) then acc else acc ++ [n]) (firstOfEachLine xs) :=
  List.foldl_append

/-- A need is left out when one of its line stands already, and else joins at the end. -/
theorem firstOfEachLine_concat (xs : List Need) (n : Need) :
    ((∃ m ∈ firstOfEachLine xs, m.SameLine n) ∧ firstOfEachLine (xs ++ [n]) = firstOfEachLine xs) ∨
    ((∀ m ∈ firstOfEachLine xs, ¬ m.SameLine n) ∧ firstOfEachLine (xs ++ [n]) = firstOfEachLine xs ++ [n]) := by
  rw [firstOfEachLine_append, List.foldl_cons, List.foldl_nil]
  by_cases h : (firstOfEachLine xs).any fun m => m.slot == n.slot && m.line == n.line
  · exact .inl ⟨by simpa [Need.SameLine] using h, if_pos h⟩
  · exact .inr ⟨by simpa [Need.SameLine] using h, if_neg h⟩

/-- Each line stands once. -/
theorem firstOfEachLine_pairwise (xs : List Need) :
    (firstOfEachLine xs).Pairwise fun m n => m.slot ≠ n.slot ∨ m.line ≠ n.line := by
  induction xs using List.reverseRecOn with
  | nil => exact List.Pairwise.nil
  | append_singleton xs n ih =>
    obtain ⟨-, e⟩ | ⟨new, e⟩ := firstOfEachLine_concat xs n <;> rw [e]
    · exact ih
    · refine List.pairwise_append.2 ⟨ih, List.pairwise_singleton .., fun m hm k hk => ?_⟩
      rw [List.mem_singleton.1 hk]
      exact not_and_or.1 (new m hm)

theorem firstOfEachLine_subset (xs : List Need) : ∀ n ∈ firstOfEachLine xs, n ∈ xs := by
  induction xs using List.reverseRecOn with
  | nil => exact fun _ h => h
  | append_singleton xs n ih =>
    obtain ⟨-, e⟩ | ⟨-, e⟩ := firstOfEachLine_concat xs n <;> rw [e]
    · exact fun m hm => List.mem_append_left _ (ih m hm)
    · exact fun m hm => List.mem_append.2 ((List.mem_append.1 hm).imp_left (ih m))

/-- Every line stands. -/
theorem firstOfEachLine_covers (xs : List Need) : ∀ n ∈ xs, ∃ m ∈ firstOfEachLine xs, m.SameLine n := by
  induction xs using List.reverseRecOn with
  | nil => exact fun _ h => absurd h List.not_mem_nil
  | append_singleton xs k ih =>
    intro n hn
    obtain ⟨there, e⟩ | ⟨-, e⟩ := firstOfEachLine_concat xs k <;> rw [e]
    · rcases List.mem_append.1 hn with h | h
      · exact ih n h
      · rw [List.mem_singleton.1 h]; exact there
    · rcases List.mem_append.1 hn with h | h
      · obtain ⟨m, hm, same⟩ := ih n h
        exact ⟨m, List.mem_append_left _ hm, same⟩
      · exact ⟨k, List.mem_append_right _ (List.mem_singleton.2 rfl), by rw [List.mem_singleton.1 h]; exact ⟨rfl, rfl⟩⟩

/-- What more needs bring joins at the end. -/
theorem firstOfEachLine_prefix (xs ys : List Need) : firstOfEachLine xs <+: firstOfEachLine (xs ++ ys) := by
  induction ys using List.reverseRecOn with
  | nil => rw [List.append_nil]
  | append_singleton ys n ih =>
    rw [← List.append_assoc]
    obtain ⟨-, e⟩ | ⟨-, e⟩ := firstOfEachLine_concat (xs ++ ys) n <;> rw [e]
    · exact ih
    · exact ih.trans (List.prefix_append ..)

/-- A line of the front part of a list stands with a need of that front part. -/
theorem firstOfEachLine_front {xs : List Need} (ys : List Need) {n : Need} (h : n ∈ xs) :
    ∃ m ∈ firstOfEachLine (xs ++ ys), m ∈ xs ∧ m.SameLine n := by
  obtain ⟨m, hm, same⟩ := firstOfEachLine_covers xs n h
  exact ⟨m, (firstOfEachLine_prefix xs ys).subset hm, firstOfEachLine_subset xs m hm, same⟩

/-! ### What a channel needs (R77) -/

/-- The rows of one class of a channel's need. -/
def rowsOfClass (a extra : Nat) (heads : List HeadSettings) : Nat → List Int
  | 1 => (List.range 33).map fun i : Nat => (a : Int) + i
  | 2 => heads.flatMap fun h => (List.range (h.rows + extra)).map fun i : Nat => (a : Int) - h.readingRow + i
  | 3 => heads.flatMap fun h =>
      (List.range 4).map (fun i : Nat => (a : Int) - h.readingRow - 1 - i)
        ++ (List.range 4).map fun i : Nat => (a : Int) - h.readingRow + h.rows + extra + i
  | _ => []

theorem needRows_eq (a extra : Nat) (heads : List HeadSettings) : needRows a extra heads =
    (rowsOfClass a extra heads 1).map (·, 1) ++ (rowsOfClass a extra heads 2).map (·, 2)
      ++ (rowsOfClass a extra heads 3).map (·, 3) := by
  simp only [needRows, rowsOfClass, bind_pure_comp, List.map_eq_map, List.map_map, List.map_flatMap, List.map_append,
    Function.comp_def]

/-- The need of a row: its line, and the row's rank. -/
theorem needOfRow_eq_some {v : List ViewEntry} {c : Chan} {a : Nat} {row : Int} {cls : Nat} {n : Need} :
    needOfRow v c a (row, cls) = some n ↔ ∃ r : Nat, row = r ∧ anchorAtRow v r = some ⟨n.slot, n.line⟩ ∧
      n.rank = ⟨cls, ((r : Int) - a).natAbs, c, decide (r < a)⟩ := by
  unfold needOfRow anchorAtRow
  by_cases neg : row < 0
  · rw [if_pos neg]
    simp only [reduceCtorEq, false_iff]
    rintro ⟨r, rfl, -⟩
    omega
  · obtain ⟨r, rfl⟩ := Int.eq_ofNat_of_zero_le (not_lt.1 neg)
    rw [if_neg neg]
    obtain ⟨slot, line, rank⟩ := n
    simp only [Option.map_eq_some_iff, Int.toNat_natCast, Need.mk.injEq, Anchor.mk.injEq, Nat.cast_inj,
      exists_eq_left', Nat.cast_lt]
    constructor
    · rintro ⟨x, hx, e1, e2, e3⟩
      exact ⟨⟨x, hx, e1, e2⟩, e3.symm⟩
    · rintro ⟨⟨x, hx, e1, e2⟩, e3⟩
      exact ⟨x, hx, e1, e2, e3.symm⟩

/-- The needs of one class. -/
def needsOfClass (v : List ViewEntry) (c : Chan) (a extra : Nat) (heads : List HeadSettings) (cls : Nat) :
    List Need :=
  ((rowsOfClass a extra heads cls).map (·, cls)).filterMap (needOfRow v c a)

theorem mem_needsOfClass {v : List ViewEntry} {c : Chan} {a extra : Nat} {heads : List HeadSettings} {cls : Nat}
    {n : Need} : n ∈ needsOfClass v c a extra heads cls ↔ ∃ r : Nat, (r : Int) ∈ rowsOfClass a extra heads cls ∧
      anchorAtRow v r = some ⟨n.slot, n.line⟩ ∧ n.rank = ⟨cls, ((r : Int) - a).natAbs, c, decide (r < a)⟩ := by
  simp only [needsOfClass, List.mem_filterMap, List.mem_map]
  constructor
  · rintro ⟨_, ⟨row, mem, rfl⟩, h⟩
    obtain ⟨r, rfl, line, rank⟩ := needOfRow_eq_some.1 h
    exact ⟨r, mem, line, rank⟩
  · rintro ⟨r, mem, line, rank⟩
    exact ⟨_, ⟨r, mem, rfl⟩, needOfRow_eq_some.2 ⟨r, rfl, line, rank⟩⟩

theorem channelNeed_none {s : State} {c : Chan} (h : (s.chan c).pub.mode = .off ∨ (s.chan c).pub.anchor = none) :
    channelNeed s c = [] := by
  unfold channelNeed
  dsimp only
  split
  · rfl
  · rfl
  · rename_i ha mode
    rcases h with h | h
    · exact absurd h mode
    · rw [h] at ha; cases ha

/-- A published anchor in the view gives the needs of the three classes, lowest first. -/
theorem channelNeed_eq {s : State} {c : Chan} {anchor : Anchor} {a : Nat} (mode : (s.chan c).pub.mode ≠ .off)
    (ha : (s.chan c).pub.anchor = some anchor) (row : viewRow (s.chan c).view anchor = some a) :
    let extra := if (s.chan c).pub.fraction = 0 then 0 else 1
    let needs := needsOfClass (s.chan c).view c a extra (s.boundHeads c)
    channelNeed s c = firstOfEachLine (needs 1 ++ needs 2 ++ needs 3) := by
  intro extra needs
  unfold channelNeed
  dsimp only
  split
  · exact absurd ‹_› mode
  · rename_i h _; rw [ha] at h; cases h
  · rename_i hx _
    rw [ha] at hx
    cases hx
    rw [row]
    dsimp only
    rw [needRows_eq, List.filterMap_append, List.filterMap_append]
    rfl

/-! ### Which rows are of which class (R77) -/

theorem mem_boundHeads {s : State} {c : Chan} {h : HeadSettings} :
    h ∈ s.boundHeads c ↔ h ∈ s.settings.heads.items ∧ h.enable = true ∧ h.channel = c := by
  simp [State.boundHeads]

theorem mem_rows_ahead {a extra : Nat} {heads : List HeadSettings} {r : Int} :
    r ∈ rowsOfClass a extra heads 1 ↔ (a : Int) ≤ r ∧ r ≤ a + 32 := by
  simp only [rowsOfClass, List.mem_map, List.mem_range]
  constructor
  · rintro ⟨i, hi, rfl⟩; omega
  · intro h; exact ⟨(r - a).toNat, by omega, by omega⟩

theorem mem_rows_window {a extra : Nat} {heads : List HeadSettings} {r : Int} :
    r ∈ rowsOfClass a extra heads 2 ↔ ∃ h ∈ heads,
      (a : Int) - h.readingRow ≤ r ∧ r < (a : Int) - h.readingRow + h.rows + extra := by
  simp only [rowsOfClass, List.mem_flatMap, List.mem_map, List.mem_range]
  refine exists_congr fun h => and_congr_right fun _ => ⟨?_, fun b => ?_⟩
  · rintro ⟨i, hi, rfl⟩; omega
  · exact ⟨(r - (a - h.readingRow)).toNat, by omega, by omega⟩

theorem mem_rows_margin {a extra : Nat} {heads : List HeadSettings} {r : Int} :
    r ∈ rowsOfClass a extra heads 3 ↔ ∃ h ∈ heads,
      ((a : Int) - h.readingRow - 4 ≤ r ∧ r < (a : Int) - h.readingRow) ∨
      ((a : Int) - h.readingRow + h.rows + extra ≤ r ∧ r < (a : Int) - h.readingRow + h.rows + extra + 4) := by
  simp only [rowsOfClass, List.mem_flatMap, List.mem_append, List.mem_map, List.mem_range]
  refine exists_congr fun h => and_congr_right fun _ => or_congr ⟨?_, fun b => ?_⟩ ⟨?_, fun b => ?_⟩
  · rintro ⟨i, hi, rfl⟩; omega
  · exact ⟨((a : Int) - h.readingRow - 1 - r).toNat, by omega, by omega⟩
  · rintro ⟨i, hi, rfl⟩; omega
  · exact ⟨(r - ((a : Int) - h.readingRow + h.rows + extra)).toNat, by omega, by omega⟩

end Sys2Proof.Machine
end

section
/-! PROOFS. The queue update (R81): the order of the waiting entries, and what each needed line finds after it. -/

namespace Sys2Proof.Machine

/-! ### The order of ranks (R78) -/

theorem Rank.before_iff (a b : Rank) : a.before b = true ↔ a.cls < b.cls ∨ a.cls = b.cls ∧
    (a.distance < b.distance ∨ a.distance = b.distance ∧
      (a.channel < b.channel ∨ a.channel = b.channel ∧ (a.behind = false ∧ b.behind = true))) := by
  unfold Rank.before
  split_ifs <;> simp_all

/-- Where `a` stands before `b`, and `c` not before `b`, `c` does not stand before `a`. -/
theorem Rank.before_trans {a b c : Rank} (ab : a.before b = true) (cb : c.before b = false) :
    c.before a = false := by
  rw [Bool.eq_false_iff, ne_eq, Rank.before_iff] at cb ⊢
  rw [Rank.before_iff] at ab
  grind

theorem Rank.before_asymm {a b : Rank} (ab : a.before b = true) : b.before a = false := by
  rw [Bool.eq_false_iff, ne_eq, Rank.before_iff]
  rw [Rank.before_iff] at ab
  grind

/-! ### Inserting by rank -/

/-- Entries stand in order of rank. -/
def InOrder (ws : List QueueEntry) : Prop := ws.Pairwise fun p q => q.rank.before p.rank = false

theorem mem_insertEntry (e p : QueueEntry) (ws : List QueueEntry) : p ∈ insertEntry e ws ↔ p = e ∨ p ∈ ws := by
  induction ws with
  | nil => simp [insertEntry]
  | cons w ws ih =>
    unfold insertEntry
    split
    · simp
    · rw [List.mem_cons, ih, List.mem_cons, or_left_comm]

theorem insertEntry_length (e : QueueEntry) (ws : List QueueEntry) : (insertEntry e ws).length = ws.length + 1 := by
  induction ws with
  | nil => rfl
  | cons w ws ih =>
    unfold insertEntry
    split
    · rfl
    · rw [List.length_cons, ih, List.length_cons]

theorem insertEntry_inOrder (e : QueueEntry) {ws : List QueueEntry} (h : InOrder ws) : InOrder (insertEntry e ws) := by
  induction ws with
  | nil => exact List.pairwise_singleton ..
  | cons w ws ih =>
    obtain ⟨first, rest⟩ := List.pairwise_cons.1 h
    unfold insertEntry
    split
    · rename_i before
      refine List.pairwise_cons.2 ⟨fun p hp => ?_, h⟩
      rcases List.mem_cons.1 hp with rfl | hp
      · exact Rank.before_asymm before
      · exact Rank.before_trans before (first p hp)
    · rename_i after
      refine List.pairwise_cons.2 ⟨fun p hp => ?_, ih rest⟩
      rcases (mem_insertEntry e p ws).1 hp with rfl | hp
      · exact Bool.eq_false_iff.2 after
      · exact first p hp

/-! ### Displacing (R81 step 3) -/

theorem displace_none {ws : List QueueEntry} (h : displace ws = none) : ∀ q ∈ ws, q.rank.cls ≤ 1 := by
  unfold displace at h
  split at h
  · cases h
  · rename_i none
    intro q hq
    by_contra worse
    exact none (List.any_eq_true.2 ⟨q, hq, by simpa using worse⟩)

/-- What is displaced is one entry, of class 2 or 3. -/
theorem displace_some {ws rest : List QueueEntry} (h : displace ws = some rest) :
    ∃ xs q ys, ws = xs ++ q :: ys ∧ 1 < q.rank.cls ∧ rest = xs ++ ys := by
  unfold displace at h
  split at h
  · rename_i any
    obtain ⟨p, hp, worse⟩ := List.any_eq_true.1 any
    obtain ⟨q, ys, xs, -, hq, e, erased⟩ := List.exists_of_eraseP
      (p := fun q : QueueEntry => decide (1 < q.rank.cls)) (List.mem_reverse.2 hp) worse
    have whole : ws = xs.reverse ++ q :: ys.reverse := by
      rw [← List.reverse_reverse ws, e]
      simp
    refine ⟨xs.reverse, q, ys.reverse, whole, by simpa using hq, ?_⟩
    rw [erased] at h
    simpa using (Option.some.inj h).symm
  · cases h

/-- The entry that a needed line joins the queue with. -/
def Need.entry (n : Need) : QueueEntry := ⟨n.slot, n.line, n.rank, .waiting⟩

/-- A needed line joins while there is room, else it displaces an entry of a worse class when it is of class 1, else it
is left out. -/
theorem insertLine_cases (issued : Nat) (ws : List QueueEntry) (n : Need) :
    (issued + ws.length < 32 ∧ insertLine issued ws n = insertEntry n.entry ws) ∨
    (32 ≤ issued + ws.length ∧ n.rank.cls = 1 ∧ ∃ xs q ys, ws = xs ++ q :: ys ∧ 1 < q.rank.cls ∧
      insertLine issued ws n = insertEntry n.entry (xs ++ ys)) ∨
    (32 ≤ issued + ws.length ∧ (n.rank.cls = 1 → ∀ q ∈ ws, q.rank.cls ≤ 1) ∧ insertLine issued ws n = ws) := by
  by_cases room : issued + ws.length < 32
  · exact .inl ⟨room, if_pos room⟩
  have full : insertLine issued ws n = if n.rank.cls = 1 then
      match displace ws with
      | some rest => insertEntry n.entry rest
      | none => ws
    else ws := if_neg room
  rw [full]
  by_cases first : n.rank.cls = 1
  · rw [if_pos first]
    cases h : displace ws with
    | none => exact .inr (.inr ⟨not_lt.1 room, fun _ => displace_none h, rfl⟩)
    | some rest =>
      obtain ⟨xs, q, ys, e, worse, rfl⟩ := displace_some h
      exact .inr (.inl ⟨not_lt.1 room, first, xs, q, ys, e, worse, rfl⟩)
  · rw [if_neg first]
    exact .inr (.inr ⟨not_lt.1 room, fun h => absurd h first, rfl⟩)

/-! ### What waits (R81) -/

/-- Entries in order of rank, each waiting and needed. -/
structure Waits (needs : List Need) (ws : List QueueEntry) : Prop where
  inOrder : InOrder ws
  waiting : ∀ q ∈ ws, q.isWaiting = true
  needed : ∀ q ∈ ws, ∃ n ∈ needs, n.slot = q.slot ∧ n.line = q.line ∧ n.rank = q.rank

theorem Waits.insert {needs : List Need} {ws : List QueueEntry} (h : Waits needs ws) {e : QueueEntry}
    (waiting : e.isWaiting = true) (needed : ∃ n ∈ needs, n.slot = e.slot ∧ n.line = e.line ∧ n.rank = e.rank) :
    Waits needs (insertEntry e ws) where
  inOrder := insertEntry_inOrder e h.inOrder
  waiting q hq := by
    rcases (mem_insertEntry e q ws).1 hq with rfl | hq
    · exact waiting
    · exact h.waiting q hq
  needed q hq := by
    rcases (mem_insertEntry e q ws).1 hq with rfl | hq
    · exact needed
    · exact h.needed q hq

theorem Waits.remove {needs : List Need} {xs ys : List QueueEntry} {q : QueueEntry}
    (h : Waits needs (xs ++ q :: ys)) : Waits needs (xs ++ ys) := by
  have sub : (xs ++ ys).Sublist (xs ++ q :: ys) := List.Sublist.append_left (List.sublist_cons_self q ys) xs
  exact ⟨h.inOrder.sublist sub, fun p hp => h.waiting p (sub.subset hp), fun p hp => h.needed p (sub.subset hp)⟩

theorem Waits.insertLine {needs : List Need} {ws : List QueueEntry} (h : Waits needs ws) (issued : Nat) {n : Need}
    (hn : n ∈ needs) : Waits needs (insertLine issued ws n) := by
  have joins : ∀ {rest}, Waits needs rest → Waits needs (insertEntry n.entry rest) := fun r =>
    r.insert rfl ⟨n, hn, rfl, rfl, rfl⟩
  obtain ⟨-, e⟩ | ⟨-, -, xs, q, ys, rfl, -, e⟩ | ⟨-, -, e⟩ := insertLine_cases issued ws n <;> rw [e]
  · exact joins h
  · exact joins h.remove
  · exact h

theorem Waits.insertLines {needs : List Need} {ws : List QueueEntry} (h : Waits needs ws) (issued : Nat)
    {ns : List Need} (hn : ∀ n ∈ ns, n ∈ needs) : Waits needs (ns.foldl (Machine.insertLine issued) ws) :=
  List.foldlRecOn (motive := Waits needs) ns _ h fun _ w n mem => w.insertLine issued (hn n mem)

/-- What is kept of the waiting entries is needed, and ranks as the need set ranks it. -/
theorem keptWaiting_waits (needs : List Need) (queue : List QueueEntry) : Waits needs (keptWaiting needs queue) := by
  have nothing : Waits needs [] := ⟨List.Pairwise.nil, by simp, by simp⟩
  refine List.foldlRecOn (motive := Waits needs) _ _ nothing fun ws h q hq => ?_
  obtain ⟨-, waiting⟩ := List.mem_filter.1 hq
  split
  · exact h
  · rename_i n found
    have line : n.slot = q.slot ∧ n.line = q.line := by simpa using List.find?_some found
    exact h.insert waiting ⟨n, List.mem_of_find?_eq_some found, line.1, line.2, rfl⟩

/-! ### What each needed line finds (R81 step 3) -/

/-- A needed line waits with its rank, or the queue is full, and for a line of class 1 with no worse class waiting. -/
def Placed (issued : Nat) (n : Need) (ws : List QueueEntry) : Prop :=
  (∃ q ∈ ws, q.slot = n.slot ∧ q.line = n.line ∧ q.rank = n.rank) ∨
  (32 ≤ issued + ws.length ∧ (n.rank.cls = 1 → ∀ q ∈ ws, q.rank.cls ≤ 1))

/-- A line that is inserted is placed. -/
theorem insertLine_placed (issued : Nat) (ws : List QueueEntry) (n : Need) :
    Placed issued n (insertLine issued ws n) := by
  have joined : ∀ rest, Placed issued n (insertEntry n.entry rest) := fun rest =>
    .inl ⟨n.entry, (mem_insertEntry ..).2 (.inl rfl), rfl, rfl, rfl⟩
  obtain ⟨-, e⟩ | ⟨-, -, xs, q, ys, -, -, e⟩ | ⟨full, best, e⟩ := insertLine_cases issued ws n <;> rw [e]
  · exact joined _
  · exact joined _
  · exact .inr ⟨full, best⟩

/-- A placed line stays placed when another is inserted: only an entry of class 2 or 3 is displaced, in a full queue. -/
theorem Placed.insertLine {issued : Nat} {n : Need} {ws : List QueueEntry} (h : Placed issued n ws) (m : Need) :
    Placed issued n (insertLine issued ws m) := by
  obtain ⟨room, e⟩ | ⟨full, -, xs, q, ys, rfl, worse, e⟩ | ⟨-, -, e⟩ := insertLine_cases issued ws m <;> rw [e]
  · obtain ⟨p, hp, line⟩ | ⟨full, -⟩ := h
    · exact .inl ⟨p, (mem_insertEntry ..).2 (.inr hp), line⟩
    · omega
  · have still : 32 ≤ issued + (insertEntry m.entry (xs ++ ys)).length := by
      rw [insertEntry_length]
      simp only [List.length_append, List.length_cons] at full ⊢
      omega
    obtain ⟨p, hp, slot, line, rank⟩ | ⟨-, best⟩ := h
    · by_cases displaced : p = q
      · refine .inr ⟨still, fun first => ?_⟩
        rw [← rank, displaced] at first
        omega
      · have stays : p ∈ xs ++ ys := by simpa [displaced] using hp
        exact .inl ⟨p, (mem_insertEntry ..).2 (.inr stays), slot, line, rank⟩
    · refine .inr ⟨still, fun first => ?_⟩
      have := best first q (by simp)
      omega
  · exact h

theorem Placed.insertLines {issued : Nat} {n : Need} {ws : List QueueEntry} (h : Placed issued n ws)
    (ns : List Need) : Placed issued n (ns.foldl (Machine.insertLine issued) ws) :=
  List.foldlRecOn (motive := Placed issued n) ns _ h fun _ p m _ => p.insertLine m

theorem insertLines_placed (issued : Nat) (ws : List QueueEntry) {ns : List Need} {n : Need} (hn : n ∈ ns) :
    Placed issued n (ns.foldl (insertLine issued) ws) := by
  obtain ⟨xs, ys, rfl⟩ := List.append_of_mem hn
  rw [List.foldl_append, List.foldl_cons]
  exact (insertLine_placed issued _ n).insertLines ys

/-! ### The update (R81) -/

/-- The need set ranks each line once. -/
theorem needSet_unique {f : Fetch} {m n : Need} (hm : m ∈ f.needSet) (hn : n ∈ f.needSet) (slot : m.slot = n.slot)
    (line : m.line = n.line) : m = n := by
  have once : f.needSet.Pairwise fun m n => m.slot ≠ n.slot ∨ m.line ≠ n.line := firstOfEachLine_pairwise _
  by_contra ne
  have symm : Std.Symm fun m n : Need => m.slot ≠ n.slot ∨ m.line ≠ n.line :=
    ⟨fun _ _ h => h.imp Ne.symm Ne.symm⟩
  rcases List.Pairwise.forall once hm hn ne with h | h
  · exact h slot
  · exact h line

theorem filter_issued_waiting {ws : List QueueEntry} (h : ∀ q ∈ ws, q.isWaiting = true) :
    ws.filter QueueEntry.isIssued = [] :=
  List.filter_eq_nil_iff.2 fun q hq => by simpa [QueueEntry.isWaiting] using h q hq

theorem filter_waiting_issued (queue : List QueueEntry) :
    (queue.filter QueueEntry.isIssued).filter QueueEntry.isWaiting = [] :=
  List.filter_eq_nil_iff.2 fun q hq => by simpa [QueueEntry.isWaiting] using (List.mem_filter.1 hq).2

/-- The queue after an update is the ISSUED entries, and then entries that wait in order of rank; a needed line that is
to be read is in the queue, or the queue is full and, for a line of class 1, no worse class waits. -/
theorem updateQueue_queue (f : Fetch) (lines : Slot → Nat → Bool) (frame : Word) : ∃ ws,
    (f.updateQueue lines frame).queue = f.queue.filter QueueEntry.isIssued ++ ws ∧
    Waits (f.needSet.filter fun n => lines n.slot n.line) ws ∧
    ∀ n ∈ f.needSet, lines n.slot n.line = true → wantsRead f frame n = true →
      (∃ q ∈ f.queue.filter QueueEntry.isIssued, q.slot = n.slot ∧ q.line = n.line) ∨
      Placed (f.queue.filter QueueEntry.isIssued).length n ws := by
  let needs := f.needSet.filter fun n => lines n.slot n.line
  let issued := f.queue.filter QueueEntry.isIssued
  let kept := keptWaiting needs f.queue
  let wanted := needs.filter fun n =>
    wantsRead f frame n && !(issued ++ kept).any (fun q => q.slot == n.slot && q.line == n.line)
  have keeps : Waits needs kept := keptWaiting_waits needs f.queue
  refine ⟨wanted.foldl (insertLine issued.length) kept, rfl,
    keeps.insertLines _ fun n hn => (List.mem_filter.1 hn).1, fun n hn inStory wants => ?_⟩
  have needed : n ∈ needs := List.mem_filter.2 ⟨hn, inStory⟩
  by_cases queued : (issued ++ kept).any (fun q => q.slot == n.slot && q.line == n.line)
  · obtain ⟨q, hq, line⟩ := List.any_eq_true.1 queued
    have line : q.slot = n.slot ∧ q.line = n.line := by simpa using line
    rcases List.mem_append.1 hq with hq | hq
    · exact .inl ⟨q, hq, line⟩
    · obtain ⟨m, hm, slot, index, rank⟩ := keeps.needed q hq
      obtain rfl := needSet_unique (List.mem_filter.1 hm).1 hn (slot.trans line.1) (index.trans line.2)
      have waits : Placed issued.length m kept := .inl ⟨q, hq, line.1, line.2, rank.symm⟩
      exact .inr (waits.insertLines _)
  · have new : n ∈ wanted := List.mem_filter.2 ⟨needed, by simp [wants, queued]⟩
    exact .inr (insertLines_placed _ _ new)

end Sys2Proof.Machine
end

section
/-! PROOFS. The place chosen for a read, one issue (R82), and the Fetch Unit's need, update and issue together. -/

namespace Sys2Proof.Machine

/-! ### The place of a read (R82) -/

/-- The first place of a kind is the lowest of the kind. -/
theorem find?_finRange_lowest {n : Nat} {p : Fin n → Bool} {i : Fin n} (h : (List.finRange n).find? p = some i) :
    ∀ j < i, p j = false := by
  obtain ⟨-, xs, ys, e, none⟩ := List.find?_eq_some_iff_append.1 h
  intro j lt
  have order : (xs ++ i :: ys).Pairwise (· < ·) := e ▸ List.pairwise_lt_finRange n
  have mem : j ∈ xs ++ i :: ys := e ▸ List.mem_finRange j
  rcases List.mem_append.1 mem with hx | hy
  · simpa using none j hx
  · rcases List.mem_cons.1 hy with rfl | hy
    · exact absurd lt (lt_irrefl j)
    · exact absurd lt ((List.rel_of_pairwise_cons (List.pairwise_append.1 order).2.1 hy).asymm)

/-- A place with a failure count holds the line's own FAILED entry, and the count is that entry's. -/
theorem Place.ownFailure_some {k : Slot} {line n : Nat} {p : Place} (h : p.ownFailure k line = some n) :
    ∃ e frame', p = .held e ∧ e.state = .failed frame' ∧ e.slot = k ∧ e.line = line ∧ e.failures = n := by
  unfold Place.ownFailure at h
  split at h
  · split at h
    · split at h
      · rename_i mine
        exact ⟨_, _, rfl, ‹_›, mine.1, mine.2, Option.some.inj h⟩
      · cases h
    · cases h
    · cases h
  · cases h
  · cases h

/-- A place that may be evicted holds an entry that is neither FILLING nor needed. -/
theorem Fetch.evictable_isSome {f : Fetch} {frame : Word} {p : Place} (h : (f.evictable frame p).isSome) :
    ∃ e, p = .held e ∧ e.state ≠ .filling ∧ f.isNeeded e.slot e.line = false := by
  unfold Fetch.evictable at h
  split at h
  · rename_i e
    refine ⟨e, rfl, ?_⟩
    split at h
    · cases h
    · rename_i record settled
      exact ⟨by rw [settled]; exact EntryState.noConfusion, by simpa using h⟩
    · rename_i failed settled
      exact ⟨by rw [settled]; exact EntryState.noConfusion, by simpa using h⟩
  · cases h
  · cases h

theorem Place.isFree_iff (p : Place) : p.isFree = true ↔ p = .free := by cases p <;> simp [Place.isFree]

/-- The place chosen is the line's own FAILED entry, else the lowest free place, else, with none free, one whose entry
is neither FILLING nor needed. -/
theorem Fetch.choosePlace_cases {f : Fetch} {frame : Word} {k : Slot} {line : Nat} {i : Fin 512} {n : Nat}
    (h : f.choosePlace frame k line = some (i, n)) :
    (∃ e, f.cache.get i = .held e ∧ e.state ≠ .filling ∧ e.slot = k ∧ e.line = line ∧ e.failures = n) ∨
    (n = 0 ∧ f.cache.get i = .free ∧ ∀ j < i, f.cache.get j ≠ .free) ∨
    (∃ e, f.cache.get i = .held e ∧ e.state ≠ .filling ∧ n = 0 ∧ f.isNeeded e.slot e.line = false ∧
      ∀ j, f.cache.get j ≠ .free) := by
  unfold Fetch.choosePlace at h
  split at h
  · rename_i j found
    cases h
    have own : ((f.cache.get i).ownFailure k line).isSome = true :=
      List.find?_some (p := fun j => ((f.cache.get j).ownFailure k line).isSome) found
    obtain ⟨n, hn⟩ := Option.isSome_iff_exists.1 own
    obtain ⟨e, frame', place, failed, slot, index, count⟩ := Place.ownFailure_some hn
    exact .inl ⟨e, place, by rw [failed]; exact EntryState.noConfusion, slot, index,
      by simp [hn, count]⟩
  · split at h
    · rename_i j found
      cases h
      have lower := find?_finRange_lowest (p := fun j => (f.cache.get j).isFree) found
      have free : (f.cache.get i).isFree = true := List.find?_some (p := fun j => (f.cache.get j).isFree) found
      refine .inr (.inl ⟨rfl, (Place.isFree_iff _).1 free, fun j lt e => ?_⟩)
      have := lower j lt
      rw [(Place.isFree_iff _).2 e] at this
      cases this
    · rename_i full
      obtain ⟨j, victim, e⟩ := Option.map_eq_some_iff.1 h
      cases e
      obtain ⟨e, place, settled, unneeded⟩ := Fetch.evictable_isSome (victim_evictable victim)
      refine .inr (.inr ⟨e, place, settled, rfl, unneeded, fun j free => ?_⟩)
      exact List.find?_eq_none.1 full j (List.mem_finRange j) ((Place.isFree_iff _).2 free)

/-! ### One issue (R82) -/

theorem issueOne_eq {s : State} {q : QueueEntry} {i : Fin 512} {n : Nat} (run : s.engine = .running)
    (few : s.fetch.issuedCount < 8) (first : s.fetch.queue.find? QueueEntry.isWaiting = some q)
    (place : s.fetch.choosePlace s.frame q.slot q.line = some (i, n)) : issueOne s = some (issueInto q i n s) := by
  unfold issueOne
  rw [if_pos (by simp [State.running, run, few]), first]
  dsimp only
  rw [place]
  rfl

theorem issueOne_none {s : State} (h : s.engine ≠ .running ∨ 8 ≤ s.fetch.issuedCount ∨
    ∀ q ∈ s.fetch.queue, q.isWaiting = false) : issueOne s = none := by
  cases e : issueOne s with
  | none => rfl
  | some t =>
    obtain ⟨run, few, q, -, -, first, -⟩ := issueOne_some e
    rcases h with h | h | h
    · exact absurd run h
    · omega
    · have waiting := List.find?_some first
      rw [h q (List.mem_of_find?_eq_some first)] at waiting
      cases waiting

/-! ### The three parts of the statement -/

/-- The need of a channel with a published anchor in its view (R77). -/
theorem channelNeed_lines {s : State} {c : Chan} {anchor : Anchor} {a : Nat}
    (mode : (s.chan c).pub.mode ≠ .off) (ha : (s.chan c).pub.anchor = some anchor)
    (row : viewRow (s.chan c).view anchor = some a) :
    let view := (s.chan c).view
    let extra : Nat := if (s.chan c).pub.fraction = 0 then 0 else 1
    let rows := fun cls (r : Nat) => (r : Int) ∈ rowsOfClass a extra (s.boundHeads c) cls
    (channelNeed s c).Pairwise (fun m n => m.slot ≠ n.slot ∨ m.line ≠ n.line) ∧
    (∀ (r : Nat) (x : Anchor), anchorAtRow view r = some x → rows 1 r ∨ rows 2 r ∨ rows 3 r →
      ∃ n ∈ channelNeed s c, n.slot = x.slot ∧ n.line = x.line ∧
        (rows 1 r → n.rank.cls = 1) ∧ (rows 2 r → n.rank.cls ≤ 2) ∧ n.rank.cls ≤ 3) ∧
    ∀ n ∈ channelNeed s c, ∃ r : Nat, anchorAtRow view r = some ⟨n.slot, n.line⟩ ∧ n.rank.channel = c ∧
      n.rank.distance = ((r : Int) - a).natAbs ∧ (n.rank.behind = true ↔ r < a) ∧
      ((n.rank.cls = 1 ∧ rows 1 r) ∨ (n.rank.cls = 2 ∧ rows 2 r) ∨ (n.rank.cls = 3 ∧ rows 3 r)) := by
  intro view extra rows
  let needs := needsOfClass view c a extra (s.boundHeads c)
  have e : channelNeed s c = firstOfEachLine (needs 1 ++ needs 2 ++ needs 3) := channelNeed_eq mode ha row
  have cls : ∀ {k n}, n ∈ needs k → n.rank.cls = k := fun h => by
    obtain ⟨r, -, -, rank⟩ := mem_needsOfClass.1 h
    rw [rank]
  rw [e]
  refine ⟨firstOfEachLine_pairwise _, fun r x line any => ?_, fun n hn => ?_⟩
  · have stands : ∀ {k : Nat}, rows k r → (⟨x.slot, x.line, k, ((r : Int) - a).natAbs, c, decide (r < a)⟩ : Need) ∈
        needs k := fun h => mem_needsOfClass.2 ⟨r, h, line, rfl⟩
    by_cases one : rows 1 r
    · obtain ⟨n, hn, mem, same⟩ := firstOfEachLine_front (needs 2 ++ needs 3) (stands one)
      rw [← List.append_assoc] at hn
      exact ⟨n, hn, same.1, same.2, fun _ => cls mem, fun _ => by rw [cls mem]; decide, by rw [cls mem]; decide⟩
    by_cases two : rows 2 r
    · obtain ⟨n, hn, mem, same⟩ := firstOfEachLine_front (needs 3)
        (List.mem_append_right (needs 1) (stands two))
      have : n.rank.cls ≤ 2 := by
        rcases List.mem_append.1 mem with h | h <;> rw [cls h]
        decide
      exact ⟨n, hn, same.1, same.2, fun h => absurd h one, fun _ => this, this.trans (by decide)⟩
    · have three : rows 3 r := (any.resolve_left one).resolve_left two
      obtain ⟨n, hn, same⟩ := firstOfEachLine_covers (needs 1 ++ needs 2 ++ needs 3) _
        (List.mem_append_right _ (stands three))
      have : n.rank.cls ≤ 3 := by
        rcases List.mem_append.1 (firstOfEachLine_subset _ n hn) with h | h
        · rcases List.mem_append.1 h with h | h <;> rw [cls h] <;> decide
        · rw [cls h]
      exact ⟨n, hn, same.1, same.2, fun h => absurd h one, fun h => absurd h two, this⟩
  · have ofClass : ∀ {k}, n ∈ needs k → ∃ r : Nat, anchorAtRow view r = some ⟨n.slot, n.line⟩ ∧ n.rank.channel = c ∧
        n.rank.distance = ((r : Int) - a).natAbs ∧ (n.rank.behind = true ↔ r < a) ∧ n.rank.cls = k ∧ rows k r := by
      intro k h
      obtain ⟨r, mem, line, rank⟩ := mem_needsOfClass.1 h
      refine ⟨r, line, ?_, ?_, ?_, ?_, mem⟩ <;> rw [rank]
      exact decide_eq_true_iff
    rcases List.mem_append.1 (firstOfEachLine_subset _ n hn) with h | h
    · rcases List.mem_append.1 h with h | h
      · obtain ⟨r, line, channel, distance, behind, row⟩ := ofClass h
        exact ⟨r, line, channel, distance, behind, .inl row⟩
      · obtain ⟨r, line, channel, distance, behind, row⟩ := ofClass h
        exact ⟨r, line, channel, distance, behind, .inr (.inl row)⟩
    · obtain ⟨r, line, channel, distance, behind, row⟩ := ofClass h
      exact ⟨r, line, channel, distance, behind, .inr (.inr row)⟩

/-- Settles O45: the need by the classes of its rows, the update by what waits after it, and the issue by its place. -/
theorem fetchIssues : Obligations.FetchIssues := by
  unfold Obligations.FetchIssues
  refine ⟨fun s c => ⟨channelNeed_none, fun anchor a mode ha row => ?_⟩, fun f lines frame => ?_,
    fun s => ⟨fun q i n run few first place => ⟨?_, ?_⟩, fun h => ?_⟩⟩
  case refine_1 =>
    have h := channelNeed_lines mode ha row
    simp only [mem_rows_ahead, mem_rows_window, mem_rows_margin, mem_boundHeads] at h
    exact h
  case refine_2 =>
    obtain ⟨ws, e, waits, placed⟩ := updateQueue_queue f lines frame
    have waiting : (f.updateQueue lines frame).queue.filter QueueEntry.isWaiting = ws := by
      rw [e, List.filter_append, filter_waiting_issued, List.nil_append]
      exact List.filter_eq_self.2 waits.waiting
    refine ⟨?_, rfl, rfl, fun q hq w => ?_, waiting ▸ waits.inOrder, fun n hn inStory wants => ?_⟩
    · rw [e, List.filter_append, filter_issued_waiting waits.waiting, List.append_nil, List.filter_filter]
      simp
    · obtain ⟨n, mem, slot, line, rank⟩ := waits.needed q (waiting ▸ List.mem_filter.2 ⟨hq, w⟩)
      obtain ⟨needed, inStory⟩ := List.mem_filter.1 mem
      exact ⟨by rw [← slot, ← line]; exact inStory, n, needed, slot, line, rank⟩
    · rw [e]
      obtain ⟨q, hq, line⟩ | ⟨q, hq, slot, line, -⟩ | ⟨full, best⟩ := placed n hn inStory wants
      · exact .inl ⟨q, List.mem_append_left _ hq, line⟩
      · exact .inl ⟨q, List.mem_append_right _ hq, slot, line⟩
      · refine .inr ⟨by rw [List.length_append]; exact full, fun one q hq w => best one q ?_⟩
        exact waiting ▸ List.mem_filter.2 ⟨e ▸ hq, w⟩
  case refine_3 =>
    show Host.Outcome.next ((issueOne s).getD s) = _
    rw [issueOne_eq run few first place]
    rfl
  case refine_4 =>
    obtain ⟨e, held, settled, own⟩ | ⟨zero, free, lower⟩ | ⟨e, held, settled, evicted⟩ :=
      Fetch.choosePlace_cases place
    · rw [held]; exact ⟨settled, .inl own⟩
    · rw [free]; exact ⟨zero, lower⟩
    · rw [held]; exact ⟨settled, .inr evicted⟩
  case refine_5 =>
    show Host.Outcome.next ((issueOne s).getD s) = _
    rw [issueOne_none h]
    rfl

end Sys2Proof.Machine
end

section
/-! PROOFS. A free-running frame event in RUNNING, block by block (R61, R66, R77, R81, R106, R125, R156, R161): the
timebase, the ports, the writes, the Fetch Unit, what the channels leave of the Exchange Unit, and the frame scan. -/

namespace Sys2Proof.Machine

/-! ### The timebase (R125) -/

theorem announceLock_periodStart (s : State) : (announceLock s).timebase.periodStart = s.timebase.periodStart := by
  unfold announceLock
  split
  · rw [(raise_keeps _).timebase]; rfl
  · rfl

theorem nextFree_captureCount (r : FrameRate) (t : Timebase) : (t.nextFree r).captureCount = t.captureCount := by
  unfold Timebase.nextFree
  split <;> rfl

/-- The frame event begins a frame period. -/
theorem countFrame_periodStart (s : State) : (countFrame s).timebase.periodStart = s.timebase.captureCount := by
  show (if s.running then _ else _ : Timebase).periodStart = _
  split <;> rfl

theorem frameStart_periodStart (s : State) : (frameStart s).timebase.periodStart = s.timebase.captureCount := by
  unfold frameStart
  rw [announceLock_periodStart, countFrame_periodStart]
  exact nextFree_captureCount ..

theorem freeFrame_frame (s : State) (free : s.timebase.lock = .free) (run : s.engine = .running) :
    (freeFrame s).frame = s.frame + 1 :=
  (congrArg Timebase.frameCounter (freeFrame_timebase s free run)).trans (frameStart_frame s run)

/-! ### The parts after the channels' part -/

/-- What the blocks after the channels leave of the channels' part of a frame event. -/
theorem afterChannels_keeps : Keeps
    { area := true, exchange := true, channels := true, heads := true, reports := true, nextTag := true }
    fun s => scanFrame (exchangeFrame (composeHeads s)) :=
  ⟨fun s => Eq.trans (scanFrame_keeps.on _) (Eq.trans (exchangeFrame_keeps.on _) (composeHeads_keeps.on s))⟩

/-- What the channels' part of a frame event leaves. -/
theorem startedChannels_keeps : Keeps { Foot.channels' with timebase := true } fun s => channelsFrame (frameStart s) :=
  ⟨fun s => Eq.trans (channelsFrame_keeps.on _) (frameStart_keeps.on s)⟩

/-! ### The ports (R106) -/

theorem freeFrame_port (s : State) (free : s.timebase.lock = .free) (run : s.engine = .running) (p : PortId) :
    (freeFrame s).port p = (s.port p).handedOn := by
  unfold State.port
  rw [freeFrame_running s free run, afterChannels_keeps.ports, channelsFrame_start,
    (Keeps.forEach (writePortStatus_keeps _) allPorts).ports]
  unfold beforePublication
  rw [(Keeps.forEach (publishChannel_keeps _) _).ports, advancedStart_state]
  unfold beforeStages
  rw [show (forEach _ _ (armedStart s)).ports = (armedStart s).ports from
    (Keeps.forEach (liveStages_keeps _) _).ports _]
  unfold armedStart
  rw [(armPorts_keeps _).ports]
  show ((frameStart s).ports.map Port.handedOn).get p = _
  rw [Bank.get_map, frameStart_keeps.ports]

/-! ### The publications -/

/-- What a channel publishes stands after the frame event (R39). -/
theorem freeFrame_pub (s : State) (free : s.timebase.lock = .free) (run : s.engine = .running) (c : Chan) :
    ((freeFrame s).chan c).pub.frame = s.frame + 1 ∧ ((freeFrame s).chan c).pub.mode = s.mode c := by
  obtain ⟨x, e⟩ := freeFrame_chan s free run c
  obtain ⟨ys, -, -, -, -, made, -⟩ := beforePublication_at s c
  obtain ⟨frame, mode⟩ := publishChannel_pub (advancedStart s).1 c (beforePublication ys s)
  rw [publishChannel_chan, ← made] at frame mode
  rw [e]
  refine ⟨frame.trans ?_, mode.trans (mode_congr ((beforePublication_keeps ys).settings s) c)⟩
  exact (congrArg Timebase.frameCounter (beforePublication_timebase ys s)).trans (frameStart_frame s run)

/-! ### The writes (R161) -/

/-- Steps that issue one write each issue one for each thing of the list, in its order. -/
theorem forEach_writes {α : Type} {f : α → State → State} {target : α → WriteTarget}
    (one : ∀ x s, ∃ w, (f x s).writes = s.writes ++ [w] ∧ w.target = target x) (xs : List α) (s : State) :
    ∃ ws, (forEach xs f s).writes = s.writes ++ ws ∧ ws.map (·.target) = xs.map target := by
  induction xs generalizing s with
  | nil => exact ⟨[], (List.append_nil _).symm, rfl⟩
  | cons x xs ih =>
    obtain ⟨w, hw, tw⟩ := one x s
    obtain ⟨ws, hws, tws⟩ := ih (f x s)
    exact ⟨w :: ws, by rw [forEach_cons, hws, hw, List.append_assoc]; rfl, by rw [List.map_cons, tw, tws]; rfl⟩

theorem publish_write (c : Chan) (pub : Published) (entered : List Entered) (crossings : List Crossing) {s t : State}
    (same : t.writes = s.writes) :
    ∃ w, (publish c pub entered crossings t).writes = s.writes ++ [w] ∧ w.target = .channelStatus c :=
  ⟨_, same ▸ publish_writes .., rfl⟩

/-- A publication issues the channel's status record. -/
theorem publishChannel_writes (outcomes : Bank 4 Stage4) (c : Chan) (s : State) :
    ∃ w, (publishChannel outcomes c s).writes = s.writes ++ [w] ∧ w.target = .channelStatus c := by
  unfold publishChannel
  rw [(needUpdate_keeps c).writes]
  unfold makePublication
  split
  · exact publish_write c _ _ _ rfl
  · exact publish_write c _ _ _ rfl
  · exact publish_write c _ _ _ rfl

/-- A frame event issues the twelve status records. -/
theorem freeFrame_writes (s : State) (free : s.timebase.lock = .free) (run : s.engine = .running) :
    ∃ ws, (freeFrame s).writes = s.writes ++ ws ∧
      ws.map (·.target) = (frameOrder s).map .channelStatus ++ allPorts.map .portStatus := by
  rw [freeFrame_running s free run, afterChannels_keeps.writes, channelsFrame_start]
  obtain ⟨ws, hws, tws⟩ := forEach_writes (publishChannel_writes (advancedStart s).1) (frameOrder s) (advancedStart s).2
  obtain ⟨vs, hvs, tvs⟩ := forEach_writes (f := writePortStatus (handAll s).1) (target := .portStatus)
    (fun _ _ => ⟨_, rfl, rfl⟩) allPorts (beforePublication (frameOrder s) s)
  rw [show (beforePublication (frameOrder s) s).writes = s.writes ++ ws from
    hws.trans (by rw [advancedStart_keeps.writes])] at hvs
  exact ⟨ws ++ vs, by rw [hvs, List.append_assoc], by rw [List.map_append, tws, tvs]⟩

/-! ### The Fetch Unit (R77, R81) -/

/-- After the publications the need of each channel is that of its publication. -/
theorem publications_needs (outcomes : Bank 4 Stage4) {cs : List Chan} {c : Chan} (mem : c ∈ cs) (nodup : cs.Nodup)
    (s : State) : let t := forEach cs (publishChannel outcomes) s
    t.fetch.needs.get c = channelNeed t c := by
  intro t
  obtain ⟨ys, -, -, -, -, e⟩ := forEach_at (f := publishChannel outcomes) (fun t => (t.fetch.needs.get c, t.chan c))
    mem nodup (fun y hy u => by
      rw [publishChannel_needs, Bank.get_set_ne _ _ hy.symm, publishChannel_only outcomes y u c hy.symm]) s
  let u := publishChannel outcomes c (forEach ys (publishChannel outcomes) s)
  have e : (t.fetch.needs.get c, t.chan c) = (u.fetch.needs.get c, u.chan c) := e
  obtain ⟨needs, chan⟩ := Prod.mk.inj e
  have settings : t.settings = u.settings :=
    ((Keeps.forEach (publishChannel_keeps outcomes) cs).settings s).trans
      (((publishChannel_keeps outcomes c).settings _).trans
        ((Keeps.forEach (publishChannel_keeps outcomes) ys).settings s)).symm
  have own : u.fetch.needs.get c = channelNeed u c := by
    show (publishChannel outcomes c _).fetch.needs.get c = _
    rw [publishChannel_needs, Bank.get_set_self]
  rw [needs, own]
  exact (channelNeed_congr settings (by rw [chan]) (by rw [chan])).symm

/-- Every entry that waits is of a line that exists in its story (R9). -/
def WaitsInStories (stories : Bank 256 Story) (f : Fetch) : Prop :=
  ∀ q ∈ f.queue, q.isWaiting = true → q.line < (stories.get q.slot).count

/-- After a channel's publication no line beyond its story's count waits to be read. -/
theorem needUpdate_waits (c : Chan) (s : State) : WaitsInStories s.stories (needUpdate c s).fetch := by
  refine issueAll_induct (P := fun t => WaitsInStories s.stories t.fetch)
    (fun _ _ issue h q hq w => h q (issueOne_waiting issue q hq w) w) _ fun q hq w => ?_
  obtain ⟨ws, e, waits, -⟩ := updateQueue_queue { s.fetch with
    needs := s.fetch.needs.set c (channelNeed s c)
    cache := s.fetch.cache.map (Place.markNeeded s.frame (channelNeed s c)) } s.lineExists s.frame
  rcases List.mem_append.1 (e ▸ hq) with issued | waiting
  · have := (List.mem_filter.1 issued).2
    simp [QueueEntry.isWaiting, this] at w
  · obtain ⟨n, hn, slot, line, -⟩ := waits.needed q waiting
    have : n.line < (s.story n.slot).count := of_decide_eq_true (List.mem_filter.1 hn).2
    rw [← slot, ← line]
    exact this

theorem publishChannel_waits (outcomes : Bank 4 Stage4) (c : Chan) (s : State) :
    WaitsInStories s.stories (publishChannel outcomes c s).fetch :=
  (makePublication_keeps outcomes c).stories s ▸ needUpdate_waits c (makePublication outcomes c s)

/-- Some channel publishes, and every publication leaves the queue so. -/
theorem publications_waits (outcomes : Bank 4 Stage4) {cs : List Chan} (some : cs ≠ []) (s : State) :
    WaitsInStories s.stories (forEach cs (publishChannel outcomes) s).fetch := by
  have all : ∀ (cs : List Chan) (t : State), t.stories = s.stories → WaitsInStories s.stories t.fetch →
      WaitsInStories s.stories (forEach cs (publishChannel outcomes) t).fetch := by
    intro cs
    induction cs with
    | nil => exact fun _ _ h => h
    | cons c cs ih =>
      intro t e _
      exact ih _ (((publishChannel_keeps outcomes c).stories t).trans e) (e ▸ publishChannel_waits outcomes c t)
  cases cs with
  | nil => exact absurd rfl some
  | cons c cs => exact all cs _ ((publishChannel_keeps outcomes c).stories s) (publishChannel_waits outcomes c s)

theorem freeFrame_fetch (s : State) (free : s.timebase.lock = .free) (run : s.engine = .running) :
    (freeFrame s).fetch = (beforePublication (frameOrder s) s).fetch := by
  rw [freeFrame_running s free run, afterChannels_keeps.fetch, channelsFrame_start,
    (Keeps.forEach (writePortStatus_keeps _) allPorts).fetch]

theorem freeFrame_needs (s : State) (free : s.timebase.lock = .free) (run : s.engine = .running) (c : Chan) :
    (freeFrame s).fetch.needs.get c = channelNeed (freeFrame s) c := by
  obtain ⟨x, e⟩ := freeFrame_chan s free run c
  rw [freeFrame_fetch s free run]
  refine (publications_needs _ (mem_frameOrder s c) (frameOrder_nodup s) _).trans (channelNeed_congr ?_ ?_ ?_).symm
  · exact (freeFrame_keeps.settings s).trans ((beforePublication_keeps (frameOrder s)).settings s).symm
  · rw [e]; rfl
  · rw [e]; rfl

theorem freeFrame_waits (s : State) (free : s.timebase.lock = .free) (run : s.engine = .running) :
    WaitsInStories s.stories (freeFrame s).fetch := by
  rw [freeFrame_fetch s free run]
  have := publications_waits (advancedStart s).1 (List.ne_nil_of_mem (mem_frameOrder s 0)) (advancedStart s).2
  rw [advancedStart_keeps.stories s] at this
  exact this

/-! ### What the channels leave of the Exchange Unit (R33) -/

/-- A channel that joins the search changes nothing of the takes in progress. -/
theorem joinSearch_takes (c : Chan) (s : State) :
    ((joinSearch c s).exchange.takes, (joinSearch c s).exchange.rundown) = (s.exchange.takes, s.exchange.rundown) := by
  unfold joinSearch
  split
  · rfl
  · dsimp only
    split <;> rfl

theorem liveStages_takes (handed : Bank 8 Handed) (c : Chan) (s : State) :
    let t := (liveStages handed c s).2
    (t.exchange.takes, t.exchange.rundown) = (s.exchange.takes, s.exchange.rundown) := by
  have five : ∀ t, (stage5 c t).exchange = (joinSearch c t).exchange := by
    intro t
    unfold stage5
    dsimp only
    split <;> rfl
  rw [liveStages_eq]
  dsimp only
  rw [five, joinSearch_takes, (stage4_keeps ..).exchange]
  unfold liveSettled
  rw [(boundaryStage_keeps c).exchange, joinSearch_takes, (checkAnchor_keeps ..).exchange,
    (takeView_keeps c).exchange, (evaluate_keeps handed c).exchange]

/-- The channels' part of a frame event leaves the takes in progress and the searched story. -/
theorem startedChannels_exchange (s : State) : let t := channelsFrame (frameStart s)
    t.exchange.takes = s.exchange.takes ∧ t.exchange.rundown = s.exchange.rundown ∧
    t.exchange.searcher.map (·.slot) = s.exchange.searcher.map (·.slot) := by
  intro t
  have e : t.exchange = (beforeStages (liveChans s) s).exchange := by
    show (channelsFrame (frameStart s)).exchange = _
    rw [channelsFrame_start, (Keeps.forEach (writePortStatus_keeps _) allPorts).exchange]
    unfold beforePublication
    rw [(Keeps.forEach (publishChannel_keeps _) _).exchange, advancedStart_state]
  have takes : ((beforeStages (liveChans s) s).exchange.takes, (beforeStages (liveChans s) s).exchange.rundown) =
      (s.exchange.takes, s.exchange.rundown) :=
    (forEach_same (π := fun t => (t.exchange.takes, t.exchange.rundown)) (liveChans s)
      (fun c _ u => liveStages_takes (handAll s).1 c u) (armedStart s)).trans (by rw [armedStart_keeps.exchange])
  rw [e]
  exact ⟨(Prod.mk.inj takes).1, (Prod.mk.inj takes).2, beforeStages_slot (liveChans s) s⟩

/-! ### The frame scan (R156) -/

theorem scanReads_congr {s t : State} (area : t.area = s.area) : t.scanReads = s.scanReads := by
  simp only [State.scanReads, State.entryReads, State.commandReads, State.entryAddress, State.areaAddress, area]

/-- A frame event begins a scan, or counts a skip of the one in progress. -/
theorem scanFrame_area (s : State) : ∃ sc : Scan, (scanFrame s).area = { s.area with scan := some sc } ∧
    (s.area.scan = none → sc.origin = .frame ∧ sc.skipped = 0 ∧ sc.group.reads = s.scanReads ∧
      sc.block = ⟨s.areaAddress s.area.header.settings 0, 1796⟩) ∧
    ∀ sc', s.area.scan = some sc' → sc = { sc' with skipped := sc'.skipped + 1 } := by
  unfold scanFrame
  cases h : s.area.scan with
  | none => exact ⟨_, rfl, fun _ => ⟨rfl, rfl, rfl, rfl⟩, fun _ e => by cases e⟩
  | some sc =>
    refine ⟨_, (raise_keeps _).area _, fun e => (by cases e), fun sc' e => ?_⟩
    cases e
    rfl

end Sys2Proof.Machine
end

section
/-! PROOFS. What the Exchange Unit begins at a frame event (R61, R66, R73), and the whole frame event in RUNNING. -/

namespace Sys2Proof.Machine

/-! ### What the checks depend on (R61, R62) -/

/-- Two states agree in what the checks of the Exchange Unit read of the channels. -/
structure SameSight (s t : State) : Prop where
  settings : t.settings = s.settings
  pub : ∀ c, (t.chan c).pub = (s.chan c).pub
  anchor : ∀ c, (t.chan c).anchor = (s.chan c).anchor

theorem SameSight.of_chan {s t : State} (settings : t.settings = s.settings)
    (chan : ∀ c, t.chan c = { s.chan c with exchange := (t.chan c).exchange }) : SameSight s t :=
  ⟨settings, fun c => by rw [chan c], fun c => by rw [chan c]⟩

theorem SameSight.of_same {s t : State} (settings : t.settings = s.settings) (channels : t.channels = s.channels) :
    SameSight s t :=
  .of_chan settings fun c => by unfold State.chan; rw [channels]

theorem SameSight.anchoredIn {s t : State} (h : SameSight s t) (k : Slot) (c : Chan) :
    anchoredIn t k c = anchoredIn s k c := by
  unfold Machine.anchoredIn
  rw [h.anchor]

theorem SameSight.isLive {s t : State} (h : SameSight s t) (c : Chan) : t.isLive c = s.isLive c := by
  unfold State.isLive
  rw [mode_congr h.settings]

theorem SameSight.liveAnchored {s t : State} (h : SameSight s t) (k : Slot) : liveAnchored t k = liveAnchored s k := by
  unfold Machine.liveAnchored
  simp only [h.isLive, h.anchoredIn]

theorem SameSight.inSight {s t : State} (h : SameSight s t) (k : Slot) : inSight t k = inSight s k := by
  have window : windowIn t k = windowIn s k := by
    funext hs
    unfold windowIn
    rw [h.pub]
  unfold Machine.inSight publishedIn
  rw [window, h.settings]
  simp only [h.pub]

theorem SameSight.directAllowed {s t : State} (h : SameSight s t) (k : Slot) (mode : ExchangeMode) :
    directAllowed t k mode = directAllowed s k mode := by
  cases mode
  · exact congrArg not (h.inSight k)
  · exact congrArg not (h.liveAnchored k)

/-! ### Direct takes begin (R61) -/

theorem exchangeOf_pending {s : State} {k : Slot} : s.exchangeOf k = .pending ↔
    (s.story k).request ≠ (s.story k).done ∧ s.exchange.takes.any (·.slot == k) = false ∧
      (s.exchange.searcher).any (·.slot == k) = false := by
  unfold State.exchangeOf
  split_ifs <;> simp_all

/-- A direct take of a story begins at the frame event that examines it. -/
def beginsTake (s : State) (k : Slot) : Bool :=
  (s.story k).request != (s.story k).done && !s.exchange.takes.any (·.slot == k)
    && !(s.exchange.searcher).any (·.slot == k) && directAllowed s k (s.story k).mode

theorem examineStory_eq (k : Slot) (s : State) :
    examineStory k s = if beginsTake s k then beginDirectTake k s else s := by
  unfold examineStory
  refine if_congr ?_ rfl rfl
  rw [exchangeOf_pending]
  simp [beginsTake, and_assoc]

/-- The examination of one story says nothing of another. -/
theorem beginsTake_examine {j k : Slot} (ne : j ≠ k) (s : State) :
    beginsTake (examineStory k s) j = beginsTake s j := by
  have sight : directAllowed (examineStory k s) j = directAllowed s j := funext fun mode =>
    (SameSight.of_same ((examineStory_keeps k).settings s) ((examineStory_keeps k).channels s)).directAllowed j mode
  have story : (examineStory k s).story j = s.story j := congrArg (·.get j) ((examineStory_keeps k).stories s)
  have takes : (examineStory k s).exchange.takes.any (·.slot == j) = s.exchange.takes.any (·.slot == j) := by
    rw [examineStory_eq]
    split
    · simp [beginDirectTake, ne.symm]
    · rfl
  have searcher : (examineStory k s).exchange.searcher = s.exchange.searcher := by
    rw [examineStory_eq]
    split <;> rfl
  unfold beginsTake
  rw [sight, story, takes, searcher]

/-- A direct take of a story that stands as it does in `s`, with the read of the inactive side's version. -/
def DirectTake.begunIn (s : State) (x : DirectTake) : Prop :=
  x.generation = (s.story x.slot).request ∧ x.mode = (s.story x.slot).mode ∧
    x.request.address = s.entryAddress x.slot (versionOffset (s.story x.slot).side.other) ∧ x.request.length = 12

theorem DirectTake.begunIn_congr {s t : State} (stories : t.stories = s.stories) (area : t.area = s.area)
    {x : DirectTake} (h : x.begunIn t) : x.begunIn s := by
  unfold DirectTake.begunIn State.entryAddress State.areaAddress State.story at *
  rw [stories, area] at h
  exact h

/-- The stories examined begin their direct takes, in the order in which they are examined. -/
theorem examineStories_exchange {ks : List Slot} (nodup : ks.Nodup) (s : State) :
    ∃ new, (forEach ks examineStory s).exchange = { s.exchange with takes := s.exchange.takes ++ new } ∧
      new.map (·.slot) = ks.filter (beginsTake s) ∧ ∀ x ∈ new, x.begunIn s := by
  induction ks generalizing s with
  | nil => exact ⟨[], by simp, rfl, by simp⟩
  | cons k ks ih =>
    obtain ⟨new, e, slots, begun⟩ := ih (List.nodup_cons.1 nodup).2 (examineStory k s)
    have rest : ks.filter (beginsTake (examineStory k s)) = ks.filter (beginsTake s) :=
      List.filter_congr fun j hj => beginsTake_examine (fun h : j = k => (List.nodup_cons.1 nodup).1 (h ▸ hj)) s
    have before : ∀ x ∈ new, x.begunIn s := fun x hx =>
      DirectTake.begunIn_congr ((examineStory_keeps k).stories s) ((examineStory_keeps k).area s) (begun x hx)
    rw [rest] at slots
    rw [forEach_cons, e, examineStory_eq]
    cases h : beginsTake s k with
    | false => exact ⟨new, rfl, by rw [List.filter_cons_of_neg (by simp [h]), slots], before⟩
    | true =>
      refine ⟨⟨k, (s.story k).request, (s.story k).mode, versionRequest s k⟩ :: new, by simp [beginDirectTake],
        by rw [List.filter_cons_of_pos h, ← slots]; rfl, fun x hx => ?_⟩
      rcases List.mem_cons.1 hx with rfl | hx
      · exact ⟨rfl, rfl, rfl, rfl⟩
      · exact before x hx

/-! ### The searcher and the rundown take (R66, R73) -/

theorem serveSearcher_busy {s : State} (h : s.exchange.searcher.isSome = true ∨ s.exchange.rundown.isSome = true) :
    serveSearcher s = s := by
  have : ¬ (s.exchange.searcher.isNone && s.exchange.rundown.isNone) = true := by
    rcases h with h | h <;> obtain ⟨x, e⟩ := Option.isSome_iff_exists.1 h <;> simp [e]
  exact if_neg this

theorem serveSearcher_idle {s : State} (searcher : s.exchange.searcher = none) (rundown : s.exchange.rundown = none) :
    serveSearcher s = if rundownPending s then beginRundownTake s
      else match searchCandidate s with
        | none => s
        | some k => startSearch k s := by
  unfold serveSearcher
  rw [searcher, rundown]
  rfl

/-- The channels of a starting search hold EXCHANGE. -/
theorem holdExchange_holds {cs : List Chan} {c : Chan} (s : State) (h : c ∈ cs ∨ (s.chan c).exchange = true) :
    ((forEach cs (fun c t => t.modChan c fun ch => { ch with exchange := true }) s).chan c).exchange = true := by
  induction cs generalizing s with
  | nil => exact h.resolve_left List.not_mem_nil
  | cons d cs ih =>
    refine ih _ ?_
    by_cases e : c = d
    · subst e
      exact .inr (by rw [State.chan_modChan_self])
    · rw [State.chan_modChan_ne _ _ e]
      exact h.imp_left fun m => (List.mem_cons.1 m).resolve_left e

/-- The searcher of a search that starts in `s` (R66). -/
def startedSearch (k : Slot) (s : State) : Searcher :=
  ⟨k, (s.story k).request, (s.story k).mode, .versionRead (versionRequest s k),
    (allChans.filter fun c => s.isLive c && anchoredIn s k c).map fun c => ⟨c, (s.chan c).key, none, false⟩⟩

theorem startSearch_exchange (k : Slot) (s : State) :
    (startSearch k s).exchange = { s.exchange with searcher := some (startedSearch k s) } :=
  (Keeps.forEach (fun c => modChan_keeps c fun ch => { ch with exchange := true }) _).exchange
    { s with exchange := { s.exchange with searcher := some (startedSearch k s) }, nextTag := s.nextTag + 1 }

theorem startSearch_holds (k : Slot) (s : State) :
    ∀ m ∈ (startedSearch k s).members, ((startSearch k s).chan m.channel).exchange = true := by
  intro m hm
  obtain ⟨c, hc, rfl⟩ := List.mem_map.1 hm
  exact holdExchange_holds _ (.inl hc)

theorem serveSearcher_takes (s : State) : (serveSearcher s).exchange.takes = s.exchange.takes := by
  unfold serveSearcher
  split
  · split
    · rfl
    · split
      · rfl
      · rw [startSearch_exchange]
  · rfl

/-! ### The Exchange Unit at a frame event -/

/-- The direct takes of a frame event: `t` is a state after it. -/
theorem exchangeFrame_takes {s t : State} (sight : SameSight (exchangeFrame s) t)
    (exchange : t.exchange = (exchangeFrame s).exchange) :
    ∃ new, t.exchange.takes = s.exchange.takes ++ new ∧
      new.map (·.slot) = (List.finRange 256).filter (fun k =>
        (s.story k).request != (s.story k).done && !s.exchange.takes.any (·.slot == k)
          && !(t.exchange.searcher).any (·.slot == k) && directAllowed t k (s.story k).mode) ∧
      ∀ x ∈ new, x.begunIn s := by
  let u := serveSearcher s
  obtain ⟨new, e, slots, begun⟩ := examineStories_exchange (List.nodup_finRange 256) u
  have e : (exchangeFrame s).exchange = { u.exchange with takes := u.exchange.takes ++ new } := e
  have takes : u.exchange.takes = s.exchange.takes := serveSearcher_takes s
  have same : SameSight u t := by
    have : SameSight u (exchangeFrame s) := .of_same ((Keeps.forEach examineStory_keeps _).settings u)
      ((Keeps.forEach examineStory_keeps _).channels u)
    exact ⟨sight.settings.trans this.settings, fun c => (sight.pub c).trans (this.pub c),
      fun c => (sight.anchor c).trans (this.anchor c)⟩
  have story : ∀ k, u.story k = s.story k := fun k => congrArg (·.get k) (serveSearcher_keeps.stories s)
  rw [exchange, e]
  refine ⟨new, congrArg (· ++ new) takes, slots.trans (List.filter_congr fun k _ => ?_), fun x hx =>
    DirectTake.begunIn_congr (serveSearcher_keeps.stories s) (serveSearcher_keeps.area s) (begun x hx)⟩
  unfold beginsTake
  rw [story, takes, same.directAllowed]

/-- The searcher and the rundown take after a frame event are those that serving the searcher leaves. -/
theorem exchangeFrame_served (s : State) : (exchangeFrame s).exchange.searcher = (serveSearcher s).exchange.searcher ∧
    (exchangeFrame s).exchange.rundown = (serveSearcher s).exchange.rundown := by
  obtain ⟨new, e, -, -⟩ := examineStories_exchange (List.nodup_finRange 256) (serveSearcher s)
  have e : (exchangeFrame s).exchange = _ := e
  rw [e]
  exact ⟨rfl, rfl⟩

theorem exchangeFrame_channels (s : State) : (exchangeFrame s).channels = (serveSearcher s).channels :=
  (Keeps.forEach examineStory_keeps _).channels _

/-- The story that the searcher serves, when it is IDLE (R66). -/
theorem searchCandidate_eq {s : State} (searcher : s.exchange.searcher = none) :
    searchCandidate s = (List.finRange 256).find? fun k =>
      (s.story k).request != (s.story k).done && !s.exchange.takes.any (·.slot == k) && (s.story k).mode == .now
        && s.rundown.order.contains k && liveAnchored s k := by
  unfold searchCandidate
  congr 1
  funext k
  have : (s.exchangeOf k == .pending) =
      ((s.story k).request != (s.story k).done && !s.exchange.takes.any (·.slot == k)) := by
    rw [Bool.eq_iff_iff, beq_iff_eq, exchangeOf_pending]
    simp [searcher]
  unfold needsSearcher
  rw [this]

/-! ### The frame event in RUNNING -/

/-- What the blocks before the Exchange Unit leave at a frame event: nothing of the shadows and of the Area Port, and of
the Exchange Unit but the list of the search. -/
structure BeforeExchange (s h : State) : Prop where
  settings : h.settings = s.settings
  stories : h.stories = s.stories
  rundown : h.rundown = s.rundown
  area : h.area = s.area
  takes : h.exchange.takes = s.exchange.takes
  taking : h.exchange.rundown = s.exchange.rundown
  searched : h.exchange.searcher.map (·.slot) = s.exchange.searcher.map (·.slot)

theorem beforeExchange (s : State) : BeforeExchange s (composeHeads (channelsFrame (frameStart s))) := by
  obtain ⟨takes, taking, searched⟩ := startedChannels_exchange s
  have heads := composeHeads_keeps.exchange (channelsFrame (frameStart s))
  exact ⟨(composeHeads_keeps.settings _).trans (startedChannels_keeps.settings s),
    (composeHeads_keeps.stories _).trans (startedChannels_keeps.stories s),
    (composeHeads_keeps.rundown _).trans (startedChannels_keeps.rundown s),
    (composeHeads_keeps.area _).trans (startedChannels_keeps.area s), by rw [heads]; exact takes,
    by rw [heads]; exact taking, by rw [heads]; exact searched⟩

theorem BeforeExchange.story {s h : State} (b : BeforeExchange s h) (k : Slot) : h.story k = s.story k :=
  congrArg (·.get k) b.stories

theorem BeforeExchange.areaAddress {s h : State} (b : BeforeExchange s h) (offset : Word) (i : Nat) :
    h.areaAddress offset i = s.areaAddress offset i := by
  unfold State.areaAddress
  rw [b.area]

theorem BeforeExchange.entryAddress {s h : State} (b : BeforeExchange s h) (k : Slot) (i : Nat) :
    h.entryAddress k i = s.entryAddress k i := by
  unfold State.entryAddress
  rw [b.area, b.areaAddress]

theorem BeforeExchange.idle {s h : State} (b : BeforeExchange s h) (searcher : s.exchange.searcher = none) :
    h.exchange.searcher = none := by
  have := b.searched
  rw [searcher] at this
  exact Option.map_eq_none_iff.1 this

/-- With the searcher and the rundown take IDLE, a pending rundown exchange begins (R66, R73). -/
theorem BeforeExchange.serves_rundown {s h : State} (b : BeforeExchange s h) (searcher : s.exchange.searcher = none)
    (taking : s.exchange.rundown = none) (pending : s.rundown.request ≠ s.rundown.done) :
    (serveSearcher h).exchange.searcher = none ∧ ∃ x, (serveSearcher h).exchange.rundown = some x ∧
      x.generation = s.rundown.request ∧ x.list = s.rundown.selector.other ∧ x.reading = .length ∧
      x.request.address = s.areaAddress s.area.header.rundown (match x.list with | .a => 12 | .b => 16) ∧
      x.request.length = 4 := by
  have waits : rundownPending h = true := by
    unfold rundownPending
    rw [b.rundown]
    exact bne_iff_ne.2 pending
  rw [serveSearcher_idle (b.idle searcher) (b.taking.trans taking), if_pos waits]
  refine ⟨b.idle searcher, _, rfl, congrArg Rundown.request b.rundown,
    congrArg (fun r : Rundown => r.selector.other) b.rundown, rfl, ?_, rfl⟩
  show h.areaAddress h.area.header.rundown (lengthOffset _) = _
  rw [b.areaAddress, b.area]
  rfl

/-- With both IDLE and no rundown exchange pending, the search of the lowest story that needs it starts (R66). -/
theorem BeforeExchange.serves_search {s h t : State} (b : BeforeExchange s h)
    (chan : ∀ c, t.chan c = { h.chan c with exchange := (t.chan c).exchange }) (settings : t.settings = h.settings)
    (channels : t.channels = (serveSearcher h).channels) (searcher : s.exchange.searcher = none)
    (taking : s.exchange.rundown = none) (served : s.rundown.request = s.rundown.done) :
    let needing := fun k => (s.story k).request != (s.story k).done && !s.exchange.takes.any (·.slot == k)
      && (s.story k).mode == .now && s.rundown.order.contains k && liveAnchored t k
    (serveSearcher h).exchange.rundown = none ∧
    ((List.finRange 256).find? needing = none → (serveSearcher h).exchange.searcher = none) ∧
    ∀ k, (List.finRange 256).find? needing = some k → ∃ sr r, (serveSearcher h).exchange.searcher = some sr ∧
      sr.slot = k ∧ sr.generation = (s.story k).request ∧ sr.mode = .now ∧ sr.phase = .versionRead r ∧
      r.address = s.entryAddress k (versionOffset (s.story k).side.other) ∧ r.length = 12 ∧
      sr.members = (allChans.filter fun c => s.isLive c && anchoredIn t k c).map
        (fun c => ⟨c, (t.chan c).key, none, false⟩) ∧
      ∀ m ∈ sr.members, (t.chan m.channel).exchange = true := by
  intro needing
  have sight : SameSight h t := .of_chan settings chan
  have candidate : searchCandidate h = (List.finRange 256).find? needing := by
    rw [searchCandidate_eq (b.idle searcher)]
    congr 1
    funext k
    rw [b.story, b.takes, b.rundown, ← sight.liveAnchored]
  have none_waits : ¬ rundownPending h = true := by
    unfold rundownPending
    rw [b.rundown]
    simp [served]
  have serve : serveSearcher h = match searchCandidate h with
      | none => h
      | some k => startSearch k h :=
    (serveSearcher_idle (b.idle searcher) (b.taking.trans taking)).trans (if_neg none_waits)
  rw [candidate] at serve
  cases found : (List.finRange 256).find? needing with
  | none =>
    rw [found] at serve
    rw [serve]
    exact ⟨b.taking.trans taking, fun _ => b.idle searcher, fun _ e => by cases e⟩
  | some k =>
    rw [found] at serve
    rw [serve] at channels ⊢
    rw [startSearch_exchange]
    refine ⟨b.taking.trans taking, fun e => (by cases e), fun j e => ?_⟩
    cases e
    have needs : needing k = true := List.find?_some found
    have mode : (s.story k).mode = .now := by
      simp only [needing, Bool.and_eq_true, beq_iff_eq] at needs
      exact needs.1.1.2
    have holds : ∀ m ∈ (startedSearch k h).members, (t.chan m.channel).exchange = true := fun m hm => by
      unfold State.chan
      rw [channels]
      exact startSearch_holds k h m hm
    refine ⟨_, versionRequest h k, rfl, rfl, congrArg Story.request (b.story k),
      (congrArg Story.mode (b.story k)).trans mode, rfl, ?_, rfl, ?_, holds⟩
    · show h.entryAddress k (versionOffset (h.story k).side.other) = _
      rw [b.entryAddress, b.story]
    · have live : ∀ c, h.isLive c = s.isLive c := fun c => by
        unfold State.isLive
        rw [mode_congr b.settings]
      have key : ∀ c, (t.chan c).key = (h.chan c).key := fun c => by rw [chan c]
      simp only [startedSearch, live, key, ← sight.anchoredIn]

/-- Every head composes from the publications of the frame event and the cache that the updates for them leave (R133,
R138): what the blocks after the heads change is nothing that a raster reads. -/
theorem composed_after {s f t : State} (parts : t = scanFrame (exchangeFrame (composeHeads f)))
    (chan : ∀ c, t.chan c = { (composeHeads f).chan c with exchange := (t.chan c).exchange })
    (settings : t.settings = (composeHeads f).settings) (fetch : t.fetch = f.fetch) (heads : f.heads = s.heads)
    (engine : f.area.engine = s.area.engine) (area : (composeHeads f).area = s.area) (k : HeadId) :
    t.head k = (s.head k).compose (composedRaster { t with heads := s.heads } k) := by
  have head : f.head k = s.head k := congrArg (·.get k) heads
  have glyphs : t.glyphs = f.glyphs := by
    rw [parts, scanFrame_keeps.glyphs, exchangeFrame_keeps.glyphs, composeHeads_keeps.glyphs]
  have same : ∀ c, (composeHeads f).chan c = f.chan c := fun c => congrArg (·.get c) (composeHeads_keeps.channels f)
  have still : t.area.engine = s.area.engine := by
    obtain ⟨sc, e, -⟩ := scanFrame_area (exchangeFrame (composeHeads f))
    rw [parts, e, exchangeFrame_keeps.area, area]
  have composes : t.head k = (f.head k).compose (composedRaster f k) := by
    rw [← composeHeads_head f k, parts]
    exact congrArg (·.get k) ((scanFrame_keeps.heads _).trans (exchangeFrame_keeps.heads _))
  rw [composes, head]
  refine congrArg (fun r => Head.compose r (s.head k)) (composedRaster_congr (s := f) ?_ ?_ ?_ ?_ ?_ ?_ ?_).symm
  · exact settings.trans (composeHeads_keeps.settings f)
  · exact fun c => show (t.chan c).pub = (f.chan c).pub by rw [chan c, ← same c]
  · exact fun c => show (t.chan c).view = (f.chan c).view by rw [chan c, ← same c]
  · exact still.trans engine.symm
  · exact glyphs
  · exact fetch
  · exact head.symm

/-- Settles O30: each block's part of the frame event, and the Exchange Unit's by what it finds IDLE. -/
theorem frameEventInRunning : Obligations.FrameEventInRunning := by
  unfold Obligations.FrameEventInRunning
  intro s free run
  obtain ⟨t, ht⟩ : ∃ t, freeFrame s = t := ⟨_, rfl⟩
  obtain ⟨f, hf⟩ : ∃ f, channelsFrame (frameStart s) = f := ⟨_, rfl⟩
  obtain ⟨h, hh⟩ : ∃ h, composeHeads f = h := ⟨_, rfl⟩
  have parts : t = scanFrame (exchangeFrame h) := by rw [← hh, ← hf, ← ht, freeFrame_running s free run]
  have b : BeforeExchange s h := hh ▸ hf ▸ beforeExchange s
  have exchange : t.exchange = (exchangeFrame h).exchange := parts ▸ scanFrame_keeps.exchange _
  have channels : t.channels = (exchangeFrame h).channels := parts ▸ scanFrame_keeps.channels _
  have settings : t.settings = h.settings :=
    parts ▸ (scanFrame_keeps.settings _).trans (exchangeFrame_keeps.settings h)
  have chan : ∀ c, t.chan c = { h.chan c with exchange := (t.chan c).exchange } := fun c => by
    have : t.chan c = (exchangeFrame h).chan c := congrArg (·.get c) channels
    rw [this]
    exact exchangeFrame_chan c h
  have area : (exchangeFrame h).area = s.area := (exchangeFrame_keeps.area h).trans b.area
  obtain ⟨searcher, taking⟩ := exchangeFrame_served h
  rw [← exchange] at searcher taking
  have fetch : t.fetch = f.fetch := by
    rw [parts, scanFrame_keeps.fetch, exchangeFrame_keeps.fetch, ← hh, composeHeads_keeps.fetch]
  refine ⟨t, congrArg _ ht, ?_, ?_, ?_, ?_, ?_, fun k => ?_, ?_, ?_, ⟨?_, fun busy => ?_, fun ns nr pending => ?_,
    fun ns nr served => ?_⟩, ?_, ?_⟩
  case refine_1 => rw [← ht]; exact freeFrame_frame s free run
  case refine_2 => rw [← ht, freeFrame_timebase s free run]; exact frameStart_periodStart s
  case refine_3 => rw [← ht]; exact freeFrame_pub s free run
  case refine_4 => rw [← ht]; exact freeFrame_port s free run
  case refine_5 => rw [← ht]; exact freeFrame_writes s free run
  case refine_6 =>
    have heads : f.heads = s.heads := hf ▸ startedChannels_keeps.heads s
    have engine : f.area.engine = s.area.engine := congrArg Area.engine (hf ▸ startedChannels_keeps.area s)
    subst hh
    exact composed_after parts chan settings fetch heads engine b.area k
  case refine_7 => rw [← ht]; exact freeFrame_needs s free run
  case refine_8 => rw [← ht]; exact freeFrame_waits s free run
  case refine_9 =>
    obtain ⟨new, takes, slots, begun⟩ := exchangeFrame_takes
      (.of_same (settings.trans (exchangeFrame_keeps.settings h).symm) channels) exchange
    simp only [b.story, b.takes] at takes slots
    exact ⟨new, takes, slots, fun x hx => DirectTake.begunIn_congr b.stories b.area (begun x hx)⟩
  case refine_10 =>
    have : serveSearcher h = h := serveSearcher_busy (busy.imp (fun e => ?_) fun e => b.taking ▸ e)
    · rw [searcher, taking, this]
      exact ⟨b.taking, b.searched⟩
    · rw [← Option.isSome_map (f := (·.slot)), b.searched, Option.isSome_map]
      exact e
  case refine_11 =>
    rw [searcher, taking]
    exact b.serves_rundown ns nr pending
  case refine_12 =>
    rw [searcher, taking]
    exact b.serves_search chan settings (channels.trans (exchangeFrame_channels h)) ns nr served
  case refine_13 =>
    obtain ⟨sc, e, begins, skips⟩ := scanFrame_area (exchangeFrame h)
    rw [← parts, area] at e
    rw [area, scanReads_congr area] at begins
    rw [area] at skips
    refine ⟨sc, e, fun none => ?_, skips⟩
    obtain ⟨origin, skipped, reads, block⟩ := begins none
    refine ⟨origin, skipped, reads, block.trans ?_⟩
    unfold State.areaAddress
    rw [area]
  case refine_14 => exact mask_eq (ht ▸ freeFrame_keeps.same s)

end Sys2Proof.Machine
end

section
/-! PROOFS. The positions of the scroll channels (R22, R24, R27, R38): a channel stands soundly in a mode when its
fractions and S are what the invariant asks for, and no operation of the part breaks that. -/

namespace Sys2Proof.Machine

set_option Elab.async false

/-! ### A channel that stands soundly -/

/-- What `channelsPositioned` asks of one channel in mode `m`. -/
def Channel.Sound (m : ChannelMode) (ch : Channel) : Prop :=
  ch.positioned ∧ (m ≠ .live ∨ ch.anchor = none → ch.speed = 0)

/-- Fraction 0 stands soundly at every anchor. -/
theorem positioned_zero (a : Option Anchor) : positioned a 0 := ⟨Nat.zero_le _, fun _ => rfl⟩

/-- A position on a line asks for the range of the fraction alone. -/
theorem positioned_some (a : Anchor) {fraction : Nat} (h : fraction ≤ 1023) : positioned (some a) fraction :=
  ⟨h, fun e => nomatch e⟩

theorem Channel.reset_sound (m : ChannelMode) : Channel.reset.Sound m :=
  ⟨⟨positioned_zero _, positioned_zero _⟩, fun _ => rfl⟩

/-- The EXCHANGE hold has no part in it. -/
theorem Channel.Sound.of_exchange {m : ChannelMode} {x y : Channel} {b : Bool} (h : x.Sound m)
    (e : y = { x with exchange := b }) : y.Sound m := by
  rw [e]
  exact h

/-- S 0 is sound at every sound position. -/
theorem Channel.Sound.still {m : ChannelMode} {ch : Channel} (h : ch.positioned) (zero : ch.speed = 0) : ch.Sound m :=
  ⟨h, fun _ => zero⟩

/-- A re-anchor and a jump leave a channel sound. -/
theorem Channel.Sound.placeAt {m : ChannelMode} {ch : Channel} (h : ch.Sound m) (f : Fetch) (a : Option Anchor) :
    (ch.placeAt f a).Sound m :=
  .still ⟨positioned_zero a, h.1.2⟩ rfl

/-- A LIVE channel on a line may have any S. -/
theorem Channel.Sound.onLine {ch : Channel} {a : Anchor} (anchor : ch.anchor = some a) (fraction : ch.fraction ≤ 1023)
    (pub : Machine.positioned ch.pub.anchor ch.pub.fraction) : ch.Sound .live :=
  ⟨⟨anchor ▸ positioned_some a fraction, pub⟩, by simp [anchor]⟩

/-! ### Operations that keep the channels sound -/

section
variable {s t : State}

theorem channelsPositioned.congr (h : channelsPositioned s) (channels : t.channels = s.channels)
    (settings : t.settings = s.settings) : channelsPositioned t := by
  intro c
  unfold State.chan
  rw [channels, mode_congr settings]
  exact h c

/-- An operation that changes neither the channels nor the settings. -/
theorem channelsPositioned.keeps (h : channelsPositioned s) {F : Foot} {f : State → State} (k : Keeps F f)
    (channels : F.channels = false := by rfl) (settings : F.settings = false := by rfl) : channelsPositioned (f s) :=
  h.congr (k.channels s channels) (k.settings s settings)

/-- An operation on one channel. -/
theorem channelsPositioned.modChan (h : channelsPositioned s) (c : Chan) {f : Channel → Channel}
    (sound : (s.chan c).Sound (s.mode c) → (f (s.chan c)).Sound (s.mode c)) : channelsPositioned (s.modChan c f) := by
  intro d
  by_cases e : d = c
  · subst e
    rw [State.chan_modChan_self]
    exact sound (h d)
  · rw [State.chan_modChan_ne _ _ e]
    exact h d

/-- An operation on every channel. -/
theorem channelsPositioned.map (h : channelsPositioned s) {f : Channel → Channel}
    (sound : ∀ m ch, Channel.Sound m ch → (f ch).Sound m) (channels : t.channels = s.channels.map f)
    (settings : t.settings = s.settings) : channelsPositioned t := by
  intro c
  unfold State.chan
  rw [channels, Bank.get_map, mode_congr settings]
  exact sound _ _ (h c)

end

/-- An operation keeps every channel sound. -/
def KeepsPositions (f : State → State) : Prop := ∀ s, channelsPositioned s → channelsPositioned (f s)

theorem KeepsPositions.of_keeps {F : Foot} {f : State → State} (k : Keeps F f)
    (channels : F.channels = false := by rfl) (settings : F.settings = false := by rfl) : KeepsPositions f :=
  fun _ h => h.keeps k channels settings

theorem KeepsPositions.forEach {α : Type} {f : α → State → State} (k : ∀ x, KeepsPositions (f x)) (xs : List α) :
    KeepsPositions (forEach xs f) := fun s h =>
  forEach_induct xs (fun x _ t ht => k x t ht) s h

/-! ### The hand ports and the Exchange Unit -/

theorem goChannel_positions (c : Chan) : KeepsPositions (goChannel c) := by
  intro s h
  unfold goChannel
  split
  · exact h.modChan c fun x => x
  · exact h

theorem press_positions (p : PortId) (l : LineId) : KeepsPositions (press p l) := by
  intro s h
  unfold press
  dsimp only
  split
  · split
    case h_1 => exact h
    case h_2 => exact goChannel_positions _ s h
    case h_3 => split; exacts [h.modChan _ fun x => x, h]
    case h_4 => split; exacts [h.modChan _ fun x => x, h]
    case h_9 => exact h.keeps (raise_keeps _)
    case h_10 => split; exacts [h.congr rfl rfl, h]
    all_goals exact h.congr rfl rfl
  · exact h

theorem release_positions (p : PortId) (l : LineId) : KeepsPositions (release p l) := by
  intro s h
  unfold release
  dsimp only
  split
  case h_1 => split; exacts [h, h.modChan _ fun x => x]
  case h_2 => exact h.congr rfl rfl
  all_goals exact h

theorem sampleButton_positions (p : PortId) (levels : Lines) (l : LineId) :
    KeepsPositions (sampleButton p levels l) := by
  intro s h
  unfold sampleButton
  split
  · dsimp only
    split
    · exact h.congr rfl rfl
    · exact press_positions p l _ (h.congr rfl rfl)
    · exact release_positions p l _ (h.congr rfl rfl)
  · exact h

theorem sampleAll_positions (levels : Bank 8 Lines) : KeepsPositions (sampleAll levels) := by
  intro s h
  have port : ∀ p, KeepsPositions (samplePort levels p) := fun p t ht =>
    KeepsPositions.forEach (sampleButton_positions p (levels.get p)) allLines _ (ht.keeps (sampleLever_keeps p))
  unfold sampleAll
  exact (KeepsPositions.forEach port allPorts s h).keeps sampleStrobes_keeps

theorem joinSearch_positions (c : Chan) : KeepsPositions (joinSearch c) := by
  intro s h d
  rw [mode_congr ((joinSearch_keeps c).settings s)]
  exact Channel.Sound.of_exchange (h d) (joinSearch_chan c d s).1

theorem exchangeFrame_positions : KeepsPositions exchangeFrame := by
  intro s h c
  rw [mode_congr (exchangeFrame_keeps.settings s)]
  exact Channel.Sound.of_exchange (h c) (exchangeFrame_chan c s)

theorem endDirectTake_positions (tag : Nat) (r : ReadResult) : KeepsPositions (endDirectTake tag r) := by
  intro s h
  unfold endDirectTake
  split
  · exact h
  · dsimp only
    have ended : ∀ x, channelsPositioned { s with exchange := x } := fun _ => h.congr rfl rfl
    split
    · exact (ended _).keeps (failTake_keeps ..)
    · split
      · split
        · exact ((ended _).keeps (raise_keeps _)).keeps (flip_keeps ..)
        · exact (ended _).keeps (flip_keeps ..)
      · exact ended _

/-- The search completion moves a channel to a line of the story: the fraction stays or becomes 0, and S stays (R68). -/
theorem reanchorMember_positions (k : Slot) (count : Nat) (m : SearchMember) :
    KeepsPositions (reanchorMember k count m) := by
  intro s h
  unfold reanchorMember
  dsimp only
  split
  · exact h
  · split
    · exact h.modChan _ fun ⟨⟨mine, pub⟩, speed⟩ =>
        ⟨⟨positioned_some _ mine.1, pub⟩, fun rest => speed (rest.imp_right fun e => nomatch e)⟩
    · exact channelsPositioned.keeps (h.modChan _ fun ⟨⟨_, pub⟩, speed⟩ =>
        ⟨⟨positioned_zero _, pub⟩, fun rest => speed (rest.imp_right fun e => nomatch e)⟩) (raise_keeps _)

theorem endSearch_positions (members : List SearchMember) : KeepsPositions (endSearch members) := fun _ h =>
  KeepsPositions.forEach (fun m _ ht => ht.modChan m.channel fun x => .still x.1 rfl) _ _ (h.congr rfl rfl)

theorem failSearch_positions (sr : Searcher) (stage : FailedStage) (line : Word) :
    KeepsPositions (failSearch sr stage line) := fun _ h => endSearch_positions _ _ (h.keeps (failTake_keeps ..))

theorem completeSearch_positions (sr : Searcher) (address : Addr) (count : Nat) :
    KeepsPositions (completeSearch sr address count) := fun _ h =>
  endSearch_positions _ _ (KeepsPositions.forEach (reanchorMember_positions _ _) _ _ (h.keeps (flip_keeps ..)))

theorem continueSearch_positions (sr : Searcher) (address : Addr) (count i : Nat) :
    KeepsPositions (continueSearch sr address count i) := by
  intro s h
  unfold continueSearch
  split
  · exact completeSearch_positions sr address count s h
  · exact h.congr rfl rfl

theorem searchVersionRead_positions (tag : Nat) (r : ReadResult) : KeepsPositions (searchVersionRead tag r) := by
  intro s h
  have raised : ∀ (b : Bool) r, channelsPositioned (if b then raise r s else s) := fun b r => 
    h.keeps (f := fun s => if b then raise r s else s) (raiseIf_keeps b r)
  unfold searchVersionRead
  split
  · exact h
  · split
    · exact h
    · split
      · split
        · exact failSearch_positions _ _ _ s h
        · exact continueSearch_positions _ _ _ _ _ (raised _ _)
      · exact h

theorem keyRead_positions (tag : Nat) (r : ReadResult) : KeepsPositions (keyRead tag r) := by
  intro s h
  unfold keyRead
  split
  · exact h
  · split
    · exact h
    · split
      · split
        · exact failSearch_positions _ _ _ s h
        · exact continueSearch_positions _ _ _ _ s h
      · exact h

/-! ### The stages of a LIVE channel's frame event (R26) -/

theorem checkAnchor_positions (c : Chan) (former : List ViewEntry) : KeepsPositions (checkAnchor c former) := by
  intro s h
  have moved := fun a cause => show channelsPositioned (reanchor c a cause s) from
    channelsPositioned.keeps (h.modChan c fun x => x.placeAt s.fetch a) (raise_keeps _)
  unfold checkAnchor
  dsimp only
  split
  · exact h
  · rename_i none _
    exact h.modChan c fun x => .still ⟨positioned_zero _, x.1.2⟩ (x.2 (.inr none))
  · exact moved _ _
  · split
    · split
      · exact h
      · exact moved _ _
    · exact moved _ _

theorem boundaryStage_positions (c : Chan) : KeepsPositions (boundaryStage c) := by
  intro s h
  have held : ∀ b, channelsPositioned (s.modChan c fun ch => { ch with boundary := b }) := fun b =>
    h.modChan c fun x => x
  unfold boundaryStage
  dsimp only
  split
  · exact h
  · split
    · exact h
    · split
      · split
        · exact held _
        · exact h
      · split
        · exact held _
        · exact (held _).keeps (raise_keeps _)

/-- What bounds S leaves a channel sound: S 0 stays 0. -/
theorem Channel.Sound.boundSpeed {m : ChannelMode} {ch : Channel} (h : ch.Sound m) (vmax : Nat) :
    (ch.boundSpeed vmax).Sound m := by
  refine ⟨h.1, fun rest => ?_⟩
  have zero : ch.speed = 0 := h.2 rest
  show (if ch.fullHold then (0 : Int) else clampInt (-vmax) vmax ch.speed) = 0
  rw [zero]
  split
  · rfl
  · unfold clampInt; omega

theorem storyJump_positions (c : Chan) (p : PortId) (j : StoryJump) : KeepsPositions (storyJump c p j) := by
  intro s h
  have refused : ∀ r, channelsPositioned (refuseJump c p j r s) := fun r =>
    channelsPositioned.keeps (h.modChan c fun x => x.boundSpeed _) (raise_keeps _)
  unfold storyJump
  dsimp only
  split
  · exact refused _
  · split
    · exact refused _
    · split
      · exact h.modChan c fun x => x.placeAt _ _
      · exact refused _

theorem advanceReports_positions (c : Chan) (old : Channel) (a : Option Anchor) (demand : Int) (adv : Advance) :
    KeepsPositions (advanceReports c old a demand adv) := by
  intro s h
  obtain ⟨n, e⟩ := advanceReports_chan c old a demand adv s
  exact channelsPositioned.congr (h.modChan c (f := fun ch => { ch with starveCount := n }) fun x => x) e
    ((advanceReports_keeps ..).settings s)

/-- An advance is made from a line, so it ends on one (R42, R57). -/
theorem advanceStage_positions (c : Chan) (demand jog : Int) {s : State} (live : s.mode c = .live)
    (h : channelsPositioned s) : channelsPositioned (advanceStage c demand jog s).2 := by
  unfold advanceStage
  dsimp only
  split
  · exact h
  · rename_i row hrow
    obtain ⟨a, anchor, -⟩ := Option.bind_eq_some_iff.mp hrow
    refine advanceReports_positions _ _ _ _ _ _ (h.modChan c fun x => ?_)
    rw [live]
    exact .onLine ((congrArg (Option.or _) anchor).trans Option.or_some)
      (advance_fraction _ _ _ _ _ _ _ _ _ x.1.1.1) x.1.2

theorem stage4_positions (c : Chan) (g : Handing) {s : State} (live : s.mode c = .live) (h : channelsPositioned s) :
    channelsPositioned (stage4 c g s).2 := by
  have demanded : channelsPositioned (s.modChan c fun ch => { ch with demand := g.demand }) := h.modChan c fun x => x
  unfold stage4
  dsimp only
  split
  · exact storyJump_positions c _ _ _ demanded
  · exact advanceStage_positions c _ _ live demanded

theorem stage5_positions (c : Chan) : KeepsPositions (stage5 c) := by
  intro s h
  unfold stage5
  dsimp only
  split
  · exact (joinSearch_positions c s h).modChan c fun x => .still x.1 rfl
  · exact joinSearch_positions c s h

theorem liveStages_positions (handed : Bank 8 Handed) (c : Chan) {s : State} (live : s.mode c = .live)
    (h : channelsPositioned s) : channelsPositioned (liveStages handed c s).2 := by
  have settled : channelsPositioned (liveSettled handed c s) :=
    boundaryStage_positions c _ (joinSearch_positions c _ (checkAnchor_positions c _ _
      ((h.keeps (evaluate_keeps handed c)).modChan c fun x => x)))
  have settings : (liveSettled handed c s).settings = s.settings := by
    unfold liveSettled
    rw [(boundaryStage_keeps c).settings, (joinSearch_keeps c).settings, (checkAnchor_keeps ..).settings,
      (takeView_keeps c).settings, (evaluate_keeps handed c).settings]
  rw [liveStages_eq]
  exact stage5_positions c _ (stage4_positions c _ ((mode_congr settings c).trans live) settled)

theorem advanceChannels_positions (handed : Bank 8 Handed) (cs : List Chan) {s : State}
    (live : ∀ c ∈ cs, s.mode c = .live) (h : channelsPositioned s) :
    channelsPositioned (advanceChannels handed cs s).2 := by
  rw [advanceChannels_state]
  refine (forEach_induct (P := fun t => t.settings = s.settings ∧ channelsPositioned t) cs ?_ s ⟨rfl, h⟩).2
  exact fun c hc t ⟨settings, ht⟩ => ⟨((liveStages_keeps handed c).settings t).trans settings,
    liveStages_positions handed c ((mode_congr settings c).trans (live c hc)) ht⟩

/-! ### Publications and frame events -/

/-- A publication of a sound position. -/
theorem publish_positions (c : Chan) {pub : Published} (entered : List Entered) (crossings : List Crossing) {s : State}
    (h : channelsPositioned s) (sound : positioned pub.anchor pub.fraction) :
    channelsPositioned (publish c pub entered crossings s) :=
  channelsPositioned.congr (h.modChan c (f := fun ch => { ch with pub := pub, placed := false })
    fun x => ⟨⟨x.1.1, sound⟩, x.2⟩) (publish_channels ..) ((publish_keeps ..).settings s)

theorem stage6_positions (c : Chan) (r : Stage4) : KeepsPositions (stage6 c r) := by
  intro s h
  have settled : channelsPositioned (s.modChan c (Channel.settle s.fetch r.starved)) := h.modChan c fun x => x
  exact publish_positions c _ _ settled (settled c).1.1

/-- A row of a view has an anchor. -/
theorem anchorAtRow_isSome {v : List ViewEntry} {r : Nat} (h : r < viewSize v) : ∃ a, anchorAtRow v r = some a := by
  obtain ⟨x, e⟩ := lineAtRow_of_lt h
  exact ⟨⟨x.1.slot, x.2⟩, by rw [anchorAtRow, e]; rfl⟩

/-- A follower's position is sound when its leader's is: a leader on a line of the view gives a line (R37). -/
theorem derivePosition_positioned (v : List ViewEntry) {leader : Published} (offset : Int)
    (h : positioned leader.anchor leader.fraction) :
    positioned (derivePosition v leader offset).1 (derivePosition v leader offset).2 := by
  unfold derivePosition
  split
  · exact positioned_zero _
  · rename_i r hr
    obtain ⟨a, -, hrow⟩ := Option.bind_eq_some_iff.mp hr
    have inView := viewRow_lt hrow
    dsimp only
    split
    · exact positioned_zero _
    · split
      · obtain ⟨b, e⟩ := anchorAtRow_isSome (v := v) (r := viewSize v - 1) (by omega)
        exact e ▸ positioned_some b (Nat.le_refl _)
      · obtain ⟨b, e⟩ := anchorAtRow_isSome (v := v) (r := ((r : Int) + offset).toNat) (by omega)
        exact e ▸ positioned_some b h.1

theorem followFrame_positions (c : Chan) {s : State} (follow : s.mode c = .follow) (h : channelsPositioned s) :
    channelsPositioned (followFrame c s) := by
  have derived := derivePosition_positioned (s.chan (s.chanSet c).leader).view (s.chanSet c).offset
    (h (s.chanSet c).leader).1.2
  have still : (s.chan c).speed = 0 := (h c).2 (.inl (by simp [follow]))
  refine publish_positions c _ _ (channelsPositioned.modChan (s := clearConsoleJog c s) (h.congr rfl rfl) c fun x =>
    .still ⟨derived, x.1.2⟩ still) ?_
  show positioned (State.chan _ c).anchor (State.chan _ c).fraction
  rw [State.chan_modChan_self]
  exact derived

theorem makePublication_positions (outcomes : Bank 4 Stage4) (c : Chan) :
    KeepsPositions (makePublication outcomes c) := by
  intro s h
  unfold makePublication
  split
  · exact stage6_positions c _ s h
  · exact publish_positions c _ _ (s := clearConsoleJog c s) (h.congr rfl rfl) (positioned_zero _)
  · rename_i follow
    exact followFrame_positions c follow h

theorem channelsFrame_positions : KeepsPositions channelsFrame := by
  intro s h
  rw [channelsFrame_eq]
  have armed : channelsPositioned (armPorts (handAll s).1 (handAll s).2) :=
    (h.keeps handAll_keeps).keeps (armPorts_keeps _)
  refine KeepsPositions.forEach (fun p => .of_keeps (writePortStatus_keeps _ p)) _ _
    (KeepsPositions.forEach (fun c t ht => (makePublication_positions _ c t ht).keeps (needUpdate_keeps c)) _ _
      (advanceChannels_positions _ _ (fun c hc => ?_) armed))
  rw [mode_congr ((armPorts_keeps _).settings _)]
  exact mem_liveChans.mp hc

theorem frameBody_positions : KeepsPositions frameBody := by
  intro s h
  unfold frameBody
  split
  · have channels := (channelsFrame_positions _ (h.keeps announceLock_keeps)).keeps composeHeads_keeps
    unfold runningFrame
    exact (exchangeFrame_positions _ channels).keeps scanFrame_keeps
  · exact h.keeps composeHeads_keeps

theorem freeFrame_positions : KeepsPositions freeFrame := by
  intro s h
  unfold freeFrame
  split
  · exact frameBody_positions _ (h.congr rfl rfl)
  · exact h

theorem lockEdge_positions : KeepsPositions lockEdge := by
  intro s h
  have counted := (h.keeps (modTimebase_keeps Timebase.enterLocked)).keeps countFrame_keeps
  unfold lockEdge
  exact frameBody_positions _ (counted.keeps (raiseRunning_keeps _))

theorem refEdge_positions : KeepsPositions refEdge := by
  intro s h
  unfold refEdge
  split
  · unfold edgeInFree
    split
    · dsimp only
      split
      · exact lockEdge_positions _ (h.congr rfl rfl)
      · exact h.congr rfl rfl
    · exact h
  · unfold edgeInLocked
    split
    · exact frameBody_positions _ (h.congr rfl rfl)
    · exact h.congr rfl rfl

theorem loseLock_positions : KeepsPositions loseLock := by
  intro s h
  have counted := h.keeps countFrame_keeps
  have announced : channelsPositioned
      (if (countFrame s).running then announceLock (countFrame s) else countFrame s) := by
    split
    exacts [counted.keeps announceLock_keeps, counted]
  unfold loseLock
  exact frameBody_positions _ ((announced.keeps (modTimebase_keeps _)).keeps (raiseRunning_keeps _))

theorem windowClose_positions : KeepsPositions windowClose := by
  intro s h
  unfold windowClose
  split
  · dsimp only
    split
    · exact loseLock_positions _ (h.congr rfl rfl)
    · exact frameBody_positions _ (h.congr rfl rfl)
  · exact h

/-! ### The engine, the settings and the commands -/

theorem resetWith_positions (lo hi : Word) (s : State) : channelsPositioned (resetWith lo hi s) := by
  intro c
  show (State.reset.chan c).Sound _
  rw [State.reset_chan]
  exact Channel.reset_sound _

theorem stop_positions : KeepsPositions stop := fun _ h =>
  h.map (f := Channel.stopped) (fun _ _ x => .still x.1 rfl) rfl rfl

theorem beginStart_positions : KeepsPositions beginStart := by
  intro s h
  have started : channelsPositioned (startEffects s) := h.map (f := fun ch => { ch with key := none })
    (fun _ _ x => x) rfl rfl
  unfold beginStart
  dsimp only
  split
  · exact started.keeps (halt_keeps _)
  · exact started.keeps (issueStart_keeps ..)

theorem runWrite_positions (run : Bool) : KeepsPositions (runWrite run) := by
  intro s h
  unfold runWrite
  split
  case h_1 => exact beginStart_positions s h
  case h_4 => exact stop_positions s h
  case h_6 => exact stop_positions s h
  all_goals exact h

theorem engineCtlWrite_positions (run reset look : Bool) : KeepsPositions (engineCtlWrite run reset look) := by
  intro s h
  unfold engineCtlWrite
  split
  · exact resetWith_positions _ _ s
  · split
    · exact (runWrite_positions run s h).keeps lookNowWrite_keeps
    · exact runWrite_positions run s h

theorem registerWrite_positions (offset size : Nat) (w : Word) : KeepsPositions (registerWrite offset size w) := by
  intro s h
  unfold registerWrite
  split
  · exact h.keeps (areaLoTake_keeps w)
  split
  · exact h.keeps (areaHiTake_keeps w)
  split
  · exact engineCtlWrite_positions _ _ _ s h
  split
  · exact h.keeps (irqCauseClear_keeps w)
  · exact h

/-- Each row of the table of R22 leaves a channel sound in its new mode. -/
theorem channelActed_sound {s t : State} {c : Chan} (h : (s.chan c).Sound (s.mode c)) (acted : channelActed s t c) :
    (t.chan c).Sound (t.mode c) := by
  obtain ⟨unchanged, offLive, vacated, offFollow, liveFollow, followLive, followFollow⟩ := acted
  have empty : ∀ (m : ChannelMode) (pressed : Bank 8 (Trio Bool)) (demand : Int) (count : Nat),
      Channel.Sound m { Channel.reset with
        pressed := pressed, placed := true, pub := (s.chan c).pub, demand := demand, starveCount := count } :=
    fun _ _ _ _ => .still ⟨positioned_zero _, h.1.2⟩ rfl
  by_cases change : modeChanges s t c
  · cases was : (s.chanSet c).mode <;> cases now : (t.chanSet c).mode
    case off.off | live.live => simp [modeChanges, was, now] at change
    case off.live => rw [offLive was now]; exact empty ..
    case off.follow => rw [offFollow was now]; exact empty ..
    case live.off => rw [vacated (by simp [was]) now]; exact empty ..
    case follow.off => rw [vacated (by simp [was]) now]; exact empty ..
    case live.follow => rw [liveFollow was now]; exact .still h.1 rfl
    case follow.live => rw [followLive was now]; exact .still h.1 rfl
    case follow.follow =>
      rw [followFollow was now change]
      exact .still h.1 (h.2 (.inl (by simp [State.mode, was])))
  · have mode : t.mode c = s.mode c := by
      by_contra e
      exact change (.inl (Ne.symm e))
    rw [unchanged change, mode]
    exact h

theorem settingsTake_positions (block : List Byte) (inStart : Bool) : KeepsPositions (settingsTake block inStart) :=
  fun s h c => channelActed_sound (h c) ((settingsTake_acted block inStart s).channels c).1

theorem startSettingsDone_positions (tag : Nat) (bytes : List Byte) : KeepsPositions (startSettingsDone tag bytes) := by
  intro s h
  unfold startSettingsDone
  split
  · split
    · exact (settingsTake_positions bytes true s h).keeps beginFullTake_keeps
    · exact h
  · exact h

/-- The effect of a command keeps every channel sound. -/
def CommandKeepsPositions (act : State → CommandResult × State) : Prop := 
  ∀ s, channelsPositioned s → channelsPositioned (act s).2

theorem jumpCommand_positions (channel story line : Word) :
    CommandKeepsPositions (jumpCommand channel story line) := by
  intro s h
  unfold jumpCommand
  split
  · unfold jumpChecked
    split
    · exact h
    · split
      · exact h
      · split
        · exact h
        · exact joinSearch_positions _ _ (h.modChan _ fun x => x.placeAt _ _)
  · exact h

theorem nudgeCommand_positions (channel rows : Word) : CommandKeepsPositions (nudgeCommand channel rows) := by
  intro s h
  unfold nudgeCommand
  split
  · exact h
  · split
    · exact h
    · exact h.congr rfl rfl

theorem setDemandCommand_positions (channel demand : Word) :
    CommandKeepsPositions (setDemandCommand channel demand) := by
  intro s h
  unfold setDemandCommand
  split
  · exact h
  · split
    · exact h
    · exact h.congr rfl rfl

theorem goCommand_positions (channel : Word) : CommandKeepsPositions (goCommand channel) := by
  intro s h
  unfold goCommand
  split
  · exact h
  · split
    · exact goChannel_positions _ s h
    · exact h

theorem freezeCommand_positions (channel on : Word) : CommandKeepsPositions (freezeCommand channel on) := by
  intro s h
  unfold freezeCommand
  split
  · exact h
  · split
    · exact h.modChan _ fun x => x
    · exact h

theorem headBlankCommand_positions (head on : Word) : CommandKeepsPositions (headBlankCommand head on) := by
  intro s h
  unfold headBlankCommand
  split
  · exact h
  · exact h.congr rfl rfl

theorem refreshStoryCommand_positions (story : Word) : CommandKeepsPositions (refreshStoryCommand story) := by
  intro s h
  unfold refreshStoryCommand
  split
  · exact h
  · exact h.keeps (invalidateStory_keeps _)

theorem refuse_positions (r : CommandResult) : CommandKeepsPositions (refuse r) := fun _ h => h

theorem runCommand_positions (n : CmdSlot) (request code : Word) {act : State → CommandResult × State}
    (k : CommandKeepsPositions act) : KeepsPositions (runCommand n request code act) := by
  intro s h
  unfold runCommand
  split
  · exact (k s h).congr rfl rfl
  · exact h

theorem commandAct_positions (x : Command) : CommandKeepsPositions (commandAct x) := by
  unfold commandAct
  split
  · exact jumpCommand_positions _ _ _
  split
  · exact nudgeCommand_positions _ _
  split
  · exact setDemandCommand_positions _ _
  split
  · exact goCommand_positions _
  split
  · exact freezeCommand_positions _ _
  split
  · exact headBlankCommand_positions _ _
  split
  · exact refreshStoryCommand_positions _
  · exact refuse_positions _

theorem completeScan_positions (d : ScanData) : KeepsPositions (completeScan d) := by
  intro s h
  have settings : channelsPositioned (rescanSettings d (rescanShadows d s)) := by
    unfold rescanSettings
    split
    · exact h.keeps (rescanShadows_keeps d)
    · exact settingsTake_positions _ _ _ (h.keeps (rescanShadows_keeps d))
  exact (KeepsPositions.forEach (fun n => runCommand_positions n _ _ (commandAct_positions _)) _ _ settings).keeps
    endScan_keeps

/-! ### Every command -/

/-- A command that runs `f` on the state or leaves it as it is. -/
theorem KeepsPositions.ite {f : State → State} (k : KeepsPositions f) {b : Prop} [Decidable b] {s : State}
    (h : channelsPositioned s) : channelsPositioned (if b then f s else s) := by
  split
  exacts [k s h, h]

/-- What a command answers is the state it gives. -/
theorem positioned_next {s t : State} (run : (Host.Outcome.next s : Host.Outcome State Fault Refusal) = .next t)
    (h : channelsPositioned s) : channelsPositioned t := by
  cases run
  exact h

/-- A read of a line is issued, or none is. -/
theorem fetchIssue_positions : KeepsPositions fun s => (issueOne s).getD s := by
  intro s h
  show channelsPositioned ((issueOne s).getD s)
  cases e : issueOne s with
  | none => exact h
  | some t =>
    have channels := congrArg State.channels (issueOne_mask e)
    have settings := congrArg State.settings (issueOne_mask e)
    exact channelsPositioned.congr (t := t) h channels settings

theorem exec_positions (i : Instr) {s t : State} (h : channelsPositioned s) (run : exec i s = .next t) :
    channelsPositioned t := by
  cases i
  case powerOnReset => exact positioned_next run (resetWith_positions _ _ s)
  case startSequence => exact positioned_next run (engineCtlWrite_positions _ _ _ s h)
  case stop => exact positioned_next run (engineCtlWrite_positions _ _ _ s h)
  case softReset => exact positioned_next run (engineCtlWrite_positions _ _ _ s h)
  case lookNow => exact positioned_next run (engineCtlWrite_positions _ _ _ s h)
  case areaLoWrite => exact positioned_next run (h.keeps (areaLoTake_keeps _))
  case areaHiWrite => exact positioned_next run (h.keeps (areaHiTake_keeps _))
  case irqCauseWrite => exact positioned_next run (h.keeps (irqCauseClear_keeps _))
  case registerWriteIgnored => exact positioned_next run (registerWrite_positions _ _ _ s h)
  case areaHeaderReadDone => exact positioned_next run (h.keeps (headerDone_keeps ..))
  case glyphStoreLoadReadDone => exact positioned_next run (h.keeps (glyphReadDone_keeps ..))
  case startSettingsReadDone => exact positioned_next run (startSettingsDone_positions _ _ s h)
  case startReadFault => exact positioned_next run (h.keeps (startFault_keeps _))
  case fullTake => exact positioned_next run (h.keeps (fullTakeDone_keeps ..))
  case frameEvent => exact positioned_next run (freeFrame_positions s h)
  case refEdge => exact positioned_next run (refEdge_positions s h)
  case refLock => exact positioned_next run (refEdge_positions.ite h)
  case refWindowClose => exact positioned_next run (windowClose_positions s h)
  case refLossMissed => exact positioned_next run (windowClose_positions.ite h)
  case sampleEvent => exact positioned_next run (sampleAll_positions _ s h)
  case quadratureSample => exact positioned_next run (h.keeps (quadratureAt_keeps ..))
  case leverEdge => exact positioned_next run (h.keeps (leverEdgeAt_keeps ..))
  case leverAcquired => exact positioned_next run ((KeepsPositions.of_keeps (leverEdgeAt_keeps ..)).ite h)
  case leverInvalidLost => exact positioned_next run ((KeepsPositions.of_keeps (leverEdgeAt_keeps ..)).ite h)
  case leverLossTimeout => exact positioned_next run ((sampleAll_positions _).ite h)
  case buttonDebounceAccept => exact positioned_next run ((sampleAll_positions _).ite h)
  case strobeExpiry => exact positioned_next run ((sampleAll_positions _).ite h)
  case quietRelease => exact positioned_next run (freeFrame_positions.ite h)
  case fetchIssue => exact positioned_next run (fetchIssue_positions s h)
  case fetchCompletion => exact positioned_next run (h.keeps (fetchComplete_keeps ..))
  case statusWriteComplete => exact positioned_next run (h.keeps (writeDone_keeps ..))
  case scanCompletion => exact positioned_next run ((completeScan_positions _).ite h)
  case scanReadFault tag which =>
    cases which <;> exact positioned_next run ((KeepsPositions.of_keeps (halt_keeps _)).ite h)
  case settingsWriteComplete => exact positioned_next run (h.keeps (writeDone_keeps ..))
  case jump => exact positioned_next run (runCommand_positions _ _ _ (jumpCommand_positions _ _ _) s h)
  case nudge => exact positioned_next run (runCommand_positions _ _ _ (nudgeCommand_positions _ _) s h)
  case setDemand => exact positioned_next run (runCommand_positions _ _ _ (setDemandCommand_positions _ _) s h)
  case go => exact positioned_next run (runCommand_positions _ _ _ (goCommand_positions _) s h)
  case freeze => exact positioned_next run (runCommand_positions _ _ _ (freezeCommand_positions _ _) s h)
  case headBlank => exact positioned_next run (runCommand_positions _ _ _ (headBlankCommand_positions _ _) s h)
  case refreshStory => exact positioned_next run (runCommand_positions _ _ _ (refreshStoryCommand_positions _) s h)
  case unknownCommand => exact positioned_next run (runCommand_positions _ _ _ (refuse_positions _) s h)
  case commandResultWriteDone => exact positioned_next run (h.keeps (writeDone_keeps ..))
  case directTakeReadDone => exact positioned_next run (endDirectTake_positions _ _ s h)
  case searchVersionReadDone => exact positioned_next run (searchVersionRead_positions _ _ s h)
  case keyReadDone => exact positioned_next run (keyRead_positions _ _ s h)
  case exchangeWriteDone => exact positioned_next run (h.keeps (writeDone_keeps ..))
  case rundownListReadDone => exact positioned_next run (h.keeps (rundownRead_keeps ..))
  case rundownWriteDone => exact positioned_next run (h.keeps (writeDone_keeps ..))
  case postBegin => exact positioned_next run (h.keeps beginPost_keeps)
  case postReadDone => exact positioned_next run (h.keeps (postReadDone_keeps ..))
  case postWriteDone => exact positioned_next run (h.keeps (postWriteDone_keeps ..))

/-- The reset state stands soundly in every channel. -/
theorem reset_positions : channelsPositioned State.reset := fun c => State.reset_chan c ▸ Channel.reset_sound _

/-- A port after reset has its items in their ranges (R95). -/
theorem Port.reset_inRange : Port.reset.inRange where
  position := by decide
  value := by decide
  validRun := by decide
  invalidRun := by decide
  edgeAge := by decide
  timeLost := by decide
  lostCount := by decide
  errorCount := by decide
  jog := by decide
  standing := by decide
  capture := by decide
  buttons l := by cases l <;> decide

/-- The reset state is STOPPED with nothing in progress (R151, R155). -/
theorem reset_engineConsistent : State.reset.engineConsistent where
  cause := by decide
  start h := nomatch h
  scan h := nomatch h
  exchange h := absurd rfl h
  post _ h := nomatch h
  fetch _ _ h := nomatch h

/-- Settles O4: each block's invariant at its reset value. -/
theorem resetMeetsTheInvariants : Obligations.ResetMeetsTheInvariants where
  reports := ⟨by decide, by decide⟩
  counted _ _ _ _ h := nomatch h
  ports p := State.reset_port p ▸ Port.reset_inRange
  fetch := ⟨by decide, by decide⟩
  channels := reset_positions
  engine := reset_engineConsistent

/-- Settles O8: an idle microsecond changes no channel, and every command keeps each channel sound in its mode. -/
theorem stepKeepsPositions : Obligations.StepKeepsPositions := by
  unfold Obligations.StepKeepsPositions
  intro s t h run
  unfold step at run
  split at run
  · cases run
    exact h.congr rfl rfl
  · rename_i c rest _
    exact exec_positions c (s := { s with pending := rest }) h run

end Sys2Proof.Machine
end

section
/-! PROOFS. What the scroll channels publish at a free-running frame event in RUNNING (R26, R37 to R39): a LIVE channel
after its stages, and a follower from its leader's publication. -/

namespace Sys2Proof.Machine

set_option Elab.async false

/-! ### A LIVE channel, stage by stage -/

/-- What a LIVE channel has published at the end of the frame event is the publication of its own stage 6. -/
theorem freeFrame_live_pub {s : State} {c : Chan} (free : s.timebase.lock = .free) (run : s.engine = .running)
    (live : s.mode c = .live) : ∃ ys xs, liveChans s = ys ++ c :: xs ∧ c ∉ ys ∧ c ∉ xs ∧
    let out := liveStages (handAll s).1 c (beforeStages ys s)
    let ch := out.2.chan c
    ∃ f : Fetch, let settled := ch.settle f out.1.starved
    ((freeFrame s).chan c).pub =
      { mode := .live, leader := (s.chanSet c).leader, anchor := ch.anchor, fraction := ch.fraction, key := settled.key
        speed := ch.speed, demand := ch.demand, holds := ch.holds, latch := ch.latch, atEnd := settled.atEnd
        starve := out.1.starved, starveCount := ch.starveCount, holder := ((freeFrame s).auth c).holder
        frame := s.frame + 1, view := ch.view } := by
  obtain ⟨ys, xs, zs, split, before, after, -, made, chan, -, auth, -⟩ := live_at live
  obtain ⟨x, chanEnd⟩ := freeFrame_chan s free run c
  have holder : (freeFrame s).auth c = (beforePublication zs s).auth c :=
    (congrArg (Bank.get · c) (freeFrame_authority s free run)).trans auth
  have frame : (beforePublication zs s).frame = s.frame + 1 :=
    (congrArg Timebase.frameCounter (beforePublication_timebase zs s)).trans (frameStart_frame s run)
  have leader : (beforePublication zs s).chanSet c = s.chanSet c :=
    chanSet_congr ((beforePublication_keeps zs).settings s) c
  refine ⟨ys, xs, split, before, after, (beforePublication zs s).fetch, ?_⟩
  rw [chanEnd, made, stage6_chan]
  unfold livePublication
  rw [State.chan_modChan_self, chan, ← leader, ← frame, holder]
  rfl

/-- What the arbiter hands a LIVE channel comes from the evaluation before the stages that make its publication. -/
theorem freeFrame_handing_at {s : State} {c : Chan} {ys xs : List Chan} (free : s.timebase.lock = .free)
    (run : s.engine = .running) (live : s.mode c = .live) (split : liveChans s = ys ++ c :: xs) (before : c ∉ ys)
    (after : c ∉ xs) : let out := (evaluate (handAll s).1 c (beforeStages ys s)).1
    s.handing (freeFrame s) c = (out.demand, out.jog, out.jump) := by
  obtain ⟨ys', xs', split', before', hand⟩ := freeFrame_handing free run live
  obtain ⟨rfl, -, -⟩ := (List.append_cons_inj_of_notMem before after).mp (split.symm.trans split')
  exact hand

/-- Every LIVE channel makes a free-running frame event in RUNNING stage by stage (R26). -/
theorem freeFrame_liveFrame {s : State} {c : Chan} (free : s.timebase.lock = .free) (run : s.engine = .running)
    (live : s.mode c = .live) : ∃ r, LiveFrame s (freeFrame s) c r := by
  obtain ⟨ys, xs, split, before, after, f, pub⟩ := freeFrame_live_pub free run live
  have hand := freeFrame_handing_at free run live split before after
  have keeps := beforeStages_keeps ys
  have chan := beforeStages_chan before s
  obtain ⟨y, z, w, key, placed, anchored, bounded, checks, stands, jumped, advanced⟩ :=
    liveStages_stand (s := s) (t := freeFrame s) (u := beforeStages ys s) (c := c) (H := (handAll s).1)
      (by unfold State.isLive; rw [mode_congr (keeps.settings s), live]; rfl) (keeps.settings s) (keeps.stories s)
      (beforeStages_fetch ys s) chan
      (scriptView_congr (keeps.settings s) (keeps.rundown s) (keeps.stories s) (beforeStages_slot ys s) live
        (congrArg Channel.exchange chan))
      (beforeStages_joins before s) rfl ((congrArg Area.engine (keeps.area s)).trans run)
      (congrArg Timebase.frameCounter ((beforeStages_timebase ys s).trans (freeFrame_timebase s free run).symm))
      (beforeStages_posts ys s) (liveStages_after free run split)
  unfold LiveFrame
  rw [hand]
  dsimp only at pub jumped advanced stands ⊢
  rw [stands] at pub
  generalize (liveStages (handAll s).1 c (beforeStages ys s)).1 = outcome at *
  have published : ∀ starved, outcome.starved = starved → livePublished s (freeFrame s) c (scriptView s c) starved
      { w with
        exchange := w.exchange || (!w.exchange && joins s c w.anchor)
        speed := if !w.exchange && joins s c w.anchor then 0 else w.speed } := by
    rintro _ rfl
    unfold livePublished
    rw [pub]
    exact ⟨rfl, rfl, rfl, rfl, rfl, rfl, rfl, rfl, rfl, rfl, rfl, rfl, rfl⟩
  refine ⟨⟨placed, outcome.entered, outcome.crossings⟩, y, z, w, anchored, bounded, checks, ?_, ?_, ?_⟩
  · rw [pub]
    rfl
  · intro p k jump
    obtain ⟨done, acted, still, rfl⟩ := jumped p k jump
    exact ⟨done, acted, published false (still ▸ rfl), still ▸ rfl⟩
  · intro jump
    obtain ⟨rfl, noLine, line⟩ := advanced jump
    refine ⟨fun none => ?_, fun row hrow => ?_⟩
    · obtain ⟨same, still⟩ := noLine none
      exact ⟨same, published false (still ▸ rfl), still ▸ rfl⟩
    · obtain ⟨acted, posts, made⟩ := line row hrow
      exact ⟨acted, posts, published _ (made ▸ rfl), made ▸ rfl⟩

/-! ### A full hold (R32, R43) -/

/-- Stage 2 leaves a channel on a line of the view it takes. -/
theorem anchorChecked_still {former v : List ViewEntry} {x y : Standing} {a : Anchor} {e : ViewEntry}
    (checked : anchorChecked former v x y) (anchor : x.anchor = some a) (entry : entryOf v a.slot = some e)
    (line : a.line < e.count) : y = x :=
  ((checked.2.2 a anchor).2.1 e entry).1 line

/-- Stage 3 decides BOUNDARY alone. -/
theorem boundaryChecked_boundary {v : List ViewEntry} {x y : Standing} {a : Anchor} {e : ViewEntry}
    (checked : boundaryChecked v x y) (anchor : x.anchor = some a) (entry : entryOf v a.slot = some e) :
    ∃ b, y = { x with boundary := b } := by
  obtain ⟨notReady, cleared, kept⟩ := checked.2 a e anchor entry
  cases ready : e.ready with
  | false => exact ⟨_, notReady ready⟩
  | true =>
    by_cases after : ∀ n, nextStory v a.slot = some n → n.ready = true
    · exact ⟨_, cleared ready after⟩
    · push Not at after
      obtain ⟨n, next, closed⟩ := after
      exact ⟨_, kept ready ⟨n, next, Bool.eq_false_iff.mpr closed⟩⟩

/-- A story jump is refused under a full hold, and S is 0. -/
theorem jumpActed_held {s t : State} {c : Chan} {v : List ViewEntry} {freeze : Bool} {p : PortId} {j : StoryJump}
    {done : Bool} {x y : Standing} (acted : jumpActed s t c v freeze p j done x y)
    (held : freeze = true ∨ x.exchange = true) : y = { x with speed := 0 } := by
  obtain ⟨frozen, busy, -⟩ := acted
  have zero : (freeze || x.exchange) = true := by simpa using held
  rw [if_pos zero] at frozen busy
  cases freeze with
  | true => exact (frozen rfl).2.1
  | false => exact (busy rfl (held.resolve_left Bool.false_ne_true)).2.1

/-- An advance under a full hold moves nothing and sets S to 0 (R43). -/
theorem advanceAt_held (s : State) (c : Chan) (v : List ViewEntry) {freeze : Bool} {x : Standing} (d j : Int)
    (row : Nat) (held : freeze = true ∨ x.exchange = true) :
    s.advanceAt c v freeze x d j row = stillAdvance row x.fraction 0 := by
  unfold State.advanceAt advance
  exact if_pos (by simpa using held)

/-- What the frame event of a LIVE channel on a line of its view publishes under a full hold. -/
theorem liveFrame_held {s t : State} {c : Chan} {r : CrossingRecord} {a : Anchor} {e : ViewEntry}
    (frame : LiveFrame s t c r) (held : (s.chan c).freeze = true ∨ (s.chan c).exchange = true)
    (anchor : (s.chan c).anchor = some a) (entry : entryOf (scriptView s c) a.slot = some e) (line : a.line < e.count) :
    (t.chan c).pub.anchor = some a ∧ (t.chan c).pub.fraction = (s.chan c).fraction ∧ (t.chan c).pub.speed = 0 := by
  unfold LiveFrame at frame
  generalize s.handing t c = handing at frame
  obtain ⟨d, j, jump⟩ := handing
  obtain ⟨y, z, w, checked, bounded, -, -, jumped, advanced⟩ := frame
  obtain rfl := anchorChecked_still checked anchor entry line
  obtain ⟨b, hz⟩ := boundaryChecked_boundary bounded anchor entry
  have zAnchor : z.anchor = some a := hz ▸ anchor
  have zFraction : z.fraction = (s.chan c).fraction := hz ▸ rfl
  have zHeld : (s.chan c).freeze = true ∨ z.exchange = true :=
    held.imp_right fun h => by rw [hz]; exact Bool.or_eq_true_iff.mpr (.inl h)
  have rests : ∀ starved, w.anchor = some a → w.fraction = z.fraction → w.speed = 0 →
      livePublished s t c (scriptView s c) starved
        { w with
          exchange := w.exchange || (!w.exchange && joins s c w.anchor)
          speed := if !w.exchange && joins s c w.anchor then 0 else w.speed } →
      (t.chan c).pub.anchor = some a ∧ (t.chan c).pub.fraction = (s.chan c).fraction ∧ (t.chan c).pub.speed = 0 := by
    rintro _ wAnchor wFraction wSpeed ⟨-, -, pubAnchor, pubFraction, pubSpeed, -⟩
    refine ⟨pubAnchor.trans wAnchor, pubFraction.trans (wFraction.trans zFraction), pubSpeed.trans ?_⟩
    simp [wSpeed]
  cases jump with
  | some x =>
    obtain ⟨done, acted, published, -⟩ := jumped x.1 x.2 rfl
    have hw := jumpActed_held acted zHeld
    exact rests _ (hw ▸ zAnchor) (hw ▸ rfl) (hw ▸ rfl) published
  | none =>
    obtain ⟨row, hrow⟩ := viewRow_of_entryOf entry line
    obtain ⟨acted, -, published, -⟩ := (advanced rfl).2 row (by rw [zAnchor]; exact hrow)
    rw [advanceAt_held _ _ _ _ _ _ zHeld] at acted published
    obtain ⟨wAnchor, wFraction, wSpeed, -⟩ := acted
    refine rests _ ?_ wFraction wSpeed published
    rw [wAnchor, show anchorAtRow _ (stillAdvance row z.fraction 0).row = some a from anchorAtRow_viewRow hrow]
    rfl

/-- Settles O32: the frame event of every LIVE channel goes stage by stage, and under a full hold its advance stands
still. -/
theorem fullHoldsStandStill : Obligations.FullHoldsStandStill := by
  unfold Obligations.FullHoldsStandStill
  have staged : ∀ (s t : State) (c : Chan), s.timebase.lock = .free → s.engine = .running → s.mode c = .live →
      exec .frameEvent s = .next t → ∃ r, LiveFrame s t c r := by
    intro s t c free run live next
    cases next
    exact freeFrame_liveFrame free run live
  refine ⟨fun s t c a e free run live held anchor entry line next => ?_, staged⟩
  obtain ⟨r, frame⟩ := staged s t c free run live next
  exact liveFrame_held frame held anchor entry line

/-! ### Followers (R37, R38) -/

/-- What a follower publishes, from its leader's view and publication. -/
theorem followFrame_pub {c : Chan} {s : State} (other : (s.chanSet c).leader ≠ c) :
    let leader := s.chan (s.chanSet c).leader
    let pub := ((followFrame c s).chan c).pub
    pub.speed = leader.pub.speed ∧ pub.holds = .empty ∧ pub.demand = 0 ∧ pub.holder = none ∧
    (pub.anchor, pub.fraction) = derivePosition leader.view leader.pub (s.chanSet c).offset := by
  unfold followFrame
  dsimp only
  rw [State.chan, publish_channels, Bank.get_set_self]
  unfold followPublication
  rw [State.chan_modChan_self]
  refine ⟨?_, rfl, rfl, rfl, rfl⟩
  show (State.chan (State.modChan _ c _) (s.chanSet c).leader).pub.speed = _
  rw [State.chan_modChan_ne _ _ other]
  rfl

/-- A LIVE leader has published before its followers do, and its publication stands at the end of the frame event. -/
theorem leader_published {s : State} {c l : Chan} {ys zs : List Chan} (follow : s.mode c = .follow)
    (live : s.mode l ≠ .follow) (split : frameOrder s = ys ++ c :: zs) :
    (beforePublication ys s).chan l = (beforePublication (frameOrder s) s).chan l := by
  have before : l ∈ ys := leader_before split follow live
  have notAfter : l ∉ c :: zs := by
    have nodup := frameOrder_nodup s
    rw [split] at nodup
    exact fun after => (List.nodup_append.mp nodup).2.2 l before l after rfl
  unfold beforePublication
  rw [split, forEach_append]
  exact (forEach_same (π := fun t => State.chan t l) (c :: zs)
    (fun d hd t => publishChannel_only _ d t l fun e => notAfter (e ▸ hd)) _).symm

/-- Settles O31: the follower publishes after its leader, by R37 on what the leader has published. -/
theorem followersDeriveFromTheirLeaders : Obligations.FollowersDeriveFromTheirLeaders := by
  unfold Obligations.FollowersDeriveFromTheirLeaders
  intro s t c free run follow live next
  cases next
  have other : (s.chanSet c).leader ≠ c := fun e => by rw [e, follow] at live; cases live
  obtain ⟨ys, zs, split, -, made, -⟩ := still_at (by rw [follow]; decide : s.mode c ≠ .live)
  have settings := (beforePublication_keeps ys).settings s
  have set : (beforePublication ys s).chanSet c = s.chanSet c := chanSet_congr settings c
  have making : makePublication (advancedStart s).1 c (beforePublication ys s) =
      followFrame c (beforePublication ys s) := by
    unfold makePublication
    rw [mode_congr settings, follow]
  obtain ⟨x, mine⟩ := freeFrame_chan s free run c
  obtain ⟨x', leads⟩ := freeFrame_chan s free run (s.chanSet c).leader
  have leader := leader_published follow (by rw [live]; decide : s.mode (s.chanSet c).leader ≠ .follow) split
  obtain ⟨speed, holds, demand, holder, position⟩ := followFrame_pub (s := beforePublication ys s) (set ▸ other)
  have pub : ((freeFrame s).chan c).pub = ((followFrame c (beforePublication ys s)).chan c).pub := by
    rw [mine, ← making, ← made]
  have leaderPub : ((freeFrame s).chan (s.chanSet c).leader).pub =
      ((beforePublication ys s).chan (s.chanSet c).leader).pub := by rw [leads, leader]
  have leaderView : ((freeFrame s).chan (s.chanSet c).leader).view =
      ((beforePublication ys s).chan (s.chanSet c).leader).view := by rw [leads, leader]
  rw [set, ← leaderPub] at speed
  rw [set, ← leaderPub, ← leaderView] at position
  dsimp only
  rw [pub]
  refine ⟨speed, holds, demand, holder, fun none => ?_, fun r hr => ?_⟩
  · rw [derivePosition, none] at position
    exact Prod.mk.inj position
  · rw [derivePosition, hr] at position
    dsimp only at position
    refine ⟨fun below => ?_, fun above => ?_, fun low high => ?_⟩
    · rw [if_pos below] at position
      exact Prod.mk.inj position
    · rw [if_neg (by omega), if_pos above] at position
      exact Prod.mk.inj position
    · rw [if_neg (by omega), if_neg (by omega)] at position
      exact Prod.mk.inj position

end Sys2Proof.Machine
end

section
/-! PROOFS. The settings take: the kind and the treatment of each field of the block (R158, R174), the FOLLOW check
(R21), and the settings step of the start sequence (R152). -/

namespace Sys2Proof.Machine

set_option Elab.async false

/-! ### The kinds of the fields (R174) -/

theorem channelField_curve {k : Nat} (low : 7 ≤ k) (high : k ≤ 23) : channelField k = .number 0 16384 := by
  interval_cases k <;> rfl

theorem portField_unread {k : Nat} (low : 19 ≤ k) (high : k ≤ 23) : portField k = .unread := by
  interval_cases k <;> rfl

theorem headField_colour {k : Nat} (low : 8 ≤ k) (high : k ≤ 15) : headField k = .colour := by
  interval_cases k <;> rfl

theorem fieldKind_spare {i : Nat} (low : 306 ≤ i) (high : i ≤ 319) : fieldKind i = .unread := by
  interval_cases i <;> rfl

theorem fieldKind_groupChannel {i : Nat} (low : 416 ≤ i) (high : i ≤ 419) : fieldKind i = .number 0 3 := by
  interval_cases i <;> rfl

theorem fieldKind_groupMode {i : Nat} (low : 420 ≤ i) (high : i ≤ 423) : fieldKind i = .named 2 0 := by
  interval_cases i <;> rfl

theorem fieldKind_mark {i : Nat} (low : 424 ≤ i) (high : i ≤ 439) : fieldKind i = .named 7 0 := by
  interval_cases i <;> rfl

theorem fieldKind_enable {i : Nat} (low : 440 ≤ i) (high : i ≤ 444) : fieldKind i = .onOff := by
  interval_cases i <;> rfl

/-- The bounds of a number are in order, and the reset value of a named field is one of its names. -/
def FieldKind.proper : FieldKind → Bool
  | .number lo hi => decide (lo ≤ hi)
  | .named count reset => decide (reset < count)
  | .onOff => true
  | .colour => true
  | .readingRow => true
  | .unread => true

theorem channelField_proper : ∀ k : Fin 28, (channelField k.val).proper = true := by decide
theorem portField_proper : ∀ k : Fin 24, (portField k.val).proper = true := by decide
theorem headField_proper : ∀ k : Fin 16, (headField k.val).proper = true := by decide

theorem fieldKind_proper (i : Nat) : (fieldKind i).proper = true := by
  unfold fieldKind
  split
  · exact channelField_proper ⟨i % 28, Nat.mod_lt _ (by decide)⟩
  split
  · exact portField_proper ⟨(i - 112) % 24, Nat.mod_lt _ (by decide)⟩
  iterate 3 (split; · rfl)
  split
  · exact headField_proper ⟨(i - 320) % 16, Nat.mod_lt _ (by decide)⟩
  iterate 4 (split; · rfl)
  rfl

theorem channelField_ne_readingRow : ∀ k : Fin 28, channelField k.val ≠ .readingRow := by decide
theorem portField_ne_readingRow : ∀ k : Fin 24, portField k.val ≠ .readingRow := by decide
theorem headField_readingRow : ∀ k : Fin 16, headField k.val = .readingRow → k.val = 3 := by decide

/-- A reading row is the fourth field of a head. -/
theorem fieldKind_readingRow {i : Nat} (kind : fieldKind i = .readingRow) : ∃ h : HeadId, i = 320 + 16 * h.val + 3 := by
  unfold fieldKind at kind
  split at kind
  · exact absurd kind (channelField_ne_readingRow ⟨i % 28, Nat.mod_lt _ (by decide)⟩)
  split at kind
  · exact absurd kind (portField_ne_readingRow ⟨(i - 112) % 24, Nat.mod_lt _ (by decide)⟩)
  iterate 3 (split at kind; · cases kind)
  split at kind
  · have row := headField_readingRow ⟨(i - 320) % 16, Nat.mod_lt _ (by decide)⟩ kind
    dsimp only at row
    exact ⟨⟨(i - 320) / 16, by omega⟩, by dsimp only; omega⟩
  iterate 4 (split at kind; · cases kind)
  cases kind

/-! ### The treatment of a field (R158) -/

theorem clampInt_eq {lo hi : Int} (le : lo ≤ hi) (x : Int) : clampInt lo hi x = max lo (min hi x) := by
  unfold clampInt
  split
  · omega
  · split <;> omega

/-- Clamping changes exactly what lies outside the range. -/
theorem clampInt_ne (lo hi x : Int) : clampInt lo hi x ≠ x ↔ x < lo ∨ hi < x := by
  unfold clampInt
  split
  · omega
  · split <;> omega

theorem number_treated (block : List Byte) {i : Nat} {lo hi : Int} (kind : fieldKind i = .number lo hi) :
    fieldTaken block i = max lo (min hi (fieldWritten block i)) ∧
    (fieldAdjusted block i = true ↔ fieldWritten block i < lo ∨ hi < fieldWritten block i) := by
  have le : lo ≤ hi := by simpa [kind, FieldKind.proper] using fieldKind_proper i
  have taken : fieldTaken block i = clampInt lo hi (fieldWritten block i) := by
    unfold fieldTaken
    rw [kind]
    rfl
  refine ⟨taken.trans (clampInt_eq le _), ?_⟩
  unfold fieldAdjusted
  rw [kind]
  dsimp only
  rw [taken, bne_iff_ne]
  exact clampInt_ne _ _ _

theorem named_treated (block : List Byte) {i n reset : Nat} (kind : fieldKind i = .named n reset) :
    fieldTaken block i =
      (if 0 ≤ fieldWritten block i ∧ fieldWritten block i < n then fieldWritten block i else reset) ∧
    (fieldAdjusted block i = true ↔ fieldWritten block i < 0 ∨ n ≤ fieldWritten block i) := by
  have lt : reset < n := by simpa [kind, FieldKind.proper] using fieldKind_proper i
  have taken : fieldTaken block i =
      if 0 ≤ fieldWritten block i ∧ fieldWritten block i < n then fieldWritten block i else reset := by
    unfold fieldTaken
    rw [kind]
    rfl
  refine ⟨taken, ?_⟩
  unfold fieldAdjusted
  rw [kind]
  dsimp only
  rw [taken, bne_iff_ne]
  split <;> omega

theorem readingRow_treated (block : List Byte) {i : Nat} (kind : fieldKind i = .readingRow) :
    let rows := max 8 (min 32 (fieldWritten block (i - 1)))
    fieldKind (i - 1) = .number 8 32 ∧ fieldTaken block (i - 1) = rows ∧
    fieldTaken block i = max 0 (min (rows - 1) (fieldWritten block i)) ∧
    (fieldAdjusted block i = true ↔ fieldWritten block i < 0 ∨ rows - 1 < fieldWritten block i) := by
  obtain ⟨h, place⟩ := fieldKind_readingRow kind
  have before : fieldKind (i - 1) = .number 8 32 := by
    rw [place]
    exact fieldKind_head h 2 (by decide)
  have rows : rowsTaken block (i - 3) = max 8 (min 32 (fieldWritten block (i - 1))) := by
    unfold rowsTaken
    rw [show i - 3 + 2 = i - 1 by omega]
    exact clampInt_eq (by decide) _
  have le : 0 ≤ max 8 (min 32 (fieldWritten block (i - 1))) - 1 := by omega
  have taken : fieldTaken block i =
      clampInt 0 (max 8 (min 32 (fieldWritten block (i - 1))) - 1) (fieldWritten block i) := by
    rw [← rows]
    unfold fieldTaken
    rw [kind]
  refine ⟨before, (number_treated block before).1, taken.trans (clampInt_eq le _), ?_⟩
  unfold fieldAdjusted
  rw [kind]
  dsimp only
  rw [taken, bne_iff_ne]
  exact clampInt_ne _ _ _

/-- On/off fields, colours and unread fields never count as adjusted. -/
theorem fieldAdjusted_plain (block : List Byte) {i : Nat}
    (kind : fieldKind i = .onOff ∨ fieldKind i = .colour ∨ fieldKind i = .unread) : fieldAdjusted block i = false := by
  unfold fieldAdjusted
  obtain kind | kind | kind := kind <;> rw [kind]

/-! ### The settings of a block (R158, R174, R183) -/

theorem followFails_iff (block : List Byte) (c : Chan) :
    followFails block c = true ↔ FollowOff block c (leaderTaken block c) := by
  simp [followFails, FollowOff]

theorem channelTaken_taken (block : List Byte) (c : Chan) : ChannelTaken block c (channelTaken block c) := by
  have kind := fieldKind_channel c
  refine ⟨?mode, fun off => ?off, fun follows => ?follows, ?leader, rfl, ?vmax, ?accel, ?approach, ?crawl, fun k => ?curve,
    ?authMode, ?releaseTime⟩
  case mode => exact namedBy_taken _ channelModeOf (kind 0 (by decide)) (by decide) (by decide)
  case off => exact if_pos ((followFails_iff block c).mpr off)
  case follows => exact if_neg (mt (followFails_iff block c).mp follows)
  case leader => exact chanOf_number (kind 1 (by decide))
  case vmax => exact natTaken_number (kind 3 (by decide)) (by decide) (by decide)
  case accel => exact natTaken_number (kind 4 (by decide)) (by decide) (by decide)
  case approach => exact natTaken_number (kind 5 (by decide)) (by decide) (by decide)
  case crawl => exact natTaken_number (kind 6 (by decide)) (by decide) (by decide)
  case curve =>
    have place := (kind (7 + k.val) (by omega)).trans (channelField_curve (by omega) (by omega))
    show (((Bank.ofFn fun k : Fin 17 => natTaken block (28 * c.val + 7 + k.val)).get k : Nat) : Int) = _
    rw [Bank.get_ofFn, show 28 * c.val + 7 + k.val = 28 * c.val + (7 + k.val) by omega]
    exact natTaken_number place (by decide) (by decide)
  case authMode => exact namedBy_taken _ authModeOf (kind 24 (by decide)) (by decide) (by decide)
  case releaseTime => exact natTaken_number (kind 25 (by decide)) (by decide) (by decide)

theorem portTaken_taken (block : List Byte) (p : PortId) : PortTaken block p (portTaken block p) := by
  have kind := fieldKind_port p
  have action : ∀ k, k < 24 → portField k = .named 10 0 →
      NamedBy [Action.none, .go, .freezeHold, .freezeToggle, .reverseHold, .storyNext, .storyPrev, .take, .mark, .zero]
        (fieldTaken block (112 + 24 * p.val + k)) (actionOf (natTaken block (112 + 24 * p.val + k))) :=
    fun k hk named => namedBy_taken _ actionOf ((kind k hk).trans named) (by decide) (by decide)
  refine ⟨namedBy_taken _ portModeOf (kind 0 (by decide)) (by decide) (by decide), chanOf_number (kind 1 (by decide)),
    namedBy_taken _ roleOf (kind 2 (by decide)) (by decide) (by decide), onTaken_iff (kind 3 (by decide)),
    onTaken_iff (kind 4 (by decide)), onTaken_iff (kind 5 (by decide)),
    natTaken_number (kind 6 (by decide)) (by decide) (by decide), action 7 (by decide) rfl, action 8 (by decide) rfl,
    action 9 (by decide) rfl, natTaken_number (kind 10 (by decide)) (by decide) (by decide),
    natTaken_number (kind 11 (by decide)) (by decide) (by decide),
    natTaken_number (kind 12 (by decide)) (by decide) (by decide), onTaken_iff (kind 13 (by decide)),
    natTaken_number (kind 14 (by decide)) (by decide) (by decide),
    namedBy_taken _ wheelFunctionOf (kind 15 (by decide)) (by decide) (by decide),
    natTaken_number (kind 16 (by decide)) (by decide) (by decide),
    natTaken_number (kind 17 (by decide)) (by decide) (by decide),
    namedBy_taken _ lampSelectOf (kind 18 (by decide)) (by decide) (by decide)⟩

/-- The reading row taken is not negative. -/
theorem natTaken_readingRow (block : List Byte) {i : Nat} (kind : fieldKind i = .readingRow) :
    (natTaken block i : Int) = fieldTaken block i := by
  obtain ⟨-, -, taken, -⟩ := readingRow_treated block kind
  unfold natTaken
  omega

theorem pairTaken_eq (block : List Byte) (i : Nat) :
    pairTaken block i = ⟨fieldColour block i, fieldColour block (i + 1)⟩ := by
  unfold pairTaken
  rw [colourOf_field, colourOf_field]

theorem headTaken_taken (block : List Byte) (h : HeadId) : HeadTaken block h (headTaken block h) := by
  have kind := fieldKind_head h
  exact ⟨onTaken_iff (kind 0 (by decide)), chanOf_number (kind 1 (by decide)),
    natTaken_number (kind 2 (by decide)) (by decide) (by decide), natTaken_readingRow block (kind 3 (by decide)),
    natTaken_number (kind 4 (by decide)) (by decide) (by decide), onTaken_iff (kind 5 (by decide)),
    onTaken_iff (kind 6 (by decide)), namedBy_taken _ markerOf (kind 7 (by decide)) (by decide) (by decide),
    pairTaken_eq .., pairTaken_eq .., pairTaken_eq .., pairTaken_eq ..⟩

theorem settingsOf_taken (block : List Byte) : BlockTaken block (settingsOf block) := by
  refine ⟨fun c => ?channel, fun p => ?port, namedBy_taken _ frameRateOf (n := 5) (r := 1) rfl (by decide) (by decide),
    namedBy_taken _ refSelectOf (n := 2) (r := 0) rfl (by decide) (by decide), fun h => ?head, fun g => ?groupChannel,
    fun g => ?groupMode, fun m => ?mark, onTaken_iff rfl, onTaken_iff rfl, onTaken_iff rfl, onTaken_iff rfl,
    onTaken_iff rfl⟩
  case channel => exact (Bank.get_ofFn (channelTaken block) c).symm ▸ channelTaken_taken block c
  case port => exact (Bank.get_ofFn (portTaken block) p).symm ▸ portTaken_taken block p
  case head => exact (Bank.get_ofFn (headTaken block) h).symm ▸ headTaken_taken block h
  case groupChannel =>
    rw [settingsOf, Bank.get_ofFn]
    exact chanOf_number (fieldKind_groupChannel (by omega) (by omega))
  case groupMode =>
    rw [settingsOf, Bank.get_ofFn]
    exact namedBy_taken _ groupModeOf (fieldKind_groupMode (by omega) (by omega)) (by decide) (by decide)
  case mark =>
    rw [settingsOf, Bank.get_ofFn]
    exact namedBy_taken _ markSelectOf (fieldKind_mark (by omega) (by omega)) (by decide) (by decide)

theorem settingsOf_channel (block : List Byte) (c : Chan) : (settingsOf block).channels.get c = channelTaken block c :=
  Bank.get_ofFn ..

/-! ### The adjusted indices (R21, R158, R162) -/

theorem adjustedIndices_increase (block : List Byte) : (adjustedIndices block).Pairwise (· < ·) :=
  List.pairwise_lt_range.filter _

theorem mem_adjustedIndices (block : List Byte) (i : Nat) : i ∈ adjustedIndices block ↔ i < 445 ∧
    (fieldAdjusted block i = true ∨
      ∃ c : Chan, i = 28 * c.val ∧ FollowOff block c ((settingsOf block).channels.get c).leader) := by
  have off : ∀ c, followFails block c = true ↔ FollowOff block c ((settingsOf block).channels.get c).leader := fun c => by
    rw [settingsOf_channel]
    exact followFails_iff block c
  simp only [adjustedIndices, List.mem_filter, List.mem_range, indexAdjusted, Bool.or_eq_true, List.any_eq_true,
    mem_allChans, true_and, Bool.and_eq_true, beq_iff_eq, off]

/-- Settles O26: the kinds by their place, the settings field by field, the adjusted indices, and the treatment of each
kind. -/
theorem settingsFieldsAreTreated : Obligations.SettingsFieldsAreTreated := by
  unfold Obligations.SettingsFieldsAreTreated
  refine ⟨fun c => ?channel, fun p => ?port, ⟨rfl, rfl, fun _ => fieldKind_spare⟩, fun h => ?head,
    fun i => ⟨fieldKind_groupChannel, fieldKind_groupMode, fieldKind_mark, fieldKind_enable⟩, settingsOf_taken,
    fun block => ⟨adjustedIndices_increase block, mem_adjustedIndices block⟩, fun block i => ?treated⟩
  case channel =>
    have kind := fieldKind_channel c
    exact ⟨kind 0 (by decide), kind 1 (by decide), kind 2 (by decide), kind 3 (by decide), kind 4 (by decide),
      kind 5 (by decide), kind 6 (by decide),
      fun k low high => (kind k (by omega)).trans (channelField_curve low high), kind 24 (by decide),
      kind 25 (by decide), kind 26 (by decide), kind 27 (by decide)⟩
  case port =>
    have kind := fieldKind_port p
    exact ⟨kind 0 (by decide), kind 1 (by decide), kind 2 (by decide), kind 3 (by decide), kind 4 (by decide),
      kind 5 (by decide), kind 6 (by decide), kind 7 (by decide), kind 8 (by decide), kind 9 (by decide),
      kind 10 (by decide), kind 11 (by decide), kind 12 (by decide), kind 13 (by decide), kind 14 (by decide),
      kind 15 (by decide), kind 16 (by decide), kind 17 (by decide), kind 18 (by decide),
      fun k low high => (kind k (by omega)).trans (portField_unread low high)⟩
  case head =>
    have kind := fieldKind_head h
    exact ⟨kind 0 (by decide), kind 1 (by decide), kind 2 (by decide), kind 3 (by decide), kind 4 (by decide),
      kind 5 (by decide), kind 6 (by decide), kind 7 (by decide),
      fun k low high => (kind k (by omega)).trans (headField_colour low high)⟩
  case treated =>
    exact ⟨rfl, rfl, fun _ _ => number_treated block, fun _ _ => named_treated block,
      fun kind => ⟨onTaken_iff kind, fieldAdjusted_plain block (.inl kind)⟩,
      fun kind => fieldAdjusted_plain block (.inr (.inl kind)), fun kind => fieldAdjusted_plain block (.inr (.inr kind)),
      readingRow_treated block⟩

/-! ### The FOLLOW check (R21) -/

/-- The mode of a channel after the FOLLOW check. -/
theorem channelTaken_mode (block : List Byte) (c : Chan) : (channelTaken block c).mode =
    if followFails block c then .off else modeWritten block c := rfl

/-- A channel whose mode is written LIVE is LIVE. -/
theorem channelTaken_live {block : List Byte} {c : Chan} (written : modeWritten block c = .live) :
    (channelTaken block c).mode = .live := by
  rw [channelTaken_mode, followFails, written]
  rfl

/-- Settles O27: a channel is FOLLOW where the check passes, and OFF and counted where it fails. -/
theorem followCheckOfATake : Obligations.FollowCheckOfATake := by
  unfold Obligations.FollowCheckOfATake
  intro block c
  dsimp only
  rw [settingsOf_channel, settingsOf_channel]
  have leader : (channelTaken block c).leader = leaderTaken block c := rfl
  refine ⟨fun follow => ?_, fun written fails => ?_⟩
  · rw [channelTaken_mode] at follow
    split at follow
    · cases follow
    · rename_i passes
      have := mt (followFails_iff block c).mpr passes
      simp only [FollowOff, follow, true_and, not_or, not_not] at this
      exact ⟨leader ▸ this.1, channelTaken_live (leader ▸ this.2)⟩
  · have off : FollowOff block c (leaderTaken block c) := ⟨written, leader ▸ fails⟩
    refine ⟨?_, (mem_adjustedIndices block _).mpr ⟨by omega, .inr ⟨c, rfl, ?_⟩⟩⟩
    · rw [channelTaken_mode, if_pos ((followFails_iff block c).mpr off)]
    · rw [settingsOf_channel]
      exact off

/-! ### The settings step of the start sequence (R152) -/

/-- Settles O24: the settings take of the block read, and the reads of the full take begun after it. -/
theorem startTakesTheSettings : Obligations.StartTakesTheSettings := by
  unfold Obligations.StartTakesTheSettings
  intro tag bytes s r start name
  have keeps := settingsTake_keeps bytes true
  have area := settingsTake_area bytes true s
  obtain ⟨writes, nextTag⟩ := settingsTake_writes bytes true s
  obtain ⟨-, -, posts⟩ := settingsTake_posts bytes true s
  have done : startSettingsDone tag bytes s = beginFullTake (settingsTake bytes true s) := by
    unfold startSettingsDone
    rw [start]
    exact if_pos name
  have acted : SettingsActed s (beginFullTake (settingsTake bytes true s)) :=
    (settingsTake_acted bytes true s).congr ⟨rfl, rfl, rfl, rfl, rfl, rfl, rfl, rfl, rfl, rfl⟩
      ⟨rfl, rfl, rfl, rfl, rfl, rfl, rfl, rfl, rfl⟩
  refine ⟨beginFullTake (settingsTake bytes true s), congrArg Host.Outcome.next done, settingsTake_settings bytes true s,
    ?area, writes, acted, posts, keeps.stories s, keeps.rundown s, keeps.fetch s,
    keeps.heads s, keeps.glyphs s, keeps.pending s, congrArg (· + 1) nextTag⟩
  case area =>
    unfold beginFullTake State.fullTakeReads State.entryReads State.commandReads State.entryAddress State.areaAddress
    rw [nextTag, area]
    rfl

end Sys2Proof.Machine
end

section
/-! PROOFS. The stop (R153) and what each block keeps or clears at it (R23, R72, R90, R95, R111), and the commands of the
command slots (R159, R160): what an accepted one does, and what the others leave. -/

namespace Sys2Proof.Machine

set_option Elab.async false

/-! ### The Fetch Unit's reads in flight (R87, R90) -/

/-- An entry that does not wait, made stale. -/
theorem QueueEntry.makeStale_issued {q : QueueEntry} (issued : q.isIssued = true) :
    ∃ r i, q.makeStale.state = .issued r i true := by
  obtain ⟨_, _, _, state⟩ := q
  cases state with
  | waiting => cases issued
  | issued r i stale => exact ⟨r, i, rfl⟩

/-- A stop leaves reads in flight alone in the queue, each of them stale. -/
theorem Fetch.stopped_queue (f : Fetch) : ∀ q ∈ f.stopped.queue, ∃ r i, q.state = .issued r i true := by
  intro q hq
  obtain ⟨p, hp, rfl⟩ := List.mem_map.mp hq
  exact QueueEntry.makeStale_issued (List.mem_filter.mp hp).2

/-- A stop keeps the entries of the Line Cache that no read is filling. -/
theorem Fetch.stopped_held {f : Fetch} {i : Fin 512} {e : CacheEntry} (held : f.cache.get i = .held e)
    (settled : e.state ≠ .filling) : f.stopped.cache.get i = .held e := by
  show (f.cache.map (Place.invalidate (fun _ => true) false)).get i = _
  rw [Bank.get_map, held]
  cases state : e.state with
  | filling => exact absurd state settled
  | resident r => simp [Place.invalidate, state]
  | failed n => simp [Place.invalidate, state]

/-! ### The stop -/

/-- RUN 0 in STARTING or RUNNING is a stop, and LOOK_NOW after it finds the engine STOPPED (R150). -/
theorem engineCtlWrite_stop (look : Bool) {s : State} (on : s.engine = .starting ∨ s.engine = .running) :
    engineCtlWrite false false look s = stop s := by
  have run : runWrite false s = stop s := by
    unfold runWrite
    obtain on | on := on <;> rw [on]
  unfold engineCtlWrite
  rw [run]
  cases look <;> rfl

/-- Settles O16: the stop, block by block. -/
theorem stopDropsTheWork : Obligations.StopDropsTheWork := by
  unfold Obligations.StopDropsTheWork
  intro look s on
  exact ⟨stop s, congrArg Host.Outcome.next (engineCtlWrite_stop look on), rfl, rfl,
    fun c => Bank.get_map .., fun p => Bank.get_map .., fun c => Bank.get_fill .., s.fetch.stopped_queue,
    fun c => Bank.get_fill .., fun i e => Fetch.stopped_held, rfl⟩

/-! ### Operands (R160) -/

theorem natWord_toNat {n : Nat} (h : n < 4294967296) : (natWord n).toNat = n := by
  unfold natWord
  rw [BitVec.toNat_ofNat]
  exact Nat.mod_eq_of_lt h

@[simp] theorem channelOperand_natWord (c : Chan) : channelOperand (natWord c.val) = some c := by
  have toNat := natWord_toNat (n := c.val) (by omega)
  unfold channelOperand
  rw [dif_pos (by omega)]
  exact congrArg some (Fin.ext toNat)

@[simp] theorem headOperand_natWord (h : HeadId) : headOperand (natWord h.val) = some h := by
  have toNat := natWord_toNat (n := h.val) (by omega)
  unfold headOperand
  rw [dif_pos (by omega)]
  exact congrArg some (Fin.ext toNat)

@[simp] theorem storyOperand_natWord (k : Slot) : storyOperand (natWord k.val) = some k := by
  have toNat := natWord_toNat (n := k.val) (by omega)
  unfold storyOperand
  rw [dif_pos (by omega)]
  exact congrArg some (Fin.ext toNat)

/-- A signed operand outside `0..hi` lies above `hi` as an unsigned one. -/
theorem toNat_of_toInt_out {x : Word} {hi : Int} (out : x.toInt < 0 ∨ hi < x.toInt) (small : hi < 2147483648) :
    hi < x.toNat := by
  have bound := x.isLt
  have signed := BitVec.toInt_eq_toNat_cond x
  split at signed <;> omega

theorem channelOperand_out {x : Word} (out : x.toInt < 0 ∨ 3 < x.toInt) : channelOperand x = none :=
  dif_neg (by have := toNat_of_toInt_out out (by decide); omega)

theorem headOperand_out {x : Word} (out : x.toInt < 0 ∨ 5 < x.toInt) : headOperand x = none :=
  dif_neg (by have := toNat_of_toInt_out out (by decide); omega)

theorem storyOperand_out {x : Word} (out : x.toInt < 0 ∨ 255 < x.toInt) : storyOperand x = none :=
  dif_neg (by have := toNat_of_toInt_out out (by decide); omega)

/-- The line a JUMP goes to, and its result (R35). -/
theorem lineOperand_eq (count : Nat) (line : Word) : lineOperand count line =
    (if line.toInt < 0 then 0 else min line.toNat (count - 1),
      if line.toInt < 0 ∨ count ≤ line.toNat then .clamped else .ok) := by
  unfold lineOperand
  by_cases negative : line.toInt < 0
  · simp [negative]
  · by_cases high : count ≤ line.toNat
    · simp [negative, high, show min line.toNat (count - 1) = count - 1 by omega]
    · simp [negative, high, show min line.toNat (count - 1) = line.toNat by omega]

/-! ### Execution and the answer (R159) -/

section
variable {n : CmdSlot} {request code : Word} {act : State → CommandResult × State} {s : State}

/-- A fresh slot of a RUNNING engine is executed and answered. -/
theorem runCommand_executed (run : s.engine = .running) (fresh : s.area.commandDone.get n ≠ request) :
    runCommand n request code act s = answerCommand n request code (act s).1 (act s).2 := by
  unfold runCommand
  exact if_pos (by simp [State.running, run, isFresh, fresh])

/-- A slot that is not fresh, and any outside RUNNING, is not executed. -/
theorem runCommand_idle (idle : s.engine ≠ .running ∨ s.area.commandDone.get n = request) :
    runCommand n request code act s = s := by
  unfold runCommand
  refine if_neg ?_
  obtain off | stale := idle
  · simp [State.running, off]
  · simp [isFresh, stale]

/-- A refused command changes nothing but the answer. -/
theorem runCommand_refused {r : CommandResult} (run : s.engine = .running)
    (fresh : s.area.commandDone.get n ≠ request) (refused : act s = refuse r s) :
    runCommand n request code act s = answerCommand n request code r s := by
  rw [runCommand_executed run fresh, refused]
  rfl

end

/-! ### The commands -/

theorem jumpCommand_checked (c : Chan) (k : Slot) (line : Word) (s : State) :
    jumpCommand (natWord c.val) (natWord k.val) line s = jumpChecked c k line s := by
  unfold jumpCommand
  rw [channelOperand_natWord, storyOperand_natWord]

theorem jumpCommand_out {channel story : Word} (line : Word) (s : State)
    (out : channelOperand channel = none ∨ storyOperand story = none) :
    jumpCommand channel story line s = refuse .badTarget s := by
  unfold jumpCommand
  split
  · rename_i c k hc hk
    rw [hc, hk] at out
    simp at out
  · rfl

section
variable {c : Chan} {s : State}

theorem jumpChecked_notLive (k : Slot) (line : Word) (mode : s.mode c ≠ .live) :
    jumpChecked c k line s = refuse .wrongState s := if_pos mode

theorem jumpChecked_held {r : CommandResult} (k : Slot) (line : Word) (live : s.mode c = .live)
    (held : holdRefusal (s.chan c) = some r) : jumpChecked c k line s = refuse r s := by
  unfold jumpChecked
  rw [if_neg (not_not.mpr live), held]

theorem jumpChecked_noStory {k : Slot} (line : Word) (live : s.mode c = .live)
    (free : holdRefusal (s.chan c) = none) (none : jumpEntry s c k = none) :
    jumpChecked c k line s = refuse .badTarget s := by
  unfold jumpChecked
  rw [if_neg (not_not.mpr live), free]
  dsimp only
  rw [none]

theorem jumpChecked_accepted {k : Slot} {e : ViewEntry} (line : Word) (live : s.mode c = .live)
    (free : holdRefusal (s.chan c) = none) (entry : jumpEntry s c k = some e) : jumpChecked c k line s =
      ((lineOperand e.count line).2, placeJump c k (lineOperand e.count line).1 s) := by
  unfold jumpChecked
  rw [if_neg (not_not.mpr live), free]
  dsimp only
  rw [entry]

theorem holdRefusal_free {ch : Channel} (freeze : ch.freeze = false) (exchange : ch.exchange = false) :
    holdRefusal ch = none := by
  simp [holdRefusal, freeze, exchange]

theorem nudgeCommand_refused {r : CommandResult} (rows : Word) (refusal : consoleRefusal s c = some r) :
    nudgeCommand (natWord c.val) rows s = refuse r s := by
  unfold nudgeCommand
  rw [channelOperand_natWord]
  dsimp only
  rw [refusal]

theorem setDemandCommand_refused {r : CommandResult} (demand : Word) (refusal : consoleRefusal s c = some r) :
    setDemandCommand (natWord c.val) demand s = refuse r s := by
  unfold setDemandCommand
  rw [channelOperand_natWord]
  dsimp only
  rw [refusal]

theorem consoleRefusal_notLive (mode : s.mode c ≠ .live) : consoleRefusal s c = some .wrongState := if_pos mode

theorem consoleRefusal_presenter (live : s.mode c = .live) (presenter : (s.chanSet c).authMode = .presenter) :
    consoleRefusal s c = some .noAuthority := by
  unfold consoleRefusal
  rw [if_neg (not_not.mpr live), presenter]
  rfl

theorem goCommand_live (live : s.mode c = .live) : goCommand (natWord c.val) s =
    (.ok, { s with channels := s.channels.set c { s.chan c with cue := false } }) := by
  unfold goCommand
  rw [channelOperand_natWord]
  dsimp only
  rw [if_pos live]
  unfold goChannel State.isLive
  rw [live]
  rfl

theorem goCommand_notLive (mode : s.mode c ≠ .live) : goCommand (natWord c.val) s = refuse .wrongState s := by
  unfold goCommand
  rw [channelOperand_natWord]
  exact if_neg mode

theorem freezeCommand_live (on : Word) (live : s.mode c = .live) : freezeCommand (natWord c.val) on s =
    (.ok, { s with channels := s.channels.set c { s.chan c with latch := on != 0 } }) := by
  unfold freezeCommand
  rw [channelOperand_natWord]
  exact if_pos live

theorem freezeCommand_notLive (on : Word) (mode : s.mode c ≠ .live) :
    freezeCommand (natWord c.val) on s = refuse .wrongState s := by
  unfold freezeCommand
  rw [channelOperand_natWord]
  exact if_neg mode

end

theorem headBlankCommand_inRange (h : HeadId) (on : Word) (s : State) : headBlankCommand (natWord h.val) on s =
    (.ok, { s with heads := s.heads.set h { s.head h with blank := on != 0 } }) := by
  unfold headBlankCommand
  rw [headOperand_natWord]
  rfl

theorem refreshStoryCommand_inRange (k : Slot) (s : State) :
    refreshStoryCommand (natWord k.val) s = (.ok, invalidateStory k s) := by
  unfold refreshStoryCommand
  rw [storyOperand_natWord]

/-! ### JUMP (R35) -/

/-- A placed JUMP changes the channels and the key search alone. -/
theorem placeJump_keeps (c : Chan) (k : Slot) (line : Nat) :
    Keeps { exchange := true, channels := true } (placeJump c k line) :=
  ⟨fun _ => Eq.trans ((joinSearch_keeps c).on _) rfl⟩

theorem placeJump_other {c d : Chan} (k : Slot) (line : Nat) (s : State) (other : d ≠ c) :
    (placeJump c k line s).chan d = s.chan d :=
  (joinSearch_only c _ d other).trans (State.chan_modChan_ne _ _ other)

/-- The anchor of a placed JUMP, with the fraction and S 0, CUE and BOUNDARY away, and EXCHANGE where the story is being
searched without the channel (R33). -/
theorem placeJump_chan {c : Chan} (k : Slot) (line : Nat) {s : State} (live : s.mode c = .live)
    (exchange : (s.chan c).exchange = false) : (placeJump c k line s).chan c = { s.chan c with
      anchor := some ⟨k, line⟩, fraction := 0, speed := 0, cue := false, boundary := false
      key := if (s.chan c).anchor = some ⟨k, line⟩ then (s.chan c).key else (s.fetch.record k line).map (·.key)
      placed := true
      exchange := (s.exchange.searcher).any (·.slot == k) && !(s.exchange.searcher).any
        (fun sr => sr.members.any (·.channel == c)) } := by
  have test : joinTest (some k) c s = ((s.exchange.searcher).any (·.slot == k) &&
      !(s.exchange.searcher).any fun sr => sr.members.any (·.channel == c)) := by
    unfold joinTest
    cases s.exchange.searcher with
    | none => rfl
    | some sr => simp [Bool.beq_comm (a := k)]
  rw [placeJump, joinSearch_self c (s.modChan c _) live, State.chan_modChan_self, ← test]
  show { Channel.placeAt s.fetch (some ⟨k, line⟩) (s.chan c) with
    exchange := (s.chan c).exchange || joinTest (some k) c s } = _
  rw [exchange, Bool.false_or]
  unfold Channel.placeAt Channel.moveTo
  simp only [eq_comm (a := some (⟨k, line⟩ : Anchor)), Fetch.keyOf]

/-- The answer after an effect on the channels and the key search. -/
theorem answerCommand_eq {n : CmdSlot} {request code : Word} {r : CommandResult} {s x : State}
    (effect : x.mask { exchange := true, channels := true } = s.mask { exchange := true, channels := true }) :
    answerCommand n request code r x = { s with
      channels := x.channels, exchange := x.exchange, nextTag := s.nextTag + 1
      area := { s.area with commandDone := s.area.commandDone.set n request }
      writes := s.writes ++ [⟨s.nextTag, .commandResult n, s.areaAddress s.area.header.commands (32 * n.val + 20),
        wordBytes request ++ wordBytes (natWord r.code),
        some ⟨14, .commandDone, natWord n.val, code, natWord r.code, request⟩⟩] } := by
  obtain ⟨channels, exchange, rfl⟩ : ∃ a b, x = { s with channels := a, exchange := b } := ⟨_, _, mask_eq effect⟩
  rfl

/-- Settles O50: the checks pass, the anchor is placed on the clamped line, and the slot is answered. -/
theorem jumpPlacesTheAnchor : Obligations.JumpPlacesTheAnchor := by
  unfold Obligations.JumpPlacesTheAnchor
  intro n request line c k e s run fresh live freeze exchange entry ready placed result
  have found : jumpEntry s c k = some e := by rw [jumpEntry, if_pos ready, entry]
  have accepted := jumpChecked_accepted line live (holdRefusal_free freeze exchange) found
  rw [lineOperand_eq, ← jumpCommand_checked] at accepted
  have executed := runCommand_executed (code := 1) (act := jumpCommand (natWord c.val) (natWord k.val) line) run fresh
  rw [accepted, answerCommand_eq ((placeJump_keeps c k placed).same s)] at executed
  exact ⟨_, congrArg Host.Outcome.next executed, placeJump_chan k placed live exchange,
    fun c' other => placeJump_other k placed s other, rfl⟩

/-! ### The other commands -/

/-- An invalidation of one story, place by place (R87). -/
theorem Fetch.invalidate_cache (f : Fetch) (k : Slot) (i : Fin 512) : (f.invalidate (· == k)).cache.get i =
    match f.cache.get i with
    | .held ⟨slot, line, state, m, last, failures⟩ =>
      if slot ≠ k then .held ⟨slot, line, state, m, last, failures⟩
      else if state = .filling then .withdrawn else .free
    | x => x := by
  show (f.cache.map (Place.invalidate (· == k) true)).get i = _
  rw [Bank.get_map]
  cases f.cache.get i with
  | free => rfl
  | withdrawn => rfl
  | held e =>
    obtain ⟨slot, line, state, m, last, failures⟩ := e
    by_cases mine : slot = k
    · cases state <;> simp [Place.invalidate, mine]
    · simp [Place.invalidate, mine]

/-- An invalidation of one story, entry of the queue by entry (R87). -/
theorem Fetch.invalidate_queue (f : Fetch) (k : Slot) : (f.invalidate (· == k)).queue = f.queue.filterMap fun q =>
    if q.slot ≠ k then some q
    else match q.state with
      | .waiting => none
      | .issued r i _ => some { q with state := .issued r i true } := by
  show (f.queue.filter _).map _ = _
  rw [← List.filterMap_eq_map, ← List.filterMap_eq_filter, List.filterMap_filterMap]
  congr 1
  funext q
  obtain ⟨slot, line, rank, state⟩ := q
  by_cases mine : slot = k
  · cases state <;> simp [mine, QueueEntry.isIssued, QueueEntry.makeStale, Option.guard]
  · simp [mine, Option.guard]

/-- Settles O52: each command is executed with its effect and answered. -/
theorem otherCommandsAct : Obligations.OtherCommandsAct := by
  unfold Obligations.OtherCommandsAct
  intro n request on code c h k s run fresh
  have executed : ∀ (code : Word) (act : State → CommandResult × State) r t, act s = (r, t) →
      (Host.Outcome.next (runCommand n request code act s) : Host.Outcome State Fault Refusal) =
        .next (answerCommand n request code r t) := fun code act r t e => by rw [runCommand_executed run fresh, e]
  refine ⟨fun live => ⟨?go, ?freeze⟩, ?blank, ⟨s.fetch.invalidate (· == k), ?refresh, rfl, s.fetch.invalidate_cache k,
    s.fetch.invalidate_queue k⟩, fun _ => ?unknown⟩
  case go => exact executed 4 _ _ _ (goCommand_live live)
  case freeze => exact executed 5 _ _ _ (freezeCommand_live on live)
  case blank => exact executed 6 _ _ _ (headBlankCommand_inRange h on s)
  case refresh => exact executed 7 _ _ _ (refreshStoryCommand_inRange k s)
  case unknown => exact executed code _ _ _ rfl

/-! ### Refusals -/

/-- Settles O53: a slot that is not to be executed, and then each refusal by the check that makes it. -/
theorem commandRefusals : Obligations.CommandRefusals := by
  unfold Obligations.CommandRefusals
  intro n request x y z c k s
  refine ⟨fun idle => ?_, fun run fresh => ?_⟩
  · have stands : ∀ code act, (Host.Outcome.next (runCommand n request code act s) : Host.Outcome State Fault Refusal) =
        .next s := fun code act => congrArg _ (runCommand_idle idle)
    exact ⟨stands .., stands .., stands .., stands .., stands .., stands .., stands .., stands ..⟩
  · have refused : ∀ code act r, act s = refuse r s →
        (Host.Outcome.next (runCommand n request code act s) : Host.Outcome State Fault Refusal) =
          .next (answerCommand n request code r s) := fun code act r e => congrArg _ (runCommand_refused run fresh e)
    have jump : ∀ r, jumpChecked c k z s = refuse r s →
        exec (.jump n request (natWord c.val) (natWord k.val) z) s = .next (answerCommand n request 1 r s) :=
      fun r e => refused 1 _ r ((jumpCommand_checked c k z s).trans e)
    refine ⟨fun out => ?channel, fun out => ?story, fun out => ?head, fun out => ?refresh, fun mode => ?notLive,
      fun live => ⟨fun freeze => ?frozen, fun freeze exchange => ?busy, fun freeze exchange none => ?noStory,
        fun presenter => ?presenter⟩⟩
    case channel =>
      have none := channelOperand_out out
      refine ⟨refused 1 _ _ (jumpCommand_out z s (.inl none)), refused 2 _ _ ?_, refused 3 _ _ ?_, refused 4 _ _ ?_,
        refused 5 _ _ ?_⟩
      · rw [nudgeCommand, none]
      · rw [setDemandCommand, none]
      · rw [goCommand, none]
      · rw [freezeCommand, none]
    case story => exact refused 1 _ _ (jumpCommand_out z s (.inr (storyOperand_out out)))
    case head => exact refused 6 _ _ (by rw [headBlankCommand, headOperand_out out])
    case refresh => exact refused 7 _ _ (by rw [refreshStoryCommand, storyOperand_out out])
    case notLive =>
      exact ⟨jump _ (jumpChecked_notLive k z mode),
        refused 2 _ _ (nudgeCommand_refused y (consoleRefusal_notLive mode)),
        refused 3 _ _ (setDemandCommand_refused y (consoleRefusal_notLive mode)),
        refused 4 _ _ (goCommand_notLive mode), refused 5 _ _ (freezeCommand_notLive y mode)⟩
    case frozen => exact jump _ (jumpChecked_held k z live (by simp [holdRefusal, freeze]))
    case busy => exact jump _ (jumpChecked_held k z live (by simp [holdRefusal, freeze, exchange]))
    case noStory =>
      refine jump _ (jumpChecked_noStory z live (holdRefusal_free freeze exchange) ?_)
      unfold jumpEntry
      obtain absent | notReady := none
      · rw [absent, ite_self]
      · rw [notReady]
        rfl
    case presenter =>
      have refusal := consoleRefusal_presenter live presenter
      exact ⟨refused 2 _ _ (nudgeCommand_refused y refusal), refused 3 _ _ (setDemandCommand_refused y refusal)⟩

end Sys2Proof.Machine
end

section
/-! PROOFS. The sample event and the actions of the button lines (R102 to R105, R32): what the sampling of one line does,
what the sampling of the other lines leaves of it, and what an accepted press or release comes to. -/

namespace Sys2Proof.Machine

set_option Elab.async false

/-! ### What one line may change -/

/-- What sampling line `m` of port `q` may change from `u` to `v`: of the ports its own alone, of the pressed-line sets and
the reverse set its own line alone, and of the rest only what a press in RUNNING does. -/
structure LineEffect (q : PortId) (m : LineId) (u v : State) : Prop where
  settings : v.settings = u.settings
  area : v.area = u.area
  timebase : v.timebase = u.timebase
  ports : ∀ p, p ≠ q → v.port p = u.port p
  button : ∀ l, l ≠ m → (v.port q).buttons.get l = (u.port q).buttons.get l
  reverse : ∀ l, l ≠ m → (v.port q).reverseSet.get l = (u.port q).reverseSet.get l
  take : (u.port q).take = true → (v.port q).take = true
  standing : (u.port q).standing = 0 → (v.port q).standing = 0
  cue : ∀ c, (u.chan c).cue = false → (v.chan c).cue = false
  pressed : ∀ c p l, p ≠ q ∨ l ≠ m → ((v.chan c).pressed.get p).get l = ((u.chan c).pressed.get p).get l
  off : u.engine ≠ .running → (v.port q).take = (u.port q).take ∧ (v.port q).jump = (u.port q).jump ∧
    ∀ c, (v.chan c).latch = (u.chan c).latch ∧ (v.chan c).cue = (u.chan c).cue
  halted : u.engine = .halted → ∀ c, (v.chan c).pressed = (u.chan c).pressed

theorem LineEffect.refl (q : PortId) (m : LineId) (u : State) : LineEffect q m u u where
  settings := rfl
  area := rfl
  timebase := rfl
  ports _ _ := rfl
  button _ _ := rfl
  reverse _ _ := rfl
  take h := h
  standing h := h
  cue _ h := h
  pressed _ _ _ _ := rfl
  off _ := ⟨rfl, rfl, fun _ => ⟨rfl, rfl⟩⟩
  halted _ _ := rfl

theorem LineEffect.trans {q : PortId} {m : LineId} {u v w : State} (h : LineEffect q m u v) (k : LineEffect q m v w) :
    LineEffect q m u w where
  settings := k.settings.trans h.settings
  area := k.area.trans h.area
  timebase := k.timebase.trans h.timebase
  ports p n := (k.ports p n).trans (h.ports p n)
  button l n := (k.button l n).trans (h.button l n)
  reverse l n := (k.reverse l n).trans (h.reverse l n)
  take x := k.take (h.take x)
  standing x := k.standing (h.standing x)
  cue c x := k.cue c (h.cue c x)
  pressed c p l n := (k.pressed c p l n).trans (h.pressed c p l n)
  off x := by
    have engine : v.engine = u.engine := congrArg Area.engine h.area
    obtain ⟨take, jump, chan⟩ := h.off x
    obtain ⟨take', jump', chan'⟩ := k.off (by rwa [engine])
    exact ⟨take'.trans take, jump'.trans jump, fun c => ⟨(chan' c).1.trans (chan c).1, (chan' c).2.trans (chan c).2⟩⟩
  halted x c := by
    have engine : v.engine = u.engine := congrArg Area.engine h.area
    exact (k.halted (engine.trans x) c).trans (h.halted x c)

/-- A report is raised at most. -/
theorem LineEffect.raise (q : PortId) (m : LineId) (r : Report) (u : State) : LineEffect q m u (raise r u) := by
  obtain ⟨-, e⟩ | ⟨-, -, e⟩ | ⟨-, -, e⟩ := raise_cases r u <;> rw [e] <;>
    exact ⟨rfl, rfl, rfl, fun _ _ => rfl, fun _ _ => rfl, fun _ _ => rfl, id, id, fun _ => id, fun _ _ _ _ => rfl,
      fun _ => ⟨rfl, rfl, fun _ => ⟨rfl, rfl⟩⟩, fun _ _ => rfl⟩

/-- A change of the port's own record. -/
theorem LineEffect.port {q : PortId} {m : LineId} {u : State} {f : Port → Port}
    (button : ∀ x l, l ≠ m → (f x).buttons.get l = x.buttons.get l)
    (reverse : ∀ x l, l ≠ m → (f x).reverseSet.get l = x.reverseSet.get l)
    (take : ∀ x, x.take = true → (f x).take = true) (standing : ∀ x, x.standing = 0 → (f x).standing = 0)
    (off : u.engine ≠ .running → ∀ x, (f x).take = x.take ∧ (f x).jump = x.jump) : LineEffect q m u (u.modPort q f) where
  settings := rfl
  area := rfl
  timebase := rfl
  ports p n := u.port_modPort_ne f n
  button l n := by rw [State.port_modPort_self]; exact button _ l n
  reverse l n := by rw [State.port_modPort_self]; exact reverse _ l n
  take h := by rw [State.port_modPort_self]; exact take _ h
  standing h := by rw [State.port_modPort_self]; exact standing _ h
  cue _ h := h
  pressed _ _ _ _ := rfl
  off h := by rw [State.port_modPort_self]; exact ⟨(off h _).1, (off h _).2, fun _ => ⟨rfl, rfl⟩⟩
  halted _ _ := rfl

/-- A change of a channel, in RUNNING or of its pressed-line set out of HALTED. -/
theorem LineEffect.chan {q : PortId} {m : LineId} {u : State} {c : Chan} {f : Channel → Channel}
    (cue : ∀ x, x.cue = false → (f x).cue = false)
    (pressed : ∀ x p l, p ≠ q ∨ l ≠ m → ((f x).pressed.get p).get l = (x.pressed.get p).get l)
    (off : u.engine ≠ .running → ∀ x, (f x).latch = x.latch ∧ (f x).cue = x.cue) (on : u.engine ≠ .halted) :
    LineEffect q m u (u.modChan c f) := by
  have each : ∀ {P : Channel → Channel → Prop}, (∀ x, P x x) → (∀ x, P x (f x)) →
      ∀ d, P (u.chan d) ((u.modChan c f).chan d) := fun same changed d => by
    by_cases e : d = c
    · subst e
      rw [State.chan_modChan_self]
      exact changed _
    · rw [State.chan_modChan_ne _ _ e]
      exact same _
  exact ⟨rfl, rfl, rfl, fun _ _ => rfl, fun _ _ => rfl, fun _ _ => rfl, id, id,
    each (P := fun x y => x.cue = false → y.cue = false) (fun _ => id) cue,
    fun d p l n => each (P := fun x y => (y.pressed.get p).get l = (x.pressed.get p).get l) (fun _ => rfl)
      (fun x => pressed x p l n) d,
    fun h => ⟨rfl, rfl, each (P := fun x y => y.latch = x.latch ∧ y.cue = x.cue) (fun _ => ⟨rfl, rfl⟩) (off h)⟩,
    fun h => absurd h on⟩

/-- A pressed-line set after a change of one line. -/
theorem pressed_set_other {q p : PortId} {m l : LineId} (b : Bank 8 (Trio Bool)) (on : Bool) (other : p ≠ q ∨ l ≠ m) :
    ((b.set q ((b.get q).set m on)).get p).get l = (b.get p).get l := by
  by_cases e : p = q
  · subst e
    rw [Bank.get_set_self, Trio.get_set_ne _ _ (other.resolve_left (not_not.mpr rfl))]
  · rw [Bank.get_set_ne _ _ e]

theorem setPressed_effect {q : PortId} {m : LineId} {u : State} (c : Chan) (on : Bool) (engine : u.engine ≠ .halted) :
    LineEffect q m u (setPressed c q m on u) :=
  .chan (fun _ => id) (fun x _ _ other => pressed_set_other x.pressed on other) (fun _ _ => ⟨rfl, rfl⟩) engine

theorem press_effect (q : PortId) (m : LineId) (u : State) : LineEffect q m u (press q m u) := by
  unfold press
  dsimp only
  split
  · rename_i running
    have run : u.engine = .running := by simpa [State.running] using running
    have on : u.engine ≠ .halted := by rw [run]; decide
    have off : ∀ {A : Prop}, u.engine ≠ .running → A := fun h => absurd run h
    split
    case h_1 => exact .refl q m u
    case h_2 =>
      unfold goChannel
      split
      exacts [.chan (fun _ _ => rfl) (fun _ _ _ _ => rfl) off on, .refl q m u]
    case h_3 => split; exacts [setPressed_effect _ true on, .refl q m u]
    case h_4 => split; exacts [.chan (fun _ => id) (fun _ _ _ _ => rfl) off on, .refl q m u]
    case h_5 => exact .port (fun _ _ _ => rfl) (fun x _ n => Trio.get_set_ne _ _ n) (fun _ => id) (fun _ => id) off
    case h_6 => exact .port (fun _ _ _ => rfl) (fun _ _ _ => rfl) (fun _ => id) (fun _ => id) off
    case h_7 => exact .port (fun _ _ _ => rfl) (fun _ _ _ => rfl) (fun _ => id) (fun _ => id) off
    case h_8 => exact .port (fun _ _ _ => rfl) (fun _ _ _ => rfl) (fun _ _ => rfl) (fun _ => id) off
    case h_9 => exact .raise q m _ u
    case h_10 =>
      split
      exacts [.port (fun _ _ _ => rfl) (fun _ _ _ => rfl) (fun _ => id) (fun _ _ => rfl) off, .refl q m u]
  · exact .refl q m u

theorem release_effect (q : PortId) (m : LineId) (u : State) : LineEffect q m u (release q m u) := by
  unfold release
  dsimp only
  split
  case h_1 =>
    split
    · exact .refl q m u
    · rename_i on
      exact setPressed_effect _ false (by simpa [State.halted] using on)
  case h_2 =>
    exact .port (fun _ _ _ => rfl) (fun x _ n => Trio.get_set_ne _ _ n) (fun _ => id) (fun _ => id)
      fun _ _ => ⟨rfl, rfl⟩
  all_goals exact .refl q m u

/-- The state in which a line's own new level stands. -/
def State.withButton (u : State) (q : PortId) (m : LineId) (b : Button) : State :=
  u.modPort q fun x => { x with buttons := x.buttons.set m b }

theorem withButton_effect (q : PortId) (m : LineId) (b : Button) (u : State) :
    LineEffect q m u (u.withButton q m b) :=
  .port (fun _ _ n => Trio.get_set_ne _ _ n) (fun _ _ _ => rfl) (fun _ => id) (fun _ => id) fun _ _ => ⟨rfl, rfl⟩

/-- What sampling a line does: nothing to a line that is no button, its level alone where no change is accepted, and
else the press or the release besides. -/
theorem sampleButton_cases (q : PortId) (lines : Lines) (m : LineId) (u : State) : ∃ b,
    (accepts u q m lines = false ∧ (sampleButton q lines m u = u ∨ sampleButton q lines m u = u.withButton q m b)) ∨
    (accepts u q m lines = true ∧ (sampleButton q lines m u = press q m (u.withButton q m b) ∨
      sampleButton q lines m u = release q m (u.withButton q m b))) := by
  refine ⟨(((u.port q).buttons.get m).sample (u.portSet q).debounce (u.polarised q m (lines.get m))).1, ?_⟩
  unfold sampleButton accepts
  cases isButton (u.portSet q).mode m with
  | false => exact .inl ⟨rfl, .inl rfl⟩
  | true =>
    simp only [if_true, Bool.true_and, bne_iff_ne]
    split <;> rename_i edge <;> rw [edge]
    · exact .inl ⟨rfl, .inr rfl⟩
    · exact .inr ⟨by decide, .inl rfl⟩
    · exact .inr ⟨by decide, .inr rfl⟩

theorem sampleButton_effect (q : PortId) (lines : Lines) (m : LineId) (u : State) :
    LineEffect q m u (sampleButton q lines m u) := by
  obtain ⟨b, ⟨-, e | e⟩ | ⟨-, e | e⟩⟩ := sampleButton_cases q lines m u <;> rw [e]
  · exact .refl q m u
  · exact withButton_effect q m b u
  · exact (withButton_effect q m b u).trans (press_effect q m _)
  · exact (withButton_effect q m b u).trans (release_effect q m _)

/-! ### What the lever timers change -/

/-- The lever timers of a port change its lever items alone. -/
theorem sampleLever_port (q : PortId) (u : State) : (∀ p, p ≠ q → (sampleLever q u).port p = u.port p) ∧
    let x := u.port q
    let y := (sampleLever q u).port q
    y.buttons = x.buttons ∧ y.reverseSet = x.reverseSet ∧ y.take = x.take ∧ y.jump = x.jump ∧
      y.standing = x.standing := by
  have lost : ∀ v : State, (enterLost q .timeout v).ports = v.ports.set q { v.port q with
      phase := .lost, validRun := 0, timeLost := 0, lostCount := min ((v.port q).lostCount + 1) 65535 } :=
    enterLost_ports q .timeout
  unfold sampleLever State.port
  split
  · dsimp only
    split
    · rw [lost]
      refine ⟨fun p n => ?_, ?_⟩
      · rw [Bank.get_set_ne _ _ n]
        exact State.port_modPort_ne _ _ n
      · rw [Bank.get_set_self, State.port_modPort_self]
        exact ⟨rfl, rfl, rfl, rfl, rfl⟩
    · exact ⟨fun p n => State.port_modPort_ne _ _ n, by
        rw [show (State.modPort u q _).ports.get q = _ from State.port_modPort_self ..]
        exact ⟨rfl, rfl, rfl, rfl, rfl⟩⟩
  · exact ⟨fun _ _ => rfl, rfl, rfl, rfl, rfl, rfl⟩

/-- The lever timers post nothing where no port reaches its loss limit. -/
theorem sampleLever_reports {q : PortId} {u : State} (none : timesOut u q = false) :
    (sampleLever q u).reports = u.reports := by
  unfold sampleLever
  split
  · rw [none]
    rfl
  · rfl

end Sys2Proof.Machine
end

section
/-! PROOFS. The actions of the button lines (R102 to R105, R32): what the sample event leaves of an accepted press or
release, whatever the lever timers and the other lines do in it. -/

namespace Sys2Proof.Machine

set_option Elab.async false

/-! ### What the rest of a sample event leaves of one line -/

/-- What the samplings of everything but line `l` of port `p` leave standing from `u` to `v`; where no other line is
accepted (`alone`) they leave the channels and the port's pending jump besides, and where moreover no port reaches its
loss limit (`quiet`) the reports. -/
structure Elsewhere (p : PortId) (l : LineId) (alone quiet : Prop) (u v : State) : Prop where
  settings : v.settings = u.settings
  area : v.area = u.area
  timebase : v.timebase = u.timebase
  button : (v.port p).buttons.get l = (u.port p).buttons.get l
  reverse : (v.port p).reverseSet.get l = (u.port p).reverseSet.get l
  take : (u.port p).take = true → (v.port p).take = true
  standing : (u.port p).standing = 0 → (v.port p).standing = 0
  cue : ∀ c, (u.chan c).cue = false → (v.chan c).cue = false
  pressed : ∀ c, ((v.chan c).pressed.get p).get l = ((u.chan c).pressed.get p).get l
  off : u.engine ≠ .running → (v.port p).take = (u.port p).take ∧ (v.port p).jump = (u.port p).jump ∧
    ∀ c, (v.chan c).latch = (u.chan c).latch ∧ (v.chan c).cue = (u.chan c).cue
  halted : u.engine = .halted → ∀ c, (v.chan c).pressed = (u.chan c).pressed
  still : alone → v.channels = u.channels ∧ (v.port p).jump = (u.port p).jump
  posts : alone → quiet → v.reports = u.reports

section
variable {p q : PortId} {l m : LineId} {alone quiet : Prop} {levels : Bank 8 Lines} {s u v w : State}

theorem Elsewhere.refl (u : State) : Elsewhere p l alone quiet u u :=
  ⟨rfl, rfl, rfl, rfl, rfl, id, id, fun _ => id, fun _ => rfl, fun _ => ⟨rfl, rfl, fun _ => ⟨rfl, rfl⟩⟩,
    fun _ _ => rfl, fun _ => ⟨rfl, rfl⟩, fun _ _ => rfl⟩

theorem Elsewhere.trans (h : Elsewhere p l alone quiet u v) (k : Elsewhere p l alone quiet v w) :
    Elsewhere p l alone quiet u w where
  settings := k.settings.trans h.settings
  area := k.area.trans h.area
  timebase := k.timebase.trans h.timebase
  button := k.button.trans h.button
  reverse := k.reverse.trans h.reverse
  take x := k.take (h.take x)
  standing x := k.standing (h.standing x)
  cue c x := k.cue c (h.cue c x)
  pressed c := (k.pressed c).trans (h.pressed c)
  off x := by
    have engine : v.engine = u.engine := congrArg Area.engine h.area
    obtain ⟨take, jump, chan⟩ := h.off x
    obtain ⟨take', jump', chan'⟩ := k.off (by rwa [engine])
    exact ⟨take'.trans take, jump'.trans jump, fun c => ⟨(chan' c).1.trans (chan c).1, (chan' c).2.trans (chan c).2⟩⟩
  halted x c := by
    have engine : v.engine = u.engine := congrArg Area.engine h.area
    exact (k.halted (engine.trans x) c).trans (h.halted x c)
  still x := ⟨(k.still x).1.trans (h.still x).1, (k.still x).2.trans (h.still x).2⟩
  posts x y := (k.posts x y).trans (h.posts x y)

theorem Elsewhere.engine (h : Elsewhere p l alone quiet u v) : v.engine = u.engine := congrArg Area.engine h.area

/-- The lever timers of a port leave every line's doing, and post nothing where the port does not reach its loss
limit. -/
theorem sampleLever_elsewhere (none : quiet → timesOut u q = false) :
    Elsewhere p l alone quiet u (sampleLever q u) := by
  have keeps := sampleLever_keeps q
  have port : let x := u.port p
      let y := (sampleLever q u).port p
      y.buttons = x.buttons ∧ y.reverseSet = x.reverseSet ∧ y.take = x.take ∧ y.jump = x.jump ∧
        y.standing = x.standing := by
    by_cases e : p = q
    · subst e
      exact (sampleLever_port p u).2
    · rw [(sampleLever_port q u).1 p e]
      exact ⟨rfl, rfl, rfl, rfl, rfl⟩
  obtain ⟨buttons, reverse, take, jump, standing⟩ := port
  have chan : ∀ c, (sampleLever q u).chan c = u.chan c := fun c => congrArg (·.get c) (keeps.channels u)
  exact ⟨keeps.settings u, keeps.area u, keeps.timebase u, by rw [buttons], by rw [reverse], by rw [take]; exact id,
    by rw [standing]; exact id, fun c => by rw [chan]; exact id, fun c => by rw [chan],
    fun _ => ⟨take, jump, fun c => by rw [chan]; exact ⟨rfl, rfl⟩⟩, fun _ c => by rw [chan],
    fun _ => ⟨keeps.channels u, jump⟩, fun _ h => sampleLever_reports (none h)⟩

/-- Sampling another line leaves this line's doing, and where the other is not accepted it changes its own level
alone. -/
theorem sampleButton_elsewhere (other : p ≠ q ∨ l ≠ m) {lines : Lines} (none : alone → accepts u q m lines = false) :
    Elsewhere p l alone quiet u (sampleButton q lines m u) := by
  have e := sampleButton_effect q lines m u
  have plain : alone → sampleButton q lines m u = u ∨ ∃ b, sampleButton q lines m u = u.withButton q m b := fun h => by
    obtain ⟨b, ⟨-, e | e⟩ | ⟨accepted, -⟩⟩ := sampleButton_cases q lines m u
    · exact .inl e
    · exact .inr ⟨b, e⟩
    · exact absurd ((none h).symm.trans accepted) Bool.false_ne_true
  have own : p = q → l ≠ m := fun h => other.resolve_left (not_not.mpr h)
  have portwise : ∀ {P : Port → Port → Prop}, (∀ x, P x x) →
      (p = q → P (u.port q) ((sampleButton q lines m u).port q)) →
      P (u.port p) ((sampleButton q lines m u).port p) := fun same mine => by
    by_cases h : p = q
    · rw [h]
      exact mine h
    · rw [e.ports p h]
      exact same _
  exact {
    settings := e.settings
    area := e.area
    timebase := e.timebase
    button := portwise (P := fun x y => y.buttons.get l = x.buttons.get l) (fun _ => rfl) fun h => e.button l (own h)
    reverse := portwise (P := fun x y => y.reverseSet.get l = x.reverseSet.get l) (fun _ => rfl)
      fun h => e.reverse l (own h)
    take := portwise (P := fun x y => x.take = true → y.take = true) (fun _ => id) fun _ => e.take
    standing := portwise (P := fun x y => x.standing = 0 → y.standing = 0) (fun _ => id) fun _ => e.standing
    cue := e.cue
    pressed := fun c => e.pressed c p l other
    off := fun h => ⟨portwise (P := fun x y => y.take = x.take) (fun _ => rfl) fun _ => (e.off h).1,
      portwise (P := fun x y => y.jump = x.jump) (fun _ => rfl) fun _ => (e.off h).2.1, (e.off h).2.2⟩
    halted := e.halted
    still := fun h => by
      obtain e | ⟨b, e⟩ := plain h <;> rw [e]
      · exact ⟨rfl, rfl⟩
      · refine ⟨rfl, ?_⟩
        by_cases i : p = q
        · subst i
          rw [State.withButton, State.port_modPort_self]
        · rw [State.withButton, State.port_modPort_ne _ _ i]
    posts := fun h _ => by
      obtain e | ⟨b, e⟩ := plain h <;> rw [e]
      rfl }

theorem sampleStrobes_elsewhere (u : State) : Elsewhere p l alone quiet u (sampleStrobes u) :=
  ⟨rfl, rfl, rfl, rfl, rfl, id, id, fun _ => id, fun _ => rfl, fun _ => ⟨rfl, rfl, fun _ => ⟨rfl, rfl⟩⟩,
    fun _ _ => rfl, fun _ => ⟨rfl, rfl⟩, fun _ _ => rfl⟩

/-! ### The other lines and the other ports -/

theorem accepts_congr {lines : Lines} (settings : u.settings = s.settings)
    (button : (u.port q).buttons.get m = (s.port q).buttons.get m) : accepts u q m lines = accepts s q m lines := by
  simp only [accepts, State.portSet, State.polarised, settings, button]

theorem timesOut_congr (settings : u.settings = s.settings) (port : u.port q = s.port q) :
    timesOut u q = timesOut s q := by
  unfold timesOut State.portSet
  rw [settings, port]

/-- No line but `l` of port `p` is accepted at a sample event of `s`. -/
def AcceptedAlone (p : PortId) (l : LineId) (levels : Bank 8 Lines) (s : State) : Prop :=
  ∀ p' l', accepts s p' l' (levels.get p') = true → p' = p ∧ l' = l

theorem AcceptedAlone.not_accepts (h : AcceptedAlone p l levels s) (other : p ≠ q ∨ l ≠ m) :
    accepts s q m (levels.get q) = false := by
  refine Bool.eq_false_iff.mpr fun accepted => ?_
  obtain ⟨rfl, rfl⟩ := h q m accepted
  exact other.elim (absurd rfl) (absurd rfl)

/-- No port reaches its loss limit at a sample event of `s`. -/
def NoLoss (s : State) : Prop := ∀ q, timesOut s q = false

/-- The samplings of a sample event of `s` but that of line `l` of port `p`. -/
abbrev Rest (p : PortId) (l : LineId) (levels : Bank 8 Lines) (s : State) : State → State → Prop :=
  Elsewhere p l (AcceptedAlone p l levels s) (NoLoss s)

/-- Lines of a port not yet sampled, none of them the line in question. -/
theorem sampleLines_rest (ms : List LineId) (nodup : ms.Nodup) (other : ∀ m ∈ ms, p ≠ q ∨ l ≠ m) (u : State)
    (settings : u.settings = s.settings) (fresh : ∀ m ∈ ms, (u.port q).buttons.get m = (s.port q).buttons.get m) :
    Rest p l levels s u (forEach ms (sampleButton q (levels.get q)) u) := by
  induction ms generalizing u with
  | nil => exact .refl u
  | cons m ms ih =>
    obtain ⟨new, nodup⟩ := List.nodup_cons.mp nodup
    have mem : m ∈ m :: ms := List.mem_cons_self ..
    have effect := sampleButton_effect q (levels.get q) m u
    have first : Rest p l levels s u (sampleButton q (levels.get q) m u) :=
      sampleButton_elsewhere (other m mem) fun h => by
        rw [accepts_congr settings (fresh m mem)]
        exact h.not_accepts (other m mem)
    exact first.trans (ih nodup (fun n hn => other n (List.mem_cons_of_mem _ hn)) _ (effect.settings.trans settings)
      fun n hn => (effect.button n (ne_of_mem_of_not_mem hn new)).trans (fresh n (List.mem_cons_of_mem _ hn)))

/-- The samplings of lines keep the level of any line that is not among them. -/
theorem sampleLines_button (ms : List LineId) {lines : Lines} (other : m ∉ ms) (u : State) :
    ((forEach ms (sampleButton q lines) u).port q).buttons.get m = (u.port q).buttons.get m :=
  forEach_same (π := fun t => (t.port q).buttons.get m) ms
    (fun n hn t => (sampleButton_effect q lines n t).button m (ne_of_mem_of_not_mem hn other).symm) u

theorem sampleLines_settings (ms : List LineId) {lines : Lines} (u : State) :
    (forEach ms (sampleButton q lines) u).settings = u.settings :=
  (Keeps.forEach (fun m => sampleButton_keeps q lines m) ms).settings u

/-- A port's sampling leaves the records of the other ports. -/
theorem samplePort_other (other : p ≠ q) (u : State) : (samplePort levels q u).port p = u.port p :=
  (forEach_same (π := fun t => t.port p) allLines
    (fun m _ t => (sampleButton_effect q (levels.get q) m t).ports p other) _).trans ((sampleLever_port q u).1 p other)

theorem samplePorts_other (qs : List PortId) (other : p ∉ qs) (u : State) :
    (forEach qs (samplePort levels) u).port p = u.port p :=
  forEach_same (π := fun t => t.port p) qs (fun _ hq t => samplePort_other (ne_of_mem_of_not_mem hq other).symm t) u

theorem allLines_nodup : allLines.Nodup := by decide

theorem sampleLever_buttons (q : PortId) (u : State) : ((sampleLever q u).port q).buttons = (u.port q).buttons :=
  (sampleLever_port q u).2.1

/-- A port's lever timers, the port not yet sampled. -/
theorem sampleLever_rest (settings : u.settings = s.settings) (fresh : u.port q = s.port q) :
    Rest p l levels s u (sampleLever q u) :=
  sampleLever_elsewhere fun h => by
    rw [timesOut_congr settings fresh]
    exact h q

/-- Another port, not yet sampled. -/
theorem samplePort_rest (other : p ≠ q) (settings : u.settings = s.settings) (fresh : u.port q = s.port q) :
    Rest p l levels s u (samplePort levels q u) :=
  (sampleLever_rest settings fresh).trans (sampleLines_rest allLines allLines_nodup (fun _ _ => .inl other) _
    (((sampleLever_keeps q).settings u).trans settings) fun m _ => by rw [sampleLever_buttons, fresh])

/-- Other ports, not yet sampled. -/
theorem samplePorts_rest (qs : List PortId) (nodup : qs.Nodup) (other : p ∉ qs) (u : State)
    (settings : u.settings = s.settings) (fresh : ∀ q ∈ qs, u.port q = s.port q) :
    Rest p l levels s u (forEach qs (samplePort levels) u) := by
  induction qs generalizing u with
  | nil => exact .refl u
  | cons q qs ih =>
    obtain ⟨new, nodup⟩ := List.nodup_cons.mp nodup
    have mem : q ∈ q :: qs := List.mem_cons_self ..
    have first : Rest p l levels s u (samplePort levels q u) :=
      samplePort_rest (fun e => other (e ▸ mem)) settings (fresh q mem)
    exact first.trans (ih nodup (fun h => other (List.mem_cons_of_mem _ h)) _ (first.settings.trans settings)
      fun r hr => (samplePort_other (ne_of_mem_of_not_mem hr new) u).trans (fresh r (List.mem_cons_of_mem _ hr)))

/-! ### The sample event about one line -/

/-- A list without repetitions about one of its things. -/
theorem nodup_split {α : Type} {x : α} {xs : List α} (mem : x ∈ xs) (nodup : xs.Nodup) : ∃ ys zs, xs = ys ++ x :: zs ∧
    ys.Nodup ∧ zs.Nodup ∧ x ∉ ys ∧ x ∉ zs ∧ ∀ z ∈ zs, z ∉ ys := by
  obtain ⟨ys, zs, rfl⟩ := List.append_of_mem mem
  obtain ⟨before, after, apart⟩ := List.nodup_append.mp nodup
  obtain ⟨new, after⟩ := List.nodup_cons.mp after
  exact ⟨ys, zs, rfl, before, after, fun h => apart x h x (List.mem_cons_self ..) rfl, new,
    fun z hz h => apart z h z (List.mem_cons_of_mem _ hz) rfl⟩

/-- The sampling of the port itself is that of the line, between two runs of samplings of other things. -/
theorem samplePort_split (l : LineId) (settings : u.settings = s.settings) (fresh : u.port p = s.port p) :
    ∃ v, Rest p l levels s u v ∧
      Rest p l levels s (sampleButton p (levels.get p) l v) (samplePort levels p u) := by
  obtain ⟨as, bs, split, before, after, notBefore, notAfter, apart⟩ :=
    nodup_split (x := l) (xs := allLines) (by cases l <;> decide) allLines_nodup
  have settings' : (sampleLever p u).settings = s.settings := ((sampleLever_keeps p).settings u).trans settings
  refine ⟨forEach as (sampleButton p (levels.get p)) (sampleLever p u), (sampleLever_rest settings fresh).trans
    (sampleLines_rest as before (fun m hm => .inr (ne_of_mem_of_not_mem hm notBefore).symm) _ settings'
      fun m _ => by rw [sampleLever_buttons, fresh]), ?_⟩
  rw [samplePort, split, forEach_append, forEach_cons]
  refine sampleLines_rest bs after (fun m hm => .inr (ne_of_mem_of_not_mem hm notAfter).symm) _ ?_ fun m hm => ?_
  · rw [(sampleButton_effect ..).settings, sampleLines_settings, settings']
  · rw [(sampleButton_effect ..).button m (ne_of_mem_of_not_mem hm notAfter), sampleLines_button as (apart m hm),
      sampleLever_buttons, fresh]

/-- The sample event is the sampling of the line, between two runs of samplings of other things. -/
theorem sampleAll_split (p : PortId) (l : LineId) (levels : Bank 8 Lines) (s : State) : ∃ u, Rest p l levels s s u ∧
    Rest p l levels s (sampleButton p (levels.get p) l u) (sampleAll levels s) := by
  obtain ⟨ys, zs, split, before, after, notBefore, notAfter, apart⟩ := nodup_split (mem_allPorts p) allPorts_nodup
  have early : Rest p l levels s s (forEach ys (samplePort levels) s) :=
    samplePorts_rest ys before notBefore s rfl fun _ _ => rfl
  obtain ⟨u, first, last⟩ := samplePort_split (levels := levels) l early.settings (samplePorts_other ys notBefore s)
  refine ⟨u, early.trans first, last.trans ?_⟩
  rw [sampleAll, split, forEach_append, forEach_cons]
  refine .trans (samplePorts_rest zs after notAfter _ ?_ fun q hq => ?_) (sampleStrobes_elsewhere _)
  · rw [(samplePort_keeps levels p).settings, early.settings]
  · rw [samplePort_other (ne_of_mem_of_not_mem hq notAfter), samplePorts_other ys (apart q hq)]

end

end Sys2Proof.Machine
end

section
/-! PROOFS. What an accepted press or release of a button line comes to (R102 to R105, R32). -/

namespace Sys2Proof.Machine

set_option Elab.async false

section
variable {p : PortId} {l : LineId} {levels : Bank 8 Lines} {s u : State}

/-! ### The accepted sample (R102) -/

theorem Button.sample_press {debounce : Nat} {b : Button} (due : debounce ≤ b.run + 1) (level : b.level = .released) :
    b.sample debounce true = (⟨.pressed, 0⟩, .press) := by
  simp [Button.sample, level, due]

theorem Button.sample_release {debounce : Nat} {b : Button} (due : debounce ≤ b.run + 1) (level : b.level = .pressed) :
    b.sample debounce false = (⟨.released, 0⟩, .release) := by
  simp [Button.sample, level, due]

/-- A button line whose sample gives a press is pressed, and one whose sample gives a release is released. -/
theorem sampleButton_edge {b : Button} {lines : Lines} (button : isButton (u.portSet p).mode l = true) {edge : ButtonEdge}
    (sample : ((u.port p).buttons.get l).sample (u.portSet p).debounce (u.polarised p l (lines.get l)) = (b, edge)) :
    (edge = .press → sampleButton p lines l u = press p l (u.withButton p l b)) ∧
    (edge = .release → sampleButton p lines l u = release p l (u.withButton p l b)) := by
  unfold sampleButton
  rw [if_pos button, sample]
  exact ⟨fun e => by rw [e]; rfl, fun e => by rw [e]; rfl⟩

/-- The events that sample the line as due, where it is accepted. -/
theorem exec_accepted {b : Button} {edge : ButtonEdge} (button : isButton (s.portSet p).mode l = true)
    (sample : ((s.port p).buttons.get l).sample (s.portSet p).debounce (s.polarised p l ((levels.get p).get l)) = (b, edge))
    (change : edge ≠ .none) : exec (.buttonDebounceAccept p l levels) s = .next (sampleAll levels s) := by
  have accepted : accepts s p l (levels.get p) = true := by simp [accepts, button, sample, change]
  show execButtonDebounceAccept p l levels s = _
  rw [execButtonDebounceAccept, if_pos accepted]

/-- A sample of the line as another state of the same event finds it. -/
theorem sample_congr {lines : Lines} (settings : u.settings = s.settings)
    (button : (u.port p).buttons.get l = (s.port p).buttons.get l) :
    ((u.port p).buttons.get l).sample (u.portSet p).debounce (u.polarised p l (lines.get l)) =
      ((s.port p).buttons.get l).sample (s.portSet p).debounce (s.polarised p l (lines.get l)) := by
  simp only [State.portSet, State.polarised, settings, button]

/-- A sample event that accepts a press is that press, between samplings of other things. -/
theorem sampleAll_press (button : isButton (s.portSet p).mode l = true)
    (sample : ((s.port p).buttons.get l).sample (s.portSet p).debounce (s.polarised p l ((levels.get p).get l)) =
      (⟨.pressed, 0⟩, .press)) :
    ∃ u, Rest p l levels s s u ∧ Rest p l levels s (press p l (u.withButton p l ⟨.pressed, 0⟩)) (sampleAll levels s) := by
  obtain ⟨u, before, after⟩ := sampleAll_split p l levels s
  have button' : isButton (u.portSet p).mode l = true := by rwa [State.portSet, before.settings]
  rw [(sampleButton_edge button' ((sample_congr before.settings before.button).trans sample)).1 rfl] at after
  exact ⟨u, before, after⟩

/-- A sample event that accepts a release is that release, between samplings of other things. -/
theorem sampleAll_release (button : isButton (s.portSet p).mode l = true)
    (sample : ((s.port p).buttons.get l).sample (s.portSet p).debounce (s.polarised p l ((levels.get p).get l)) =
      (⟨.released, 0⟩, .release)) : ∃ u, Rest p l levels s s u ∧
      Rest p l levels s (release p l (u.withButton p l ⟨.released, 0⟩)) (sampleAll levels s) := by
  obtain ⟨u, before, after⟩ := sampleAll_split p l levels s
  have button' : isButton (u.portSet p).mode l = true := by rwa [State.portSet, before.settings]
  rw [(sampleButton_edge button' ((sample_congr before.settings before.button).trans sample)).2 rfl] at after
  exact ⟨u, before, after⟩

/-! ### The line's own doing -/

@[simp] theorem State.withButton_port (u : State) (b : Button) :
    (u.withButton p l b).port p = { u.port p with buttons := (u.port p).buttons.set l b } :=
  State.port_modPort_self ..

/-- A press leaves the port's accepted levels. -/
theorem press_buttons (w : State) : ((press p l w).port p).buttons = (w.port p).buttons := by
  unfold press
  dsimp only
  split
  · split
    case h_2 => unfold goChannel; split <;> rfl
    case h_3 => split <;> rfl
    case h_4 => split <;> rfl
    case h_9 => exact congrArg (fun b => (b.get p).buttons) ((raise_keeps _).ports w)
    case h_10 =>
      split
      · rw [State.port_modPort_self]
      · rfl
    case h_1 => rfl
    all_goals rw [State.port_modPort_self]
  · rfl

/-- A release leaves the port's accepted levels. -/
theorem release_buttons (w : State) : ((release p l w).port p).buttons = (w.port p).buttons := by
  unfold release
  dsimp only
  split
  case h_1 => split <;> rfl
  case h_2 => rw [State.port_modPort_self]
  all_goals rfl

section
variable {w : State} {ps : PortSettings}

/-- What a press in RUNNING is, by the action of its line. -/
theorem press_go (run : w.engine = .running) (set : w.portSet p = ps) (live : w.mode ps.channel = .live)
    (action : ps.action.get l = .go) : press p l w = w.modChan ps.channel fun ch => { ch with cue := false } := by
  subst set
  simp [press, goChannel, State.running, State.isLive, run, live, action]

theorem press_freezeHold (run : w.engine = .running) (set : w.portSet p = ps) (live : w.mode ps.channel = .live)
    (action : ps.action.get l = .freezeHold) : press p l w = setPressed ps.channel p l true w := by
  subst set
  simp [press, State.running, State.isLive, run, live, action]

theorem press_freezeToggle (run : w.engine = .running) (set : w.portSet p = ps) (live : w.mode ps.channel = .live)
    (action : ps.action.get l = .freezeToggle) :
    press p l w = w.modChan ps.channel fun ch => { ch with latch := !ch.latch } := by
  subst set
  simp [press, State.running, State.isLive, run, live, action]

theorem press_reverseHold (run : w.engine = .running) (set : w.portSet p = ps)
    (action : ps.action.get l = .reverseHold) :
    press p l w = w.modPort p fun q => { q with reverseSet := q.reverseSet.set l true } := by
  subst set
  simp [press, State.running, run, action]

theorem press_storyNext (run : w.engine = .running) (set : w.portSet p = ps) (action : ps.action.get l = .storyNext) :
    press p l w = w.modPort p fun q => { q with jump := some (.next, l) } := by
  subst set
  simp [press, State.running, run, action]

theorem press_storyPrev (run : w.engine = .running) (set : w.portSet p = ps) (action : ps.action.get l = .storyPrev) :
    press p l w = w.modPort p fun q => { q with jump := some (.prev, l) } := by
  subst set
  simp [press, State.running, run, action]

theorem press_take (run : w.engine = .running) (set : w.portSet p = ps) (action : ps.action.get l = .take) :
    press p l w = w.modPort p fun q => { q with take := true } := by
  subst set
  simp [press, State.running, run, action]

theorem press_mark (run : w.engine = .running) (set : w.portSet p = ps) (action : ps.action.get l = .mark) :
    press p l w = raise (markReport w p l) w := by
  subst set
  simp [press, State.running, run, action]

theorem press_zero (run : w.engine = .running) (set : w.portSet p = ps) (action : ps.action.get l = .zero)
    (wheel : ps.mode = .wheel) : press p l w = w.modPort p fun q => { q with standing := 0 } := by
  subst set
  simp [press, State.running, run, action, wheel]

/-- A press outside RUNNING is a level alone. -/
theorem press_off (off : w.engine ≠ .running) : press p l w = w := by
  simp [press, State.running, off]

theorem release_freezeHold (on : w.engine ≠ .halted) (set : w.portSet p = ps)
    (action : ps.action.get l = .freezeHold) : release p l w = setPressed ps.channel p l false w := by
  subst set
  simp [release, State.halted, on, action]

theorem release_reverseHold (set : w.portSet p = ps) (action : ps.action.get l = .reverseHold) :
    release p l w = w.modPort p fun q => { q with reverseSet := q.reverseSet.set l false } := by
  subst set
  simp [release, action]

end

/-- A channel that holds a pressed line holds FREEZE (R32). -/
theorem Channel.freeze_of_pressed {x : Channel} (pressed : (x.pressed.get p).get l = true) : x.freeze = true := by
  have line : ((x.pressed.get p).a || (x.pressed.get p).b || (x.pressed.get p).c) = true := by
    cases l <;> simp_all [Trio.get]
  have any : (x.pressed.items.any fun t => t.a || t.b || t.c) = true :=
    List.any_eq_true.mpr ⟨_, List.getElem_mem _, line⟩
  rw [Channel.freeze, any, Bool.or_true]

/-- A report raised where there is room for it joins the Post Queue. -/
theorem raise_reports_of_room (r : Report) (on : u.engine ≠ .halted) (room : u.reports.queue.length < 16) :
    (raise r u).reports = { u.reports with queue := u.reports.queue ++ [⟨r, u.frame⟩] } := by
  obtain ⟨halted, -⟩ | ⟨-, -, e⟩ | ⟨-, full, -⟩ := raise_cases r u
  · exact absurd halted on
  · rw [e]
  · omega

/-- The words of the MARK report (R105). -/
theorem markReport_words (s : State) (p : PortId) (l : LineId) : markReport s p l =
    ⟨portSlot p, .mark, natWord (s.portSet p).channel.val,
      (match (s.chan (s.portSet p).channel).pub.anchor with | some a => slotWord a.slot | none => 0xFFFFFFFF),
      (match (s.chan (s.portSet p).channel).pub.anchor with | some a => natWord a.line | none => 0),
      (match l with | .a => 0 | .b => 1 | .c => 2)⟩ := by
  dsimp only [markReport]
  cases (s.chan (s.portSet p).channel).pub.anchor <;> cases l <;> rfl

/-! ### What a press and a release come to -/

/-- The line's level stands at the end of the event. -/
theorem press_level {t : State} (after : Rest p l levels s (press p l (u.withButton p l ⟨.pressed, 0⟩)) t) :
    (t.port p).buttons.get l = ⟨.pressed, 0⟩ := by
  rw [after.button, press_buttons, State.withButton_port, Trio.get_set_self]

theorem release_level {t : State} (after : Rest p l levels s (release p l (u.withButton p l ⟨.released, 0⟩)) t) :
    (t.port p).buttons.get l = ⟨.released, 0⟩ := by
  rw [after.button, release_buttons, State.withButton_port, Trio.get_set_self]

section
variable {b : Button}

theorem Rest.withButton_portSet (before : Rest p l levels s s u) : (u.withButton p l b).portSet p = s.portSet p :=
  congrArg (fun x : Settings => x.ports.get p) before.settings

theorem Rest.withButton_mode (before : Rest p l levels s s u) (c : Chan) : (u.withButton p l b).mode c = s.mode c :=
  congrArg (fun x : Settings => (x.channels.get c).mode) before.settings

theorem Rest.withButton_engine (before : Rest p l levels s s u) : (u.withButton p l b).engine = s.engine :=
  before.engine

end

/-- What a press in RUNNING sets that no other sampling of the event takes back. -/
theorem press_performs {t : State} (before : Rest p l levels s s u)
    (after : Rest p l levels s (press p l (u.withButton p l ⟨.pressed, 0⟩)) t) (running : s.engine = .running) :
    let ps := s.portSet p
    (ps.action.get l = .go → s.mode ps.channel = .live → (t.chan ps.channel).cue = false) ∧
    (ps.action.get l = .freezeHold → s.mode ps.channel = .live →
      ((t.chan ps.channel).pressed.get p).get l = true ∧ (t.chan ps.channel).freeze = true) ∧
    (ps.action.get l = .reverseHold → (t.port p).reverseSet.get l = true) ∧
    (ps.action.get l = .take → (t.port p).take = true) ∧
    (ps.action.get l = .zero → ps.mode = .wheel → (t.port p).standing = 0) := by
  have run := (before.withButton_engine (b := ⟨.pressed, 0⟩)).trans running
  have set := before.withButton_portSet (b := ⟨.pressed, 0⟩)
  have mode := before.withButton_mode (b := ⟨.pressed, 0⟩)
  refine ⟨fun action live => ?go, fun action live => ?freeze, fun action => ?reverse, fun action => ?take,
    fun action wheel => ?zero⟩
  case go =>
    rw [press_go run set ((mode _).trans live) action] at after
    exact after.cue _ (by rw [State.chan_modChan_self])
  case freeze =>
    rw [press_freezeHold run set ((mode _).trans live) action] at after
    have pressed : ((t.chan (s.portSet p).channel).pressed.get p).get l = true := by
      rw [after.pressed, setPressed, State.chan_modChan_self, Bank.get_set_self, Trio.get_set_self]
    exact ⟨pressed, Channel.freeze_of_pressed pressed⟩
  case reverse =>
    rw [press_reverseHold run set action] at after
    rw [after.reverse, State.port_modPort_self, Trio.get_set_self]
  case take =>
    rw [press_take run set action] at after
    exact after.take (by rw [State.port_modPort_self])
  case zero =>
    rw [press_zero run set action wheel] at after
    exact after.standing (by rw [State.port_modPort_self])

/-- What a press in RUNNING does where no other line is accepted. -/
theorem press_performs_alone {t : State} (before : Rest p l levels s s u)
    (after : Rest p l levels s (press p l (u.withButton p l ⟨.pressed, 0⟩)) t) (running : s.engine = .running)
    (alone : AcceptedAlone p l levels s) :
    let ps := s.portSet p
    (ps.action.get l = .freezeToggle → s.mode ps.channel = .live →
      (t.chan ps.channel).latch = !(s.chan ps.channel).latch) ∧
    (ps.action.get l = .storyNext → (t.port p).jump = some (.next, l)) ∧
    (ps.action.get l = .storyPrev → (t.port p).jump = some (.prev, l)) ∧
    (ps.action.get l = .mark → s.reports.queue.length < 16 → NoLoss s →
      t.channels = s.channels ∧ t.reports =
        { s.reports with queue := s.reports.queue ++ [⟨markReport s p l, s.frame⟩] }) := by
  have run := (before.withButton_engine (b := ⟨.pressed, 0⟩)).trans running
  have set := before.withButton_portSet (b := ⟨.pressed, 0⟩)
  have mode := before.withButton_mode (b := ⟨.pressed, 0⟩)
  have channels : u.channels = s.channels := (before.still alone).1
  refine ⟨fun action live => ?toggle, fun action => ?next, fun action => ?prev, fun action room steady => ?mark⟩
  case toggle =>
    rw [press_freezeToggle run set ((mode _).trans live) action] at after
    have chan : ∀ c, (u.withButton p l ⟨.pressed, 0⟩).chan c = s.chan c := fun c => congrArg (·.get c) channels
    rw [State.chan, (after.still alone).1, ← State.chan, State.chan_modChan_self, chan]
  case next =>
    rw [press_storyNext run set action] at after
    rw [(after.still alone).2, State.port_modPort_self]
  case prev =>
    rw [press_storyPrev run set action] at after
    rw [(after.still alone).2, State.port_modPort_self]
  case mark =>
    rw [press_mark run set action] at after
    have reports : (u.withButton p l ⟨.pressed, 0⟩).reports = s.reports := before.posts alone steady
    have frame : (u.withButton p l ⟨.pressed, 0⟩).frame = s.frame := congrArg Timebase.frameCounter before.timebase
    have chan : ∀ c, (u.withButton p l ⟨.pressed, 0⟩).chan c = s.chan c := fun c => congrArg (·.get c) channels
    have mark : markReport (u.withButton p l ⟨.pressed, 0⟩) p l = markReport s p l := by
      simp only [markReport, set, chan]
    refine ⟨(after.still alone).1.trans (((raise_keeps _).channels _).trans channels), ?_⟩
    rw [after.posts alone steady, raise_reports_of_room _ (by rw [run]; decide) (by rwa [reports]), reports, frame, mark]

/-- A press outside RUNNING performs nothing. -/
theorem press_performs_off {t : State} (before : Rest p l levels s s u)
    (after : Rest p l levels s (press p l (u.withButton p l ⟨.pressed, 0⟩)) t) (off : s.engine ≠ .running) :
    (t.port p).take = (s.port p).take ∧ (t.port p).jump = (s.port p).jump ∧
      ∀ c, (t.chan c).latch = (s.chan c).latch ∧ (t.chan c).cue = (s.chan c).cue := by
  have engine := before.withButton_engine (b := ⟨.pressed, 0⟩)
  rw [press_off (by rwa [engine])] at after
  obtain ⟨take, jump, chan⟩ := before.off off
  obtain ⟨take', jump', chan'⟩ := after.off (by rwa [engine])
  rw [State.withButton_port] at take' jump'
  exact ⟨take'.trans take, jump'.trans jump, fun c => ⟨(chan' c).1.trans (chan c).1, (chan' c).2.trans (chan c).2⟩⟩

/-- What a release takes away, and what it keeps in HALTED. -/
theorem release_performs {t : State} (before : Rest p l levels s s u)
    (after : Rest p l levels s (release p l (u.withButton p l ⟨.released, 0⟩)) t) :
    let ps := s.portSet p
    (ps.action.get l = .reverseHold → (t.port p).reverseSet.get l = false) ∧
    (ps.action.get l = .freezeHold → s.engine ≠ .halted → ((t.chan ps.channel).pressed.get p).get l = false) ∧
    (s.engine = .halted → ∀ c, (t.chan c).pressed = (s.chan c).pressed) := by
  have engine := before.withButton_engine (b := ⟨.released, 0⟩)
  have set := before.withButton_portSet (b := ⟨.released, 0⟩)
  refine ⟨fun action => ?reverse, fun action on => ?freeze, fun halted c => ?halted⟩
  case reverse =>
    rw [release_reverseHold set action] at after
    rw [after.reverse, State.port_modPort_self, Trio.get_set_self]
  case freeze =>
    rw [release_freezeHold (by rwa [engine]) set action] at after
    rw [after.pressed, setPressed, State.chan_modChan_self, Bank.get_set_self, Trio.get_set_self]
  case halted =>
    have effect := release_effect p l (u.withButton p l ⟨.released, 0⟩)
    have stands := engine.trans halted
    calc (t.chan c).pressed
      _ = ((release p l (u.withButton p l ⟨.released, 0⟩)).chan c).pressed :=
        after.halted ((congrArg Area.engine effect.area).trans stands) c
      _ = (u.chan c).pressed := effect.halted stands c
      _ = (s.chan c).pressed := before.halted halted c

end

/-! ### The statement -/

/-- Settles O42: the sample event is the sampling of the line between samplings that leave its doing, and that one is the
press or the release of its action. -/
theorem buttonsPerformTheirActions : Obligations.ButtonsPerformTheirActions := by
  intro p l levels s ps b high button due
  refine ⟨fun level up => ?press, fun level down => ?release⟩
  case press =>
    have sample : ((s.port p).buttons.get l).sample (s.portSet p).debounce (s.polarised p l ((levels.get p).get l)) =
        (⟨.pressed, 0⟩, .press) := by
      rw [show s.polarised p l ((levels.get p).get l) = true from up]
      exact Button.sample_press due level
    obtain ⟨u, before, after⟩ := sampleAll_press button sample
    refine ⟨sampleAll levels s, exec_accepted button sample (by decide), rfl, press_level after, fun running => ?_,
      press_performs_off before after⟩
    obtain ⟨go, freeze, reverse, take, zero⟩ := press_performs before after running
    refine ⟨go, freeze, reverse, take, zero, fun alone => ?_⟩
    obtain ⟨toggle, next, prev, mark⟩ := press_performs_alone before after running alone
    rw [markReport_words] at mark
    exact ⟨toggle, next, prev, mark⟩
  case release =>
    have sample : ((s.port p).buttons.get l).sample (s.portSet p).debounce (s.polarised p l ((levels.get p).get l)) =
        (⟨.released, 0⟩, .release) := by
      rw [show s.polarised p l ((levels.get p).get l) = false from down]
      exact Button.sample_release due level
    obtain ⟨u, before, after⟩ := sampleAll_release button sample
    exact ⟨sampleAll levels s, exec_accepted button sample (by decide), rfl, release_level after,
      release_performs before after⟩

end Sys2Proof.Machine
end

section
/-! PROOFS. Motion (R42 to R57): curve, target and slew keep the limits of the settings, an advance stands still, lands or
moves, and a LIVE channel publishes an S within those limits. -/

namespace Sys2Proof.Machine

set_option Elab.async false

/-! ### Curve, target, slew and jog (R42 to R46) -/

/-- At the full demand M is the last point of the curve, cut to Vmax (R44). -/
theorem curveSpeed_full {cs : ChannelSettings} {demand : Int} {i : Fin 17} (hi : i.val = demand.natAbs / 64)
    (full : demand.natAbs = 1024) : curveSpeed cs demand = (min cs.vmax (cs.curve.get i) : Nat) := by
  obtain rfl : i = 16 := Fin.ext (by rw [hi, full]; rfl)
  unfold curveSpeed
  simp only [full, clampInt_eq (Int.natCast_nonneg cs.vmax)]
  rw [dif_neg (by decide)]
  show max (0 : Int) (min (cs.vmax : Int) (cs.curve.get 16)) = _
  omega

/-- Rounding toward 0 between two points of the curve, as rounding down of the rise or of the fall (R44). -/
theorem interpolate_tdiv (p q r : Nat) : (p : Int) + (((q : Int) - p) * r).tdiv 64 =
    if p ≤ q then ((p + (q - p) * r / 64 : Nat) : Int) else p - ((p - q) * r / 64 : Nat) := by
  split
  · rename_i le
    rw [← Nat.cast_sub le, ← Nat.cast_mul, Int.tdiv_eq_ediv_of_nonneg (Int.natCast_nonneg _)]
    push_cast
    rfl
  · rename_i gt
    have fall : ((q : Int) - p) * r = -(((p - q) * r : Nat) : Int) := by
      push_cast [Nat.cast_sub (Nat.le_of_not_le gt)]
      ring
    rw [fall, Int.neg_tdiv, Int.tdiv_eq_ediv_of_nonneg (Int.natCast_nonneg _)]
    push_cast
    rfl

/-- The value between two points lies in 0 and above, so the clamp of R44 cuts it to Vmax alone. -/
theorem clamp_interpolate (vmax p q : Nat) {r : Nat} (hr : r ≤ 64) :
    clampInt 0 vmax ((p : Int) + (((q : Int) - p) * r).tdiv 64) =
      (min vmax (if p ≤ q then p + (q - p) * r / 64 else p - (p - q) * r / 64) : Nat) := by
  have fall : (p - q) * r / 64 ≤ p - q :=
    Nat.div_le_of_le_mul (by rw [Nat.mul_comm]; exact Nat.mul_le_mul_right _ hr)
  rw [clampInt_eq (Int.natCast_nonneg vmax), interpolate_tdiv]
  generalize (p - q) * r / 64 = down at *
  generalize (q - p) * r / 64 = up
  split <;> omega

/-- Between two points of the curve M rises or falls by the part of the step that the demand has gone (R44). -/
theorem curveSpeed_between {cs : ChannelSettings} {demand : Int} {i j : Fin 17} (hi : i.val = demand.natAbs / 64)
    (hj : j.val = i.val + 1) :
    let p := cs.curve.get i
    let q := cs.curve.get j
    let r := demand.natAbs % 64
    curveSpeed cs demand = (min cs.vmax (if p ≤ q then p + (q - p) * r / 64 else p - (p - q) * r / 64) : Nat) := by
  have below : demand.natAbs / 64 < 16 := by omega
  have low : (⟨demand.natAbs / 64, by omega⟩ : Fin 17) = i := Fin.ext hi.symm
  have high : (⟨demand.natAbs / 64 + 1, by omega⟩ : Fin 17) = j := Fin.ext (by dsimp only; omega)
  unfold curveSpeed
  simp only [dif_pos below, low, high]
  exact clamp_interpolate _ _ _ (Nat.mod_lt _ (by decide)).le

/-- The curve speed lies in 0..Vmax. -/
theorem curveSpeed_mem (cs : ChannelSettings) (demand : Int) :
    0 ≤ curveSpeed cs demand ∧ curveSpeed cs demand ≤ cs.vmax :=
  clampInt_mem (Int.natCast_nonneg _)

/-- The target speed by the sign of the demand (R45). -/
theorem targetSpeed_eq (cs : ChannelSettings) (holds : HoldSet) (demand : Int) : targetSpeed cs holds demand =
    if 0 < demand ∧ (holds.cue = true ∨ holds.boundary = true) then 0 else demand.sign * curveSpeed cs demand := by
  have nonneg := (curveSpeed_mem cs demand).1
  unfold targetSpeed
  simp only [Bool.or_eq_true]
  by_cases held : holds.cue = true ∨ holds.boundary = true
  · simp only [held, and_true]
    rcases lt_trichotomy demand 0 with neg | rfl | pos
    · rw [Int.sign_eq_neg_one_of_neg neg, if_neg (by omega), if_neg (by omega)]
    · simp
    · rw [Int.sign_eq_one_of_pos pos, if_pos pos, one_mul]
      split <;> omega
  · simp only [held, and_false, if_false]

theorem sign_mul_curveSpeed (cs : ChannelSettings) (demand : Int) :
    let t := demand.sign * curveSpeed cs demand
    t.natAbs ≤ cs.vmax ∧ (demand ≤ 0 → t ≤ 0) ∧ (0 ≤ demand → 0 ≤ t) := by
  obtain ⟨nonneg, le⟩ := curveSpeed_mem cs demand
  dsimp only
  rcases lt_trichotomy demand 0 with neg | rfl | pos
  · rw [Int.sign_eq_neg_one_of_neg neg]; omega
  · simp
  · rw [Int.sign_eq_one_of_pos pos]; omega

/-- The target speed lies within Vmax, on the side of the demand, and never forward under CUE or BOUNDARY (R45). -/
theorem targetSpeed_limits (cs : ChannelSettings) (holds : HoldSet) (demand : Int) :
    (targetSpeed cs holds demand).natAbs ≤ cs.vmax ∧
    (holds.cue = true ∨ holds.boundary = true → targetSpeed cs holds demand ≤ 0) ∧
    (demand ≤ 0 → targetSpeed cs holds demand ≤ 0) ∧ (0 ≤ demand → 0 ≤ targetSpeed cs holds demand) := by
  obtain ⟨bound, neg, pos⟩ := sign_mul_curveSpeed cs demand
  rw [targetSpeed_eq]
  split
  · exact ⟨Nat.zero_le _, fun _ => le_refl _, fun _ => le_refl _, fun _ => le_refl _⟩
  · rename_i free
    refine ⟨bound, fun held => neg ?_, neg, pos⟩
    exact Int.not_lt.mp fun forward => free ⟨forward, held⟩

theorem slewedSpeed_eq (cs : ChannelSettings) (speed target : Int) : slewedSpeed cs speed target =
    max (-(cs.vmax : Int)) (min (cs.vmax : Int)
      (if (target - speed).natAbs ≤ cs.accel then target else speed + cs.accel * (target - speed).sign)) :=
  clampInt_eq (by omega) _

/-- The slew lies within Vmax, reaches a target within the acceleration limit, and from a speed within Vmax goes no
further than that limit: the cut to Vmax shortens the step (R46). -/
theorem slewedSpeed_limits (cs : ChannelSettings) (speed target : Int) :
    (slewedSpeed cs speed target).natAbs ≤ cs.vmax ∧
    (target.natAbs ≤ cs.vmax → (target - speed).natAbs ≤ cs.accel → slewedSpeed cs speed target = target) ∧
    (speed.natAbs ≤ cs.vmax → (slewedSpeed cs speed target - speed).natAbs ≤ cs.accel) := by
  refine ⟨clampInt_natAbs _ _, fun within near => ?_, fun within => ?_⟩
  · rw [slewedSpeed_eq, if_pos near]
    omega
  · rw [slewedSpeed_eq]
    split
    · omega
    · rename_i far
      rcases lt_or_gt_of_ne (a := target - speed) (b := 0) (by omega) with neg | pos
      · rw [Int.sign_eq_neg_one_of_neg neg]; omega
      · rw [Int.sign_eq_one_of_pos pos]; omega

/-- The effective jog: within 65536, and not forward under BOUNDARY (R42). -/
theorem effectiveJog_eq (holds : HoldSet) (jog : Int) : effectiveJog holds jog =
    if holds.boundary = true ∧ 0 < jog then 0 else max (-65536) (min 65536 jog) := by
  unfold effectiveJog
  rw [clampInt_eq (by decide)]
  have forward : 0 < max (-65536) (min 65536 jog) ↔ 0 < jog := by omega
  simp only [forward]

/-! ### What an advance does (R42 to R57) -/

section
variable {cs : ChannelSettings} {v : List ViewEntry} {f : Fetch} {row fraction n : Nat} {speed : Int} {holds : HoldSet}
  {demand jog : Int}

/-- An advance under a full hold stands still (R43). -/
theorem advance_held (held : holds.freeze = true ∨ holds.exchange = true) :
    advance cs v f row fraction speed holds demand jog = stillAdvance row fraction 0 := by
  unfold advance
  exact if_pos (by simpa using held)

/-- The search of an advance finds the nearest stopping cue of the reach (R48). -/
theorem cueSearch_eq_some (v : List ViewEntry) (f : Fetch) (row q : Nat) :
    cueSearch v f 32 row = some q ↔ ∃ n, q = row + n ∧ CueAhead v f row n :=
  cueSearch_iff v f 32 row q

/-- An advance with a stopping cue ahead lands on it, or moves by the capped speed (R49, R50). -/
theorem advance_cue (freeze : holds.freeze = false) (exchange : holds.exchange = false)
    (forward : 0 < slewedSpeed cs speed (targetSpeed cs holds demand)) (still : effectiveJog holds jog = 0)
    (cue : CueAhead v f row n) :
    let d := n * 1024 - fraction
    let capped := min (slewedSpeed cs speed (targetSpeed cs holds demand)) (approachCap cs d : Int)
    advance cs v f row fraction speed holds demand jog =
      if d ≤ capped then landAdvance v f row (row + n) else moveAdvance v f row fraction capped capped := by
  have found : cueSearch v f 32 row = some (row + n) := (cueSearch_eq_some ..).mpr ⟨n, rfl, cue⟩
  unfold advance
  rw [if_neg (by simp [freeze, exchange])]
  dsimp only
  rw [if_pos ⟨forward, still⟩, found]
  dsimp only
  rw [Nat.add_sub_cancel_left]

/-- An advance with no landing to make moves by S' and the jog (R51). -/
theorem advance_noCue (freeze : holds.freeze = false) (exchange : holds.exchange = false)
    (noLanding : slewedSpeed cs speed (targetSpeed cs holds demand) ≤ 0 ∨ effectiveJog holds jog ≠ 0 ∨
      ∀ n, ¬ CueAhead v f row n) :
    let slewed := slewedSpeed cs speed (targetSpeed cs holds demand)
    advance cs v f row fraction speed holds demand jog =
      moveAdvance v f row fraction slewed (slewed + effectiveJog holds jog) := by
  have search : (if 0 < slewedSpeed cs speed (targetSpeed cs holds demand) ∧ effectiveJog holds jog = 0 then
      cueSearch v f 32 row else none) = none := by
    split
    · rename_i tried
      have noCue : ∀ n, ¬ CueAhead v f row n :=
        (noLanding.resolve_left (by omega)).resolve_left (fun jogs => jogs tried.2)
      refine Option.eq_none_iff_forall_ne_some.mpr fun q found => ?_
      obtain ⟨n, -, cue⟩ := (cueSearch_eq_some ..).mp found
      exact noCue n cue
    · rfl
  unfold advance
  rw [if_neg (by simp [freeze, exchange])]
  dsimp only
  rw [search]

variable (cs v f row fraction speed holds demand jog) in
/-- What an advance can be: none under a full hold, a landing, or a move with a speed within Vmax. -/
theorem advance_cases :
    let adv := advance cs v f row fraction speed holds demand jog
    adv = stillAdvance row fraction 0 ∨ (∃ cueRow, adv = landAdvance v f row cueRow) ∨
      ∃ s delta : Int, s.natAbs ≤ cs.vmax ∧ adv = moveAdvance v f row fraction s delta := by
  intro adv
  by_cases held : holds.freeze = true ∨ holds.exchange = true
  · exact .inl (advance_held held)
  obtain ⟨noFreeze, noExchange⟩ := not_or.mp held
  have freeze := Bool.eq_false_iff.mpr noFreeze
  have exchange := Bool.eq_false_iff.mpr noExchange
  have bound := (slewedSpeed_limits cs speed (targetSpeed cs holds demand)).1
  by_cases cue : (0 < slewedSpeed cs speed (targetSpeed cs holds demand) ∧ effectiveJog holds jog = 0) ∧
      ∃ n, CueAhead v f row n
  · obtain ⟨⟨forward, still⟩, n, ahead⟩ := cue
    have made := advance_cue (fraction := fraction) freeze exchange forward still ahead
    dsimp only at made
    split at made
    · exact .inr (.inl ⟨_, made⟩)
    · exact .inr (.inr ⟨_, _, by omega, made⟩)
  · refine .inr (.inr ⟨_, _, bound, advance_noCue freeze exchange ?_⟩)
    by_contra no
    push Not at no
    obtain ⟨forward, still, ahead⟩ := no
    exact cue ⟨⟨forward, still⟩, ahead⟩

/-- A move stores its speed, or 0 at a stop (R57). -/
theorem moveAdvance_speed (v : List ViewEntry) (f : Fetch) (row fraction : Nat) (speed delta : Int) :
    let stored := (moveAdvance v f row fraction speed delta).speed
    stored = speed ∨ stored = 0 := by
  unfold moveAdvance
  split
  · exact .inl rfl
  · dsimp only
    cases (walkBy v f row fraction delta).stop with
    | reached => exact .inl rfl
    | horizon _ => exact .inl rfl
    | boundary _ => exact .inr rfl
    | bottom => exact .inr rfl
    | top => exact .inr rfl

/-- The speed that an advance stores lies within Vmax (R47). -/
theorem advance_speed_le : (advance cs v f row fraction speed holds demand jog).speed.natAbs ≤ cs.vmax := by
  obtain still | ⟨cueRow, landed⟩ | ⟨s, delta, bound, moved⟩ :=
    advance_cases cs v f row fraction speed holds demand jog
  · rw [still]; exact Nat.zero_le _
  · rw [landed]; exact Nat.zero_le _
  · rw [moved]
    obtain stored | stored := moveAdvance_speed v f row fraction s delta <;> rw [stored]
    · exact bound
    · exact Nat.zero_le _

/-- The lines that an advance enters are resident (R52). -/
theorem advance_entered : ∀ e ∈ (advance cs v f row fraction speed holds demand jog).entered,
    f.resident e.line.slot e.line.line = true := by
  have noneYet : ∀ e ∈ ([] : List Entered), f.resident e.line.slot e.line.line = true := nofun
  obtain still | ⟨cueRow, landed⟩ | ⟨s, delta, -, moved⟩ :=
    advance_cases cs v f row fraction speed holds demand jog
  · rw [still]; exact noneYet
  · rw [landed]; exact walkForward_entered _ _ _ _ _ _ _ noneYet
  · rw [moved]
    unfold moveAdvance walkBy
    split
    · exact noneYet
    · dsimp only
      split
      · exact walkForward_entered _ _ _ _ _ _ _ noneYet
      · exact walkBackward_entered _ _ _ _ _ _ _ noneYet

/-- An advance outside a full hold, by the rows of the view (R48 to R57). -/
theorem advance_moves (inside : row < viewSize v) (le : fraction ≤ 1023) (freeze : holds.freeze = false)
    (exchange : holds.exchange = false) :
    let adv := advance cs v f row fraction speed holds demand jog
    let j := effectiveJog holds jog
    let slewed := slewedSpeed cs speed (targetSpeed cs holds demand)
    (∀ n, 0 < slewed → j = 0 → CueAhead v f row n →
      let d := n * 1024 - fraction
      let capped : Int := min slewed (max cs.crawl (d / cs.approach) : Nat)
      (d ≤ capped → Landed v f row n adv) ∧ (capped < d → Moved v f row fraction capped capped adv)) ∧
    (slewed ≤ 0 ∨ j ≠ 0 ∨ (∀ n, ¬ CueAhead v f row n) → Moved v f row fraction slewed (slewed + j) adv) := by
  refine ⟨fun n forward still cue => ?_, fun noLanding => ?_⟩
  · have made := advance_cue (fraction := fraction) freeze exchange forward still cue
    dsimp only
    rw [made]
    refine ⟨fun near => ?_, fun far => ?_⟩
    · exact if_pos near ▸ landAdvance_landed v f row n cue
    · exact if_neg (Int.not_le.mpr far) ▸ moveAdvance_moved v f row fraction _ _ inside le
  · rw [advance_noCue freeze exchange noLanding]
    exact moveAdvance_moved v f row fraction _ _ inside le

end

/-! ### The S that a LIVE channel publishes (R47) -/

/-- S within the maximum speed, and 0 under a full hold (R47). -/
def Channel.withinLimits (vmax : Nat) (ch : Channel) : Prop :=
  ch.speed.natAbs ≤ vmax ∧ (ch.fullHold = true → ch.speed = 0)

/-- A channel that stands on no row of the view it has taken has S 0: its frame event makes no advance. -/
def Channel.restsOffView (ch : Channel) : Prop :=
  ch.anchor.bind (viewRow ch.view) = none → ch.speed = 0

theorem Channel.fullHold_iff {ch : Channel} :
    ch.fullHold = true ↔ ch.holds.freeze = true ∨ ch.holds.exchange = true :=
  Bool.or_eq_true_iff

theorem Channel.withinLimits_of_zero {vmax : Nat} {ch : Channel} (zero : ch.speed = 0) : ch.withinLimits vmax :=
  ⟨by rw [zero]; exact Nat.zero_le _, fun _ => zero⟩

theorem Channel.withinLimits_boundSpeed (vmax : Nat) (ch : Channel) : (ch.boundSpeed vmax).withinLimits vmax := by
  cases held : ch.fullHold with
  | true => exact withinLimits_of_zero (if_pos held)
  | false =>
    have bounded : (ch.boundSpeed vmax).speed = clampInt (-vmax) vmax ch.speed :=
      if_neg (Bool.eq_false_iff.mp held)
    exact ⟨bounded ▸ clampInt_natAbs vmax ch.speed, fun h => absurd (held.symm.trans h) Bool.false_ne_true⟩

/-- Stage 2 leaves a channel where it was on a line of the view, or with S 0 (R27, R28). -/
theorem checkAnchor_restsOffView {c : Chan} (former : List ViewEntry) {u : State}
    (stood : (u.chan c).anchor = none → (u.chan c).speed = 0) : ((checkAnchor c former u).chan c).restsOffView := by
  have placed : ∀ a cause, ((reanchor c a cause u).chan c).restsOffView := fun a cause => by
    obtain ⟨key, made⟩ := reanchor_stand c a cause u
    rw [made]
    exact fun _ => rfl
  unfold checkAnchor
  dsimp only
  split
  · rename_i anchor _
    exact fun _ => stood anchor
  · rename_i anchor _
    rw [State.chan_modChan_self]
    exact fun _ => stood anchor
  · exact placed _ _
  · rename_i a _ anchor _
    split
    · rename_i e entry
      split
      · rename_i line
        obtain ⟨row, hrow⟩ := viewRow_of_entryOf entry line
        intro off
        rw [anchor, Option.bind_some, hrow] at off
        cases off
      · exact placed _ _
    · exact placed _ _

/-- Stages 1 to 3 leave a channel on a row of the view it has taken, or with S 0. -/
theorem liveSettled_restsOffView (handed : Bank 8 Handed) {c : Chan} {u : State}
    (stood : (u.chan c).anchor = none → (u.chan c).speed = 0) : ((liveSettled handed c u).chan c).restsOffView := by
  have evaluated : (evaluate handed c u).2.chan c = u.chan c :=
    congrArg (Bank.get · c) ((evaluate_keeps handed c).channels u)
  have checked : ((checkAnchor c (u.chan c).view (takeView c (evaluate handed c u).2)).chan c).restsOffView := by
    refine checkAnchor_restsOffView _ ?_
    unfold takeView
    rw [State.chan_modChan_self, evaluated]
    exact stood
  obtain ⟨b, bounded⟩ := boundaryStage_chan c
    (joinSearch c (checkAnchor c (u.chan c).view (takeView c (evaluate handed c u).2)))
  unfold liveSettled
  rw [bounded, (joinSearch_chan c c _).1]
  exact checked

/-- A story jump leaves S within its limits, executed or refused (R36, notes/assumptions/13.md). -/
theorem storyJump_withinLimits (c : Chan) (p : PortId) (j : StoryJump) (u : State) :
    ((storyJump c p j u).chan c).withinLimits (u.chanSet c).vmax := by
  have refused : ∀ reason, ((refuseJump c p j reason u).chan c).withinLimits (u.chanSet c).vmax := fun reason => by
    unfold refuseJump
    rw [raise_chan, State.chan_modChan_self]
    exact Channel.withinLimits_boundSpeed _ _
  unfold storyJump
  dsimp only
  split
  · exact refused _
  · split
    · exact refused _
    · split
      · rw [State.chan_modChan_self]
        exact Channel.withinLimits_of_zero rfl
      · exact refused _

/-- An advance leaves S within its limits, as it leaves FREEZE and EXCHANGE (R43, R46). -/
theorem advanceStage_withinLimits {c : Chan} (demand jog : Int) {u : State} (rests : (u.chan c).restsOffView) :
    ((advanceStage c demand jog u).2.chan c).withinLimits (u.chanSet c).vmax := by
  unfold advanceStage
  dsimp only
  split
  · rename_i off
    exact Channel.withinLimits_of_zero (rests off)
  · rw [advanceReports_count, State.chan_modChan_self]
    exact ⟨advance_speed_le, fun held : (u.chan c).fullHold = true =>
      congrArg Advance.speed (advance_held (Channel.fullHold_iff.mp held))⟩

/-- Stage 4 leaves S within its limits. -/
theorem stage4_withinLimits {c : Chan} (g : Handing) {u : State} (rests : (u.chan c).restsOffView) :
    ((stage4 c g u).2.chan c).withinLimits (u.chanSet c).vmax := by
  unfold stage4
  dsimp only
  split
  · exact storyJump_withinLimits c _ _ (u.modChan c fun ch => { ch with demand := g.demand })
  · refine advanceStage_withinLimits (u := u.modChan c fun ch => { ch with demand := g.demand }) _ _ ?_
    rw [State.chan_modChan_self]
    exact rests

/-- Stage 5 keeps S within its limits: it is 0 where EXCHANGE joins the hold set (R33). -/
theorem stage5_withinLimits {c : Chan} {vmax : Nat} {u : State} (limits : (u.chan c).withinLimits vmax) :
    ((stage5 c u).chan c).withinLimits vmax := by
  have joined := (joinSearch_chan c c u).1
  unfold stage5
  dsimp only
  split
  · rw [State.chan_modChan_self]
    exact Channel.withinLimits_of_zero rfl
  · rename_i noCatch
    rw [joined]
    refine ⟨limits.1, fun held => limits.2 ?_⟩
    simp only [Channel.fullHold, Bool.or_eq_true] at held ⊢
    refine held.imp_right fun exchange => ?_
    by_contra free
    exact noCatch (by simp [exchange, free])

/-- The stages of a LIVE channel leave S within its limits, where it was 0 at anchor NONE. -/
theorem liveStages_withinLimits (handed : Bank 8 Handed) {c : Chan} {u : State}
    (stood : (u.chan c).anchor = none → (u.chan c).speed = 0) :
    ((liveStages handed c u).2.chan c).withinLimits (u.chanSet c).vmax := by
  have settings : (liveSettled handed c u).settings = u.settings := by
    unfold liveSettled
    rw [(boundaryStage_keeps c).settings, (joinSearch_keeps c).settings, (checkAnchor_keeps ..).settings,
      (takeView_keeps c).settings, (evaluate_keeps handed c).settings]
  rw [liveStages_eq, ← chanSet_congr settings c]
  exact stage5_withinLimits (stage4_withinLimits _ (liveSettled_restsOffView handed stood))

/-- What a LIVE channel publishes at a free-running frame event in RUNNING keeps its limits (R47). -/
theorem freeFrame_withinLimits {s : State} {c : Chan} (free : s.timebase.lock = .free) (run : s.engine = .running)
    (live : s.mode c = .live) (positions : channelsPositioned s) :
    let pub := ((freeFrame s).chan c).pub
    pub.speed.natAbs ≤ (s.chanSet c).vmax ∧
    (pub.holds.freeze = true ∨ pub.holds.exchange = true → pub.speed = 0) := by
  obtain ⟨ys, xs, -, before, -, f, published⟩ := freeFrame_live_pub free run live
  have stood : ((beforeStages ys s).chan c).anchor = none → ((beforeStages ys s).chan c).speed = 0 := by
    rw [beforeStages_chan before]
    exact fun anchor => (positions c).2 (.inr anchor)
  obtain ⟨bound, zero⟩ := liveStages_withinLimits (handAll s).1 stood
  rw [chanSet_congr ((beforeStages_keeps ys).settings s)] at bound
  dsimp only at published ⊢
  rw [published]
  exact ⟨bound, fun held => zero (Channel.fullHold_iff.mpr held)⟩

/-- Settles O59: curve, target and slew by their equations, the advance by its three outcomes, and the published S
through the stages of the frame event. -/
theorem motionKeepsItsLimits : Obligations.MotionKeepsItsLimits := by
  unfold Obligations.MotionKeepsItsLimits
  refine ⟨slewedSpeed_limits, targetSpeed_limits,
    fun cs demand i hi => ⟨curveSpeed_full hi, fun j hj => curveSpeed_between hi hj⟩,
    fun cs holds speed target demand jog =>
      ⟨targetSpeed_eq cs holds demand, slewedSpeed_eq cs speed target, effectiveJog_eq holds jog⟩,
    fun cs v f row fraction speed holds demand jog inside le => ⟨advance_held, advance_moves inside le⟩,
    fun cs v f row fraction speed holds demand jog => advance_entered, ?published⟩
  case published =>
    intro s t c free run live positions next
    cases next
    exact freeFrame_withinLimits free run live positions

end Sys2Proof.Machine
end

section
/-! PROOFS. The completion of a write in flight (R65, R74, R151, R154, R158, R159, R161). -/

namespace Sys2Proof.Machine

/-! ### Halts and reports, by the engine state -/

theorem halt_of_halted (cause : HaltCause) {s : State} (off : s.engine = .halted) : halt cause s = s := by
  obtain ⟨-, e⟩ | ⟨on, -⟩ := halt_cases cause s
  · exact e
  · exact absurd off on

theorem halt_of_not_halted (cause : HaltCause) {s : State} (on : s.engine ≠ .halted) : halt cause s = { s with
    area := { s.area with engine := .halted, haltCause := cause, start := none, scan := none }
    exchange := .idle
    fetch := s.fetch.abandon
    reports := { s.reports with
      halt := true, current := s.reports.current.bind PostInProgress.atHalt } } := by
  obtain ⟨off, -⟩ | ⟨-, e⟩ := halt_cases cause s
  · exact absurd off on
  · exact e

/-- A report raised where there is room for it joins the Post Queue, and nothing else changes. -/
theorem raise_of_room (r : Report) {s : State} (on : s.engine ≠ .halted) (room : s.reports.queue.length < 16) :
    raise r s = { s with reports := { s.reports with queue := s.reports.queue ++ [⟨r, s.frame⟩] } } := by
  have rest := mask_eq ((raise_keeps r).same s)
  rw [raise_reports_of_room r on room] at rest
  exact rest

/-! ### The completion of a write -/

/-- The command that completes a write to a target. -/
def WriteTarget.completion (tag : Nat) (r : WriteResult) : WriteTarget → Instr
  | .channelStatus _ => .statusWriteComplete tag r
  | .portStatus _ => .statusWriteComplete tag r
  | .takenGeneration => .settingsWriteComplete tag r
  | .commandResult _ => .commandResultWriteDone tag r
  | .storyFields _ => .exchangeWriteDone tag r
  | .rundownFields => .rundownWriteDone tag r

/-- The command of a target runs `writeDone` over a class of targets to which the target belongs. -/
theorem exec_completion (x : WriteTarget) (tag : Nat) : ∃ mine : WriteTarget → Bool, mine x = true ∧
    ∀ r s, exec (x.completion tag r) s = .next (writeDone tag mine r s) := by
  cases x with
  | channelStatus c => exact ⟨WriteTarget.isStatus, rfl, fun _ _ => rfl⟩
  | portStatus p => exact ⟨WriteTarget.isStatus, rfl, fun _ _ => rfl⟩
  | takenGeneration => exact ⟨(· == .takenGeneration), rfl, fun _ _ => rfl⟩
  | commandResult n => exact ⟨WriteTarget.isCommandResult, rfl, fun _ _ => rfl⟩
  | storyFields k => exact ⟨WriteTarget.isStoryFields, rfl, fun _ _ => rfl⟩
  | rundownFields => exact ⟨(· == .rundownFields), rfl, fun _ _ => rfl⟩

/-- The oldest write in flight to its target is the one that its own completion completes. -/
theorem completedWrite_oldest {w : Write} {s : State} {mine : WriteTarget → Bool}
    (found : s.writes.find? (·.tag == w.tag) = some w) (oldest : s.writes.find? (·.target == w.target) = some w)
    (isMine : mine w.target = true) : completedWrite w.tag mine s = some w := by
  simp [completedWrite, found, oldest, isMine]

section
variable {tag : Nat} {mine : WriteTarget → Bool} {s : State} {w : Write}

theorem writeDone_busError (completed : completedWrite tag mine s = some w) :
    writeDone tag mine .busError s = halt .statusWriteFault (dropWrite tag s) := by
  simp only [writeDone, completed]

theorem writeDone_written (completed : completedWrite tag mine s = some w) :
    writeDone tag mine .written s = w.report.elim (dropWrite tag s) (raise · (dropWrite tag s)) := by
  simp only [writeDone, completed]
  cases w.report <;> rfl

end

/-- Settles O47: the completion finds its write, and then drops it and raises its report, or halts. -/
theorem writesComplete : Obligations.WritesComplete := by
  unfold Obligations.WritesComplete
  intro w s found oldest row rest
  obtain ⟨mine, isMine, runs⟩ := exec_completion w.target w.tag
  have completed := completedWrite_oldest found oldest isMine
  have done : ∀ {r t}, writeDone w.tag mine r s = t → exec (row r) s = .next t := fun {r _} e =>
    (runs r s).trans (congrArg _ e)
  have written := writeDone_written completed
  have busError := writeDone_busError completed
  refine ⟨fun quiet => done ?quiet, fun report posts on room => done ?posts, fun on => ⟨_, done busError, ?halts⟩,
    fun off => done ?halted⟩
  case quiet =>
    rw [written, quiet]
    rfl
  case posts =>
    rw [written, posts]
    exact raise_of_room report on room
  case halts =>
    rw [halt_of_not_halted .statusWriteFault (s := dropWrite w.tag s) on]
    exact ⟨rfl, rfl, rfl, rfl, rfl⟩
  case halted => exact busError.trans (halt_of_halted .statusWriteFault (s := dropWrite w.tag s) off)

end Sys2Proof.Machine
end

section
/-! PROOFS. The key search (R67 to R69): what its end does to each channel, its completion and its failure, and its two
reads. -/

namespace Sys2Proof.Machine

/-! ### The channels of a search -/

/-- The entry of a channel in the list of a search. -/
def listed (members : List SearchMember) (c : Chan) : Option SearchMember := members.find? (·.channel == c)

theorem listed_channel {members : List SearchMember} {c : Chan} {m : SearchMember} (h : listed members c = some m) :
    m.channel = c := by
  simpa using List.find?_some h

theorem listed_eq_none {members : List SearchMember} {c : Chan} (out : c ∉ members.map (·.channel)) :
    listed members c = none := by
  refine List.find?_eq_none.mpr fun m mem same => out ?_
  exact List.mem_map.mpr ⟨m, mem, by simpa using same⟩

/-- A channel of the list has an entry. -/
theorem listed_of_mem {members : List SearchMember} {m : SearchMember} (mem : m ∈ members) :
    ∃ n, listed members m.channel = some n :=
  Option.isSome_iff_exists.mp (List.find?_isSome.mpr ⟨m, mem, by simp⟩)

/-- In a list that names no channel twice, each entry is the one of its channel. -/
theorem listed_of_nodup {members : List SearchMember} (nodup : (members.map (·.channel)).Nodup) {m : SearchMember}
    (mem : m ∈ members) : listed members m.channel = some m := by
  obtain ⟨n, hn⟩ := listed_of_mem mem
  rw [hn, List.inj_on_of_nodup_map nodup (List.mem_of_find?_eq_some hn) mem (listed_channel hn)]

/-- What is done for the channels of the list, in channel order, is done for each channel that has an entry. -/
theorem forEach_membersInOrder (members : List SearchMember) (f : SearchMember → State → State) (s : State) :
    forEach (membersInOrder members) f s =
      forEach allChans (fun c t => (listed members c).elim t (f · t)) s := by
  unfold forEach membersInOrder
  rw [List.foldl_filterMap]
  congr 1
  funext t c
  show _ = (listed members c).elim t (f · t)
  unfold listed
  cases members.find? (·.channel == c) <;> rfl

/-- Where what is done for an entry acts on its own channel alone, each listed channel is acted on once. -/
theorem forEach_membersInOrder_chan {f : SearchMember → State → State} {g : SearchMember → Channel → Channel}
    (one : ∀ m t c, (f m t).chan c = if c = m.channel then g m (t.chan c) else t.chan c)
    (members : List SearchMember) (s : State) (c : Chan) :
    (forEach (membersInOrder members) f s).chan c = (listed members c).elim (s.chan c) (g · (s.chan c)) := by
  have other : ∀ d, d ≠ c → ∀ t, ((listed members d).elim t (f · t)).chan c = t.chan c := by
    intro d ne t
    cases h : listed members d with
    | none => rfl
    | some m => exact (one m t c).trans (if_neg fun e => ne ((listed_channel h).symm.trans e.symm))
  have same : ∀ t, ((listed members c).elim t (f · t)).chan c =
      (listed members c).elim (t.chan c) (g · (t.chan c)) := by
    intro t
    cases h : listed members c with
    | none => rfl
    | some m => exact (one m t c).trans (if_pos (listed_channel h).symm)
  rw [forEach_membersInOrder]
  exact forEach_own (fun t => t.chan c) (fun t => (listed members c).elim (t.chan c) (g · (t.chan c)))
    (mem_allChans c) allChans_nodup other same (fun d ne t => by simp only [other d ne t]) s

/-- A channel after an update of one channel. -/
theorem State.chan_modChan (s : State) (c d : Chan) (f : Channel → Channel) :
    (s.modChan c f).chan d = if d = c then f (s.chan d) else s.chan d := by
  by_cases h : d = c
  · rw [h, if_pos rfl, State.chan_modChan_self]
  · rw [if_neg h, State.chan_modChan_ne s f h]

/-! ### Re-anchoring (R68) -/

/-- What re-anchoring makes of the channel of an entry: the line of its match, or else the old index within the new
version, with no fraction, key and CUE. -/
def SearchMember.reanchor (k : Slot) (count : Nat) (m : SearchMember) (ch : Channel) : Channel :=
  if count = 0 then ch
  else
    match m.found with
    | some j => { ch with anchor := some ⟨k, j⟩, placed := true }
    | none => { ch with
        anchor := some ⟨k, min (anchorLine ch.anchor) (count - 1)⟩
        fraction := 0, key := none, cue := false, placed := true }

theorem SearchMember.reanchor_zero (k : Slot) (m : SearchMember) (ch : Channel) : m.reanchor k 0 ch = ch := rfl

theorem SearchMember.reanchor_found {k : Slot} {count j : Nat} {m : SearchMember} (pos : 0 < count)
    (found : m.found = some j) (ch : Channel) :
    m.reanchor k count ch = { ch with anchor := some ⟨k, j⟩, placed := true } := by
  simp only [SearchMember.reanchor, if_neg pos.ne', found]

theorem SearchMember.reanchor_missed {k : Slot} {count : Nat} {m : SearchMember} (pos : 0 < count)
    (missed : m.found = none) (ch : Channel) : m.reanchor k count ch = { ch with
      anchor := some ⟨k, min (anchorLine ch.anchor) (count - 1)⟩
      fraction := 0, key := none, cue := false, placed := true } := by
  simp only [SearchMember.reanchor, if_neg pos.ne', missed]

theorem reanchorMember_chan (k : Slot) (count : Nat) (m : SearchMember) (t : State) (c : Chan) :
    (reanchorMember k count m t).chan c = if c = m.channel then m.reanchor k count (t.chan c) else t.chan c := by
  by_cases zero : count = 0
  · subst zero
    exact (ite_self _).symm
  · have pos := Nat.pos_of_ne_zero zero
    unfold reanchorMember
    rw [if_neg zero]
    cases found : m.found with
    | some j => simp only [SearchMember.reanchor_found pos found, State.chan_modChan]
    | none =>
      simp only [SearchMember.reanchor_missed pos found]
      refine (congrArg (·.get c) ((raise_keeps _).channels _)).trans ((State.chan_modChan ..).trans ?_)
      by_cases h : c = m.channel
      · rw [if_pos h, if_pos h, h]
      · rw [if_neg h, if_neg h]

/-! ### The end of a search -/

theorem endSearch_exchange (members : List SearchMember) (s : State) :
    (endSearch members s).exchange = { s.exchange with searcher := none } :=
  forEach_same (π := State.exchange) (f := fun (m : SearchMember) t => t.modChan m.channel Channel.leaveSearch)
    (membersInOrder members) (fun _ _ _ => rfl) { s with exchange := { s.exchange with searcher := none } }

theorem endSearch_chan (members : List SearchMember) (s : State) (c : Chan) :
    (endSearch members s).chan c = (listed members c).elim (s.chan c) fun _ => (s.chan c).leaveSearch :=
  forEach_membersInOrder_chan (g := fun _ => Channel.leaveSearch) (fun m t d => State.chan_modChan t m.channel d _) ..

/-- What the completion leaves of each channel. -/
theorem completeSearch_chan (sr : Searcher) (address : Addr) (count : Nat) (s : State) (c : Chan) :
    (completeSearch sr address count s).chan c = (listed sr.members c).elim (s.chan c)
      fun m => (m.reanchor sr.slot count (s.chan c)).leaveSearch := by
  have flipped : (flip sr.slot sr.generation address count s).chan c = s.chan c :=
    congrArg (·.get c) ((flip_keeps ..).channels s)
  unfold completeSearch
  rw [endSearch_chan, forEach_membersInOrder_chan (reanchorMember_chan sr.slot count), flipped]
  cases listed sr.members c <;> rfl

/-- A failed search leaves the version and the anchors, with the result FAILED (R69). -/
theorem failSearch_ends (sr : Searcher) (stage : FailedStage) (line : Word) (s : State) :
    let old := s.story sr.slot
    let t := failSearch sr stage line s
    (∀ m ∈ sr.members, t.chan m.channel = { s.chan m.channel with speed := 0, exchange := false }) ∧
    (∀ c, c ∉ sr.members.map (·.channel) → t.chan c = s.chan c) ∧
    t = { s with
      channels := t.channels, exchange := { s.exchange with searcher := none }
      stories := s.stories.set sr.slot { old with done := sr.generation, result := 2 }
      writes := s.writes ++ [⟨s.nextTag, .storyFields sr.slot, s.entryAddress sr.slot 48,
        wordBytes (natWord old.side.code) ++ wordBytes sr.generation ++ wordBytes 2,
        some ⟨13, .exchangeFailed, slotWord sr.slot, natWord stage.code, line, old.storyId⟩⟩]
      nextTag := s.nextTag + 1 } := by
  intro old t
  have chan : ∀ c, t.chan c = (listed sr.members c).elim (s.chan c) fun _ => (s.chan c).leaveSearch :=
    endSearch_chan _ _
  refine ⟨fun m mem => ?listed, fun c out => ?others, ?rest⟩
  case listed =>
    obtain ⟨n, hn⟩ := listed_of_mem mem
    rw [chan, hn]
    rfl
  case others =>
    rw [chan, listed_eq_none out]
    rfl
  case rest =>
    have exchange : t.exchange = _ := endSearch_exchange ..
    have e : t = _ := mask_eq ((endSearch_keeps sr.members).same (failTake sr.slot sr.generation stage line s))
    rw [exchange, failTake_eq] at e
    exact e

/-- The flip of a completion (R68), over a state with the reports `rs`. -/
theorem completeSearch_flips (sr : Searcher) (address : Addr) (count : Nat) (s : State) (rs : Reports) :
    let old := s.story sr.slot
    let t := completeSearch sr address count { s with reports := rs }
    t.exchange.searcher = none ∧
    t.story sr.slot = { old with
      side := old.side.other, address := address, count := count, done := sr.generation, result := 1 } ∧
    ∃ w, t.writes = s.writes ++ [w] ∧ w.target = .storyFields sr.slot ∧ w.report = some
      ⟨13, .exchangeDone, slotWord sr.slot, natWord old.side.other.code, natWord count, old.storyId⟩ := by
  intro old t
  let flipped := flip sr.slot sr.generation address count { s with reports := rs }
  have e := mask_eq (F := { exchange := true, channels := true, reports := true }) (s := flipped) (t := t)
    (Eq.trans ((endSearch_keeps _).on _) ((Keeps.forEach (reanchorMember_keeps sr.slot count) _).on _))
  obtain ⟨mine, -, w, hw, target, -, -, report⟩ := flip_ends (s := s) (u := { s with reports := rs })
    (k := sr.slot) (generation := sr.generation) (address := address) (count := count) rfl rfl rfl
  refine ⟨congrArg Exchange.searcher (endSearch_exchange ..), ?_, w, ?_, target, report⟩
  · rw [e]
    exact mine
  · rw [e]
    exact hw

theorem completeSearch_other (sr : Searcher) (address : Addr) (count : Nat) (s : State) {c : Chan}
    (out : c ∉ sr.members.map (·.channel)) : (completeSearch sr address count s).chan c = s.chan c := by
  rw [completeSearch_chan, listed_eq_none out]
  rfl

/-- With the count taken as 0 every anchor stands. -/
theorem completeSearch_stands (sr : Searcher) (address : Addr) (s : State) {m : SearchMember}
    (mem : m ∈ sr.members) : (completeSearch sr address 0 s).chan m.channel =
      { s.chan m.channel with speed := 0, exchange := false } := by
  obtain ⟨n, hn⟩ := listed_of_mem mem
  rw [completeSearch_chan, hn]
  rfl

section
variable {sr : Searcher} {count : Nat} {m : SearchMember}

theorem completeSearch_found (address : Addr) (s : State) (nodup : (sr.members.map (·.channel)).Nodup)
    (pos : 0 < count) (mem : m ∈ sr.members) {j : Nat} (found : m.found = some j) :
    (completeSearch sr address count s).chan m.channel = { s.chan m.channel with
      anchor := some ⟨sr.slot, j⟩, placed := true, speed := 0, exchange := false } := by
  rw [completeSearch_chan, listed_of_nodup nodup mem, Option.elim_some, SearchMember.reanchor_found pos found]
  rfl

theorem completeSearch_missed (address : Addr) (s : State) (nodup : (sr.members.map (·.channel)).Nodup)
    (pos : 0 < count) (mem : m ∈ sr.members) (missed : m.found = none) :
    (completeSearch sr address count s).chan m.channel = { s.chan m.channel with
      anchor := some ⟨sr.slot, min (anchorLine (s.chan m.channel).anchor) (count - 1)⟩
      fraction := 0, key := none, cue := false, placed := true, speed := 0, exchange := false } := by
  rw [completeSearch_chan, listed_of_nodup nodup mem, Option.elim_some, SearchMember.reanchor_missed pos missed]
  rfl

end

/-! ### The reads of a search (R67) -/

theorem continueSearch_completes {sr : Searcher} {count i : Nat} (address : Addr) (s : State)
    (ended : allFound sr.members = true ∨ count ≤ i) :
    continueSearch sr address count i s = completeSearch sr address count s :=
  if_pos (by simpa using ended)

theorem continueSearch_reads {sr : Searcher} {count i : Nat} (address : Addr) (s : State)
    (more : allFound sr.members = false) (inside : i < count) : continueSearch sr address count i s = { s with
      exchange := { s.exchange with searcher := some ⟨sr.slot, sr.generation, sr.mode,
        .keys ⟨s.nextTag, address + BitVec.ofNat 64 (96 * i), 2⟩ address count i false, sr.members⟩ }
      nextTag := s.nextTag + 1 } :=
  if_neg (by simp [more, inside])

/-- A comparison leaves the channels of the list. -/
theorem map_channel_compare (key : Key) (i : Nat) (members : List SearchMember) :
    (members.map (SearchMember.compare key i)).map (·.channel) = members.map (·.channel) := by
  rw [List.map_map]
  refine List.map_congr_left fun m _ => ?_
  show (m.compare key i).channel = m.channel
  unfold SearchMember.compare
  split
  · rfl
  · split <;> rfl

/-- A version of which a line is taken is none that R9 reports. -/
theorem takeVersion_nullBlock {v : RawVersion} (pos : 0 < (takeVersion v).count) :
    (takeVersion v).nullBlock = false := by
  unfold takeVersion at pos ⊢
  dsimp only at pos ⊢
  split at pos
  · exact absurd pos (Nat.lt_irrefl 0)
  · rename_i h
    rw [if_neg h]

section
variable {s : State} {sr : Searcher} {r : Request}

/-- The version read goes on with the version taken. Only a version with no line taken is reported. -/
theorem searchVersionRead_data (search : s.exchange.searcher = some sr) (phase : sr.phase = .versionRead r)
    (bytes : List Byte) : let v := takeVersion (rawVersion bytes)
    ∃ rs, (0 < v.count → rs = s.reports) ∧ searchVersionRead r.tag (.data bytes) s =
      continueSearch sr v.address v.count 0 { s with reports := rs } := by
  intro v
  let st := s.story sr.slot
  let null := nullBlock sr.slot st.side.other (rawVersion bytes).count st.storyId
  have e := mask_eq ((raiseIf_keeps v.nullBlock null).same s)
  refine ⟨(if v.nullBlock then raise null s else s).reports, fun pos => ?_, ?_⟩
  · rw [takeVersion_nullBlock pos]
    rfl
  · simp only [searchVersionRead, search, phase]
    exact congrArg (continueSearch sr v.address v.count 0) e

theorem searchVersionRead_busError (search : s.exchange.searcher = some sr) (phase : sr.phase = .versionRead r) :
    searchVersionRead r.tag .busError s = failSearch sr .versionRead noneWord s := by
  simp only [searchVersionRead, search, phase, if_true]

variable {address : Addr} {count i : Nat} {back : Bool}

theorem keyRead_data (search : s.exchange.searcher = some sr) (phase : sr.phase = .keys r address count i back)
    (bytes : List Byte) : keyRead r.tag (.data bytes) s =
      continueSearch { sr with members := sr.members.map (SearchMember.compare (half bytes 0) i) } address count
        (if back then 0 else i + 1) s := by
  simp only [keyRead, search, phase, if_true]

theorem keyRead_busError (search : s.exchange.searcher = some sr) (phase : sr.phase = .keys r address count i back) :
    keyRead r.tag .busError s = failSearch sr .keyRead (natWord i) s := by
  simp only [keyRead, search, phase, if_true]

end

/-- Settles O56: each read goes on with the search, completes it or fails it, and each of these ends is known channel by
channel. -/
theorem keySearchRuns : Obligations.KeySearchRuns := by
  unfold Obligations.KeySearchRuns
  rintro _ bytes s sr r search rfl old others flipped fails completes
  have fail : ∀ i stage line, exec i s = .next (failSearch sr stage line s) → fails i (natWord stage.code) line :=
    fun _ stage line run => ⟨_, run, failSearch_ends sr stage line s⟩
  refine ⟨fun phase => ?version, fun address count i back phase => ?keys⟩
  case version =>
    intro address count
    have address_eq : (takeVersion (rawVersion bytes)).address = address := takeVersion_address _
    have count_eq : (takeVersion (rawVersion bytes)).count = count := takeVersion_count _
    obtain ⟨rs, quiet, read⟩ := searchVersionRead_data search phase bytes
    rw [address_eq, count_eq] at read
    rw [count_eq] at quiet
    have next : ∀ {t}, continueSearch sr address count 0 { s with reports := rs } = t →
        exec (.searchVersionReadDone r.tag (.data bytes)) s = .next t := fun e => congrArg _ (read.trans e)
    refine ⟨fun more pos => ?_, fun ended pos nodup => ?_, fun zero => ?_,
      fail _ .versionRead noneWord (congrArg _ (searchVersionRead_busError search phase))⟩
    · refine (next (continueSearch_reads address _ more pos)).trans ?_
      rw [quiet pos]
      rfl
    · exact ⟨_, next (continueSearch_completes address _ (.inl ended)), completeSearch_flips sr address count s rs,
        fun c => completeSearch_other sr address count _,
        fun m mem j => completeSearch_found address _ nodup pos mem,
        fun m mem => completeSearch_missed address _ nodup pos mem⟩
    · rw [zero] at next
      exact ⟨_, next (continueSearch_completes address _ (.inr le_rfl)), completeSearch_flips sr address 0 s rs,
        fun c => completeSearch_other sr address 0 _, fun m mem => completeSearch_stands sr address _ mem⟩
  case keys =>
    intro members index
    let found : Searcher := { sr with members := members }
    have channels : members.map (·.channel) = sr.members.map (·.channel) := map_channel_compare ..
    have next : ∀ {t}, continueSearch found address count index s = t →
        exec (.keyReadDone r.tag (.data bytes)) s = .next t := fun e =>
      congrArg _ ((keyRead_data search phase bytes).trans e)
    refine ⟨fun more inside => next (continueSearch_reads address s more inside), fun ended pos nodup => ?_,
      fail _ .keyRead (natWord i) (congrArg _ (keyRead_busError search phase))⟩
    rw [← channels] at nodup
    exact ⟨_, next (continueSearch_completes address s ended), completeSearch_flips found address count s s.reports,
      fun c out => completeSearch_other found address count s (channels ▸ out),
      fun m mem j => completeSearch_found (sr := found) address s nodup pos mem,
      fun m mem => completeSearch_missed (sr := found) address s nodup pos mem⟩

end Sys2Proof.Machine
end

section
/-! PROOFS. The completion of a line read (R83 to R85): what a record is decoded to by R14 and R15, and what a stale
read and a read that fills its place each leave before issuing follows. -/

namespace Sys2Proof.Machine

/-! ### The record (R14, R15) -/

/-- A record whose text length is at most 80 keeps its cue, and its pattern where it has one (R14). -/
theorem lineRecord_wellFormed {bytes : List Byte} (fits : (byteAt bytes 2).toNat ≤ 80) :
    isMalformed bytes = false ∧ lineRecord bytes =
      { key := half bytes 0, textLength := (byteAt bytes 2).toNat, style := styleOf (byteAt bytes 3)
        cue := cueOf (byteAt bytes 4)
        pattern := if byteAt bytes 5 = 0 then none else some ((byteAt bytes 6).setWidth 4)
        text := (List.range 80).map fun k => byteAt bytes (16 + k) } := by
  have good : isMalformed bytes = false := decide_eq_false (Nat.not_lt.2 fits)
  refine ⟨good, ?_⟩
  unfold lineRecord
  simp [good, BitVec.setWidth_eq_extractLsb']

/-- A record whose text length exceeds 80 has no cue and no pattern (R15). -/
theorem lineRecord_malformed {bytes : List Byte} (long : 80 < (byteAt bytes 2).toNat) :
    isMalformed bytes = true ∧ lineRecord bytes =
      { key := half bytes 0, textLength := (byteAt bytes 2).toNat, style := styleOf (byteAt bytes 3)
        cue := .none, pattern := none
        text := (List.range 80).map fun k => byteAt bytes (16 + k) } := by
  have bad : isMalformed bytes = true := decide_eq_true long
  refine ⟨bad, ?_⟩
  unfold lineRecord
  simp [bad]

/-! ### The completion (R83 to R85) -/

/-- The state that the completed read `tag` leaves with `x` in place `i`, before any report and any issue. -/
def State.withRead (s : State) (tag : Nat) (i : Fin 512) (x : Place) : State :=
  { s with fetch := { s.fetch with cache := s.fetch.cache.set i x, queue := s.fetch.dropIssued tag } }

section
variable {tag : Nat} {s : State} {q : QueueEntry} {rq : Request} {i : Fin 512}

/-- A stale read frees its place (R85). -/
theorem fetchComplete_stale (found : s.fetch.issuedEntry tag = some q) (state : q.state = .issued rq i true)
    (r : ReadResult) : fetchComplete tag r s = issueAll (s.withRead tag i .free) := by
  unfold fetchComplete
  rw [found]
  dsimp only
  rw [state]
  rfl

/-- A read that is not stale fills its entry, and its report follows (R83, R84). -/
theorem fetchComplete_fills {e : CacheEntry} (found : s.fetch.issuedEntry tag = some q)
    (state : q.state = .issued rq i false) (held : s.fetch.cache.get i = .held e) (r : ReadResult) :
    fetchComplete tag r s = issueAll (fetchReport s e.slot e.line (filledEntry s.frame r e).failures r
      (s.withRead tag i (.held (filledEntry s.frame r e)))) := by
  unfold fetchComplete
  rw [found]
  dsimp only
  rw [state]
  dsimp only
  rw [if_neg Bool.false_ne_true]
  unfold fillPlace
  dsimp only
  rw [held]
  rfl

end

/-- Settles O46: a stale read frees its place, and one that is not stale fills its entry by the record it brings or by
the bus error. -/
theorem fetchCompletes : Obligations.FetchCompletes := by
  unfold Obligations.FetchCompletes
  intro tag s q rq i e found after
  refine ⟨fun r state => congrArg Host.Outcome.next (fetchComplete_stale found state r), fun state held =>
    ⟨fun bytes fits => ?_, fun bytes long => ?_, ?_⟩⟩
  · have fills := fetchComplete_fills found state held (.data bytes)
    obtain ⟨good, record⟩ := lineRecord_wellFormed fits
    simp only [filledEntry, fetchReport, good, record] at fills
    exact congrArg Host.Outcome.next fills
  · have fills := fetchComplete_fills found state held (.data bytes)
    obtain ⟨bad, record⟩ := lineRecord_malformed long
    simp only [filledEntry, fetchReport, bad, record, if_true, ← BitVec.ofNat_toNat] at fills
    exact congrArg Host.Outcome.next fills
  · exact congrArg Host.Outcome.next (fetchComplete_fills found state held .busError)

end Sys2Proof.Machine
end

section
/-! PROOFS. The bounds of the Fetch Queue (R76, R80 to R82): what each operation of the Fetch Unit makes of the queue's
length and of its ISSUED entries. -/

namespace Sys2Proof.Machine

/-! ### Entries that leave and entries that are marked (R83, R87, R90) -/

theorem QueueEntry.makeStale_isIssued (q : QueueEntry) : q.makeStale.isIssued = q.isIssued := by
  obtain ⟨slot, line, rank, state⟩ := q
  cases state <;> rfl

/-- A queue stays within the bounds when some entries leave and the others change, each staying ISSUED or waiting. -/
theorem Fetch.bounded.thin {f g : Fetch} (h : f.bounded) (keep : QueueEntry → Bool) {mark : QueueEntry → QueueEntry}
    (same : ∀ q, (mark q).isIssued = q.isIssued) (e : g.queue = (f.queue.filter keep).map mark) : g.bounded := by
  have issued : g.issuedCount ≤ f.issuedCount := by
    unfold Fetch.issuedCount
    rw [e, List.filter_map, List.length_map, funext (f := QueueEntry.isIssued ∘ mark) same]
    exact (List.filter_sublist.filter _).length_le
  refine ⟨?_, issued.trans h.2⟩
  rw [e, List.length_map]
  exact (List.length_filter_le ..).trans h.1

theorem Fetch.bounded.invalidate {f : Fetch} (h : f.bounded) (chosen : Slot → Bool) :
    (f.invalidate chosen).bounded := by
  refine h.thin (fun q => q.isIssued || !chosen q.slot) (fun q => ?_) rfl
  split
  exacts [q.makeStale_isIssued, rfl]

theorem Fetch.bounded.abandon {f : Fetch} (h : f.bounded) : f.abandon.bounded :=
  h.thin QueueEntry.isIssued QueueEntry.makeStale_isIssued rfl

/-- The queue of a completed read, over any cache (R83). -/
theorem Fetch.bounded.dropIssued {f : Fetch} (h : f.bounded) (tag : Nat) (cache : Bank 512 Place) :
    Fetch.bounded { f with cache := cache, queue := f.dropIssued tag } :=
  h.thin _ (mark := id) (fun _ => rfl) (List.map_id _).symm

/-! ### The queue update (R81) -/

theorem length_issued_waiting (queue : List QueueEntry) :
    (queue.filter QueueEntry.isIssued).length + (queue.filter QueueEntry.isWaiting).length = queue.length :=
  (List.length_eq_length_filter_add QueueEntry.isIssued).symm

/-- What is kept of the waiting entries is no more than them. -/
theorem keptWaiting_length (needs : List Need) (queue : List QueueEntry) :
    (keptWaiting needs queue).length ≤ (queue.filter QueueEntry.isWaiting).length := by
  unfold keptWaiting
  induction queue.filter QueueEntry.isWaiting using List.reverseRecOn with
  | nil => rfl
  | append_singleton ws q ih =>
    rw [List.foldl_append, List.length_append]
    simp only [List.foldl_cons, List.foldl_nil, List.length_singleton]
    split
    · exact ih.trans (Nat.le_succ _)
    · rw [insertEntry_length]
      exact Nat.succ_le_succ ih

/-- A line joins where there is room, or in the place of the entry it displaces. -/
theorem insertLine_length {issued : Nat} {ws : List QueueEntry} (h : issued + ws.length ≤ 32) (n : Need) :
    issued + (insertLine issued ws n).length ≤ 32 := by
  obtain ⟨room, e⟩ | ⟨-, -, xs, q, ys, rfl, -, e⟩ | ⟨-, -, e⟩ := insertLine_cases issued ws n <;> rw [e]
  · rw [insertEntry_length]
    exact room
  · rw [insertEntry_length]
    simp only [List.length_append, List.length_cons] at h ⊢
    omega
  · exact h

theorem Fetch.bounded.updateQueue {f : Fetch} (h : f.bounded) (lines : Slot → Nat → Bool) (frame : Word) :
    (f.updateQueue lines frame).bounded := by
  have issued : (f.updateQueue lines frame).queue.filter QueueEntry.isIssued = f.queue.filter QueueEntry.isIssued :=
    (fetchIssues.2.1 f lines frame).1
  refine ⟨?_, (congrArg List.length issued).trans_le h.2⟩
  let needs := f.needSet.filter fun n => lines n.slot n.line
  have kept : (f.queue.filter QueueEntry.isIssued).length + (keptWaiting needs f.queue).length ≤ 32 :=
    (Nat.add_le_add_left (keptWaiting_length ..) _).trans ((length_issued_waiting f.queue).trans_le h.1)
  unfold Fetch.updateQueue
  dsimp only
  rw [List.length_append]
  exact List.foldlRecOn (motive := fun ws : List QueueEntry => _ + ws.length ≤ 32) _ _ kept
    fun _ room n _ => insertLine_length room n

/-! ### Issuing (R82) -/

/-- An issue changes the first waiting entry into an ISSUED one, and there were fewer than 8. -/
theorem issueOne_bounded {s t : State} (issue : issueOne s = some t) (h : s.fetch.bounded) : t.fetch.bounded := by
  obtain ⟨-, few, q, i, n, first, -, rfl⟩ := issueOne_some issue
  have waits : 0 < (s.fetch.queue.filter QueueEntry.isWaiting).length :=
    List.length_pos_of_mem (List.mem_filter.2 ⟨List.mem_of_find?_eq_some first, List.find?_some first⟩)
  have tail : (s.fetch.queue.filter QueueEntry.isWaiting).tail.filter QueueEntry.isIssued = [] :=
    filter_issued_waiting fun p hp => (List.mem_filter.1 (List.mem_of_mem_tail hp)).2
  constructor
  · have total := length_issued_waiting s.fetch.queue
    have := h.1
    show (_ ++ _ :: _).length ≤ 32
    rw [List.length_append, List.length_cons, List.length_tail]
    omega
  · show ((_ ++ _ :: _).filter QueueEntry.isIssued).length ≤ 8
    rw [List.filter_append, List.filter_cons_of_pos rfl, tail, List.filter_filter]
    simp only [Bool.and_self, List.length_append, List.length_singleton]
    exact few

end Sys2Proof.Machine
end

section
/-! PROOFS. Every step keeps the Fetch Queue within its bounds (R76, R80 to R82): each operation of the part either
leaves the Fetch Unit as it is, or changes it by the operations of the Fetch Unit. -/

namespace Sys2Proof.Machine

/-! ### Operations that keep the bounds -/

/-- An operation on the state keeps the Fetch Queue within its bounds. -/
def KeepsFetchBounds (f : State → State) : Prop := ∀ s, s.fetch.bounded → (f s).fetch.bounded

/-- An operation that does not change the Fetch Unit. -/
theorem Keeps.fetchBounds {F : Foot} {f : State → State} (k : Keeps F f) (s : State) (h : s.fetch.bounded)
    (out : F.fetch = false := by rfl) : (f s).fetch.bounded := (k.fetch s out).symm ▸ h

theorem KeepsFetchBounds.of_keeps {F : Foot} {f : State → State} (k : Keeps F f)
    (out : F.fetch = false := by rfl) : KeepsFetchBounds f := fun s h => k.fetchBounds s h out

theorem KeepsFetchBounds.comp {f g : State → State} (kf : KeepsFetchBounds f) (kg : KeepsFetchBounds g) :
    KeepsFetchBounds fun s => f (g s) := fun s h => kf _ (kg s h)

theorem KeepsFetchBounds.forEach {α : Type} {f : α → State → State} (k : ∀ x, KeepsFetchBounds (f x))
    (xs : List α) : KeepsFetchBounds (forEach xs f) := fun s h => forEach_induct xs (fun x _ t ht => k x t ht) s h

/-- An operation that is made only where a condition on the state holds. -/
theorem KeepsFetchBounds.ite {f : State → State} (k : KeepsFetchBounds f) (b : State → Prop)
    [∀ s, Decidable (b s)] : KeepsFetchBounds fun s => if b s then f s else s := by
  intro s h
  dsimp only
  split
  exacts [k s h, h]

/-- A read of a line is issued, or none is. -/
theorem fetchIssue_fetchBounds : KeepsFetchBounds fun s => (issueOne s).getD s := by
  intro s h
  dsimp only
  cases issue : issueOne s with
  | none => exact h
  | some t => exact issueOne_bounded issue h

theorem issueAll_fetchBounds : KeepsFetchBounds issueAll :=
  issueAll_induct (P := fun t => t.fetch.bounded) fun _ _ => issueOne_bounded

theorem needUpdate_fetchBounds (c : Chan) : KeepsFetchBounds (needUpdate c) := by
  intro s h
  unfold needUpdate
  refine issueAll_fetchBounds _ (Fetch.bounded.updateQueue ?_ _ _)
  exact h

theorem invalidateStory_fetchBounds (k : Slot) : KeepsFetchBounds (invalidateStory k) := fun _ h =>
  issueAll_fetchBounds _ (h.invalidate _)

theorem fillPlace_fetchBounds (i : Fin 512) (r : ReadResult) : KeepsFetchBounds (fillPlace i r) := by
  intro s h
  unfold fillPlace
  split
  · exact (fetchReport_keeps ..).fetchBounds _ h
  · exact h
  · exact h

theorem fetchComplete_fetchBounds (tag : Nat) (r : ReadResult) : KeepsFetchBounds (fetchComplete tag r) := by
  intro s h
  unfold fetchComplete
  split
  · exact h
  · split
    · exact h
    · dsimp only
      split
      · exact issueAll_fetchBounds _ (h.dropIssued tag _)
      · exact issueAll_fetchBounds _ (fillPlace_fetchBounds _ r _ (h.dropIssued tag _))

/-! ### The engine (R152 to R155) -/

theorem halt_fetchBounds (cause : HaltCause) : KeepsFetchBounds (halt cause) := by
  intro s h
  obtain ⟨-, e⟩ | ⟨-, e⟩ := halt_cases cause s <;> rw [e]
  exacts [h, h.abandon]

theorem resetWith_fetchBounds (lo hi : Word) (s : State) : (resetWith lo hi s).fetch.bounded :=
  resetMeetsTheInvariants.fetch

theorem stop_fetchBounds : KeepsFetchBounds stop := fun _ h => h.abandon

theorem beginStart_fetchBounds : KeepsFetchBounds beginStart := by
  intro s h
  unfold beginStart
  dsimp only
  split
  · exact halt_fetchBounds _ (startEffects s) h
  · exact h

theorem runWrite_fetchBounds (run : Bool) : KeepsFetchBounds (runWrite run) := by
  intro s h
  unfold runWrite
  split
  case h_1 => exact beginStart_fetchBounds s h
  case h_4 => exact stop_fetchBounds s h
  case h_6 => exact stop_fetchBounds s h
  all_goals exact h

theorem engineCtlWrite_fetchBounds (run reset look : Bool) : KeepsFetchBounds (engineCtlWrite run reset look) := by
  intro s h
  unfold engineCtlWrite
  split
  · exact resetWith_fetchBounds _ _ s
  · split
    · exact lookNowWrite_keeps.fetchBounds _ (runWrite_fetchBounds run s h)
    · exact runWrite_fetchBounds run s h

theorem registerWrite_fetchBounds (offset size : Nat) (w : Word) : KeepsFetchBounds (registerWrite offset size w) := by
  intro s h
  unfold registerWrite
  split
  · exact (areaLoTake_keeps w).fetchBounds s h
  split
  · exact (areaHiTake_keeps w).fetchBounds s h
  split
  · exact engineCtlWrite_fetchBounds _ _ _ s h
  split <;> exact h

theorem headerDone_fetchBounds (tag : Nat) (bytes : List Byte) : KeepsFetchBounds (headerDone tag bytes) := by
  intro s h
  unfold headerDone
  split
  · split
    · split
      · exact h
      · exact halt_fetchBounds _ s h
    · exact h
  · exact h

/-- The full take invalidates the stories whose version changes (R90). -/
theorem fullTakeDone_fetchBounds (tag : Nat) (d : FullTakeData) : KeepsFetchBounds (fullTakeDone tag d) := by
  intro s h
  have adopted : (adoptRundown d.rundown (adoptStories d s)).fetch.bounded :=
    (adoptRundown_keeps _).fetchBounds _ ((adoptStories_keeps d).fetchBounds s h)
  unfold fullTakeDone
  split
  · split
    · unfold completeFullTake
      exact (raise_keeps _).fetchBounds _ (adopted.invalidate _)
    · exact h
  · exact h

theorem startFault_fetchBounds (tag : Nat) : KeepsFetchBounds (startFault tag) :=
  (halt_fetchBounds _).ite _

/-! ### Writes and posts (R154, R166, R167) -/

theorem writeDone_fetchBounds (tag : Nat) (mine : WriteTarget → Bool) (r : WriteResult) :
    KeepsFetchBounds (writeDone tag mine r) := by
  intro s h
  obtain ⟨-, e⟩ | ⟨w, -, ⟨-, e⟩ | ⟨-, -, e⟩ | ⟨report, -, -, e⟩⟩ := writeDone_cases tag mine r s <;> rw [e]
  · exact h
  · exact halt_fetchBounds _ (dropWrite tag s) h
  · exact h
  · exact (raise_keeps report).fetchBounds (dropWrite tag s) h

theorem failPost_fetchBounds : KeepsFetchBounds failPost := fun s h =>
  halt_fetchBounds _ { s with reports := { s.reports with current := none } } h

theorem postReadDone_fetchBounds (tag : Nat) (r : ReadResult) : KeepsFetchBounds (postReadDone tag r) := by
  intro s h
  unfold postReadDone
  split
  · split
    · split
      · exact failPost_fetchBounds s h
      · exact h
    · exact h
  · exact h

theorem postWriteDone_fetchBounds (tag : Nat) (r : WriteResult) : KeepsFetchBounds (postWriteDone tag r) := by
  intro s h
  unfold postWriteDone
  split
  · split
    · split
      · exact failPost_fetchBounds s h
      · exact h
    · exact h
  · exact h

/-! ### The Exchange Unit (R63 to R69) -/

theorem flip_fetchBounds (k : Slot) (generation : Word) (address : Addr) (count : Nat) :
    KeepsFetchBounds (flip k generation address count) := fun _ h =>
  (writeStoryFields_keeps ..).fetchBounds _ (invalidateStory_fetchBounds k (State.modStory _ k _) h)

theorem endDirectTake_fetchBounds (tag : Nat) (r : ReadResult) : KeepsFetchBounds (endDirectTake tag r) := by
  intro s h
  unfold endDirectTake
  split
  · exact h
  · dsimp only
    split
    · exact (failTake_keeps ..).fetchBounds _ h
    · split
      · exact flip_fetchBounds _ _ _ _ _ ((raiseIf_keeps ..).fetchBounds _ h)
      · exact h

theorem failSearch_fetchBounds (sr : Searcher) (stage : FailedStage) (line : Word) :
    KeepsFetchBounds (failSearch sr stage line) :=
  (KeepsFetchBounds.of_keeps (endSearch_keeps _)).comp (.of_keeps (failTake_keeps ..))

theorem completeSearch_fetchBounds (sr : Searcher) (address : Addr) (count : Nat) :
    KeepsFetchBounds (completeSearch sr address count) :=
  (KeepsFetchBounds.of_keeps (endSearch_keeps _)).comp
    ((KeepsFetchBounds.forEach (fun m => .of_keeps (reanchorMember_keeps _ _ m)) _).comp (flip_fetchBounds _ _ _ _))

theorem continueSearch_fetchBounds (sr : Searcher) (address : Addr) (count i : Nat) :
    KeepsFetchBounds (continueSearch sr address count i) := by
  intro s h
  unfold continueSearch
  split
  · exact completeSearch_fetchBounds sr address count s h
  · exact h

theorem searchVersionRead_fetchBounds (tag : Nat) (r : ReadResult) : KeepsFetchBounds (searchVersionRead tag r) := by
  intro s h
  unfold searchVersionRead
  split
  · exact h
  · split
    · exact h
    · split
      · split
        · exact failSearch_fetchBounds _ _ _ s h
        · exact continueSearch_fetchBounds _ _ _ _ _ ((raiseIf_keeps ..).fetchBounds _ h)
      · exact h

theorem keyRead_fetchBounds (tag : Nat) (r : ReadResult) : KeepsFetchBounds (keyRead tag r) := by
  intro s h
  unfold keyRead
  split
  · exact h
  · split
    · exact h
    · split
      · split
        · exact failSearch_fetchBounds _ _ _ s h
        · exact continueSearch_fetchBounds _ _ _ _ s h
      · exact h

/-! ### The frame event (R124 to R129) -/

/-- Each publication is used by the Fetch Unit before the next one (R78). -/
theorem channelsFrame_fetchBounds : KeepsFetchBounds channelsFrame := by
  intro s h
  rw [channelsFrame_eq]
  have published : ∀ outcomes c, KeepsFetchBounds (publishChannel outcomes c) := fun outcomes c =>
    (needUpdate_fetchBounds c).comp (.of_keeps (makePublication_keeps outcomes c))
  exact (Keeps.forEach (writePortStatus_keeps _) _).fetchBounds _
    (KeepsFetchBounds.forEach (published _) _ _ (advanced_keeps.fetchBounds s h))

theorem frameBody_fetchBounds : KeepsFetchBounds frameBody := by
  intro s h
  unfold frameBody
  split
  · exact afterChannels_keeps.fetchBounds _ (channelsFrame_fetchBounds _ (announceLock_keeps.fetchBounds s h))
  · exact composeHeads_keeps.fetchBounds s h

theorem freeFrame_fetchBounds : KeepsFetchBounds freeFrame :=
  KeepsFetchBounds.ite (f := fun s => frameBody (countFrame (s.modTimebase (Timebase.nextFree s.rate))))
    (fun _ h => frameBody_fetchBounds _ h) _

theorem lockEdge_fetchBounds : KeepsFetchBounds lockEdge := fun _ h =>
  frameBody_fetchBounds _ ((raiseRunning_keeps _).fetchBounds _ h)

theorem refEdge_fetchBounds : KeepsFetchBounds refEdge := by
  intro s h
  unfold refEdge
  split
  · unfold edgeInFree
    split
    · dsimp only
      split
      · exact lockEdge_fetchBounds _ h
      · exact h
    · exact h
  · unfold edgeInLocked
    split
    · exact frameBody_fetchBounds _ h
    · exact h

theorem loseLock_fetchBounds : KeepsFetchBounds loseLock := by
  intro s h
  have announced : (if (countFrame s).running then announceLock (countFrame s) else countFrame s).fetch.bounded :=
    (KeepsFetchBounds.of_keeps announceLock_keeps).ite (fun t => t.running = true) (countFrame s) h
  unfold loseLock
  exact frameBody_fetchBounds _ ((raiseRunning_keeps _).fetchBounds _ announced)

theorem windowClose_fetchBounds : KeepsFetchBounds windowClose := by
  intro s h
  unfold windowClose
  split
  · dsimp only
    split
    · exact loseLock_fetchBounds _ h
    · exact frameBody_fetchBounds _ h
  · exact h

/-! ### Commands and scans (R156, R159, R160) -/

/-- The effect of a command keeps the Fetch Queue within its bounds. -/
def CommandKeepsFetchBounds (act : State → CommandResult × State) : Prop :=
  ∀ s, s.fetch.bounded → (act s).2.fetch.bounded

theorem refuse_fetchBounds (r : CommandResult) : CommandKeepsFetchBounds (refuse r) := fun _ h => h

theorem jumpCommand_fetchBounds (channel story line : Word) :
    CommandKeepsFetchBounds (jumpCommand channel story line) := by
  intro s h
  unfold jumpCommand
  split
  · unfold jumpChecked
    split
    · exact h
    dsimp only
    split
    · exact h
    split
    · exact h
    · exact (placeJump_keeps ..).fetchBounds s h
  · exact h

theorem nudgeCommand_fetchBounds (channel rows : Word) : CommandKeepsFetchBounds (nudgeCommand channel rows) := by
  intro s h
  unfold nudgeCommand
  split
  · exact h
  split <;> exact h

theorem setDemandCommand_fetchBounds (channel demand : Word) :
    CommandKeepsFetchBounds (setDemandCommand channel demand) := by
  intro s h
  unfold setDemandCommand
  split
  · exact h
  split <;> exact h

theorem goCommand_fetchBounds (channel : Word) : CommandKeepsFetchBounds (goCommand channel) := by
  intro s h
  unfold goCommand
  split
  · exact h
  split
  · exact (goChannel_keeps _).fetchBounds s h
  · exact h

theorem freezeCommand_fetchBounds (channel on : Word) : CommandKeepsFetchBounds (freezeCommand channel on) := by
  intro s h
  unfold freezeCommand
  split
  · exact h
  split <;> exact h

theorem headBlankCommand_fetchBounds (head on : Word) : CommandKeepsFetchBounds (headBlankCommand head on) := by
  intro s h
  unfold headBlankCommand
  split <;> exact h

theorem refreshStoryCommand_fetchBounds (story : Word) : CommandKeepsFetchBounds (refreshStoryCommand story) := by
  intro s h
  unfold refreshStoryCommand
  split
  · exact h
  · exact invalidateStory_fetchBounds _ s h

theorem commandAct_fetchBounds (x : Command) : CommandKeepsFetchBounds (commandAct x) := by
  unfold commandAct
  split
  · exact jumpCommand_fetchBounds _ _ _
  split
  · exact nudgeCommand_fetchBounds _ _
  split
  · exact setDemandCommand_fetchBounds _ _
  split
  · exact goCommand_fetchBounds _
  split
  · exact freezeCommand_fetchBounds _ _
  split
  · exact headBlankCommand_fetchBounds _ _
  split
  · exact refreshStoryCommand_fetchBounds _
  · exact refuse_fetchBounds _

theorem runCommand_fetchBounds (n : CmdSlot) (request code : Word) {act : State → CommandResult × State}
    (k : CommandKeepsFetchBounds act) : KeepsFetchBounds (runCommand n request code act) := by
  intro s h
  obtain ⟨-, -, e⟩ | ⟨-, e⟩ := runCommand_cases n request code act s <;> rw [e]
  exacts [k s h, h]

theorem rescanCommands_fetchBounds (d : ScanData) : KeepsFetchBounds (rescanCommands d) :=
  .forEach (fun n => runCommand_fetchBounds n _ _ (commandAct_fetchBounds _)) _

theorem completeScan_fetchBounds (d : ScanData) : KeepsFetchBounds (completeScan d) := fun _ h =>
  endScan_keeps.fetchBounds _ (rescanCommands_fetchBounds d _ ((rescanSettings_keeps d).fetchBounds _
    ((rescanShadows_keeps d).fetchBounds _ h)))

/-! ### Every command -/

theorem sampleAll_fetchBounds (levels : Bank 8 Lines) : KeepsFetchBounds (sampleAll levels) :=
  .of_keeps (sampleAll_keeps levels)

/-- An edge that brings the lever's pin to the level that is high after polarity (R97). -/
theorem risingEdge_fetchBounds (p : PortId) : KeepsFetchBounds fun s => leverEdgeAt p (s.highPin p) s := fun s =>
  (leverEdgeAt_keeps p _).fetchBounds s

/-- Every command answers with the state that an operation gives, and the operation keeps the bounds. -/
theorem exec_fetchBounds (i : Instr) : ∃ f, KeepsFetchBounds f ∧ ∀ s, exec i s = .next (f s) := by
  cases i
  case powerOnReset => exact ⟨_, fun s _ => resetWith_fetchBounds _ _ s, fun _ => rfl⟩
  case startSequence => exact ⟨_, engineCtlWrite_fetchBounds _ _ _, fun _ => rfl⟩
  case stop => exact ⟨_, engineCtlWrite_fetchBounds _ _ _, fun _ => rfl⟩
  case softReset => exact ⟨_, engineCtlWrite_fetchBounds _ _ _, fun _ => rfl⟩
  case lookNow => exact ⟨_, engineCtlWrite_fetchBounds _ _ _, fun _ => rfl⟩
  case areaLoWrite => exact ⟨_, .of_keeps (areaLoTake_keeps _), fun _ => rfl⟩
  case areaHiWrite => exact ⟨_, .of_keeps (areaHiTake_keeps _), fun _ => rfl⟩
  case irqCauseWrite => exact ⟨_, .of_keeps (irqCauseClear_keeps _), fun _ => rfl⟩
  case registerWriteIgnored => exact ⟨_, registerWrite_fetchBounds _ _ _, fun _ => rfl⟩
  case areaHeaderReadDone => exact ⟨_, headerDone_fetchBounds _ _, fun _ => rfl⟩
  case glyphStoreLoadReadDone => exact ⟨_, .of_keeps (glyphReadDone_keeps _ _), fun _ => rfl⟩
  case startSettingsReadDone => exact ⟨_, .of_keeps (startSettingsDone_keeps _ _), fun _ => rfl⟩
  case startReadFault => exact ⟨_, startFault_fetchBounds _, fun _ => rfl⟩
  case fullTake => exact ⟨_, fullTakeDone_fetchBounds _ _, fun _ => rfl⟩
  case frameEvent => exact ⟨_, freeFrame_fetchBounds, fun _ => rfl⟩
  case refEdge => exact ⟨_, refEdge_fetchBounds, fun _ => rfl⟩
  case refLock => exact ⟨_, refEdge_fetchBounds.ite (wouldLock · = true), fun _ => rfl⟩
  case refWindowClose => exact ⟨_, windowClose_fetchBounds, fun _ => rfl⟩
  case refLossMissed => exact ⟨_, windowClose_fetchBounds.ite (wouldLose · = true), fun _ => rfl⟩
  case sampleEvent => exact ⟨_, sampleAll_fetchBounds _, fun _ => rfl⟩
  case quadratureSample => exact ⟨_, .of_keeps (quadratureAt_keeps _ _ _), fun _ => rfl⟩
  case leverEdge => exact ⟨_, .of_keeps (leverEdgeAt_keeps _ _), fun _ => rfl⟩
  case leverAcquired p => exact ⟨_, (risingEdge_fetchBounds p).ite (wouldAcquire · p = true), fun _ => rfl⟩
  case leverInvalidLost p => exact ⟨_, (risingEdge_fetchBounds p).ite (wouldLosePort · p = true), fun _ => rfl⟩
  case leverLossTimeout p levels => exact ⟨_, (sampleAll_fetchBounds levels).ite (timesOut · p = true), fun _ => rfl⟩
  case buttonDebounceAccept p l levels =>
    exact ⟨_, (sampleAll_fetchBounds levels).ite (accepts · p l (levels.get p) = true), fun _ => rfl⟩
  case strobeExpiry c levels => exact ⟨_, (sampleAll_fetchBounds levels).ite (·.lamps.strobe.get c = 1), fun _ => rfl⟩
  case quietRelease => exact ⟨_, freeFrame_fetchBounds.ite (quietDue · _ = true), fun _ => rfl⟩
  case fetchIssue => exact ⟨_, fetchIssue_fetchBounds, fun _ => rfl⟩
  case fetchCompletion => exact ⟨_, fetchComplete_fetchBounds _ _, fun _ => rfl⟩
  case statusWriteComplete => exact ⟨_, writeDone_fetchBounds _ _ _, fun _ => rfl⟩
  case scanCompletion => exact ⟨_, (completeScan_fetchBounds _).ite (scanIs _ · = true), fun _ => rfl⟩
  case scanReadFault tag which =>
    cases which <;> exact ⟨_, (halt_fetchBounds _).ite (scanIs tag · = true), fun _ => rfl⟩
  case settingsWriteComplete => exact ⟨_, writeDone_fetchBounds _ _ _, fun _ => rfl⟩
  case jump => exact ⟨_, runCommand_fetchBounds _ _ _ (jumpCommand_fetchBounds _ _ _), fun _ => rfl⟩
  case nudge => exact ⟨_, runCommand_fetchBounds _ _ _ (nudgeCommand_fetchBounds _ _), fun _ => rfl⟩
  case setDemand => exact ⟨_, runCommand_fetchBounds _ _ _ (setDemandCommand_fetchBounds _ _), fun _ => rfl⟩
  case go => exact ⟨_, runCommand_fetchBounds _ _ _ (goCommand_fetchBounds _), fun _ => rfl⟩
  case freeze => exact ⟨_, runCommand_fetchBounds _ _ _ (freezeCommand_fetchBounds _ _), fun _ => rfl⟩
  case headBlank => exact ⟨_, runCommand_fetchBounds _ _ _ (headBlankCommand_fetchBounds _ _), fun _ => rfl⟩
  case refreshStory => exact ⟨_, runCommand_fetchBounds _ _ _ (refreshStoryCommand_fetchBounds _), fun _ => rfl⟩
  case unknownCommand => exact ⟨_, runCommand_fetchBounds _ _ _ (refuse_fetchBounds _), fun _ => rfl⟩
  case commandResultWriteDone => exact ⟨_, writeDone_fetchBounds _ _ _, fun _ => rfl⟩
  case directTakeReadDone => exact ⟨_, endDirectTake_fetchBounds _ _, fun _ => rfl⟩
  case searchVersionReadDone => exact ⟨_, searchVersionRead_fetchBounds _ _, fun _ => rfl⟩
  case keyReadDone => exact ⟨_, keyRead_fetchBounds _ _, fun _ => rfl⟩
  case exchangeWriteDone => exact ⟨_, writeDone_fetchBounds _ _ _, fun _ => rfl⟩
  case rundownListReadDone => exact ⟨_, .of_keeps (rundownRead_keeps _ _), fun _ => rfl⟩
  case rundownWriteDone => exact ⟨_, writeDone_fetchBounds _ _ _, fun _ => rfl⟩
  case postBegin => exact ⟨_, .of_keeps beginPost_keeps, fun _ => rfl⟩
  case postReadDone => exact ⟨_, postReadDone_fetchBounds _ _, fun _ => rfl⟩
  case postWriteDone => exact ⟨_, postWriteDone_fetchBounds _ _, fun _ => rfl⟩

/-- Settles O7: an idle microsecond leaves the Fetch Unit as it is, and every command keeps the bounds of its queue. -/
theorem stepKeepsFetchBounds : Obligations.StepKeepsFetchBounds := by
  unfold Obligations.StepKeepsFetchBounds
  intro s t h run
  unfold step at run
  split at run
  · cases run
    exact h
  · rename_i c rest _
    obtain ⟨f, keeps, answers⟩ := exec_fetchBounds c
    rw [answers] at run
    cases run
    exact keeps { s with pending := rest } h

end Sys2Proof.Machine
end

section
/-! PROOFS. The quadrature sample of a WHEEL port (R100, R101): the step from pair to pair, and what it makes of the
port. -/

namespace Sys2Proof.Machine

set_option Elab.async false

/-! ### The step from pair to pair (R100) -/

theorem quadStep_same (x : Bool × Bool) : quadStep x x = .none := if_pos rfl

theorem quadStep_both {old new : Bool × Bool} (first : old.1 ≠ new.1) (second : old.2 ≠ new.2) :
    quadStep old new = .error :=
  (if_neg fun e => first (congrArg Prod.fst e)).trans (if_pos ⟨first, second⟩)

/-- The steps that follow the order of R100. -/
def forwardSteps : List ((Bool × Bool) × (Bool × Bool)) :=
  [((false, false), (true, false)), ((true, false), (true, true)), ((true, true), (false, true)),
    ((false, true), (false, false))]

theorem quadStep_one {old new : Bool × Bool} (one : old.1 = new.1 ↔ old.2 ≠ new.2) :
    quadStep old new = if (old, new) ∈ forwardSteps then .forward else .backward := by
  have moved : old ≠ new := fun e => one.mp (congrArg Prod.fst e) (congrArg Prod.snd e)
  have single : ¬ (old.1 ≠ new.1 ∧ old.2 ≠ new.2) := fun both => both.1 (one.mpr both.2)
  exact (if_neg moved).trans (if_neg single)

/-! ### What a step makes of the port (R101) -/

/-- A port after a step of its quadrature pair, the pair itself aside. -/
def Port.turned (ps : PortSettings) (used : Bool) (q : Port) : QuadStep → Port
  | .none => q
  | .forward => if used then q.count ps 1 else q
  | .backward => if used then q.count ps (-1) else q
  | .error => { q with errorCount := min (q.errorCount + 1) 65535 }

theorem Port.turned_unused (ps : PortSettings) (q : Port) (b : Prop) [Decidable b] :
    q.turned ps false (if b then .forward else .backward) = q := by
  split <;> rfl

theorem Port.turned_used (ps : PortSettings) (q : Port) (b : Prop) [Decidable b] :
    q.turned ps true (if b then .forward else .backward) = q.count ps (if b then 1 else -1) := by
  split <;> rfl

theorem Port.count_jog {ps : PortSettings} (jog : ps.wheelFunction = .jog) (n : Int) (q : Port) :
    q.count ps n = { q with jog := clampInt (-65536) 65536 (q.jog + n * ps.jogScale) } := by
  unfold Port.count
  rw [jog]

theorem Port.count_speed {ps : PortSettings} (speed : ps.wheelFunction = .speed) (n : Int) (q : Port) :
    q.count ps n = { q with standing := clampInt (-1024) 1024 (q.standing + n * ps.demandStep) } := by
  unfold Port.count
  rw [speed]

/-- The pair of levels that a quadrature sample of the pins gives (R94, R100). -/
def State.sampledPair (s : State) (p : PortId) (a b : Bool) : Bool × Bool := (s.polarised p .a a, s.polarised p .b b)

/-- The step that a quadrature sample makes from the pair of a port, where it has one. -/
def Port.stepTo (new : Bool × Bool) (q : Port) : QuadStep := q.quad.elim .none (quadStep · new)

theorem quadratureAt_wheel {p : PortId} (a b : Bool) {s : State} (wheel : (s.portSet p).mode = .wheel) :
    quadratureAt p a b s = s.modPort p fun q =>
      { q.turned (s.portSet p) s.running (q.stepTo (s.sampledPair p a b)) with
        quad := some (s.sampledPair p a b) } := by
  refine (if_pos wheel).trans (congrArg (s.modPort p) (funext fun q => ?_))
  unfold Port.stepTo State.sampledPair
  cases q.quad with
  | none => rfl
  | some old =>
    dsimp only [Option.elim]
    cases quadStep old _ <;> rfl

/-- Settles O39: the step of each pair of samples, and the count that the wheel function makes of it. -/
theorem quadratureSampleCounts : Obligations.QuadratureSampleCounts := by
  unfold Obligations.QuadratureSampleCounts
  intro p a b s wheel ps q new answers
  have sampled : ∀ {x}, q.stepTo new = x → answers (q.turned ps s.running x) := fun {x} step => by
    subst step
    exact congrArg Host.Outcome.next (quadratureAt_wheel a b wheel)
  refine ⟨fun fresh => sampled (congrArg (Option.elim · _ _) fresh), fun old pair => ?_⟩
  have stepped : ∀ {x}, quadStep old new = x → answers (q.turned ps s.running x) := fun step =>
    sampled ((congrArg (Option.elim · _ _) pair).trans step)
  refine ⟨fun same => stepped (x := .none) (by rw [same, quadStep_same]),
    fun first second => stepped (quadStep_both first second), fun one => ?_⟩
  have counted := stepped (quadStep_one one)
  refine ⟨fun off => ?off, fun run jog => ?jog, fun run speed => ?speed⟩
  case off => rwa [show s.running = false from beq_eq_false_iff_ne.mpr off, Port.turned_unused] at counted
  case jog => rwa [show s.running = true from beq_iff_eq.mpr run, Port.turned_used, Port.count_jog jog] at counted
  case speed => rwa [show s.running = true from beq_iff_eq.mpr run, Port.turned_used, Port.count_speed speed] at counted

end Sys2Proof.Machine
end

section
/-! PROOFS. The edges on line A of a LEVER port (R97, R98): each kind of edge as a change of the port's record, and the
moves of the port state at a sample (R99). -/

namespace Sys2Proof.Machine

set_option Elab.async false

/-! ### The sample (R98) -/

theorem validSample_iff {h p : Nat} : validSample h p = true ↔ 1000 ≤ p ∧ p ≤ 4000 ∧ 0 < h ∧ h < p := by
  simp [validSample, and_assoc]

/-- The computed demand by its size and its sign (R98 steps 2 to 4). -/
theorem leverDemand_eq (ps : PortSettings) (position : Nat) : leverDemand ps position =
    let x : Int := position - ps.center
    let size := if x.natAbs ≤ ps.deadband then 0 else min 1024 ((x.natAbs - ps.deadband) * 1024 / ps.span)
    let demand : Int := if x < 0 then -size else size
    if ps.reverse then -demand else demand := by
  have signed : ∀ (x : Int) (n : Nat), (0 < x.natAbs ∨ n = 0) → x.sign * n = if x < 0 then -(n : Int) else n := by
    intro x n moved
    rcases lt_trichotomy x 0 with below | rest | above
    · rw [Int.sign_eq_neg_one_of_neg below, if_pos below, neg_one_mul]
    · obtain zero : n = 0 := moved.resolve_left (by omega)
      simp [rest, zero]
    · rw [Int.sign_eq_one_of_pos above, if_neg (by omega), one_mul]
  unfold leverDemand
  dsimp only
  by_cases rest : ((position : Int) - ps.center).natAbs ≤ ps.deadband
  · simp [rest]
  · rw [if_neg rest, if_neg rest, signed _ _ (.inl (by omega))]

/-- A computed demand lies in -1024..1024 (R95, R98). -/
theorem leverDemand_natAbs (ps : PortSettings) (position : Nat) : (leverDemand ps position).natAbs ≤ 1024 := by
  have signed : ∀ (size : Nat) (b c : Prop) [Decidable b] [Decidable c],
      (if b then -(if c then -(size : Int) else size) else if c then -(size : Int) else size).natAbs = size := by
    intro size b c _ _
    split_ifs <;> omega
  rw [leverDemand_eq]
  dsimp only
  rw [signed]
  split
  exacts [Nat.zero_le _, Nat.min_le_left ..]

/-! ### The port's record at an edge (R97 to R99) -/

/-- The h and p of a completed period are kept as the last capture, valid or not (R97). -/
def Port.capture (h width : Nat) (q : Port) : Port := { q with lastHigh := min h 65535, lastPeriod := min width 65535 }

/-- An edge on line A restarts the edge age (R97). -/
def Port.edge (q : Port) : Port := { q with edgeAge := 0 }

/-- A rising edge begins a period (R97). -/
def Port.beginPeriod (now : Word) (q : Port) : Port := { q with periodStart := some now, highTime := none }

/-- A falling edge gives the high time of the period in progress (R97). -/
def Port.fall (now : Word) (q : Port) : Port :=
  match q.periodStart, q.highTime with
  | some start, none => { q with highTime := some (now - start).toNat }
  | _, _ => q

theorem Port.fall_begun {now start : Word} {q : Port} (begun : q.periodStart = some start) (low : q.highTime = none) :
    q.fall now = { q with highTime := some (now - start).toNat } := by
  unfold Port.fall
  rw [begun, low]

/-- A falling edge with no period start is ignored. -/
theorem Port.fall_fresh {q : Port} (now : Word) (fresh : q.periodStart = none) : q.fall now = q := by
  unfold Port.fall
  rw [fresh]

/-- Entry to LOST (R99). -/
def Port.lose (q : Port) : Port :=
  { q with phase := .lost, validRun := 0, timeLost := 0, lostCount := min (q.lostCount + 1) 65535 }

/-- The move of the port state at a valid sample (R99). -/
def Port.afterValid (q : Port) : Port :=
  if (q.phase = .acquiring ∨ q.phase = .lost) ∧ q.validRun = 4 then { q with phase := .recenter, validRun := 0 }
  else if q.phase = .recenter ∧ q.value = 0 then { q with phase := .active }
  else q

/-- The move of the port state at an invalid sample (R99). -/
def Port.afterInvalid (q : Port) : Port :=
  if (q.phase = .active ∨ q.phase = .recenter) ∧ q.invalidRun = 8 then q.lose else q

/-- A valid sample moves the port state and may restart the valid run, and nothing else of the port. -/
theorem Port.afterValid_eq (q : Port) : ∃ phase run, q.afterValid = { q with phase := phase, validRun := run } := by
  unfold Port.afterValid
  split
  · exact ⟨.recenter, 0, rfl⟩
  · split
    · exact ⟨.active, q.validRun, rfl⟩
    · exact ⟨q.phase, q.validRun, rfl⟩

/-- The loss that an invalid sample may bring changes four items of the port. -/
theorem Port.afterInvalid_eq (q : Port) : ∃ phase run time count, (run = 0 ∨ run = q.validRun) ∧
    q.afterInvalid = { q with phase := phase, validRun := run, timeLost := time, lostCount := count } := by
  unfold Port.afterInvalid
  split
  · exact ⟨_, _, _, _, .inl rfl, rfl⟩
  · exact ⟨_, _, _, _, .inr rfl, rfl⟩

section
variable {p : PortId} {s : State}

theorem State.modPort_eq (s : State) (p : PortId) (f : Port → Port) :
    s.modPort p f = { s with ports := s.ports.set p (f (s.port p)) } := rfl

theorem State.modPort_modPort (s : State) (p : PortId) (f g : Port → Port) :
    (s.modPort p f).modPort p g = s.modPort p fun q => g (f q) := by
  simp [State.modPort]

theorem State.modPort_to {f : Port → Port} {q : Port} (port : f (s.port p) = q) :
    s.modPort p f = { s with ports := s.ports.set p q } := by
  rw [State.modPort_eq, port]

theorem State.modPort_congr {f g : Port → Port} (same : f (s.port p) = g (s.port p)) :
    s.modPort p f = s.modPort p g := by
  rw [State.modPort_eq, same]
  rfl

theorem State.modPort_fixed {f : Port → Port} (fixed : f (s.port p) = s.port p) : s.modPort p f = s := by
  rw [State.modPort_eq, fixed, State.port, Bank.set_get]

theorem State.port_of_ports {t : State} {q : Port} (ports : t.ports = s.ports.set p q) :
    t.port p = q ∧ ∀ p', p' ≠ p → t.port p' = s.port p' := by
  unfold State.port
  rw [ports]
  exact ⟨Bank.get_set_self .., fun _ other => Bank.get_set_ne _ _ other⟩

/-- Out of LOST a valid sample moves the port state without a report (R99). -/
theorem afterValid_of_not_lost (there : (s.port p).phase ≠ .lost) : afterValid p s = s.modPort p Port.afterValid := by
  unfold Machine.afterValid
  dsimp only
  split <;> rename_i phase
  · by_cases run : (s.port p).validRun = 4
    · rw [if_pos run]
      exact State.modPort_congr (if_pos ⟨.inl phase, run⟩).symm
    · rw [if_neg run]
      exact (State.modPort_fixed (by simp [Port.afterValid, phase, run])).symm
  · by_cases rest : (s.port p).value = 0
    · rw [if_pos rest]
      exact State.modPort_congr (by simp [Port.afterValid, phase, rest])
    · rw [if_neg rest]
      exact (State.modPort_fixed (by simp [Port.afterValid, phase, rest])).symm
  · exact absurd phase there
  · exact (State.modPort_fixed (by simp [Port.afterValid, phase])).symm
  · exact (State.modPort_fixed (by simp [Port.afterValid, phase])).symm

/-- A valid sample moves the port state, with a report or without. -/
theorem afterValid_ports (p : PortId) (s : State) :
    (afterValid p s).ports = s.ports.set p (s.port p).afterValid := by
  by_cases lost : (s.port p).phase = .lost
  · unfold Machine.afterValid
    simp only [lost]
    by_cases run : (s.port p).validRun = 4
    · rw [if_pos run, (raiseRunning_keeps _).ports, Port.afterValid, if_pos ⟨.inr lost, run⟩]
      rfl
    · rw [if_neg run, show (s.port p).afterValid = s.port p by simp [Port.afterValid, lost, run]]
      exact (Bank.set_get ..).symm
  · rw [afterValid_of_not_lost lost, State.modPort_eq]

/-- At the eighth invalid sample a port in use enters LOST (R99). -/
theorem afterInvalid_lost (used : (s.port p).phase = .active ∨ (s.port p).phase = .recenter)
    (run : (s.port p).invalidRun = 8) : afterInvalid p s = enterLost p .invalid s := by
  unfold Machine.afterInvalid
  obtain phase | phase := used <;> simp only [phase] <;> exact if_pos run

/-- An invalid sample moves the port state, with all that goes with a loss or without. -/
theorem afterInvalid_ports (p : PortId) (s : State) :
    (afterInvalid p s).ports = s.ports.set p (s.port p).afterInvalid := by
  by_cases loses : ((s.port p).phase = .active ∨ (s.port p).phase = .recenter) ∧ (s.port p).invalidRun = 8
  · rw [afterInvalid_lost loses.1 loses.2, enterLost_ports, Port.afterInvalid, if_pos loses]
    rfl
  · have stays : afterInvalid p s = s := by
      unfold Machine.afterInvalid
      dsimp only
      split <;> rename_i phase
      · exact if_neg fun run => loses ⟨.inl phase, run⟩
      · exact if_neg fun run => loses ⟨.inr phase, run⟩
      all_goals rfl
    rw [stays, Port.afterInvalid, if_neg loses]
    exact (Bank.set_get ..).symm

/-! ### The edges (R97) -/

variable {level : Bool} {h width : Nat}

/-- A port in another mode does not capture line A. -/
theorem leverEdgeAt_other (other : (s.portSet p).mode ≠ .lever) : leverEdgeAt p level s = s := if_neg other

theorem polarised_iff : s.polarised p .a level = true ↔ level ≠ (s.portSet p).invert.a := by
  unfold State.polarised
  rw [show (s.portSet p).invert.get .a = (s.portSet p).invert.a from rfl, Bool.xor_iff_ne]
  exact ne_comm

theorem leverEdgeAt_falling (lever : (s.portSet p).mode = .lever) (falling : level = (s.portSet p).invert.a) :
    leverEdgeAt p level s = s.modPort p fun q => q.edge.fall s.timebase.captureCount := by
  unfold leverEdgeAt
  rw [if_pos lever]
  dsimp only
  rw [if_neg fun high => polarised_iff.mp high falling]
  exact State.modPort_modPort s p Port.edge (Port.fall _)

theorem leverEdgeAt_rising (lever : (s.portSet p).mode = .lever) (rising : level ≠ (s.portSet p).invert.a) :
    leverEdgeAt p level s = leverRising p (s.modPort p Port.edge) := by
  unfold leverEdgeAt
  rw [if_pos lever]
  exact if_pos (polarised_iff.mpr rising)

/-- The period that a rising edge completes is not changed by the edge's restart of the edge age. -/
theorem completedPeriod_edge (p : PortId) (s : State) :
    (s.modPort p Port.edge).completedPeriod p = s.completedPeriod p := by
  unfold State.completedPeriod
  rw [State.port_modPort_self]
  rfl

theorem completedPeriod_none : s.completedPeriod p = none ↔ (s.port p).periodStart = none := Option.map_eq_none_iff

theorem completedPeriod_some {start : Word} (begun : (s.port p).periodStart = some start) :
    s.completedPeriod p = some ((s.port p).highTime.getD 0, (s.timebase.captureCount - start).toNat) :=
  congrArg (Option.map _) begun

/-- A rising edge with no period start begins a period. -/
theorem leverEdgeAt_first (lever : (s.portSet p).mode = .lever) (rising : level ≠ (s.portSet p).invert.a)
    (fresh : s.completedPeriod p = none) :
    leverEdgeAt p level s = s.modPort p fun q => q.edge.beginPeriod s.timebase.captureCount := by
  rw [leverEdgeAt_rising lever rising, leverRising, completedPeriod_edge, fresh]
  exact State.modPort_modPort s p Port.edge (Port.beginPeriod _)

/-- The record of a port at a valid sample, before the port state moves (R97, R98). -/
def Port.sampleValid (ps : PortSettings) (h width : Nat) (q : Port) : Port :=
  (q.edge.capture h width).takeValid ps h width

/-- The record of a port at an invalid sample, before the port state moves (R97, R98). -/
def Port.sampleInvalid (h width : Nat) (q : Port) : Port := (q.edge.capture h width).takeInvalid

theorem leverEdgeAt_completes (lever : (s.portSet p).mode = .lever) (rising : level ≠ (s.portSet p).invert.a)
    (completed : s.completedPeriod p = some (h, width)) : leverEdgeAt p level s =
      (periodCompletion p h width (s.modPort p Port.edge)).modPort p (Port.beginPeriod s.timebase.captureCount) := by
  rw [leverEdgeAt_rising lever rising, leverRising, completedPeriod_edge, completed]
  rfl

/-- A rising edge that completes a valid period. -/
theorem leverEdgeAt_valid (lever : (s.portSet p).mode = .lever) (rising : level ≠ (s.portSet p).invert.a)
    (completed : s.completedPeriod p = some (h, width)) (valid : validSample h width = true) :
    leverEdgeAt p level s = (afterValid p (s.modPort p (Port.sampleValid (s.portSet p) h width))).modPort p
      (Port.beginPeriod s.timebase.captureCount) := by
  rw [leverEdgeAt_completes lever rising completed, periodCompletion, if_pos valid,
    State.modPort_modPort, State.modPort_modPort]
  rfl

/-- A rising edge that completes an invalid period. -/
theorem leverEdgeAt_invalid (lever : (s.portSet p).mode = .lever) (rising : level ≠ (s.portSet p).invert.a)
    (completed : s.completedPeriod p = some (h, width)) (invalid : validSample h width = false) :
    leverEdgeAt p level s = (afterInvalid p (s.modPort p (Port.sampleInvalid h width))).modPort p
      (Port.beginPeriod s.timebase.captureCount) := by
  rw [leverEdgeAt_completes lever rising completed, periodCompletion,
    if_neg (Bool.eq_false_iff.mp invalid), State.modPort_modPort, State.modPort_modPort]
  rfl

/-- The port's record after a rising edge that completes a valid period. -/
theorem leverEdgeAt_valid_ports (lever : (s.portSet p).mode = .lever) (rising : level ≠ (s.portSet p).invert.a)
    (completed : s.completedPeriod p = some (h, width)) (valid : validSample h width = true) :
    (leverEdgeAt p level s).ports = s.ports.set p
      (((s.port p).sampleValid (s.portSet p) h width).afterValid.beginPeriod s.timebase.captureCount) := by
  rw [leverEdgeAt_valid lever rising completed valid, State.modPort_eq]
  unfold State.port
  simp [afterValid_ports, State.port, State.modPort]

/-- The port's record after a rising edge that completes an invalid period. -/
theorem leverEdgeAt_invalid_ports (lever : (s.portSet p).mode = .lever) (rising : level ≠ (s.portSet p).invert.a)
    (completed : s.completedPeriod p = some (h, width)) (invalid : validSample h width = false) :
    (leverEdgeAt p level s).ports = s.ports.set p
      (((s.port p).sampleInvalid h width).afterInvalid.beginPeriod s.timebase.captureCount) := by
  rw [leverEdgeAt_invalid lever rising completed invalid, State.modPort_eq]
  unfold State.port
  simp [afterInvalid_ports, State.port, State.modPort]

end

/-- Settles O40: each kind of edge by the change it makes of the port's record; a completion by the validity of its
sample. -/
theorem leverEdgeActs : Obligations.LeverEdgeActs := by
  unfold Obligations.LeverEdgeActs
  intro p level s lever ps q now answers
  have answered : ∀ {q' : Port}, leverEdgeAt p level s = { s with ports := s.ports.set p { q' with edgeAge := 0 } } →
      answers q' := congrArg Host.Outcome.next
  refine ⟨fun rising fresh => answered ?first, fun falling start begun low => answered ?high,
    fun falling fresh => answered ?ignored, fun rising start begun => ?completes⟩
  case first => exact leverEdgeAt_first lever rising (completedPeriod_none.mpr fresh)
  case high =>
    exact (leverEdgeAt_falling lever falling).trans (State.modPort_to (Port.fall_begun (q := q.edge) begun low))
  case ignored =>
    exact (leverEdgeAt_falling lever falling).trans (State.modPort_to (Port.fall_fresh (q := q.edge) now fresh))
  case completes =>
    have completed := completedPeriod_some begun
    intro h width position x size demand value valid
    have demanded : leverDemand ps (leverPosition h width) = value := leverDemand_eq ps _
    refine ⟨⟨leverEdgeAt p level s, rfl, ?record⟩, fun good active => answered ?active⟩
    case record =>
      by_cases good : validSample h width = true
      · obtain ⟨self, others⟩ := State.port_of_ports (leverEdgeAt_valid_ports lever rising completed good)
        obtain ⟨phase, run, moved⟩ := Port.afterValid_eq (q.sampleValid ps h width)
        have self : (leverEdgeAt p level s).port p = _ := self.trans (congrArg (Port.beginPeriod _) moved)
        refine ⟨others, ?_⟩
        dsimp only
        rw [self]
        exact ⟨rfl, rfl, rfl, rfl, rfl, fun _ => ⟨rfl, demanded, rfl⟩, fun bad => absurd (validSample_iff.mp good) bad⟩
      · obtain ⟨self, others⟩ := State.port_of_ports
          (leverEdgeAt_invalid_ports lever rising completed (Bool.eq_false_iff.mpr good))
        obtain ⟨phase, run, time, count, zero, moved⟩ := Port.afterInvalid_eq (q.sampleInvalid h width)
        have self : (leverEdgeAt p level s).port p = _ := self.trans (congrArg (Port.beginPeriod _) moved)
        refine ⟨others, ?_⟩
        dsimp only
        rw [self]
        exact ⟨rfl, rfl, rfl, rfl, rfl, fun bad => absurd (validSample_iff.mpr bad) good,
          fun _ => ⟨rfl, rfl, zero.elim id id, rfl⟩⟩
    case active =>
      have there : ((s.modPort p (Port.sampleValid ps h width)).port p).phase ≠ .lost := by
        rw [State.port_modPort_self]
        exact fun e => nomatch active.symm.trans e
      have stays : (q.sampleValid ps h width).afterValid = q.sampleValid ps h width := by
        have phase : (q.sampleValid ps h width).phase = .active := active
        simp [Port.afterValid, phase]
      have capture : q.edge.capture h width = { q with edgeAge := 0, lastHigh := h, lastPeriod := width } := by
        unfold Port.capture
        rw [Nat.min_eq_left (by omega), Nat.min_eq_left (by omega)]
        rfl
      rw [leverEdgeAt_valid lever rising completed (validSample_iff.mpr good), afterValid_of_not_lost there,
        State.modPort_modPort, State.modPort_modPort, State.modPort_eq]
      dsimp only
      rw [show s.port p = q from rfl, stays, Port.sampleValid, capture, Port.takeValid, demanded]
      rfl

end Sys2Proof.Machine
end

section
/-! PROOFS. The moves of a LEVER port between its states (R99): those that a sample brings at an edge, and those that
the loss limit brings at a sample event, with the release of R117. -/

namespace Sys2Proof.Machine

set_option Elab.async false

/-! ### The release of a lost port (R117) -/

section
variable {s t : State} {p : PortId}

/-- Releasing the port of a channel that it holds, or that nothing holds, leaves the channel without a holder. -/
theorem releasePort_holder (cause : AuthorityCause)
    (held : (s.auth (s.portSet p).channel).holder = none ∨ (s.auth (s.portSet p).channel).holder = some (.port p)) :
    ((releasePort p cause s).auth (s.portSet p).channel).holder = none := by
  unfold releasePort
  by_cases holds : s.holds p = true
  · rw [if_pos holds]
    exact releaseHolder_holder ..
  · rw [if_neg holds]
    exact held.resolve_right fun mine => holds (by simp [State.holds, mine])

/-- A release takes holders away and gives none. -/
theorem releasePort_drops (cause : AuthorityCause) (s : State) (c : Chan) :
    ((releasePort p cause s).auth c).holder = (s.auth c).holder ∨ ((releasePort p cause s).auth c).holder = none := by
  unfold releasePort
  split
  · by_cases own : c = (s.portSet p).channel
    · exact .inr (own ▸ releaseHolder_holder ..)
    · exact .inl (congrArg Authority.holder (releaseHolder_ne _ _ own))
  · exact .inl rfl

/-- The release at a loss finds the settings and the holders as the loss found them (R99). -/
theorem enterLost_eq (p : PortId) (cause : LossCause) (s : State) : ∃ u, u.settings = s.settings ∧
    u.authority = s.authority ∧ enterLost p cause s = releasePort p .portLost u := by
  unfold enterLost
  refine ⟨_, ?settings, ?authority, rfl⟩
  case settings => exact (raiseRunning_keeps _).settings _
  case authority => exact (raiseRunning_keeps _).authority _

/-- A port that enters LOST leaves its channel without a holder, where it or nothing held it (R99). -/
theorem enterLost_holder (cause : LossCause)
    (held : (s.auth (s.portSet p).channel).holder = none ∨ (s.auth (s.portSet p).channel).holder = some (.port p)) :
    ((enterLost p cause s).auth (s.portSet p).channel).holder = none := by
  obtain ⟨u, settings, authority, lost⟩ := enterLost_eq p cause s
  rw [lost]
  rw [State.auth, ← authority, ← portSet_congr settings] at held
  rw [← portSet_congr settings]
  exact releasePort_holder .portLost held

theorem enterLost_drops (cause : LossCause) (s : State) (c : Chan) :
    ((enterLost p cause s).auth c).holder = (s.auth c).holder ∨ ((enterLost p cause s).auth c).holder = none := by
  obtain ⟨u, -, authority, lost⟩ := enterLost_eq p cause s
  rw [lost, State.auth, State.auth, ← authority]
  exact releasePort_drops .portLost u c

theorem holds_iff : s.holds p = true ↔ (s.auth (s.portSet p).channel).holder = some (.port p) := beq_iff_eq

/-! ### The moves at an edge (R99) -/

variable {h width : Nat}

/-- A rising edge at the pin of a lever's line A. -/
theorem highPin_rising (s : State) (p : PortId) : s.highPin p ≠ (s.portSet p).invert.a := Bool.not_ne_self _

theorem nextSample_eq (lever : (s.portSet p).mode = .lever) (completed : s.completedPeriod p = some (h, width)) :
    s.nextSample p = some (validSample h width) := by
  rw [State.nextSample, if_pos lever, completed]
  rfl

theorem exec_leverAcquired (lever : (s.portSet p).mode = .lever) (completed : s.completedPeriod p = some (h, width))
    (valid : validSample h width = true) (phase : (s.port p).phase = .acquiring ∨ (s.port p).phase = .lost)
    (run : (s.port p).validRun = 3) : exec (.leverAcquired p) s = .next (leverEdgeAt p (s.highPin p) s) := by
  have acquires : wouldAcquire s p = true := by
    simp [wouldAcquire, nextSample_eq lever completed, valid, phase, run]
  exact congrArg Host.Outcome.next (if_pos acquires)

theorem exec_leverInvalidLost (lever : (s.portSet p).mode = .lever) (completed : s.completedPeriod p = some (h, width))
    (invalid : validSample h width = false) (phase : (s.port p).phase = .active ∨ (s.port p).phase = .recenter)
    (run : (s.port p).invalidRun = 7) : exec (.leverInvalidLost p) s = .next (leverEdgeAt p (s.highPin p) s) := by
  have loses : wouldLosePort s p = true := by
    simp [wouldLosePort, nextSample_eq lever completed, invalid, phase, run]
  exact congrArg Host.Outcome.next (if_pos loses)

/-- The fourth valid sample in a row takes a port that is not in use to RECENTER. -/
theorem sampleValid_acquires (ps : PortSettings) {q : Port} (phase : q.phase = .acquiring ∨ q.phase = .lost)
    (run : q.validRun = 3) : (q.sampleValid ps h width).afterValid =
      { q.sampleValid ps h width with phase := .recenter, validRun := 0 } := by
  have four : (q.sampleValid ps h width).validRun = 4 := by
    show min (q.validRun + 1) 4 = 4
    omega
  exact if_pos ⟨phase, four⟩

/-- A valid sample takes a port in RECENTER to ACTIVE where its demand is 0. -/
theorem sampleValid_recenter (ps : PortSettings) {q : Port} (phase : q.phase = .recenter) :
    (q.sampleValid ps h width).afterValid = { q.sampleValid ps h width with
      phase := if (q.sampleValid ps h width).value = 0 then .active else .recenter } := by
  have still : (q.sampleValid ps h width).phase = .recenter := phase
  unfold Port.afterValid
  rw [if_neg (by simp [still])]
  by_cases rest : (q.sampleValid ps h width).value = 0
  · rw [if_pos ⟨still, rest⟩, if_pos rest]
  · rw [if_neg fun both => rest both.2, if_neg rest, ← still]

/-- The eighth invalid sample in a row takes a port in use to LOST. -/
theorem sampleInvalid_loses {q : Port} (phase : q.phase = .active ∨ q.phase = .recenter) (run : q.invalidRun = 7) :
    (q.sampleInvalid h width).afterInvalid = (q.sampleInvalid h width).lose := by
  have eight : (q.sampleInvalid h width).invalidRun = 8 := by
    show min (q.invalidRun + 1) 8 = 8
    omega
  exact if_pos ⟨phase, eight⟩

/-- In RECENTER a valid sample posts nothing and releases nothing. -/
theorem leverEdgeAt_recenter {level : Bool} (lever : (s.portSet p).mode = .lever)
    (rising : level ≠ (s.portSet p).invert.a) (completed : s.completedPeriod p = some (h, width))
    (valid : validSample h width = true) (phase : (s.port p).phase = .recenter) :
    (leverEdgeAt p level s).authority = s.authority ∧ (leverEdgeAt p level s).reports = s.reports := by
  have there : ((s.modPort p (Port.sampleValid (s.portSet p) h width)).port p).phase ≠ .lost := by
    rw [State.port_modPort_self]
    exact fun e => nomatch phase.symm.trans e
  rw [leverEdgeAt_valid lever rising completed valid, afterValid_of_not_lost there]
  exact ⟨rfl, rfl⟩

/-- The eighth invalid sample releases the channel that the port holds. -/
theorem leverEdgeAt_releases {level : Bool} (lever : (s.portSet p).mode = .lever)
    (rising : level ≠ (s.portSet p).invert.a) (completed : s.completedPeriod p = some (h, width))
    (invalid : validSample h width = false) (phase : (s.port p).phase = .active ∨ (s.port p).phase = .recenter)
    (run : (s.port p).invalidRun = 7) (holds : s.holds p = true) :
    ((leverEdgeAt p level s).auth (s.portSet p).channel).holder = none := by
  have sampled : (s.modPort p (Port.sampleInvalid h width)).port p = (s.port p).sampleInvalid h width :=
    State.port_modPort_self ..
  have lost : afterInvalid p (s.modPort p (Port.sampleInvalid h width)) =
      enterLost p .invalid (s.modPort p (Port.sampleInvalid h width)) :=
    afterInvalid_lost (by rw [sampled]; exact phase) (by
      rw [sampled]
      show min ((s.port p).invalidRun + 1) 8 = 8
      omega)
  rw [leverEdgeAt_invalid lever rising completed invalid, lost]
  exact enterLost_holder (s := s.modPort p _) .invalid (.inr (holds_iff.mp holds))

end

/-! ### The moves at a sample event (R99) -/

/-- The lever timers of a port at a sample event. -/
def Port.age (q : Port) : Port :=
  { q with
    edgeAge := min (q.edgeAge + 1) 255
    timeLost := if q.phase = .lost then min (q.timeLost + 1) 65535 else q.timeLost }

/-- What the lines of a port may change of it besides their levels (R102). -/
structure Port.LinesActed (x y : Port) : Prop where
  standing : y.standing = x.standing ∨ y.standing = 0
  rest : y = { x with
    buttons := y.buttons, reverseSet := y.reverseSet, take := y.take, jump := y.jump, standing := y.standing }

theorem Port.LinesActed.phase {x y : Port} (h : x.LinesActed y) : y.phase = x.phase := by rw [h.rest]

theorem Port.LinesActed.edgeAge {x y : Port} (h : x.LinesActed y) : y.edgeAge = x.edgeAge := by rw [h.rest]

theorem Port.LinesActed.refl (x : Port) : x.LinesActed x := ⟨.inl rfl, rfl⟩

theorem Port.LinesActed.trans {x y z : Port} (h : x.LinesActed y) (k : y.LinesActed z) : x.LinesActed z where
  standing := k.standing.elim (fun same => same ▸ h.standing) .inr
  rest := k.rest.trans (by rw [h.rest])

section
variable {s u : State} {p : PortId} {l : LineId} {levels : Bank 8 Lines} {lines : Lines}

theorem sampleLever_other (other : (u.portSet p).mode ≠ .lever) : sampleLever p u = u := if_neg other

theorem sampleLever_stays (lever : (u.portSet p).mode = .lever) (stays : timesOut u p = false) :
    sampleLever p u = u.modPort p Port.age := by
  unfold sampleLever
  rw [if_pos lever]
  exact if_neg (Bool.eq_false_iff.mp stays)

theorem sampleLever_loses (lever : (u.portSet p).mode = .lever) (loses : timesOut u p = true) :
    sampleLever p u = enterLost p .timeout (u.modPort p Port.age) := by
  unfold sampleLever
  rw [if_pos lever]
  exact if_pos loses

/-- A port that reaches its loss limit is a LEVER port. -/
theorem timesOut_lever (loses : timesOut u p = true) : (u.portSet p).mode = .lever := by
  simp only [timesOut, Bool.and_eq_true, beq_iff_eq] at loses
  exact loses.1.1

/-- The lever timers of a port that reaches its loss limit, and of one that does not. -/
theorem sampleLever_own (lever : (u.portSet p).mode = .lever) :
    (sampleLever p u).port p = if timesOut u p then (u.port p).age.lose else (u.port p).age := by
  cases loses : timesOut u p with
  | true =>
    rw [sampleLever_loses lever loses, State.port, enterLost_ports, Bank.get_set_self, State.port_modPort_self]
    rfl
  | false =>
    rw [sampleLever_stays lever loses, State.port_modPort_self]
    rfl

theorem press_acted (p : PortId) (l : LineId) (w : State) : (w.port p).LinesActed ((press p l w).port p) := by
  have own : ∀ {f : Port → Port}, (w.port p).LinesActed (f (w.port p)) →
      (w.port p).LinesActed ((w.modPort p f).port p) := fun acted => by rwa [State.port_modPort_self]
  unfold press
  dsimp only
  split
  · split
    case h_1 => exact .refl _
    case h_2 => unfold goChannel; split <;> exact .refl _
    case h_3 => split <;> exact .refl _
    case h_4 => split <;> exact .refl _
    case h_5 => exact own ⟨.inl rfl, rfl⟩
    case h_6 => exact own ⟨.inl rfl, rfl⟩
    case h_7 => exact own ⟨.inl rfl, rfl⟩
    case h_8 => exact own ⟨.inl rfl, rfl⟩
    case h_9 =>
      rw [show (raise (markReport w p l) w).port p = w.port p from congrArg (·.get p) ((raise_keeps _).ports w)]
      exact .refl _
    case h_10 => split; exacts [own ⟨.inr rfl, rfl⟩, .refl _]
  · exact .refl _

theorem release_acted (p : PortId) (l : LineId) (w : State) : (w.port p).LinesActed ((release p l w).port p) := by
  unfold release
  dsimp only
  split
  case h_1 => split <;> exact .refl _
  case h_2 =>
    rw [State.port_modPort_self]
    exact ⟨.inl rfl, rfl⟩
  all_goals exact .refl _

theorem withButton_acted (b : Button) (w : State) : (w.port p).LinesActed ((w.withButton p l b).port p) := by
  rw [State.withButton_port]
  exact ⟨.inl rfl, rfl⟩

theorem sampleButton_acted (p : PortId) (lines : Lines) (l : LineId) (w : State) :
    (w.port p).LinesActed ((sampleButton p lines l w).port p) := by
  obtain ⟨b, ⟨-, e | e⟩ | ⟨-, e | e⟩⟩ := sampleButton_cases p lines l w <;> rw [e]
  · exact .refl _
  · exact withButton_acted b w
  · exact (withButton_acted b w).trans (press_acted p l _)
  · exact (withButton_acted b w).trans (release_acted p l _)

theorem sampleLines_acted (p : PortId) (lines : Lines) (ls : List LineId) (w : State) :
    (w.port p).LinesActed ((forEach ls (sampleButton p lines) w).port p) :=
  forEach_induct (P := fun t => (w.port p).LinesActed (t.port p)) ls
    (fun l _ t acted => acted.trans (sampleButton_acted p lines l t)) w (.refl _)

/-- The sampling of a port leaves its lever items as its lever timers give them. -/
theorem samplePort_acted (p : PortId) (levels : Bank 8 Lines) (u : State) :
    ((sampleLever p u).port p).LinesActed ((samplePort levels p u).port p) := sampleLines_acted p _ allLines _

/-- The lines of a port leave every channel's authority. -/
theorem samplePort_auth (p : PortId) (levels : Bank 8 Lines) (u : State) (c : Chan) :
    (samplePort levels p u).auth c = (sampleLever p u).auth c :=
  congrArg (·.get c) ((Keeps.forEach (fun l => sampleButton_keeps p (levels.get p) l) allLines).authority _)

/-- The sampling of a port takes holders away and gives none. -/
theorem samplePort_drops (p : PortId) (levels : Bank 8 Lines) (u : State) (c : Chan) :
    ((samplePort levels p u).auth c).holder = (u.auth c).holder ∨ ((samplePort levels p u).auth c).holder = none := by
  rw [samplePort_auth]
  by_cases lever : (u.portSet p).mode = .lever
  · cases loses : timesOut u p with
    | true =>
      rw [sampleLever_loses lever loses]
      exact enterLost_drops .timeout (u.modPort p Port.age) c
    | false =>
      rw [sampleLever_stays lever loses]
      exact .inl rfl
  · rw [sampleLever_other lever]
    exact .inl rfl

theorem samplePorts_drops (ps : List PortId) (levels : Bank 8 Lines) (u : State) (c : Chan) :
    ((forEach ps (samplePort levels) u).auth c).holder = (u.auth c).holder ∨
      ((forEach ps (samplePort levels) u).auth c).holder = none :=
  forEach_induct (P := fun t => (t.auth c).holder = (u.auth c).holder ∨ (t.auth c).holder = none) ps
    (fun p _ t dropped => (samplePort_drops p levels t c).elim
      (fun same => dropped.imp same.trans same.trans) .inr) u (.inl rfl)

/-- The sample event as one port finds it: the ports before it leave its record and the settings, and those after it its
record; none gives a channel a holder. -/
theorem sampleAll_at (p : PortId) (levels : Bank 8 Lines) (s : State) : ∃ u, u.settings = s.settings ∧
    u.port p = s.port p ∧ (sampleAll levels s).port p = (samplePort levels p u).port p ∧
    ∀ c, ((u.auth c).holder = (s.auth c).holder ∨ (u.auth c).holder = none) ∧
      (((samplePort levels p u).auth c).holder = none → ((sampleAll levels s).auth c).holder = none) := by
  obtain ⟨before, after, split, -, -, notBefore, notAfter, -⟩ := nodup_split (mem_allPorts p) allPorts_nodup
  have all : sampleAll levels s = sampleStrobes
      (forEach after (samplePort levels) (samplePort levels p (forEach before (samplePort levels) s))) := by
    rw [sampleAll, split, forEach_append, forEach_cons]
  refine ⟨forEach before (samplePort levels) s, (Keeps.forEach (samplePort_keeps levels) before).settings s,
    samplePorts_other before notBefore s, ?_, fun c => ⟨samplePorts_drops before levels s c, fun vacant => ?_⟩⟩
  · rw [all]
    exact samplePorts_other after notAfter _
  · rw [all]
    exact (samplePorts_drops after levels _ c).elim (·.trans vacant) id

/-- The lever items of a port after a sample event. -/
theorem sampleAll_lever (levels : Bank 8 Lines) (lever : (s.portSet p).mode = .lever) :
    (if timesOut s p then (s.port p).age.lose else (s.port p).age).LinesActed ((sampleAll levels s).port p) := by
  obtain ⟨u, settings, port, same, -⟩ := sampleAll_at p levels s
  have acted := samplePort_acted p levels u
  have lever' : (u.portSet p).mode = .lever := (congrArg PortSettings.mode (portSet_congr settings p)).trans lever
  rwa [sampleLever_own lever', timesOut_congr settings port, port, ← same] at acted

/-- At a sample event that brings a port to its loss limit the channel it holds is released. -/
theorem sampleAll_releases (levels : Bank 8 Lines) (loses : timesOut s p = true) (holds : s.holds p = true) :
    ((sampleAll levels s).auth (s.portSet p).channel).holder = none := by
  obtain ⟨u, settings, port, -, holder⟩ := sampleAll_at p levels s
  obtain ⟨dropped, stays⟩ := holder (s.portSet p).channel
  have loses' : timesOut u p = true := (timesOut_congr settings port).trans loses
  have held := dropped.symm.imp_right (·.trans (holds_iff.mp holds))
  refine stays ?_
  rw [samplePort_auth, sampleLever_loses (timesOut_lever loses') loses']
  rw [← portSet_congr settings] at held ⊢
  exact enterLost_holder (s := u.modPort p Port.age) .timeout held

theorem exec_leverLossTimeout (levels : Bank 8 Lines) (loses : timesOut s p = true) :
    exec (.leverLossTimeout p levels) s = .next (sampleAll levels s) := congrArg Host.Outcome.next (if_pos loses)

theorem timesOut_of_limit (lever : (s.portSet p).mode = .lever)
    (used : (s.port p).phase = .active ∨ (s.port p).phase = .recenter)
    (limit : (s.portSet p).lossLimit ≤ min ((s.port p).edgeAge + 1) 255) : timesOut s p = true := by
  simp only [timesOut, Bool.and_eq_true, Bool.or_eq_true, beq_iff_eq, decide_eq_true_eq]
  exact ⟨⟨lever, used⟩, limit⟩

end

/-- Settles O41: at an edge the port's record is known from the sample, and at a sample event from its lever timers. -/
theorem leverStateMoves : Obligations.LeverStateMoves := by
  unfold Obligations.LeverStateMoves
  intro p levels s lever q
  refine ⟨fun h width completed => ⟨fun valid phase run => ?acquired, fun valid phase => ?recenter,
    fun invalid phase run => ?invalid⟩, fun used limit => ?timeout⟩
  case acquired =>
    obtain ⟨self, -⟩ := State.port_of_ports (leverEdgeAt_valid_ports lever (highPin_rising s p) completed valid)
    rw [sampleValid_acquires _ phase run] at self
    exact ⟨_, exec_leverAcquired lever completed valid phase run, rfl, by rw [self]; exact ⟨rfl, rfl, rfl⟩⟩
  case recenter =>
    obtain ⟨self, -⟩ := State.port_of_ports (leverEdgeAt_valid_ports lever (highPin_rising s p) completed valid)
    rw [sampleValid_recenter _ phase] at self
    exact ⟨_, rfl, by rw [self]; rfl, by rw [self]; rfl, by rw [self]; rfl, by rw [self]; rfl,
      leverEdgeAt_recenter lever (highPin_rising s p) completed valid phase⟩
  case invalid =>
    obtain ⟨self, -⟩ := State.port_of_ports (leverEdgeAt_invalid_ports lever (highPin_rising s p) completed invalid)
    rw [sampleInvalid_loses phase run] at self
    exact ⟨_, exec_leverInvalidLost lever completed invalid phase run, rfl, by rw [self]; rfl, by rw [self]; rfl,
      by rw [self]; rfl, by rw [self]; rfl, by rw [self]; rfl,
      leverEdgeAt_releases lever (highPin_rising s p) completed invalid phase run⟩
  case timeout =>
    have loses := timesOut_of_limit lever used limit
    have acted := (sampleAll_lever levels lever).rest
    rw [if_pos loses] at acted
    exact ⟨_, exec_leverLossTimeout levels loses, rfl, by rw [acted]; rfl, by rw [acted]; rfl, by rw [acted]; rfl,
      by rw [acted]; rfl, by rw [acted]; rfl, sampleAll_releases levels loses⟩

end Sys2Proof.Machine
end

section
/-! PROOFS. The sample event as a whole (R99, R102, R144): the strobe timers, the lever timers and the button levels. -/

namespace Sys2Proof.Machine

set_option Elab.async false

section
variable {s u : State} {p : PortId} {l : LineId}

/-- The ports leave the Lamp Unit, so a sample event changes its strobe timers alone (R144). -/
theorem sampleAll_lamps (levels : Bank 8 Lines) (s : State) :
    (sampleAll levels s).lamps = { s.lamps with strobe := s.lamps.strobe.map (· - 1) } := by
  unfold sampleAll sampleStrobes
  rw [(Keeps.forEach (samplePort_keeps levels) allPorts).lamps]

/-- A port in another mode has no lever timers. -/
theorem sampleAll_other (levels : Bank 8 Lines) (other : (s.portSet p).mode ≠ .lever) :
    (s.port p).LinesActed ((sampleAll levels s).port p) := by
  obtain ⟨u, settings, port, same, -⟩ := sampleAll_at p levels s
  have other' : (u.portSet p).mode ≠ .lever := portSet_congr settings p ▸ other
  have acted := samplePort_acted p levels u
  rwa [sampleLever_other other', port, ← same] at acted

/-- The level of a line after it has been sampled (R102). -/
theorem sampleButton_level (lines : Lines) : ((sampleButton p lines l u).port p).buttons.get l =
    if isButton (u.portSet p).mode l then
      (((u.port p).buttons.get l).sample (u.portSet p).debounce (u.polarised p l (lines.get l))).1
    else (u.port p).buttons.get l := by
  have level : ∀ b, ((u.withButton p l b).port p).buttons.get l = b := fun b => by
    rw [State.withButton_port, Trio.get_set_self]
  unfold sampleButton
  split
  · dsimp only
    split
    · exact level _
    · rw [press_buttons]
      exact level _
    · rw [release_buttons]
      exact level _
  · rfl

/-- The level of a line after a sample event: the other lines and the lever timers leave it (R102). -/
theorem sampleAll_level (levels : Bank 8 Lines) (s : State) (p : PortId) (l : LineId) :
    ((sampleAll levels s).port p).buttons.get l =
      if isButton (s.portSet p).mode l then
        (((s.port p).buttons.get l).sample (s.portSet p).debounce (s.polarised p l ((levels.get p).get l))).1
      else (s.port p).buttons.get l := by
  obtain ⟨u, before, after⟩ := sampleAll_split p l levels s
  rw [after.button, sampleButton_level, sample_congr before.settings before.button, portSet_congr before.settings,
    before.button]

end

/-- Settles O38: the strobe timers, then each port by its lever timers and its lines. -/
theorem sampleEventActs : Obligations.SampleEventActs := by
  unfold Obligations.SampleEventActs
  intro levels s
  have lamps := sampleAll_lamps levels s
  have strobe : ∀ c, (sampleAll levels s).lamps.strobe.get c = s.lamps.strobe.get c - 1 := fun c => by
    rw [lamps, Bank.get_map]
  refine ⟨sampleAll levels s, rfl, strobe, by rw [lamps], fun p lever => ?age, fun p stays => ?phase,
    fun p l => sampleAll_level levels s p l, mask_eq ((sampleAll_keeps levels).same s), fun c last => ⟨?expiry, ?line⟩⟩
  case age =>
    rw [(sampleAll_lever levels lever).edgeAge]
    cases timesOut s p <;> rfl
  case phase =>
    by_cases lever : (s.portSet p).mode = .lever
    · have acted := sampleAll_lever levels lever
      rw [stays] at acted
      exact acted.phase
    · exact (sampleAll_other levels lever).phase
  case expiry => exact congrArg Host.Outcome.next (if_pos last)
  case line =>
    unfold strobeLine
    rw [strobe, last]
    rfl

end Sys2Proof.Machine
end

section
/-! PROOFS. The ranges of a hand port's items (R95): each change of a port's record keeps them. -/

namespace Sys2Proof.Machine

set_option Elab.async false

namespace Port.inRange

variable {q : Port} {ps : PortSettings}

/-! ### The lever (R97 to R99) -/

theorem edge (h : q.inRange) : q.edge.inRange := { h with edgeAge := Nat.zero_le _ }

theorem captured (h : q.inRange) (high width : Nat) : (q.capture high width).inRange :=
  { h with capture := ⟨Nat.min_le_right .., Nat.min_le_right ..⟩ }

theorem beginPeriod (h : q.inRange) (now : Word) : (q.beginPeriod now).inRange := { h with }

theorem fall (h : q.inRange) (now : Word) : (q.fall now).inRange := by
  unfold Port.fall
  split
  exacts [{ h with }, h]

theorem lose (h : q.inRange) : q.lose.inRange :=
  { h with validRun := Nat.zero_le _, timeLost := Nat.zero_le _, lostCount := Nat.min_le_right .. }

theorem afterValid (h : q.inRange) : q.afterValid.inRange := by
  unfold Port.afterValid
  split
  · exact { h with validRun := Nat.zero_le _ }
  · split
    exacts [{ h with }, h]

theorem afterInvalid (h : q.inRange) : q.afterInvalid.inRange := by
  unfold Port.afterInvalid
  split
  exacts [h.lose, h]

theorem takeValid (h : q.inRange) (high width : Nat) : (q.takeValid ps high width).inRange :=
  { h with
    position := Nat.min_le_right ..
    value := leverDemand_natAbs ..
    validRun := Nat.min_le_right ..
    invalidRun := Nat.zero_le _ }

theorem takeInvalid (h : q.inRange) : q.takeInvalid.inRange :=
  { h with validRun := Nat.zero_le _, invalidRun := Nat.min_le_right .. }

theorem age (h : q.inRange) : q.age.inRange where
  __ := h
  edgeAge := Nat.min_le_right ..
  timeLost := by
    show (if _ then _ else _) ≤ 65535
    split
    exacts [Nat.min_le_right .., h.timeLost]

/-! ### The wheel (R101), the buttons (R102) and the hand-on (R106) -/

theorem count (h : q.inRange) (n : Int) : (q.count ps n).inRange := by
  cases used : ps.wheelFunction with
  | jog => exact Port.count_jog used n q ▸ { h with jog := clampInt_natAbs 65536 _ }
  | speed => exact Port.count_speed used n q ▸ { h with standing := clampInt_natAbs 1024 _ }

theorem turned (h : q.inRange) (used : Bool) (step : QuadStep) : (q.turned ps used step).inRange := by
  cases step with
  | none => exact h
  | forward => cases used; exacts [h, h.count 1]
  | backward => cases used; exacts [h, h.count (-1)]
  | error => exact { h with errorCount := Nat.min_le_right .. }

theorem linesActed {y : Port} (h : q.inRange) (acted : q.LinesActed y) (runs : ∀ l, (y.buttons.get l).run ≤ 31) :
    y.inRange := by
  have standing : y.standing.natAbs ≤ 1024 := by
    obtain same | zero := acted.standing
    · exact same ▸ h.standing
    · rw [zero]
      decide
  rw [acted.rest]
  exact { h with standing := standing, buttons := runs }

theorem handedOn (h : q.inRange) : q.handedOn.inRange := { h with jog := Nat.zero_le _ }

/-! ### A settings take (R96) -/

/-- A port that takes the initial state of its mode. -/
theorem restart {s t : State} {p : PortId} (h : (s.port p).inRange) (acted : portActed s t p)
    (changes : portChanges s t p) : (t.port p).inRange := by
  rw [acted.1 changes]
  cases (t.portSet p).mode with
  | off => exact { Port.reset_inRange with lostCount := h.lostCount, errorCount := h.errorCount }
  | lever =>
    exact { h with
      validRun := Nat.zero_le _, invalidRun := Nat.zero_le _, edgeAge := Nat.zero_le _, timeLost := Nat.zero_le _
      value := Nat.zero_le _, buttons := fun l => by simp }
  | wheel =>
    exact { h with
      jog := Nat.zero_le _, standing := Nat.zero_le _
      buttons := fun l => by
        by_cases own : l = .c
        · simp [own]
        · simpa [Trio.get_set_ne _ _ own] using h.buttons l }
  | keys => exact { h with buttons := fun l => by simp }

/-- A port whose mode and channel a take leaves as they were. -/
theorem adjust {s t : State} {p : PortId} (h : (s.port p).inRange) (acted : portActed s t p)
    (same : ¬ portChanges s t p) : (t.port p).inRange := by
  obtain ⟨lines, -, -, -, -, restarted, kept, rest⟩ := acted.2 same
  have wheel : ((t.port p).jog = 0 ∧ (t.port p).standing = 0) ∨
      ((t.port p).jog = (s.port p).jog ∧ (t.port p).standing = (s.port p).standing) :=
    if e : (s.portSet p).wheelFunction = (t.portSet p).wheelFunction then .inr (kept e) else .inl (restarted e)
  have runs : ∀ l, ((t.port p).buttons.get l).run ≤ 31 := fun l => by
    by_cases changes : lineChanges s t p l
    · rw [((lines l).1 changes).1]
      exact Nat.zero_le _
    · rw [((lines l).2 changes).1]
      exact h.buttons l
  have jog : (t.port p).jog.natAbs ≤ 65536 := by
    obtain ⟨e, -⟩ | ⟨e, -⟩ := wheel <;> rw [e]
    exacts [Nat.zero_le _, h.jog]
  have standing : (t.port p).standing.natAbs ≤ 1024 := by
    obtain ⟨-, e⟩ | ⟨-, e⟩ := wheel <;> rw [e]
    exacts [Nat.zero_le _, h.standing]
  rw [rest]
  exact { h with buttons := runs, jog := jog, standing := standing }

end Port.inRange

end Sys2Proof.Machine
end

section
/-! PROOFS. Every step keeps the items of every hand port in their ranges (R95): each operation of the part leaves the
ports, hands them on, or changes them by the operations of the ports. -/

namespace Sys2Proof.Machine

set_option Elab.async false

/-! ### Operations that keep the ranges -/

section
variable {s t : State}

theorem portsInRange.congr (h : portsInRange s) (ports : t.ports = s.ports) : portsInRange t := fun p => by
  rw [State.port, ports]
  exact h p

/-- One port changed, and kept in its ranges. -/
theorem portsInRange.set (h : portsInRange s) {p : PortId} {q : Port} (own : q.inRange)
    (ports : t.ports = s.ports.set p q) : portsInRange t := fun p' => by
  obtain ⟨self, others⟩ := State.port_of_ports ports
  by_cases e : p' = p
  · rw [e, self]
    exact own
  · rw [others p' e]
    exact h p'

theorem portsInRange.modPort (h : portsInRange s) (p : PortId) {f : Port → Port}
    (keeps : ∀ q, q.inRange → (f q).inRange) : portsInRange (s.modPort p f) := h.set (keeps _ (h p)) rfl

end

/-- An operation on the state keeps the items of every port in their ranges. -/
def KeepsPortRanges (f : State → State) : Prop := ∀ s, portsInRange s → portsInRange (f s)

/-- An operation that does not change the ports. -/
theorem Keeps.portRanges {F : Foot} {f : State → State} (k : Keeps F f) (s : State) (h : portsInRange s)
    (out : F.ports = false := by rfl) : portsInRange (f s) := h.congr (k.ports s out)

theorem KeepsPortRanges.of_keeps {F : Foot} {f : State → State} (k : Keeps F f)
    (out : F.ports = false := by rfl) : KeepsPortRanges f := fun s h => k.portRanges s h out

theorem KeepsPortRanges.forEach {α : Type} {f : α → State → State} (k : ∀ x, KeepsPortRanges (f x))
    (xs : List α) : KeepsPortRanges (forEach xs f) := fun s h => forEach_induct xs (fun x _ t ht => k x t ht) s h

/-- An operation that is made only where a condition on the state holds. -/
theorem KeepsPortRanges.ite {f : State → State} (k : KeepsPortRanges f) (b : State → Prop)
    [∀ s, Decidable (b s)] : KeepsPortRanges fun s => if b s then f s else s := by
  intro s h
  dsimp only
  split
  exacts [k s h, h]

/-! ### The events of the ports (R97 to R102) -/

theorem leverEdgeAt_portRanges (p : PortId) (level : Bool) : KeepsPortRanges (leverEdgeAt p level) := by
  intro s h
  by_cases lever : (s.portSet p).mode = .lever
  · by_cases rising : level = (s.portSet p).invert.a
    · rw [leverEdgeAt_falling lever rising]
      exact h.modPort p fun q hq => hq.edge.fall _
    · cases completed : s.completedPeriod p with
      | none =>
        rw [leverEdgeAt_first lever rising completed]
        exact h.modPort p fun q hq => hq.edge.beginPeriod _
      | some period =>
        obtain ⟨high, width⟩ := period
        have captured := (h p).edge.captured high width
        cases valid : validSample high width with
        | true =>
          exact h.set (captured.takeValid _ _ |>.afterValid.beginPeriod _)
            (leverEdgeAt_valid_ports lever rising completed valid)
        | false =>
          exact h.set (captured.takeInvalid.afterInvalid.beginPeriod _)
            (leverEdgeAt_invalid_ports lever rising completed valid)
  · rw [leverEdgeAt_other lever]
    exact h

theorem risingEdge_portRanges (p : PortId) : KeepsPortRanges fun s => leverEdgeAt p (s.highPin p) s := fun s =>
  leverEdgeAt_portRanges p _ s

theorem quadratureAt_portRanges (p : PortId) (a b : Bool) : KeepsPortRanges (quadratureAt p a b) := by
  intro s h
  by_cases wheel : (s.portSet p).mode = .wheel
  · rw [quadratureAt_wheel a b wheel]
    exact h.modPort p fun q hq => { hq.turned _ _ with }
  · rw [show quadratureAt p a b s = s from if_neg wheel]
    exact h

theorem sampleLever_portRanges (p : PortId) : KeepsPortRanges (sampleLever p) := by
  intro s h
  have aged := h.modPort p fun q hq => hq.age
  by_cases lever : (s.portSet p).mode = .lever
  · cases loses : timesOut s p with
    | true =>
      rw [sampleLever_loses lever loses]
      exact aged.set (aged p).lose (enterLost_ports ..)
    | false =>
      rw [sampleLever_stays lever loses]
      exact aged
  · rw [sampleLever_other lever]
    exact h

theorem Button.sample_run (debounce : Nat) (high : Bool) (b : Button) : (b.sample debounce high).1.run ≤ 31 := by
  unfold Button.sample
  dsimp only
  generalize (if high then ButtonLevel.pressed else .released) = level
  split
  · exact Nat.zero_le _
  split
  · exact Nat.zero_le _
  split
  · exact Nat.zero_le _
  · exact Nat.min_le_right ..

theorem sampleButton_portRanges (p : PortId) (lines : Lines) (l : LineId) :
    KeepsPortRanges (sampleButton p lines l) := by
  intro s h p'
  have effect := sampleButton_effect p lines l s
  by_cases own : p' = p
  · subst own
    refine (h p').linesActed (sampleButton_acted p' lines l s) fun m => ?_
    by_cases line : m = l
    · rw [line, sampleButton_level]
      split
      exacts [Button.sample_run .., (h p').buttons l]
    · rw [effect.button m line]
      exact (h p').buttons m
  · rw [effect.ports p' own]
    exact h p'

theorem sampleAll_portRanges (levels : Bank 8 Lines) : KeepsPortRanges (sampleAll levels) := by
  have port : ∀ p, KeepsPortRanges (samplePort levels p) := fun p s h =>
    KeepsPortRanges.forEach (sampleButton_portRanges p (levels.get p)) allLines _ (sampleLever_portRanges p s h)
  exact fun s h => sampleStrobes_keeps.portRanges _ (KeepsPortRanges.forEach port allPorts s h)

/-! ### A settings take (R96, R158) -/

theorem settingsTake_portRanges (block : List Byte) (inStart : Bool) :
    KeepsPortRanges (settingsTake block inStart) := by
  intro s h p
  have acted := ((settingsTake_acted block inStart s).ports p).1
  by_cases changes : portChanges s (settingsTake block inStart s) p
  · exact (h p).restart acted changes
  · exact (h p).adjust acted changes

theorem startSettingsDone_portRanges (tag : Nat) (bytes : List Byte) :
    KeepsPortRanges (startSettingsDone tag bytes) := by
  intro s h
  unfold startSettingsDone
  split
  · split
    · exact beginFullTake_keeps.portRanges _ (settingsTake_portRanges bytes true s h)
    · exact h
  · exact h

theorem completeScan_portRanges (d : ScanData) : KeepsPortRanges (completeScan d) := by
  intro s h
  have settings : KeepsPortRanges (rescanSettings d) := fun t ht => by
    unfold rescanSettings
    split
    exacts [ht, settingsTake_portRanges _ _ t ht]
  exact endScan_keeps.portRanges _ ((rescanCommands_keeps d).portRanges _ (settings _
    ((rescanShadows_keeps d).portRanges s h)))

/-! ### Ports that hand their items on (R95, R106) -/

/-- The ports of `t` are those of `s`, or those of `s` after they have handed their items on. -/
def HandsOn (s t : State) : Prop := t.ports = s.ports ∨ t.ports = s.ports.map Port.handedOn

theorem HandsOn.portsInRange {s t : State} (hands : HandsOn s t) (h : portsInRange s) : portsInRange t := by
  obtain same | handed := hands
  · exact h.congr same
  · intro p
    rw [State.port, handed, Bank.get_map]
    exact (h p).handedOn

/-- What hands the ports on keeps their ranges. -/
theorem KeepsPortRanges.of_handsOn {f : State → State} (hands : ∀ s, HandsOn s (f s)) : KeepsPortRanges f := fun s h =>
  (hands s).portsInRange h

theorem HandsOn.after {s u t : State} (hands : HandsOn u t) (before : u.ports = s.ports) : HandsOn s t := by
  rwa [HandsOn, ← before]

theorem channelsFrame_ports (s : State) : (channelsFrame s).ports = s.ports.map Port.handedOn := by
  rw [channelsFrame_eq, (Keeps.forEach (writePortStatus_keeps _) _).ports,
    (Keeps.forEach (publishChannel_keeps _) _).ports]
  exact ((advanceChannels_keeps _ _).ports _).trans ((armPorts_keeps _).ports _)

theorem frameBody_handsOn (s : State) : HandsOn s (frameBody s) := by
  unfold frameBody
  split
  · refine .inr ((afterChannels_keeps.ports _).trans ?_)
    rw [channelsFrame_ports, announceLock_keeps.ports]
  · exact .inl (composeHeads_keeps.ports s)

theorem freeFrame_handsOn (s : State) : HandsOn s (freeFrame s) := by
  unfold freeFrame
  split
  exacts [(frameBody_handsOn _).after rfl, .inl rfl]

theorem refEdge_handsOn (s : State) : HandsOn s (refEdge s) := by
  unfold refEdge
  split
  · unfold edgeInFree
    split
    · dsimp only
      split
      · exact (frameBody_handsOn _).after ((raiseRunning_keeps _).ports _)
      · exact .inl rfl
    · exact .inl rfl
  · unfold edgeInLocked
    split
    exacts [(frameBody_handsOn _).after rfl, .inl rfl]

theorem loseLock_handsOn (s : State) : HandsOn s (loseLock s) := by
  have announced : (if (countFrame s).running then announceLock (countFrame s) else countFrame s).ports = s.ports := by
    split
    exacts [announceLock_keeps.ports _, rfl]
  exact (frameBody_handsOn _).after (((raiseRunning_keeps _).ports _).trans announced)

theorem windowClose_handsOn (s : State) : HandsOn s (windowClose s) := by
  unfold windowClose
  split
  · dsimp only
    split
    exacts [(loseLock_handsOn _).after rfl, (frameBody_handsOn _).after rfl]
  · exact .inl rfl

theorem runWrite_handsOn (run : Bool) (s : State) : HandsOn s (runWrite run s) := by
  have begins : (beginStart s).ports = s.ports := by
    unfold beginStart
    dsimp only
    split
    exacts [(halt_keeps _).ports _, rfl]
  unfold runWrite
  split
  case h_1 => exact .inl begins
  case h_4 => exact .inr rfl
  case h_6 => exact .inr rfl
  all_goals exact .inl rfl

/-! ### The register window (R149, R150, R155) -/

theorem resetWith_portRanges (lo hi : Word) (s : State) : portsInRange (resetWith lo hi s) :=
  resetMeetsTheInvariants.ports

theorem engineCtlWrite_portRanges (run reset look : Bool) : KeepsPortRanges (engineCtlWrite run reset look) := by
  intro s h
  have ran := (runWrite_handsOn run s).portsInRange h
  unfold engineCtlWrite
  split
  · exact resetWith_portRanges _ _ s
  · split
    exacts [lookNowWrite_keeps.portRanges _ ran, ran]

theorem registerWrite_portRanges (offset size : Nat) (w : Word) : KeepsPortRanges (registerWrite offset size w) := by
  intro s h
  unfold registerWrite
  split
  · exact (areaLoTake_keeps w).portRanges s h
  split
  · exact (areaHiTake_keeps w).portRanges s h
  split
  · exact engineCtlWrite_portRanges _ _ _ s h
  split
  exacts [(irqCauseClear_keeps w).portRanges s h, h]

/-! ### Every command -/

/-- Issuing a line read leaves the ports. -/
theorem fetchIssue_portRanges : KeepsPortRanges fun s => (issueOne s).getD s := by
  intro s h
  dsimp only
  cases issue : issueOne s with
  | none => exact h
  | some t =>
    have ports := congrArg State.ports (issueOne_mask issue)
    exact h.congr (t := t) ports

/-- Every command answers with the state that an operation gives, and the operation keeps the ranges. -/
theorem exec_portRanges (i : Instr) : ∃ f, KeepsPortRanges f ∧ ∀ s, exec i s = .next (f s) := by
  have command : ∀ n request code {act}, CommandKeeps act → KeepsPortRanges (runCommand n request code act) :=
    fun n request code _ k => .of_keeps (runCommand_keeps n request code k)
  cases i
  case powerOnReset => exact ⟨_, fun s _ => resetWith_portRanges _ _ s, fun _ => rfl⟩
  case startSequence => exact ⟨_, engineCtlWrite_portRanges _ _ _, fun _ => rfl⟩
  case stop => exact ⟨_, engineCtlWrite_portRanges _ _ _, fun _ => rfl⟩
  case softReset => exact ⟨_, engineCtlWrite_portRanges _ _ _, fun _ => rfl⟩
  case lookNow => exact ⟨_, engineCtlWrite_portRanges _ _ _, fun _ => rfl⟩
  case areaLoWrite => exact ⟨_, .of_keeps (areaLoTake_keeps _), fun _ => rfl⟩
  case areaHiWrite => exact ⟨_, .of_keeps (areaHiTake_keeps _), fun _ => rfl⟩
  case irqCauseWrite => exact ⟨_, .of_keeps (irqCauseClear_keeps _), fun _ => rfl⟩
  case registerWriteIgnored => exact ⟨_, registerWrite_portRanges _ _ _, fun _ => rfl⟩
  case areaHeaderReadDone => exact ⟨_, .of_keeps (headerDone_keeps _ _), fun _ => rfl⟩
  case glyphStoreLoadReadDone => exact ⟨_, .of_keeps (glyphReadDone_keeps _ _), fun _ => rfl⟩
  case startSettingsReadDone => exact ⟨_, startSettingsDone_portRanges _ _, fun _ => rfl⟩
  case startReadFault => exact ⟨_, .of_keeps (startFault_keeps _), fun _ => rfl⟩
  case fullTake => exact ⟨_, .of_keeps (fullTakeDone_keeps _ _), fun _ => rfl⟩
  case frameEvent => exact ⟨_, .of_handsOn freeFrame_handsOn, fun _ => rfl⟩
  case refEdge => exact ⟨_, .of_handsOn refEdge_handsOn, fun _ => rfl⟩
  case refLock => exact ⟨_, (KeepsPortRanges.of_handsOn refEdge_handsOn).ite (wouldLock · = true), fun _ => rfl⟩
  case refWindowClose => exact ⟨_, .of_handsOn windowClose_handsOn, fun _ => rfl⟩
  case refLossMissed =>
    exact ⟨_, (KeepsPortRanges.of_handsOn windowClose_handsOn).ite (wouldLose · = true), fun _ => rfl⟩
  case sampleEvent => exact ⟨_, sampleAll_portRanges _, fun _ => rfl⟩
  case quadratureSample => exact ⟨_, quadratureAt_portRanges _ _ _, fun _ => rfl⟩
  case leverEdge => exact ⟨_, leverEdgeAt_portRanges _ _, fun _ => rfl⟩
  case leverAcquired p => exact ⟨_, (risingEdge_portRanges p).ite (wouldAcquire · p = true), fun _ => rfl⟩
  case leverInvalidLost p => exact ⟨_, (risingEdge_portRanges p).ite (wouldLosePort · p = true), fun _ => rfl⟩
  case leverLossTimeout p levels => exact ⟨_, (sampleAll_portRanges levels).ite (timesOut · p = true), fun _ => rfl⟩
  case buttonDebounceAccept p l levels =>
    exact ⟨_, (sampleAll_portRanges levels).ite (accepts · p l (levels.get p) = true), fun _ => rfl⟩
  case strobeExpiry c levels => exact ⟨_, (sampleAll_portRanges levels).ite (·.lamps.strobe.get c = 1), fun _ => rfl⟩
  case quietRelease c =>
    exact ⟨_, (KeepsPortRanges.of_handsOn freeFrame_handsOn).ite (quietDue · c = true), fun _ => rfl⟩
  case fetchIssue => exact ⟨_, fetchIssue_portRanges, fun _ => rfl⟩
  case fetchCompletion => exact ⟨_, .of_keeps (fetchComplete_keeps _ _), fun _ => rfl⟩
  case statusWriteComplete => exact ⟨_, .of_keeps (writeDone_keeps _ _ _), fun _ => rfl⟩
  case scanCompletion => exact ⟨_, (completeScan_portRanges _).ite (scanIs _ · = true), fun _ => rfl⟩
  case scanReadFault tag which =>
    cases which <;> exact ⟨_, (KeepsPortRanges.of_keeps (halt_keeps _)).ite (scanIs tag · = true), fun _ => rfl⟩
  case settingsWriteComplete => exact ⟨_, .of_keeps (writeDone_keeps _ _ _), fun _ => rfl⟩
  case jump => exact ⟨_, command _ _ _ (jumpCommand_keeps _ _ _), fun _ => rfl⟩
  case nudge => exact ⟨_, command _ _ _ (nudgeCommand_keeps _ _), fun _ => rfl⟩
  case setDemand => exact ⟨_, command _ _ _ (setDemandCommand_keeps _ _), fun _ => rfl⟩
  case go => exact ⟨_, command _ _ _ (goCommand_keeps _), fun _ => rfl⟩
  case freeze => exact ⟨_, command _ _ _ (freezeCommand_keeps _ _), fun _ => rfl⟩
  case headBlank => exact ⟨_, command _ _ _ (headBlankCommand_keeps _ _), fun _ => rfl⟩
  case refreshStory => exact ⟨_, command _ _ _ (refreshStoryCommand_keeps _), fun _ => rfl⟩
  case unknownCommand => exact ⟨_, command _ _ _ (refuse_keeps _), fun _ => rfl⟩
  case commandResultWriteDone => exact ⟨_, .of_keeps (writeDone_keeps _ _ _), fun _ => rfl⟩
  case directTakeReadDone => exact ⟨_, .of_keeps (endDirectTake_keeps _ _), fun _ => rfl⟩
  case searchVersionReadDone => exact ⟨_, .of_keeps (searchVersionRead_keeps _ _), fun _ => rfl⟩
  case keyReadDone => exact ⟨_, .of_keeps (keyRead_keeps _ _), fun _ => rfl⟩
  case exchangeWriteDone => exact ⟨_, .of_keeps (writeDone_keeps _ _ _), fun _ => rfl⟩
  case rundownListReadDone => exact ⟨_, .of_keeps (rundownRead_keeps _ _), fun _ => rfl⟩
  case rundownWriteDone => exact ⟨_, .of_keeps (writeDone_keeps _ _ _), fun _ => rfl⟩
  case postBegin => exact ⟨_, .of_keeps beginPost_keeps, fun _ => rfl⟩
  case postReadDone => exact ⟨_, .of_keeps (postReadDone_keeps _ _), fun _ => rfl⟩
  case postWriteDone => exact ⟨_, .of_keeps (postWriteDone_keeps _ _), fun _ => rfl⟩

/-- Settles O6: an idle microsecond leaves the ports as they are, and every command keeps their ranges. -/
theorem stepKeepsPortRanges : Obligations.StepKeepsPortRanges := by
  unfold Obligations.StepKeepsPortRanges
  intro s t h run
  unfold step at run
  split at run
  · cases run
    exact h
  · rename_i c rest _
    obtain ⟨f, keeps, answers⟩ := exec_portRanges c
    rw [answers] at run
    cases run
    exact keeps { s with pending := rest } h

end Sys2Proof.Machine
end

section
/-! PROOFS. The console commands (R120): NUDGE and SET_DEMAND on a channel that admits operators. -/

namespace Sys2Proof.Machine

set_option Elab.async false

section
variable {c : Chan} {s : State}

/-- The checks of the console commands pass on a LIVE channel whose authority mode admits operators. -/
theorem consoleRefusal_none (live : s.mode c = .live) (admits : (s.chanSet c).authMode ≠ .presenter) :
    consoleRefusal s c = none := by
  have operator : (s.chanSet c).authMode.admits .operator = true := by
    cases mode : (s.chanSet c).authMode with
    | operator => rfl
    | presenter => exact absurd mode admits
    | takeover => rfl
  unfold consoleRefusal
  rw [if_neg (not_not.mpr live), operator]
  rfl

theorem clampOperand_eq {bound : Int} (nonneg : 0 ≤ bound) (w : Word) : clampOperand bound w =
    (max (-bound) (min bound w.toInt), if max (-bound) (min bound w.toInt) = w.toInt then .ok else .clamped) := by
  unfold clampOperand
  rw [clampInt_eq (by omega)]

theorem nudgeCommand_accepted (rows : Word) (passed : consoleRefusal s c = none) :
    nudgeCommand (natWord c.val) rows s =
      ((clampOperand 64 rows).2, s.modAuth c (Authority.nudge (clampOperand 64 rows).1)) := by
  unfold nudgeCommand
  rw [channelOperand_natWord]
  dsimp only
  rw [passed]

theorem setDemandCommand_accepted (demand : Word) (passed : consoleRefusal s c = none) :
    setDemandCommand (natWord c.val) demand s = ((clampOperand 1024 demand).2,
      s.modAuth c fun a => { a with consoleDemand := (clampOperand 1024 demand).1 }) := by
  unfold setDemandCommand
  rw [channelOperand_natWord]
  dsimp only
  rw [passed]

theorem Authority.nudge_eq (rows : Int) (a : Authority) :
    a.nudge rows = { a with consoleJog := max (-65536) (min 65536 (a.consoleJog + rows * 1024)) } := by
  unfold Authority.nudge
  rw [clampInt_eq (by decide)]

end

/-- Settles O51: both commands pass the checks of R120, and each is executed with its clamped operand and answered. -/
theorem consoleCommandsAct : Obligations.ConsoleCommandsAct := by
  unfold Obligations.ConsoleCommandsAct
  intro n request operand c s run fresh live admits
  have passed := consoleRefusal_none live admits
  refine ⟨congrArg Host.Outcome.next ?nudge, congrArg Host.Outcome.next ?setDemand⟩
  case nudge =>
    rw [runCommand_executed run fresh, nudgeCommand_accepted operand passed, clampOperand_eq (by decide),
      State.modAuth, Authority.nudge_eq]
    rfl
  case setDemand =>
    rw [runCommand_executed run fresh, setDemandCommand_accepted operand passed, clampOperand_eq (by decide)]
    rfl

end Sys2Proof.Machine
end

section
/-! PROOFS. The Authority Arbiter at a frame event (R113 to R116): the evaluation of one LIVE channel finds its sources
as they stood before the event, whatever the channels before it did, and its outcome is what the event leaves. -/

namespace Sys2Proof.Machine

set_option Elab.async false

/-! ### The quiet step (R114) -/

section
variable {u : State} {H : Bank 8 Handed} {c : Chan} {h : Source}

theorem quietStep_active (held : (u.auth c).holder = some h) (active : sourceActive u H c h = true) :
    quietStep H c u = u.modAuth c fun a => { a with quiet := 0 } := by
  unfold quietStep
  rw [held]
  exact if_pos active

theorem quietStep_releases (held : (u.auth c).holder = some h) (quiet : sourceActive u H c h = false)
    (due : (u.chanSet c).releaseTime ≤ min ((u.auth c).quiet + 1) 255) :
    quietStep H c u = releaseHolder c .quiet u := by
  unfold quietStep
  rw [held]
  dsimp only
  rw [quiet, if_neg Bool.false_ne_true, if_pos due]

theorem quietStep_console (H : Bank 8 Handed) (c : Chan) (u : State) :
    ((quietStep H c u).auth c).consoleDemand = (u.auth c).consoleDemand ∧
    ((quietStep H c u).auth c).consoleJog = (u.auth c).consoleJog := by
  have counted : ∀ n, ((u.modAuth c fun a => { a with quiet := n }).auth c) = { u.auth c with quiet := n } :=
    fun n => State.auth_modAuth_self ..
  unfold quietStep
  split
  · exact ⟨rfl, rfl⟩
  · dsimp only
    split
    · rw [counted]
      exact ⟨rfl, rfl⟩
    · split
      · exact releaseHolder_console ..
      · rw [counted]
        exact ⟨rfl, rfl⟩

end

/-! ### What the claims depend on (R112, R116) -/

/-- The sources of channel `c` stand in `u` as in `s`, but for arm flags. -/
structure SameSources (s u : State) (c : Chan) : Prop where
  settings : u.settings = s.settings
  phase : ∀ p, (u.port p).phase = (s.port p).phase
  consoleDemand : (u.auth c).consoleDemand = (s.auth c).consoleDemand
  consoleJog : (u.auth c).consoleJog = (s.auth c).consoleJog

namespace SameSources
variable {s u : State} {c : Chan} {H : Bank 8 Handed}

theorem role_eq (same : SameSources s u c) (p : PortId) : u.role p = s.role p :=
  congrArg PortSettings.role (portSet_congr same.settings p)

theorem isSource_eq (same : SameSources s u c) (p : PortId) : isSource u c p = isSource s c p := by
  unfold isSource
  rw [portSet_congr same.settings]

theorem serviceOrder_eq (same : SameSources s u c) : serviceOrder u = serviceOrder s := by
  have roles : u.role = s.role := funext same.role_eq
  simp only [serviceOrder, portsOfRole, roles]

theorem portActive_eq (same : SameSources s u c) (p : PortId) : portActive u H p = portActive s H p := by
  simp only [portActive, same.role_eq, same.phase]

theorem sourceActive_eq (same : SameSources s u c) (x : Source) : sourceActive u H c x = sourceActive s H c x := by
  cases x with
  | port p => exact same.portActive_eq p
  | console => simp only [sourceActive, same.consoleDemand, same.consoleJog]

/-- An operator source needs no arm flag, so it claims in both or in neither (R116). -/
theorem claims_operator (same : SameSources s u c) {x : Source} (operator : sourceRole s x = .operator) :
    claims u H c x = claims s H c x := by
  have mode : (u.chanSet c).authMode = (s.chanSet c).authMode := by rw [chanSet_congr same.settings]
  cases x with
  | port p =>
    have own : s.role p = .operator := operator
    simp [claims, couldClaim, same.isSource_eq, same.role_eq, same.phase, same.portActive_eq, mode, own]
  | console => simp only [claims, mode, same.sourceActive_eq]

/-- The operators that claim, in service order. -/
theorem operatorClaimers (same : SameSources s u c) :
    ((serviceOrder u).filter (claims u H c)).filter (fun x => sourceRole u x == .operator) =
      (serviceOrder s).filter fun x => claims s H c x && sourceRole s x == .operator := by
  rw [same.serviceOrder_eq, List.filter_filter]
  refine List.filter_congr fun x _ => ?_
  rw [sourceRole_congr same.settings]
  by_cases operator : sourceRole s x = .operator
  · rw [same.claims_operator operator, Bool.and_comm]
  · rw [beq_false_of_ne operator, Bool.false_and, Bool.and_false]

/-- The quiet count and a release by it leave the sources as they are. -/
theorem afterQuiet (same : SameSources s u c) : SameSources s (quietStep H c u) c := by
  obtain ⟨demand, jog⟩ := quietStep_console H c u
  have ports := (quietStep_keeps H c).ports u
  exact {
    settings := ((quietStep_keeps H c).settings u).trans same.settings
    phase := fun p => by rw [State.port, ports]; exact same.phase p
    consoleDemand := demand.trans same.consoleDemand
    consoleJog := jog.trans same.consoleJog }

end SameSources

/-- What claims is active, and a port that claims is a source of the channel. -/
theorem claims_active {s : State} {H : Bank 8 Handed} {c : Chan} {x : Source} (claim : claims s H c x = true) :
    sourceActive s H c x = true ∧ ∀ p, x = .port p → isSource s c p = true := by
  cases x with
  | port p =>
    obtain ⟨could, active⟩ := Bool.and_eq_true_iff.mp claim
    refine ⟨active, ?_⟩
    rintro _ ⟨⟩
    cases source : isSource s c p with
    | true => rfl
    | false => simp [couldClaim, source] at could
  | console => exact ⟨(Bool.and_eq_true_iff.mp claim).2, nofun⟩

/-- Nothing claims a channel all of whose sources are quiet. -/
theorem claimers_nil {s : State} {H : Bank 8 Handed} {c : Chan} (console : sourceActive s H c .console = false)
    (ports : ∀ p, isSource s c p = true → portActive s H p = false) :
    (serviceOrder s).filter (claims s H c) = [] := by
  refine List.filter_eq_nil_iff.mpr fun x _ claim => ?_
  obtain ⟨active, source⟩ := claims_active claim
  cases x with
  | port p => exact Bool.false_ne_true ((ports p (source p rfl)).symm.trans active)
  | console => exact Bool.false_ne_true (console.symm.trans active)

/-! ### The claim step (R116) -/

section
variable {u : State} {H : Bank 8 Handed} {c : Chan} {h x : Source}

/-- A channel without a holder that nothing claims stays without one. -/
theorem claimStep_unclaimed (free : (u.auth c).holder = none)
    (nobody : (serviceOrder u).filter (claims u H c) = []) : claimStep H c u = u := by
  unfold claimStep
  rw [free, nobody]

theorem claimStep_takeover (held : (u.auth c).holder = some h) (presenter : sourceRole u h = .presenter)
    (mode : (u.chanSet c).authMode = .takeover)
    (first : (((serviceOrder u).filter (claims u H c)).filter fun y => sourceRole u y == .operator).head? = some x) :
    claimStep H c u = disarmPresenters c (takeHolder c x .takeover u) := by
  obtain ⟨rest, claimers⟩ := List.head?_eq_some_iff.mp first
  unfold claimStep
  rw [held]
  dsimp only
  rw [if_pos ⟨presenter, mode⟩, claimers]

end

/-- A takeover at one port: a presenter port that is a source of the channel is disarmed (R116). -/
def disarmPort (c : Chan) (p : PortId) (t : State) : State :=
  if isSource t c p ∧ t.role p = .presenter then t.setArmed p false else t

theorem disarmPresenters_eq (c : Chan) (u : State) : disarmPresenters c u = forEach allPorts (disarmPort c) u := rfl

theorem disarmPort_keeps (c : Chan) (p : PortId) : Keeps { armed := true } (disarmPort c p) :=
  ⟨fun t => by unfold disarmPort; split <;> rfl⟩

theorem disarmPort_other {c : Chan} {p r : PortId} (other : p ≠ r) (t : State) :
    (disarmPort c p t).armed.get r = t.armed.get r := by
  unfold disarmPort
  split
  · exact Bank.get_set_ne _ _ (Ne.symm other)
  · rfl

/-- A takeover disarms every presenter port that is a source of the channel. -/
theorem disarmPresenters_armed {u : State} {c : Chan} {r : PortId} (source : isSource u c r = true)
    (presenter : u.role r = .presenter) : (disarmPresenters c u).armed.get r = false := by
  obtain ⟨ys, -, -, -, -, own⟩ := forEach_at (f := disarmPort c) (fun t => t.armed.get r) (mem_allPorts r)
    allPorts_nodup (fun _ other t => disarmPort_other other t) u
  have settings := (Keeps.forEach (disarmPort_keeps c) ys).settings u
  have mine : isSource (forEach ys (disarmPort c) u) c r ∧ (forEach ys (disarmPort c) u).role r = .presenter := by
    rw [isSource, State.role, portSet_congr settings]
    exact ⟨source, presenter⟩
  rw [disarmPresenters_eq, own, disarmPort, if_pos mine]
  exact Bank.get_set_self ..

/-! ### One LIVE channel's evaluation within the frame event (R113) -/

/-- The evaluation of a LIVE channel begins in a state in which its authority and its sources stand as before the frame
event; its holder, its quiet count, the holder and the demand it publishes, and the arm flags of its sources are at
the end of the event what its claim step left. -/
theorem freeFrame_evaluated {s : State} {c : Chan} (free : s.timebase.lock = .free) (run : s.engine = .running)
    (live : s.mode c = .live) : ∃ u, u.auth c = s.auth c ∧ SameSources s u c ∧
    let H := (handAll s).1
    let claimed := claimStep H c (quietStep H c u)
    ((freeFrame s).auth c).holder = (claimed.auth c).holder ∧
    ((freeFrame s).auth c).quiet = (claimed.auth c).quiet ∧
    ((freeFrame s).chan c).pub.holder = (claimed.auth c).holder ∧
    ((freeFrame s).chan c).pub.demand = (holderItems claimed H c).1 ∧
    ∀ p, isSource s c p = true → (freeFrame s).armed.get p = claimed.armed.get p := by
  obtain ⟨ys, xs, zs, split, before, after, -, made, chan, auth, authEnd, -⟩ := live_at live
  obtain ⟨x, chanEnd⟩ := freeFrame_chan s free run c
  have own := beforeStages_auth before s
  have published : ((beforePublication zs s).auth c) =
      { (claimStep (handAll s).1 c (quietStep (handAll s).1 c (beforeStages ys s))).auth c with consoleJog := 0 } :=
    auth.trans ((congrArg (Bank.get · c) (liveStages_auth ..)).trans (evaluate_auth ..))
  have left : (freeFrame s).auth c = (beforePublication zs s).auth c :=
    (congrArg (Bank.get · c) (freeFrame_authority s free run)).trans authEnd
  have pub : ((freeFrame s).chan c).pub.holder = ((beforePublication zs s).auth c).holder ∧
      ((freeFrame s).chan c).pub.demand = ((beforePublication zs s).chan c).demand := by
    rw [chanEnd, made, stage6_chan]
    unfold livePublication
    rw [State.chan_modChan_self]
    exact ⟨rfl, rfl⟩
  refine ⟨beforeStages ys s, own, ⟨(beforeStages_keeps ys).settings s, beforeStages_phase ys s, by rw [own],
    by rw [own]⟩, ?holder, ?quiet, ?pubHolder, ?pubDemand, fun p source => ?armed⟩
  case holder => rw [left, published]
  case quiet => rw [left, published]
  case pubHolder => rw [pub.1, published]
  case pubDemand => rw [pub.2, chan, liveStages_demand, evaluate_demand]
  case armed => rw [freeFrame_armed free run split after source, evaluate_armed]

/-- QUIET_RELEASE is the frame event when that releases the holder. -/
theorem exec_quietRelease {s : State} {c : Chan} {h : Source} (run : s.engine = .running) (live : s.mode c = .live)
    (held : (s.auth c).holder = some h) (due : (s.chanSet c).releaseTime ≤ min ((s.auth c).quiet + 1) 255)
    (quiet : sourceActive s (handAll s).1 c h = false) : exec (.quietRelease c) s = .next (freeFrame s) := by
  have now : quietDue s c = true := by
    simp only [quietDue, State.running, run, State.isLive, live, held, quiet, due]
    rfl
  show Host.Outcome.next (if quietDue s c = true then _ else _) = _
  rw [if_pos now]

/-- Settles O43: the quiet step releases the holder, and the claim step finds no claimer. -/
theorem quietHoldersRelease : Obligations.QuietHoldersRelease := by
  unfold Obligations.QuietHoldersRelease
  intro c h s free run live held due quiet console ports
  obtain ⟨u, auth, same, holder, count, pubHolder, pubDemand, -⟩ := freeFrame_evaluated free run live
  have released : quietStep (handAll s).1 c u = releaseHolder c .quiet u := by
    refine quietStep_releases (by rw [auth, held]) (by rw [same.sourceActive_eq, quiet]) ?_
    rw [auth, chanSet_congr same.settings]
    exact due
  have unheld : (releaseHolder c .quiet u).auth c = (s.auth c).released := by
    rw [releaseHolder_auth, auth, held, if_neg nofun]
  have idle := released ▸ same.afterQuiet (H := (handAll s).1)
  have unclaimed : claimStep (handAll s).1 c (quietStep (handAll s).1 c u) = releaseHolder c .quiet u := by
    rw [released]
    refine claimStep_unclaimed (by rw [unheld]; rfl) (claimers_nil (by rw [idle.sourceActive_eq, console]) ?_)
    intro p source
    rw [idle.portActive_eq, ports p (idle.isSource_eq p ▸ source)]
  rw [unclaimed, unheld] at holder count pubHolder
  rw [unclaimed, holderItems, unheld] at pubDemand
  exact ⟨freeFrame s, exec_quietRelease run live held due quiet, rfl, holder, count, pubHolder, pubDemand⟩

/-- Settles O44: the quiet step keeps the active holder, and the claim step gives the channel to the first operator. -/
theorem operatorsTakeOver : Obligations.OperatorsTakeOver := by
  unfold Obligations.OperatorsTakeOver
  intro c p x s free run live mode held presenter active first
  obtain ⟨u, auth, same, holder, count, pubHolder, -, armed⟩ := freeFrame_evaluated free run live
  have kept : (quietStep (handAll s).1 c u).auth c = { s.auth c with quiet := 0 } := by
    rw [quietStep_active (h := .port p) (by rw [auth, held]) ((same.portActive_eq p).trans active),
      State.auth_modAuth_self, auth]
  have still := same.afterQuiet (H := (handAll s).1)
  have taken : claimStep (handAll s).1 c (quietStep (handAll s).1 c u) =
      disarmPresenters c (takeHolder c x .takeover (quietStep (handAll s).1 c u)) := by
    refine claimStep_takeover (h := .port p) (by rw [kept, held]) ((still.role_eq p).trans presenter) ?_ ?_
    · rw [chanSet_congr still.settings, mode]
    · rw [still.operatorClaimers, first]
  have sources := ((takeHolder_keeps c x .takeover).settings (quietStep (handAll s).1 c u)).trans still.settings
  rw [taken, disarm_auth, takeHolder_auth] at holder count pubHolder
  refine ⟨freeFrame s, rfl, holder, count, pubHolder, fun r source role => ?_⟩
  rw [armed r source, taken]
  exact disarmPresenters_armed (by rw [isSource, portSet_congr sources]; exact source)
    (by rw [State.role, portSet_congr sources]; exact role)

end Sys2Proof.Machine
end

section
/-! PROOFS. The rasters of the heads (R133 to R138): their size, the pixel moves of mirror and flip, and what a head
composes in each of its states. What the parts of a raster row show is in Laws/Heads.lean. -/

namespace Sys2Proof.Machine

/-! ### Mirror and flip (R137) -/

/-- Reversing a list moves the element at place `i` of `n` to place `n - 1 - i`. -/
theorem getElem?_reversed_if {α : Type} {xs : List α} {i n : Nat} (len : xs.length = n) (h : i < n) (b : Bool) :
    (if b then xs.reverse else xs)[if b then n - 1 - i else i]? = xs[i]? := by
  cases b with
  | false => rfl
  | true =>
    rw [if_pos rfl, if_pos rfl, List.getElem?_reverse (by omega), len, show n - 1 - (n - 1 - i) = i by omega]

theorem Raster.moved_rows (mirror flip : Bool) (r : Raster) : (r.moved mirror flip).rows =
    let rows := r.rows.map fun row => if mirror then row.reverse else row
    if flip then rows.reverse else rows := by
  cases mirror
  · simp [Raster.moved]
  · rfl

theorem Raster.moved_pixel {r : Raster} (rows : r.rows.length = r.height)
    (row : ∀ row ∈ r.rows, row.length = r.width) {x y : Nat} (hx : x < r.width) (hy : y < r.height)
    (mirror flip : Bool) : ((r.moved mirror flip).rows[if flip then r.height - 1 - y else y]?.bind
      (·[if mirror then r.width - 1 - x else x]?)) = r.rows[y]?.bind (·[x]?) := by
  have inside : y < r.rows.length := rows ▸ hy
  rw [Raster.moved_rows, getElem?_reversed_if (by rw [List.length_map, rows]) hy, List.getElem?_map,
    List.getElem?_eq_getElem inside]
  exact getElem?_reversed_if (row _ (List.getElem_mem inside)) hx mirror

/-! ### The size of a raster (R134) -/

/-- A raster of `height` rows of `width` pixels each. -/
structure Raster.Sized (width height : Nat) (r : Raster) : Prop where
  height_eq : r.height = height
  width_eq : r.width = width
  rows_length : r.rows.length = height
  row_length : ∀ row ∈ r.rows, row.length = width

theorem Raster.black_sized (width height : Nat) : (Raster.black width height).Sized width height where
  height_eq := rfl
  width_eq := rfl
  rows_length := List.length_replicate
  row_length row mem := by rw [List.eq_of_mem_replicate mem, List.length_replicate]

theorem Raster.Sized.moved {width height : Nat} {r : Raster} (h : r.Sized width height) (mirror flip : Bool) :
    (r.moved mirror flip).Sized width height where
  height_eq := h.height_eq
  width_eq := h.width_eq
  rows_length := by
    rw [Raster.moved_rows]
    cases flip <;> simp [h.rows_length]
  row_length row mem := by
    have mem : row ∈ r.rows.map fun row => if mirror then row.reverse else row := by
      rw [Raster.moved_rows] at mem
      cases flip with
      | false => exact mem
      | true => exact List.mem_reverse.1 mem
    obtain ⟨old, own, rfl⟩ := List.mem_map.1 mem
    rw [← h.row_length old own]
    cases mirror with
    | false => rfl
    | true => exact List.length_reverse

theorem rasterOf_sized {g : GlyphStore} {hs : HeadSettings} {row : Nat → List Rgb}
    (len : ∀ y, (row y).length = rasterWidth g hs) :
    (rasterOf g hs row).Sized (rasterWidth g hs) (rasterHeight g hs) where
  height_eq := rfl
  width_eq := rfl
  rows_length := by simp [rasterOf]
  row_length pixels mem := by
    obtain ⟨y, -, rfl⟩ := List.mem_map.1 mem
    exact len y

theorem rasterOf_row {g : GlyphStore} {hs : HeadSettings} (row : Nat → List Rgb) {y : Nat}
    (h : y < hs.rows * g.height) : (rasterOf g hs row).rows[y]? = some (row y) := by
  rw [rasterOf, List.getElem?_map, List.getElem?_range (show y < rasterHeight g hs from h), Option.map_some]

theorem contentPixels_length (g : GlyphStore) (hs : HeadSettings) (y : Nat) (c : RowContent) :
    (contentPixels g hs y c).length = hs.columns * g.width := by
  cases c with
  | blank | held | error | pending => exact List.length_replicate
  | text r => exact (textPixels_shown g hs r y).1

theorem markerColumn_length (g : GlyphStore) (hs : HeadSettings) (holds : HoldSet) (y : Nat) :
    (markerColumn g hs holds y).length = markerWidth g hs := by
  obtain ⟨unmarked, marked⟩ := markerColumn_shown g hs holds y
  unfold markerWidth HeadSettings.hasMarker
  by_cases none : hs.marker = .none
  · rw [unmarked none, none]; rfl
  · rw [(marked none).1, if_pos (bne_iff_ne.2 none)]

theorem rasterWidth_eq (g : GlyphStore) (hs : HeadSettings) :
    rasterWidth g hs = hs.columns * g.width + (if hs.marker = .none then 0 else g.width) := by
  unfold rasterWidth markerWidth HeadSettings.hasMarker
  by_cases none : hs.marker = .none
  · simp [none]
  · simp [none, Nat.add_comm]

theorem standbyCard_sized (g : GlyphStore) (hs : HeadSettings) :
    (standbyCard g hs).Sized (rasterWidth g hs) (rasterHeight g hs) := rasterOf_sized fun _ => List.length_replicate

theorem scriptWindow_sized (s : State) (hs : HeadSettings) :
    (scriptWindow s hs).Sized (rasterWidth s.glyphs hs) (rasterHeight s.glyphs hs) := by
  unfold scriptWindow
  dsimp only
  split
  · exact standbyCard_sized ..
  · refine rasterOf_sized fun y => ?_
    rw [windowRow, List.length_append, markerColumn_length, contentPixels_length, rasterWidth]

/-! ### What a head composes in each state (R133) -/

section
variable {s : State} {h : HeadId}

/-- What R133 asks of the engine and of the channel for STANDBY. -/
def showsCard (s : State) (h : HeadId) : Prop :=
  s.engine ≠ .running ∨ (s.chan (s.headSet h).channel).pub.mode = .off ∨
    (s.chan (s.headSet h).channel).pub.anchor = none

theorem headState_standby (on : (s.headSet h).enable = true) (works : s.engine ≠ .halted)
    (shows : (s.head h).blank = false) (card : showsCard s h) : headState s h = .standby := by
  obtain stopped | off | unplaced := card
  · simp [headState, State.halted, State.running, on, works, shows, stopped]
  · simp [headState, State.halted, State.running, on, works, shows, off]
  · simp [headState, State.halted, State.running, on, works, shows, unplaced]

theorem headState_live (on : (s.headSet h).enable = true) (shows : (s.head h).blank = false)
    (window : ¬ showsCard s h) : headState s h = .live := by
  obtain ⟨run, placed⟩ := not_or.1 window
  obtain ⟨used, anchored⟩ := not_or.1 placed
  simp [headState, State.halted, State.running, on, shows, not_not.1 run, used, anchored]

theorem composedRaster_off (off : (s.headSet h).enable = false) : composedRaster s h = none := by
  simp [composedRaster, headState, off]

theorem composedRaster_frozen (on : (s.headSet h).enable = true) (halted : s.engine = .halted) :
    composedRaster s h = some (s.head h).lastComposed := by
  simp [composedRaster, headState, State.halted, on, halted]

theorem composedRaster_blanked (on : (s.headSet h).enable = true) (works : s.engine ≠ .halted)
    (blank : (s.head h).blank = true) : composedRaster s h =
      some (Raster.black (rasterWidth s.glyphs (s.headSet h)) (rasterHeight s.glyphs (s.headSet h))) := by
  simp [composedRaster, headState, State.halted, on, works, blank]

theorem composedRaster_standby (on : (s.headSet h).enable = true) (works : s.engine ≠ .halted)
    (shows : (s.head h).blank = false) (card : showsCard s h) : composedRaster s h =
      some ((standbyCard s.glyphs (s.headSet h)).moved (s.headSet h).mirror (s.headSet h).flip) := by
  rw [composedRaster, headState_standby on works shows card]

theorem composedRaster_live (on : (s.headSet h).enable = true) (shows : (s.head h).blank = false)
    (window : ¬ showsCard s h) : composedRaster s h =
      some ((scriptWindow s (s.headSet h)).moved (s.headSet h).mirror (s.headSet h).flip) := by
  rw [composedRaster, headState_live on shows window]

/-- Outside OFF and FROZEN every head composes a raster of its size. -/
theorem composedRaster_sized (on : (s.headSet h).enable = true) (works : s.engine ≠ .halted) :
    ∃ r, composedRaster s h = some r ∧
      r.Sized (rasterWidth s.glyphs (s.headSet h)) (rasterHeight s.glyphs (s.headSet h)) := by
  cases shows : (s.head h).blank with
  | true => exact ⟨_, composedRaster_blanked on works shows, Raster.black_sized ..⟩
  | false =>
    by_cases card : showsCard s h
    · exact ⟨_, composedRaster_standby on works shows card, (standbyCard_sized ..).moved ..⟩
    · exact ⟨_, composedRaster_live on shows card, (scriptWindow_sized ..).moved ..⟩

end

/-! ### What the card and the window show (R133 to R136) -/

theorem standbyCard_shown (g : GlyphStore) (hs : HeadSettings) : cardShown g hs (standbyCard g hs) := by
  unfold cardShown
  intro top y inside
  refine ⟨_, rasterOf_row _ inside, fun x mem => ?_⟩
  rw [List.eq_of_mem_replicate mem]
  simp [inReadingRow, top]

theorem scriptWindow_shown {s : State} {hs : HeadSettings} {a : Nat}
    (place : (s.chan hs.channel).pub.anchor.bind (viewRow (s.chan hs.channel).view) = some a) :
    windowShown s hs a (scriptWindow s hs) := by
  unfold windowShown
  intro g ch y inside z
  refine ⟨_, _, ?row, markerColumn_shown .., contentPixels_shown ..⟩
  case row =>
    unfold scriptWindow
    dsimp only
    rw [place]
    exact rasterOf_row _ inside

/-- Settles O37: the size holds of every raster a head composes, and each head state shows what its row of R133 says. -/
theorem rastersHaveTheirSizeAndMoves : Obligations.RastersHaveTheirSizeAndMoves := by
  unfold Obligations.RastersHaveTheirSizeAndMoves
  refine ⟨fun s h r works composed => ?size,
    fun s h => ⟨composedRaster_off, composedRaster_frozen, fun on works => ⟨fun blank => ?blanked,
      fun shows card => ?standby, fun a shows window place => ?live⟩⟩,
    fun r mirror flip x y rows row hx hy => Raster.moved_pixel rows row hx hy mirror flip⟩
  case size =>
    have on : (s.headSet h).enable = true := by
      by_contra off
      rw [composedRaster_off (Bool.not_eq_true _ ▸ off)] at composed
      cases composed
    obtain ⟨_, own, sized⟩ := composedRaster_sized on works
    obtain rfl := Option.some.inj (composed.symm.trans own)
    refine ⟨sized.height_eq, sized.rows_length.trans sized.height_eq.symm, ?_, fun row mem => ?_⟩
    · rw [sized.width_eq, rasterWidth_eq]
    · rw [sized.row_length row mem, sized.width_eq]
  case blanked =>
    exact ⟨_, composedRaster_blanked on works blank, fun _ hr _ hx => Raster.black_pixels hr hx⟩
  case standby => exact ⟨_, composedRaster_standby on works shows card, standbyCard_shown _ _⟩
  case live => exact ⟨_, composedRaster_live on shows window, scriptWindow_shown place⟩

end Sys2Proof.Machine
end

section
/-! PROOFS. The timebase (R124 to R129): the periods and the windows, what every frame event makes of the timebase, the
frame event outside RUNNING, and REF: its measured edges, the lock, the edges in LOCKED and the closes of a window. -/

namespace Sys2Proof.Machine

/-! ### Periods and windows (R124, R126) -/

theorem multipleCount_mono (rate : FrameRate) (n : Nat) : multipleCount rate n ≤ multipleCount rate (n + 1) := by
  unfold multipleCount
  rw [Nat.succ_mul]
  omega

/-- The first `n` periods of a run end at the first count at or after the `n`-th multiple of the nominal period. -/
theorem freePeriods_sum (rate : FrameRate) (n : Nat) :
    ((List.range n).map (freePeriod rate)).sum = multipleCount rate n := by
  induction n with
  | zero => simp [multipleCount]
  | succ n ih =>
    rw [List.range_succ, List.map_append, List.sum_append, ih, List.map_singleton, List.sum_singleton, freePeriod,
      Nat.add_sub_cancel' (multipleCount_mono rate n)]

/-- The table of R126 rounds 98 and 102 percent of each nominal period inward. -/
theorem inWindow_iff (rate : FrameRate) (m : Nat) : inWindow rate m = true ↔
    98 * nominalThirds rate ≤ 300 * m ∧ 300 * m ≤ 102 * nominalThirds rate := by
  rw [inWindow, Bool.and_eq_true, decide_eq_true_eq, decide_eq_true_eq]
  cases rate <;> simp only [refWindow, nominalThirds] <;> omega

/-- Settles O28: the sum of the periods telescopes, and each window is read off its row. -/
theorem periodsAndWindows : Obligations.PeriodsAndWindows := by
  unfold Obligations.PeriodsAndWindows
  refine ⟨fun rate => by cases rate <;> rfl, fun rate n => ?_, inWindow_iff⟩
  dsimp only
  rw [freePeriods_sum, multipleCount]
  omega

/-! ### What a frame event makes of the timebase (R125, R129) -/

theorem running_iff (s : State) : s.running = true ↔ s.engine = .running := beq_iff_eq

@[simp] theorem State.modTimebase_timebase (s : State) (f : Timebase → Timebase) :
    (s.modTimebase f).timebase = f s.timebase := rfl

/-- The timebase once a frame event has been counted, by the engine state. -/
def Timebase.counted (engine : EngineState) (t : Timebase) : Timebase :=
  { t.beginPeriod with frameCounter := if engine = .running then t.frameCounter + 1 else t.frameCounter }

theorem countFrame_timebase (s : State) : (countFrame s).timebase = s.timebase.counted s.engine := by
  unfold countFrame State.modTimebase
  by_cases run : s.engine = .running
  · simp only [(running_iff s).2 run, if_true, run]; rfl
  · simp only [State.running, beq_eq_false_iff_ne.2 run, Timebase.counted, if_neg run]; rfl

theorem Timebase.counted_of_not_running {engine : EngineState} (t : Timebase) (off : engine ≠ .running) :
    t.counted engine = { t with periodStart := t.captureCount } := by
  rw [Timebase.counted, if_neg off]
  rfl

theorem announceLock_timebase (s : State) :
    (announceLock s).timebase = { s.timebase with announceLock := false } := by
  unfold announceLock
  split
  · rw [(raise_keeps _).timebase]; rfl
  · next off => rw [← Bool.eq_false_of_not_eq_true off]

/-- Of the timebase the blocks' work at a frame event changes at most whether a lock is to be announced. -/
theorem frameBody_timebase (s : State) : ∃ b, (frameBody s).timebase = { s.timebase with announceLock := b } := by
  unfold frameBody
  split
  · refine ⟨false, ?_⟩
    rw [runningFrame, scanFrame_keeps.timebase, exchangeFrame_keeps.timebase, composeHeads_keeps.timebase,
      channelsFrame_keeps.timebase, announceLock_timebase]
  · exact ⟨s.timebase.announceLock, composeHeads_keeps.timebase s⟩

/-- The timebase after a frame event that is counted in `s`, whatever reports `u` has raised for it. -/
theorem frameBody_counted {s u : State} (counted : u.timebase = (countFrame s).timebase) :
    ∃ b, (frameBody u).timebase = { s.timebase.counted s.engine with announceLock := b } := by
  obtain ⟨b, body⟩ := frameBody_timebase u
  exact ⟨b, by rw [body, counted, countFrame_timebase]⟩

/-- Outside RUNNING the heads alone act at a frame event. -/
theorem frameBody_of_not_running {s : State} (off : s.engine ≠ .running) : frameBody s = composeHeads s :=
  if_neg ((running_iff s).not.2 off)

theorem composeHeads_eq (s : State) : composeHeads s = { s with heads := (composeHeads s).heads } :=
  mask_eq (composeHeads_keeps.same s)

/-! ### The frame event outside RUNNING (R124, R133, R138) -/

theorem Timebase.nextFree_eq (rate : FrameRate) (t : Timebase) :
    let i := if t.runRate = rate then t.runIndex + 1 else 0
    t.nextFree rate = { t with runRate := rate, runIndex := i, periodLength := freePeriod rate i } := by
  unfold Timebase.nextFree
  split
  · next same => rw [← same]
  · rfl

theorem Head.compose_some (r : Raster) (x : Head) :
    x.compose (some r) = { x with lastComposed := r, composed := some r, output := x.composed } := rfl

theorem Head.compose_none (x : Head) : x.compose none = { x with composed := none, output := none } := rfl

theorem Head.compose_blank (r : Option Raster) (x : Head) : (x.compose r).blank = x.blank := by cases r <;> rfl

theorem composedRaster_isSome {s : State} {h : HeadId} (on : (s.headSet h).enable = true) :
    ∃ r, composedRaster s h = some r ∧ (s.engine = .halted → r = (s.head h).lastComposed) := by
  by_cases halted : s.engine = .halted
  · exact ⟨_, composedRaster_frozen on halted, fun _ => rfl⟩
  · obtain ⟨r, composed, -⟩ := composedRaster_sized on halted
    exact ⟨r, composed, fun e => absurd e halted⟩

/-- Settles O29: outside RUNNING the frame event counts no frame, and its body is the heads' composition. -/
theorem frameEventOutsideRunning : Obligations.FrameEventOutsideRunning := by
  unfold Obligations.FrameEventOutsideRunning
  refine fun s => ⟨fun locked => ?locked, fun free off => ?free⟩
  case locked =>
    have stands : freeFrame s = s := if_neg (by rw [locked]; nofun)
    exact congrArg Host.Outcome.next stands
  case free =>
    let u := countFrame (s.modTimebase (Timebase.nextFree s.rate))
    have event : freeFrame s = composeHeads u := (if_pos free).trans (frameBody_of_not_running off)
    have heads : ∀ h, (freeFrame s).head h = (s.head h).compose (composedRaster u h) := fun h => by
      rw [event, composeHeads_head]; rfl
    refine ⟨freeFrame s, rfl, ?rest, ?timebase, fun h => ⟨?blank, fun on => ?on, fun out => ?out⟩⟩
    case rest => rw [event, composeHeads_eq]; rfl
    case timebase =>
      rw [event, composeHeads_keeps.timebase, countFrame_timebase, Timebase.counted_of_not_running _ (by exact off),
        State.modTimebase_timebase, Timebase.nextFree_eq]
    case blank => rw [heads, Head.compose_blank]
    case on =>
      obtain ⟨r, composed, frozen⟩ := composedRaster_isSome (s := u) on
      rw [heads, composed, Head.compose_some]
      exact ⟨rfl, rfl, frozen⟩
    case out =>
      rw [heads, composedRaster_off (s := u) out, Head.compose_none]
      exact ⟨rfl, rfl, rfl⟩

/-! ### REF in FREE (R126) -/

section
variable {s : State} {e : Word}

theorem Timebase.measure_first {t : Timebase} (rate : FrameRate) (first : t.lastEdge = none) :
    t.measure rate = { t with lastEdge := some t.captureCount, qualifyingRun := 0 } := by
  simp [Timebase.measure, Timebase.refInterval, first]

theorem Timebase.measure_next {t : Timebase} (rate : FrameRate) (edge : t.lastEdge = some e) :
    t.measure rate = { t with
      lastEdge := some t.captureCount
      lastPeriod := (t.captureCount - e).toNat
      qualifyingRun := if inWindow rate (t.captureCount - e).toNat then min (t.qualifyingRun + 1) 8 else 0 } := by
  simp [Timebase.measure, Timebase.refInterval, edge]

theorem refEdge_of_free (free : s.timebase.lock = .free) : refEdge s = edgeInFree s := by
  rw [refEdge, free]

theorem refEdge_internal (free : s.timebase.lock = .free) (select : s.settings.refSelect = .internal) :
    refEdge s = s := by
  rw [refEdge_of_free free]
  exact if_neg (by rw [select]; nofun)

/-- A measured edge that does not bring the run to 8 is measured, and no more. -/
theorem refEdge_measures (free : s.timebase.lock = .free) (select : s.settings.refSelect = .ref)
    (short : (s.timebase.measure s.rate).qualifyingRun ≠ 8) :
    refEdge s = { s with timebase := s.timebase.measure s.rate } := by
  rw [refEdge_of_free free]
  exact (if_pos select).trans (if_neg short)

theorem refEdge_locks (free : s.timebase.lock = .free) (select : s.settings.refSelect = .ref)
    (eighth : (s.timebase.measure s.rate).qualifyingRun = 8) :
    refEdge s = lockEdge (s.modTimebase (Timebase.measure s.rate)) := by
  rw [refEdge_of_free free]
  exact (if_pos select).trans (if_pos eighth)

/-! ### The lock (R126) -/

theorem lockEdge_timebase (f : Timebase → Timebase) (s : State) : ∃ b, (lockEdge (s.modTimebase f)).timebase =
    { (f s.timebase).enterLocked.counted s.engine with announceLock := b } :=
  frameBody_counted (s := (s.modTimebase f).modTimebase Timebase.enterLocked) ((raiseRunning_keeps _).timebase _)

/-- Outside RUNNING the lock is the timebase's alone, and the heads compose at its frame event. -/
theorem lockEdge_of_not_running (f : Timebase → Timebase) (off : s.engine ≠ .running) :
    let t := lockEdge (s.modTimebase f)
    t = { s with timebase := t.timebase, heads := t.heads } := by
  have stopped : (countFrame ((s.modTimebase f).modTimebase Timebase.enterLocked)).engine ≠ .running := off
  dsimp only [lockEdge]
  rw [raiseRunning_of_not_running _ stopped, frameBody_of_not_running stopped, composeHeads_eq]
  rfl

end

/-! ### The statements about REF in FREE (R126) -/

/-- Settles O33: an edge that leaves the run below 8 is its measurement alone. -/
theorem refEdgesAreMeasuredInFree : Obligations.RefEdgesAreMeasuredInFree := by
  unfold Obligations.RefEdgesAreMeasuredInFree
  refine fun s free => ⟨fun select => ?internal, fun select first => ?first, fun e select edge => ?next⟩
  case internal => exact congrArg Host.Outcome.next (refEdge_internal free select)
  case first =>
    have measured := Timebase.measure_first s.rate first
    rw [← measured]
    exact congrArg Host.Outcome.next (refEdge_measures free select (by rw [measured]; nofun))
  case next =>
    intro n below
    have measured : s.timebase.measure s.rate = { s.timebase with
        lastEdge := some s.timebase.captureCount, lastPeriod := n
        qualifyingRun := if inWindow s.rate n then s.timebase.qualifyingRun + 1 else 0 } := by
      rw [Timebase.measure_next s.rate edge]
      obtain few | outside := below
      · rw [Nat.min_eq_left (by omega)]
      · rw [if_neg (by rw [outside]; nofun), if_neg (by rw [outside]; nofun)]
    rw [← measured]
    refine congrArg Host.Outcome.next (refEdge_measures free select ?_)
    rw [measured]
    dsimp only
    obtain few | outside := below
    · split <;> omega
    · rw [outside]; nofun

/-- Settles O34: the eighth good edge is measured, and the lock edge follows in the same command. -/
theorem eighthGoodPeriodLocks : Obligations.EighthGoodPeriodLocks := by
  unfold Obligations.EighthGoodPeriodLocks
  intro s e free select edge run good
  have measured : s.timebase.measure s.rate = { s.timebase with
      lastEdge := some s.timebase.captureCount
      lastPeriod := (s.timebase.captureCount - e).toNat
      qualifyingRun := 8 } := by
    rw [Timebase.measure_next s.rate edge, if_pos good, run]
    rfl
  have eighth : (s.timebase.measure s.rate).qualifyingRun = 8 := by rw [measured]
  have would : wouldLock s = true := by simp [wouldLock, free, select, eighth]
  have locks := refEdge_locks free select eighth
  obtain ⟨b, timebase⟩ := lockEdge_timebase (Timebase.measure s.rate) s
  rw [← locks, measured] at timebase
  refine ⟨refEdge s, congrArg Host.Outcome.next (if_pos would), rfl, congrArg Timebase.lock timebase,
    congrArg Timebase.missed timebase, congrArg Timebase.lockedFrames timebase,
    congrArg Timebase.qualifyingRun timebase, congrArg Timebase.lastPeriod timebase,
    congrArg Timebase.periodStart timebase, congrArg Timebase.frameCounter timebase, fun off => ?stopped⟩
  case stopped =>
    rw [locks]
    exact lockEdge_of_not_running _ off

end Sys2Proof.Machine
end

section
/-! PROOFS. A LOCKED timebase (R127, R129): the edges on REF in its window and before it, the close of a window, and the
loss of the lock with its posts. -/

namespace Sys2Proof.Machine

/-! ### The posts of a frame event (R165) -/

theorem announceLock_posts (s : State) : Posts s (announceLock s) := by
  unfold announceLock
  split
  · exact (raise_posts _ _).after rfl
  · exact Posts.refl s

theorem channelsFrame_posts (s : State) : Posts s (channelsFrame s) := by
  have advances : Posts s (advanced s).2 := by
    unfold advanced
    rw [advanceChannels_state]
    exact (forEach_posts (fun c t => liveStages_posts _ c t) _ _).after
      (((armPorts_keeps _).reports _).trans (handAll_keeps.reports s))
  rw [channelsFrame_eq]
  exact (advances.trans (forEach_posts (fun c t => publishChannel_posts _ c t) _ _)).trans
    (Posts.of_eq ((Keeps.forEach (writePortStatus_keeps _) allPorts).reports _))

/-- The blocks' work at a frame event adds its posts behind those that stand. -/
theorem frameBody_posts (s : State) : Posts s (frameBody s) := by
  unfold frameBody
  split
  · refine ((announceLock_posts s).trans (channelsFrame_posts _)).trans ((scanFrame_posts _).after ?_)
    rw [exchangeFrame_keeps.reports, composeHeads_keeps.reports]
  · exact Posts.of_eq (composeHeads_keeps.reports s)

/-! ### Edges in LOCKED (R127) -/

section
variable {s : State}

theorem refEdge_accepted (locked : s.timebase.lock = .locked)
    (inside : inWindow s.rate s.timebase.elapsed = true) :
    refEdge s = frameBody (countFrame (s.modTimebase Timebase.acceptEdge)) := by
  rw [refEdge, locked]
  exact if_pos inside

theorem refEdge_stray (locked : s.timebase.lock = .locked) (outside : inWindow s.rate s.timebase.elapsed = false) :
    refEdge s = { s with timebase := { s.timebase with lastEdge := some s.timebase.captureCount } } := by
  rw [refEdge, locked]
  exact if_neg (by rw [outside]; nofun)

theorem inWindow_of_early {rate : FrameRate} {n : Nat} (early : n < (refWindow rate).1) : inWindow rate n = false := by
  rw [inWindow, decide_eq_false (Nat.not_le.2 early), Bool.false_and]

end

/-- Settles O35: an edge in the window is accepted at the frame event it issues, and an early one is stray. -/
theorem refEdgesInLocked : Obligations.RefEdgesInLocked := by
  unfold Obligations.RefEdgesInLocked
  intro s locked n
  refine ⟨fun inside => ?accepted, fun early => ?stray⟩
  case accepted =>
    obtain ⟨b, timebase⟩ := frameBody_counted (s := s.modTimebase Timebase.acceptEdge) rfl
    rw [← refEdge_accepted locked inside] at timebase
    exact ⟨refEdge s, rfl, (congrArg Timebase.lock timebase).trans locked, congrArg Timebase.missed timebase,
      congrArg Timebase.lastPeriod timebase, congrArg Timebase.lockedFrames timebase,
      congrArg Timebase.periodStart timebase, congrArg Timebase.frameCounter timebase⟩
  case stray => exact congrArg Host.Outcome.next (refEdge_stray locked (inWindow_of_early early))

/-! ### The close of a window (R127) -/

section
variable {s : State}

/-- A period without an edge in its window is counted as missed, and its frame event as one in LOCKED. -/
def Timebase.missPeriod (t : Timebase) : Timebase := { t with missed := t.missed + 1 }.countLocked

theorem windowClose_misses (locked : s.timebase.lock = .locked) (first : s.timebase.missed = 0) :
    windowClose s = frameBody (countFrame (s.modTimebase Timebase.missPeriod)) := by
  have few : ¬ 2 ≤ (s.modTimebase Timebase.missPeriod).timebase.missed := by
    show ¬ 2 ≤ s.timebase.missed + 1
    omega
  exact (if_pos locked).trans (if_neg few)

theorem windowClose_loses (locked : s.timebase.lock = .locked) (second : s.timebase.missed = 1) :
    windowClose s = loseLock (s.modTimebase Timebase.missPeriod) := by
  have many : 2 ≤ (s.modTimebase Timebase.missPeriod).timebase.missed := by
    show 2 ≤ s.timebase.missed + 1
    omega
  exact (if_pos locked).trans (if_pos many)

/-! ### The loss of the lock (R127, R129) -/

/-- The losing frame event has been counted, and in RUNNING a lock not yet announced has been announced. -/
def lossAnnounced (s : State) : State := if s.engine = .running then announceLock (countFrame s) else countFrame s

theorem loseLock_eq (s : State) : loseLock s = frameBody (raiseRunning (refLostReport (lossAnnounced s) .missed)
    ((lossAnnounced s).modTimebase (Timebase.enterFree (lossAnnounced s).rate))) := by
  have same : lossAnnounced s = if (countFrame s).running then announceLock (countFrame s) else countFrame s := by
    unfold lossAnnounced
    by_cases run : s.engine = .running
    · rw [if_pos run, if_pos ((running_iff (countFrame s)).2 run)]
    · rw [if_neg run, if_neg ((running_iff (countFrame s)).not.2 run)]
  rw [same]
  rfl

theorem lossAnnounced_keeps : Keeps { timebase := true, reports := true } lossAnnounced := by
  refine ⟨fun s => ?_⟩
  unfold lossAnnounced
  split
  · exact Eq.trans (announceLock_keeps.on _) (countFrame_keeps.on s)
  · exact countFrame_keeps.on s

theorem lossAnnounced_timebase (s : State) :
    ∃ b, (lossAnnounced s).timebase = { s.timebase.counted s.engine with announceLock := b } := by
  unfold lossAnnounced
  split
  · exact ⟨false, by rw [announceLock_timebase, countFrame_timebase]⟩
  · exact ⟨s.timebase.announceLock, countFrame_timebase s⟩

theorem lossAnnounced_rate (s : State) : (lossAnnounced s).rate = s.rate := by
  rw [State.rate, lossAnnounced_keeps.settings]
  rfl

theorem loseLock_timebase (s : State) : ∃ b, (loseLock s).timebase =
    { (s.timebase.counted s.engine).enterFree s.rate with announceLock := b } := by
  obtain ⟨b, announced⟩ := lossAnnounced_timebase s
  rw [loseLock_eq, lossAnnounced_rate]
  obtain ⟨b', body⟩ := frameBody_timebase (raiseRunning (refLostReport (lossAnnounced s) .missed)
    ((lossAnnounced s).modTimebase (Timebase.enterFree s.rate)))
  refine ⟨b', ?_⟩
  rw [body, (raiseRunning_keeps _).timebase, State.modTimebase_timebase, announced]
  rfl

/-- Outside RUNNING a loss posts nothing. -/
theorem loseLock_reports (off : s.engine ≠ .running) : (loseLock s).reports = s.reports := by
  have stopped : ((lossAnnounced s).modTimebase (Timebase.enterFree (lossAnnounced s).rate)).engine ≠ .running := by
    show (lossAnnounced s).area.engine ≠ .running
    rw [lossAnnounced_keeps.area]
    exact off
  rw [loseLock_eq, raiseRunning_of_not_running _ stopped, frameBody_of_not_running stopped,
    composeHeads_keeps.reports, State.modTimebase_reports, lossAnnounced, if_neg off, countFrame_keeps.reports]

/-- The post of a lock that no frame event in RUNNING has announced, at the next one (R129). -/
def announcement (s : State) : List Post :=
  if s.timebase.announceLock then [⟨refLockedReport s 1, s.frame + 1⟩] else []

theorem announceLock_queue (on : s.engine ≠ .halted) (room : s.reports.queue.length < 16) :
    (announceLock s).reports.queue = s.reports.queue ++
      if s.timebase.announceLock then [⟨refLockedReport s 1, s.frame⟩] else [] := by
  unfold announceLock
  split
  · exact congrArg Reports.queue (raise_reports_of_room (u := s.modTimebase _) (refLockedReport s 1) on room)
  · exact (List.append_nil _).symm

theorem lossAnnounced_queue (run : s.engine = .running) (room : s.reports.queue.length < 16) :
    (lossAnnounced s).reports.queue = s.reports.queue ++ announcement s := by
  have frame : (countFrame s).frame = s.frame + 1 := countFrame_frame s run
  have report : refLockedReport (countFrame s) 1 = refLockedReport s 1 := by
    unfold refLockedReport
    rw [countFrame_timebase]
    rfl
  have on : (countFrame s).engine ≠ .halted := by
    show s.engine ≠ .halted
    rw [run]
    nofun
  rw [lossAnnounced, if_pos run, announceLock_queue on room, frame, report, countFrame_timebase]
  rfl

/-- In RUNNING a loss posts REF_LOST behind the announcement, and before what the other blocks post. -/
theorem loseLock_queue (run : s.engine = .running) (room : s.reports.queue.length ≤ 14) : ∃ more,
    (loseLock s).reports.queue =
      s.reports.queue ++ announcement s ++ ⟨refLostReport s .missed, s.frame + 1⟩ :: more := by
  obtain ⟨b, timebase⟩ := lossAnnounced_timebase s
  have queue := lossAnnounced_queue run (by omega)
  have short : (announcement s).length ≤ 1 := by
    unfold announcement
    split <;> simp
  let u := (lossAnnounced s).modTimebase (Timebase.enterFree (lossAnnounced s).rate)
  have running : u.engine = .running := by
    show (lossAnnounced s).area.engine = _
    rw [lossAnnounced_keeps.area]
    exact run
  have fits : u.reports.queue.length < 16 := by
    show (lossAnnounced s).reports.queue.length < 16
    rw [queue, List.length_append]
    omega
  have frame : u.frame = s.frame + 1 := by
    show (lossAnnounced s).timebase.frameCounter = _
    rw [timebase]
    exact if_pos run
  have report : refLostReport (lossAnnounced s) .missed = refLostReport s .missed := by
    unfold refLostReport
    rw [timebase, lossAnnounced_rate]
    rfl
  obtain ⟨more, later⟩ := (frameBody_posts (raise (refLostReport s .missed) u)).1
  refine ⟨more, ?_⟩
  rw [loseLock_eq, report, raiseRunning_of_running _ running, ← later,
    raise_reports_of_room _ (by rw [running]; nofun) fits, frame, List.append_assoc, List.append_assoc]
  show (lossAnnounced s).reports.queue ++ _ = _
  rw [queue, List.append_assoc]
  rfl

end

/-- Settles O36: the first miss is a frame event in LOCKED, and the second loses the lock at its frame event. -/
theorem windowCloseCountsAMiss : Obligations.WindowCloseCountsAMiss := by
  unfold Obligations.WindowCloseCountsAMiss
  refine fun s => ⟨fun free => ?free, fun locked first => ?first, fun locked second => ?second⟩
  case free =>
    have stands : windowClose s = s := if_neg (by rw [free]; nofun)
    exact congrArg Host.Outcome.next stands
  case first =>
    obtain ⟨b, timebase⟩ := frameBody_counted (s := s.modTimebase Timebase.missPeriod) rfl
    rw [← windowClose_misses locked first] at timebase
    have missed : s.timebase.missPeriod.missed = 1 := congrArg (· + 1) first
    exact ⟨windowClose s, rfl, (congrArg Timebase.lock timebase).trans locked,
      (congrArg Timebase.missed timebase).trans missed, congrArg Timebase.lockedFrames timebase,
      congrArg Timebase.periodStart timebase, congrArg Timebase.frameCounter timebase⟩
  case second =>
    have would : wouldLose s = true := by simp [wouldLose, locked, second]
    have loses := windowClose_loses locked second
    obtain ⟨b, timebase⟩ := loseLock_timebase (s.modTimebase Timebase.missPeriod)
    rw [← loses] at timebase
    refine ⟨windowClose s, congrArg Host.Outcome.next (if_pos would), rfl, congrArg Timebase.lock timebase,
      congrArg Timebase.qualifyingRun timebase, congrArg Timebase.lastEdge timebase,
      congrArg Timebase.periodLength timebase, congrArg Timebase.periodStart timebase,
      congrArg Timebase.frameCounter timebase, fun run room => ?posts, fun off => ?silent⟩
    case posts =>
      rw [loses]
      exact loseLock_queue (s := s.modTimebase Timebase.missPeriod) run room
    case silent =>
      rw [loses]
      exact loseLock_reports (s := s.modTimebase Timebase.missPeriod) off

end Sys2Proof.Machine
end

section
/-! PROOFS. The load of the glyph store (R130, R131, R152): the head of the table, and the images. -/

namespace Sys2Proof.Machine

/-- The read of each image is among the reads that the head issues. -/
theorem mem_imageReads (table : Addr) (size tag : Nat) (k : Fin 256) :
    (⟨tag + k.val, table + BitVec.ofNat 64 (16 + size * k.val), size⟩, k) ∈ imageReads table size tag :=
  List.mem_map.2 ⟨k, List.mem_finRange k, rfl⟩

theorem imageReads_length (table : Addr) (size tag : Nat) : (imageReads table size tag).length = 256 := by
  rw [imageReads, List.length_map, List.length_finRange]

section
variable {tag : Nat} {bytes : List Byte} {s : State}

theorem glyphReadDone_head {r : Request} (head : s.area.start = some (.glyphHead r)) (own : r.tag = tag) :
    glyphReadDone tag bytes s = glyphHeadDone bytes s := by
  rw [glyphReadDone, head]
  exact if_pos own

/-- The store with image `k` as read. -/
def GlyphStore.withImage (k : Fin 256) (bytes : List Byte) (g : GlyphStore) : GlyphStore :=
  { g with images := g.images.set k bytes }

theorem glyphReadDone_more {reads rest : List (Request × Fin 256)} {x : Request × Fin 256} {r : Request} {k : Fin 256}
    (images : s.area.start = some (.glyphImages reads)) (own : reads.find? (·.1.tag == tag) = some (r, k))
    (more : reads.filter (·.1.tag != tag) = x :: rest) : glyphReadDone tag bytes s = { s with
      glyphs := s.glyphs.withImage k bytes
      area := { s.area with start := some (.glyphImages (x :: rest)) } } := by
  rw [glyphReadDone, images]
  dsimp only [glyphImageDone]
  rw [own]
  dsimp only
  rw [more]
  rfl

theorem glyphReadDone_last {reads : List (Request × Fin 256)} {r : Request} {k : Fin 256}
    (images : s.area.start = some (.glyphImages reads)) (own : reads.find? (·.1.tag == tag) = some (r, k))
    (last : reads.filter (·.1.tag != tag) = []) :
    glyphReadDone tag bytes s = issueSettings { s with glyphs := s.glyphs.withImage k bytes } := by
  rw [glyphReadDone, images]
  dsimp only [glyphImageDone]
  rw [own]
  dsimp only
  rw [last]
  rfl

theorem glyphReadDone_glyphs {reads : List (Request × Fin 256)} {r : Request} {k : Fin 256}
    (images : s.area.start = some (.glyphImages reads)) (own : reads.find? (·.1.tag == tag) = some (r, k)) :
    (glyphReadDone tag bytes s).glyphs = s.glyphs.withImage k bytes := by
  cases left : reads.filter (·.1.tag != tag) with
  | nil => rw [glyphReadDone_last images own left]; rfl
  | cons x rest => rw [glyphReadDone_more images own left]

end

/-- Settles O23: the head takes the cell size and issues the reads; an image enters the store by its code. -/
theorem glyphStoreIsLoaded : Obligations.GlyphStoreIsLoaded := by
  unfold Obligations.GlyphStoreIsLoaded
  refine fun tag bytes s => ⟨fun r head own => ?head, fun reads r k images own => ?image⟩
  case head =>
    refine ⟨glyphHeadDone bytes s, _, congrArg Host.Outcome.next (glyphReadDone_head head own), rfl, rfl, rfl, rfl,
      imageReads_length .., fun k => ⟨_, mem_imageReads .., rfl, rfl⟩, rfl⟩
  case image =>
    have glyphs := glyphReadDone_glyphs (bytes := bytes) images own
    refine ⟨glyphReadDone tag bytes s, rfl, by rw [glyphs]; rfl, fun j => ?stored, fun x rest more => ?more,
      fun last => ?last⟩
    case stored =>
      rw [glyphs]
      exact Bank.get_set ..
    case more => rw [glyphs, glyphReadDone_more images own more]
    case last =>
      rw [glyphs, glyphReadDone_last images own last]
      rfl

end Sys2Proof.Machine
end

section
/-! PROOFS. The Lamp Unit (R140 to R147): the crossing record that a channel's publication hands to it, what it makes of
the record, and the levels that its lines show. -/

namespace Sys2Proof.Machine

/-! ### The patterns of the groups (R141, R142) -/

/-- The last entered line with a pattern decides. -/
theorem latchPattern_eq (r : CrossingRecord) (old : BitVec 4) :
    latchPattern r old = ((r.entered.filterMap (·.pattern)).getLast?).getD (if r.placed then 0 else old) := by
  unfold latchPattern
  generalize (if r.placed then 0 else old) = start
  induction r.entered generalizing start with
  | nil => rfl
  | cons e es ih =>
    rw [List.foldl_cons, ih]
    cases pattern : e.pattern with
    | none => rw [List.filterMap_cons_none pattern]; rfl
    | some b => rw [List.filterMap_cons_some pattern, List.getLast?_cons]; rfl

theorem spanPattern_absent {f : Fetch} {a : Anchor} (absent : f.resident a.slot a.line = false) :
    spanPattern f (some a) = 0 := by
  have noRecord : f.record a.slot a.line = none := by simpa [Fetch.resident] using absent
  unfold spanPattern
  dsimp only
  rw [noRecord]
  rfl

theorem spanPattern_record {f : Fetch} {a : Anchor} {rec : LineRecord} (held : f.record a.slot a.line = some rec) :
    spanPattern f (some a) = rec.pattern.getD 0 := by
  unfold spanPattern
  dsimp only
  rw [held]
  rfl

/-! ### The port lamps stay driven, or not driven, at a frame event (R147) -/

theorem groupAct_driven (c : Chan) (r : CrossingRecord) (g : GroupId) (s : State) :
    (groupAct c r g s).lamps.driven = s.lamps.driven := by
  unfold groupAct
  split <;> rfl

theorem cuePassed_driven (c : Chan) (xs : List Crossing) (s : State) :
    (cuePassed c xs s).lamps.driven = s.lamps.driven := by
  unfold cuePassed
  split
  · rfl
  · rw [(raise_keeps _).lamps]

theorem lampsAct_driven (c : Chan) (r : CrossingRecord) (s : State) :
    (lampsAct c r s).lamps.driven = s.lamps.driven :=
  (cuePassed_driven ..).trans
    (forEach_same (π := fun t => t.lamps.driven) _ (fun g _ t => groupAct_driven c r g t) s)

theorem publishChannel_driven (outcomes : Bank 4 Stage4) (c : Chan) (s : State) :
    (publishChannel outcomes c s).lamps.driven = s.lamps.driven := by
  obtain ⟨u, made, lamps, -⟩ := makePublication_lamps outcomes c s
  rw [publishChannel_lamps, made, lampsAct_driven, lamps]

/-- The publications are the last to change the lamps at a frame event. -/
theorem freeFrame_lamps_eq {s : State} (free : s.timebase.lock = .free) (run : s.engine = .running) :
    (freeFrame s).lamps = (beforePublication (frameOrder s) s).lamps := by
  rw [freeFrame_running s free run, scanFrame_keeps.lamps, exchangeFrame_keeps.lamps, composeHeads_keeps.lamps,
    channelsFrame_start, (Keeps.forEach (writePortStatus_keeps _) allPorts).lamps]

theorem freeFrame_driven {s : State} (free : s.timebase.lock = .free) (run : s.engine = .running) :
    (freeFrame s).lamps.driven = s.lamps.driven := by
  rw [freeFrame_lamps_eq free run, ← advancedStart_keeps.lamps s]
  exact forEach_same (π := fun t => t.lamps.driven) _ (fun c _ t => publishChannel_driven _ c t) _

/-! ### The crossing record of a LIVE channel (R140) -/

/-- The outcome and the standing kept for a LIVE channel are those of its own stages. -/
theorem advancedStart_of_split {s : State} {c : Chan} {ys xs : List Chan} (live : s.mode c = .live)
    (split : liveChans s = ys ++ c :: xs) (before : c ∉ ys) (after : c ∉ xs) :
    let out := liveStages (handAll s).1 c (beforeStages ys s)
    (advancedStart s).1.get c = out.1 ∧ (advancedStart s).2.chan c = out.2.chan c := by
  obtain ⟨ys', xs', split', -, -, outcome, chan, -⟩ := advancedStart_at live
  obtain ⟨rfl, -, -⟩ := (List.append_cons_inj_of_notMem before after).mp (split.symm.trans split')
  exact ⟨outcome, chan⟩

/-- The crossing record of the LIVE channel's stages: the Placed flag they leave, and the lines and crossings of their
stage 4. -/
def stagesRecord (s : State) (c : Chan) : CrossingRecord :=
  ⟨((advancedStart s).2.chan c).placed, ((advancedStart s).1.get c).entered, ((advancedStart s).1.get c).crossings⟩

/-- The record with which a LIVE channel makes its frame event (`freeFrame_liveFrame` says that there is one) is that of
its own stages: Placed, the entered lines and the crossings are read off what `liveStages_stand` says of them. -/
theorem freeFrame_liveFrame_stagesRecord {s : State} {c : Chan} (free : s.timebase.lock = .free)
    (run : s.engine = .running) (live : s.mode c = .live) : LiveFrame s (freeFrame s) c (stagesRecord s c) := by
  obtain ⟨ys, xs, split, before, after, f, pub⟩ := freeFrame_live_pub free run live
  have hand := freeFrame_handing_at free run live split before after
  obtain ⟨outcomeKept, chanKept⟩ := advancedStart_of_split live split before after
  have keeps := beforeStages_keeps ys
  have chan := beforeStages_chan before s
  obtain ⟨y, z, w, key, placed, anchored, bounded, checks, stands, jumped, advanced⟩ :=
    liveStages_stand (s := s) (t := freeFrame s) (u := beforeStages ys s) (c := c) (H := (handAll s).1)
      (by unfold State.isLive; rw [mode_congr (keeps.settings s), live]; rfl) (keeps.settings s) (keeps.stories s)
      (beforeStages_fetch ys s) chan
      (scriptView_congr (keeps.settings s) (keeps.rundown s) (keeps.stories s) (beforeStages_slot ys s) live
        (congrArg Channel.exchange chan))
      (beforeStages_joins before s) rfl ((congrArg Area.engine (keeps.area s)).trans run)
      (congrArg Timebase.frameCounter ((beforeStages_timebase ys s).trans (freeFrame_timebase s free run).symm))
      (beforeStages_posts ys s) (liveStages_after free run split)
  unfold LiveFrame stagesRecord
  rw [hand, outcomeKept, chanKept]
  dsimp only at pub jumped advanced stands ⊢
  rw [stands] at pub ⊢
  generalize (liveStages (handAll s).1 c (beforeStages ys s)).1 = outcome at *
  have published : livePublished s (freeFrame s) c (scriptView s c) outcome.starved
      { w with
        exchange := w.exchange || (!w.exchange && joins s c w.anchor)
        speed := if !w.exchange && joins s c w.anchor then 0 else w.speed } := by
    unfold livePublished
    rw [pub]
    exact ⟨rfl, rfl, rfl, rfl, rfl, rfl, rfl, rfl, rfl, rfl, rfl, rfl, rfl⟩
  refine ⟨y, z, w, anchored, bounded, checks, by rw [pub]; rfl, fun p k jump => ?jumped, fun jump => ?advanced⟩
  case jumped =>
    obtain ⟨done, acted, rfl, rfl⟩ := jumped p k jump
    exact ⟨done, acted, published, rfl⟩
  case advanced =>
    obtain ⟨rfl, noLine, onLine⟩ := advanced jump
    refine ⟨fun noRow => ?_, fun row hrow => ?_⟩
    · obtain ⟨same, rfl⟩ := noLine noRow
      exact ⟨same, published, rfl⟩
    · obtain ⟨acted, posts, rfl⟩ := onLine row hrow
      exact ⟨acted, posts, published, rfl⟩

/-! ### The crossing records of the other channels (R140) -/

theorem followEntered_unchanged {f : Fetch} {before now : Option Anchor} (same : now = none ∨ now = before) :
    followEntered f before now = [] := by
  obtain rfl | rfl := same
  · rfl
  · cases now with
    | none => rfl
    | some a => exact if_pos rfl

theorem followEntered_changed {f : Fetch} {before : Option Anchor} {a : Anchor} (new : before ≠ some a) :
    followEntered f before (some a) = [⟨a, (f.record a.slot a.line).bind (·.pattern)⟩] := if_neg new

/-- A follower publishes the anchor that it derives from its leader. -/
theorem followFrame_pub_anchor (c : Chan) (s : State) :
    let leader := s.chan (s.chanSet c).leader
    ((followFrame c s).chan c).pub.anchor = (derivePosition leader.view leader.pub (s.chanSet c).offset).1 := by
  unfold followFrame
  dsimp only
  rw [State.chan, publish_channels, Bank.get_set_self]
  unfold followPublication
  rw [State.chan_modChan_self]
  rfl

/-- The record handed to the Lamp Unit at a publication is the one that the channel's mode gives. `zs` are the channels
that publish before `c`. -/
theorem freeFrame_recorded {s : State} {c : Chan} {zs : List Chan} (free : s.timebase.lock = .free)
    (run : s.engine = .running) (before : c ∉ zs)
    (pub : ((freeFrame s).chan c).pub =
      ((makePublication (advancedStart s).1 c (beforePublication zs s)).chan c).pub) :
    let w := beforePublication zs s
    recorded s (freeFrame s) w.fetch c (recordOf (advancedStart s).1 w c) := by
  have mode : (beforePublication zs s).mode c = s.mode c := mode_congr ((beforePublication_keeps zs).settings s) c
  have stood := beforePublication_chan before s
  have still : s.mode c ≠ .live → (beforePublication zs s).chan c = s.chan c :=
    fun h => stood.trans (advancedStart_chan h)
  dsimp only
  unfold recorded recordOf
  unfold makePublication at pub
  rw [mode] at pub ⊢
  refine ⟨fun live => ?live, fun off => ?off, fun follow => ?follow⟩
  case live =>
    rw [live, stood]
    exact freeFrame_liveFrame_stagesRecord free run live
  case off => rw [off, still (by rw [off]; decide)]
  case follow =>
    rw [follow] at pub ⊢
    dsimp only at pub ⊢
    rw [pub, followFrame_pub_anchor, still (by rw [follow]; decide)]
    refine ⟨fun same => ?_, fun a now new => ?_⟩
    · rw [followEntered_unchanged same]
    · rw [now, followEntered_changed new]

/-- The Lamp Unit acts on the record of each channel's publication, with the cache as that publication finds it. -/
theorem freeFrame_recorded_lampsPublished {s : State} (c : Chan) (free : s.timebase.lock = .free)
    (run : s.engine = .running) : ∃ (f : Fetch) (r : CrossingRecord),
      s.fetch.Issued f ∧ f.Issued (freeFrame s).fetch ∧ recorded s (freeFrame s) f c r ∧
      lampsPublished s (freeFrame s) f c r := by
  obtain ⟨zs, before, issued, issuedAfter, pub, patterns, strobe, passed⟩ := freeFrame_lamps s c free run
  refine ⟨_, _, issued, issuedAfter, freeFrame_recorded free run before pub, fun g bound => ⟨?latch, ?span⟩, ?quiet,
    fun x last => ⟨?strobe, passed x last⟩⟩
  case latch => intro latch; rw [patterns g bound, latch]
  case span => intro span; rw [patterns g bound, span]
  case quiet => intro empty; rw [strobe, if_pos empty]
  case strobe =>
    rw [strobe, if_neg]
    intro empty
    rw [empty] at last
    cases last

/-! ### The lines (R146, R147) -/

/-- A HOLD select shows the published hold set in RUNNING, and the channel's own in the other engine states. -/
theorem shownHolds_any (s : State) (c : Chan) : (shownHolds s c).any =
    if s.engine = .running then (s.chan c).pub.holds.any else (s.chan c).holds.any := by
  unfold shownHolds State.running
  by_cases run : s.engine = .running <;> simp [run]

theorem lampLine_undriven {s : State} (p : PortId) (h : s.lamps.driven = false) : lampLine s p = none := by
  unfold lampLine
  rw [h]
  rfl

theorem holds_eq_decide (s : State) (p : PortId) :
    s.holds p = decide ((s.auth (s.portSet p).channel).holder = some (.port p)) := beq_eq_decide ..

/-- Settles O60: the record of each mode, what the Lamp Unit makes of it, and the selects of the lines. -/
theorem lampGroupsAct : Obligations.LampGroupsAct := by
  unfold Obligations.LampGroupsAct
  refine ⟨latchPattern_eq, fun f a => ⟨rfl, spanPattern_absent, fun _ => spanPattern_record⟩,
    fun s t c free run next => ?frame, fun s p => ⟨lampLine_undriven p, fun driven => ?lamp⟩, fun s m => ?mark⟩
  case frame =>
    cases next
    exact ⟨freeFrame_driven free run, freeFrame_recorded_lampsPublished c free run⟩
  case lamp =>
    unfold lampLine
    rw [driven, Bool.not_true, if_neg Bool.false_ne_true]
    refine ⟨?off, ?on, ?authority, ?hold, ?strobe⟩ <;> intro select <;> rw [select]
    case authority => exact congrArg some (holds_eq_decide s p)
    case hold => exact congrArg some (shownHolds_any ..)
    case strobe => rfl
  case mark =>
    unfold markLine
    refine ⟨?undriven, ?low, ?high, ?bit, ?bitInv, ?hold, ?strobe⟩ <;> intro select <;> rw [select]
    case bit => rfl
    case bitInv => rfl
    case hold => exact congrArg some (shownHolds_any ..)
    case strobe => rfl

end Sys2Proof.Machine
end

section
/-! PROOFS. The consistency of the engine state with what is in progress (R151 to R156, R167): what the engine state
lets an operation do, and what each operation of the part keeps of it. -/

namespace Sys2Proof.Machine

set_option Elab.async false

/-! ### What an operation keeps -/

/-- An operation other than a reset and a write to the Area base keeps the Area base and the consistency of the engine
state, and stays in HALTED with the cause it finds there. -/
structure EngineKept (s t : State) : Prop where
  base : t.area.areaLo = s.area.areaLo ∧ t.area.areaHi = s.area.areaHi
  consistent : s.engineConsistent → t.engineConsistent
  halted : s.engineConsistent → s.engine = .halted → t.engine = .halted ∧ t.area.haltCause = s.area.haltCause

theorem EngineKept.refl (s : State) : EngineKept s s := ⟨⟨rfl, rfl⟩, id, fun _ h => ⟨h, rfl⟩⟩

theorem EngineKept.trans {s t u : State} (a : EngineKept s t) (b : EngineKept t u) : EngineKept s u where
  base := ⟨b.base.1.trans a.base.1, b.base.2.trans a.base.2⟩
  consistent h := b.consistent (a.consistent h)
  halted h off := by
    obtain ⟨off₁, cause₁⟩ := a.halted h off
    obtain ⟨off₂, cause₂⟩ := b.halted (a.consistent h) off₁
    exact ⟨off₂, cause₂.trans cause₁⟩

/-- Beside the Area base, what is kept is kept of a consistent state. -/
theorem EngineKept.assuming {s t : State} (base : t.area.areaLo = s.area.areaLo ∧ t.area.areaHi = s.area.areaHi)
    (h : s.engineConsistent → EngineKept s t) : EngineKept s t :=
  ⟨base, fun c => (h c).consistent c, fun c => (h c).halted c⟩

/-- An operation that is made only where a condition holds. -/
theorem EngineKept.ite {s t : State} (h : EngineKept s t) (b : Prop) [Decidable b] :
    EngineKept s (if b then t else s) := by
  split
  exacts [h, .refl s]

/-! ### By the engine state -/

/-- No start sequence goes on outside STARTING (R152). -/
theorem State.engineConsistent.no_start {s : State} (h : s.engineConsistent) (off : s.engine ≠ .starting) :
    s.area.start = none :=
  Option.not_isSome_iff_eq_none.1 fun some => off (h.start some)

/-- No frame scan goes on outside RUNNING (R156). -/
theorem State.engineConsistent.no_scan {s : State} (h : s.engineConsistent) (off : s.engine ≠ .running) :
    s.area.scan = none :=
  Option.not_isSome_iff_eq_none.1 fun some => off (h.scan some)

/-- The Exchange Unit does not work outside RUNNING (R72). -/
theorem State.engineConsistent.no_exchange {s : State} (h : s.engineConsistent) (off : s.engine ≠ .running) :
    s.exchange = .idle :=
  Decidable.byContradiction fun works => off (h.exchange works)

/-- In RUNNING every work may be in progress but a start sequence: an operation that keeps the engine state, the Area
base, the cause and the start sequence keeps the consistency, whatever it does to the other blocks. -/
theorem EngineKept.of_running {s t : State} (run : s.engine = .running) (area : t.area = { s.area with
      scan := t.area.scan, takenGeneration := t.area.takenGeneration, commandDone := t.area.commandDone }) :
    EngineKept s t := by
  have engine : t.engine = .running := (congrArg Area.engine area).trans run
  have start : t.area.start = s.area.start := (congrArg Area.start area :)
  have cause : t.area.haltCause = s.area.haltCause := (congrArg Area.haltCause area :)
  refine ⟨⟨(congrArg Area.areaLo area :), (congrArg Area.areaHi area :)⟩, fun h => ?_,
    fun _ off => nomatch run.symm.trans off⟩
  have none : s.area.start = none := h.no_start (by rw [run]; nofun)
  exact
    { cause := by rw [cause, h.cause, run, engine]
      start := fun some => by rw [start, none] at some; cases some
      scan := fun _ => engine
      exchange := fun _ => engine
      post := fun _ _ off => nomatch engine.symm.trans off
      fetch := fun off => absurd engine off }

/-- In STARTING an operation may move the start sequence on. -/
theorem EngineKept.of_starting {s t : State} (starting : s.engine = .starting) (area : t.area = { s.area with
      start := t.area.start, takenGeneration := t.area.takenGeneration, header := t.area.header
      baseInForce := t.area.baseInForce })
    (exchange : s.exchange = .idle → t.exchange = .idle) (fetch : t.fetch = s.fetch) : EngineKept s t := by
  have engine : t.engine = .starting := (congrArg Area.engine area).trans starting
  have scan : t.area.scan = s.area.scan := (congrArg Area.scan area :)
  have cause : t.area.haltCause = s.area.haltCause := (congrArg Area.haltCause area :)
  have off : s.engine ≠ .running := by rw [starting]; nofun
  refine ⟨⟨(congrArg Area.areaLo area :), (congrArg Area.areaHi area :)⟩, fun h => ?_,
    fun _ off => nomatch starting.symm.trans off⟩
  exact
    { cause := by rw [cause, h.cause, starting, engine]
      start := fun _ => engine
      scan := fun some => by rw [scan, h.no_scan off] at some; cases some
      exchange := fun works => absurd (exchange (h.no_exchange off)) works
      post := fun _ _ off => nomatch engine.symm.trans off
      fetch := fun _ => fetch ▸ h.fetch off }

/-- In every state an operation keeps the consistency that leaves the Area Port and the Exchange Unit as they are, lets
no fetch wait outside RUNNING, and begins no post in HALTED. -/
theorem EngineKept.of_unmoved {s t : State} (area : t.area = s.area) (exchange : t.exchange = s.exchange)
    (fetch : s.engine ≠ .running → ∀ q ∈ t.fetch.queue, q ∈ s.fetch.queue)
    (post : s.engine = .halted → ∀ p, t.reports.current = some p → s.reports.current = some p) :
    EngineKept s t := by
  have engine : t.engine = s.engine := (congrArg Area.engine area :)
  refine ⟨⟨(congrArg Area.areaLo area :), (congrArg Area.areaHi area :)⟩, fun h => ?_,
    fun _ off => ⟨engine.trans off, by rw [area]⟩⟩
  exact
    { cause := by rw [area, engine]; exact h.cause
      start := by rw [area, engine]; exact h.start
      scan := by rw [area, engine]; exact h.scan
      exchange := by rw [exchange, engine]; exact h.exchange
      post := fun p current off => h.post p (post (engine.symm.trans off) p current) (engine.symm.trans off)
      fetch := fun off q hq =>
        have off : s.engine ≠ .running := engine ▸ off
        h.fetch off q (fetch off q hq) }

/-- An operation whose footprint holds none of the blocks concerned. -/
theorem EngineKept.of_keeps {F : Foot} {f : State → State} (k : Keeps F f) (s : State)
    (area : F.area = false := by rfl) (exchange : F.exchange = false := by rfl)
    (fetch : F.fetch = false := by rfl) (reports : F.reports = false := by rfl) : EngineKept s (f s) :=
  .of_unmoved (k.area s area) (k.exchange s exchange) (fun _ _ hq => k.fetch s fetch ▸ hq)
    (fun _ _ hp => k.reports s reports ▸ hp)

/-- An operation of the Exchange Unit, which in IDLE has nothing to do. -/
theorem EngineKept.of_exchange {F : Foot} {f : State → State} (k : Keeps F f) {s : State}
    (idle : s.exchange = .idle → f s = s) (area : F.area = false := by rfl) : EngineKept s (f s) := by
  have same := k.area s area
  refine .assuming (by rw [same]; exact ⟨rfl, rfl⟩) fun h => ?_
  by_cases works : s.exchange = .idle
  · rw [idle works]
    exact .refl s
  · exact .of_running (h.exchange works) (by rw [same])

/-! ### The post in progress (R166, R167) -/

/-- An operation leaves the post in progress as it is. -/
def KeepsPost (f : State → State) : Prop := ∀ s, (f s).reports.current = s.reports.current

theorem KeepsPost.of_keeps {F : Foot} {f : State → State} (k : Keeps F f) (out : F.reports = false := by rfl) :
    KeepsPost f := fun s => congrArg Reports.current (k.reports s out)

theorem KeepsPost.comp {f g : State → State} (kf : KeepsPost f) (kg : KeepsPost g) : KeepsPost fun s => f (g s) :=
  fun s => (kf (g s)).trans (kg s)

theorem KeepsPost.forEach {α : Type} {f : α → State → State} (k : ∀ x, KeepsPost (f x)) (xs : List α) :
    KeepsPost (forEach xs f) := forEach_same (π := fun s => s.reports.current) xs fun x _ => k x

theorem raise_keepsPost (r : Report) : KeepsPost (raise r) := fun s => by rw [raise_reports]

theorem raiseRunning_keepsPost (r : Report) : KeepsPost (raiseRunning r) := fun s => by rw [raiseRunning_reports]

/-- An operation that reports, and leaves the post in progress as it is. -/
theorem KeepsPost.kept {F : Foot} {f : State → State} (post : KeepsPost f) (k : Keeps F f) (s : State)
    (area : F.area = false := by rfl) (exchange : F.exchange = false := by rfl)
    (fetch : F.fetch = false := by rfl) : EngineKept s (f s) :=
  .of_unmoved (k.area s area) (k.exchange s exchange) (fun _ _ hq => k.fetch s fetch ▸ hq)
    (fun _ _ hp => post s ▸ hp)

theorem raise_engineKept (r : Report) (s : State) : EngineKept s (raise r s) :=
  (raise_keepsPost r).kept (raise_keeps r) s

theorem raiseRunning_engineKept (r : Report) (s : State) : EngineKept s (raiseRunning r s) :=
  (raiseRunning_keepsPost r).kept (raiseRunning_keeps r) s

/-! ### The hand ports (R97 to R102) -/

theorem releaseHolder_keepsPost (c : Chan) (cause : AuthorityCause) : KeepsPost (releaseHolder c cause) := by
  intro s
  unfold releaseHolder
  split
  · rfl
  · exact raiseRunning_keepsPost _ _

theorem enterLost_keepsPost (p : PortId) (cause : LossCause) : KeepsPost (enterLost p cause) := by
  have released : KeepsPost (releasePort p .portLost) := by
    intro s
    unfold releasePort
    split
    exacts [releaseHolder_keepsPost _ _ s, rfl]
  exact fun s => (released _).trans (raiseRunning_keepsPost _ _)

theorem afterValid_keepsPost (p : PortId) : KeepsPost (afterValid p) := by
  intro s
  unfold afterValid
  dsimp only
  split
  · split <;> rfl
  · split <;> rfl
  · split
    exacts [raiseRunning_keepsPost _ _, rfl]
  · rfl
  · rfl

theorem afterInvalid_keepsPost (p : PortId) : KeepsPost (afterInvalid p) := by
  intro s
  unfold afterInvalid
  dsimp only
  split
  · split
    exacts [enterLost_keepsPost _ _ s, rfl]
  · split
    exacts [enterLost_keepsPost _ _ s, rfl]
  · rfl
  · rfl
  · rfl

theorem leverEdgeAt_keepsPost (p : PortId) (level : Bool) : KeepsPost (leverEdgeAt p level) := by
  have completed : ∀ h width, KeepsPost (periodCompletion p h width) := by
    intro h width s
    unfold periodCompletion
    dsimp only
    split
    exacts [afterValid_keepsPost p _, afterInvalid_keepsPost p _]
  have rising : KeepsPost (leverRising p) := by
    intro s
    unfold leverRising
    dsimp only
    rw [State.modPort_reports]
    split
    exacts [rfl, completed _ _ s]
  intro s
  unfold leverEdgeAt
  split
  · dsimp only
    split
    exacts [rising _, rfl]
  · rfl

theorem sampleButton_keepsPost (p : PortId) (levels : Lines) (l : LineId) : KeepsPost (sampleButton p levels l) := by
  have pressed : KeepsPost (press p l) := by
    intro s
    unfold press
    dsimp only
    split
    · split <;> try rfl
      · exact congrArg Reports.current ((goChannel_keeps _).reports s)
      · split <;> rfl
      · split <;> rfl
      · exact raise_keepsPost _ s
      · split <;> rfl
    · rfl
  intro s
  unfold sampleButton
  split
  · dsimp only
    split
    exacts [rfl, pressed _, congrArg Reports.current ((release_keeps p l).reports _)]
  · rfl

theorem sampleAll_keepsPost (levels : Bank 8 Lines) : KeepsPost (sampleAll levels) := by
  have lever : ∀ p, KeepsPost (sampleLever p) := by
    intro p s
    unfold sampleLever
    split
    · dsimp only
      split
      exacts [enterLost_keepsPost p _ _, rfl]
    · rfl
  have port : ∀ p, KeepsPost (samplePort levels p) := fun p =>
    (KeepsPost.forEach (sampleButton_keepsPost p (levels.get p)) allLines).comp (lever p)
  exact (KeepsPost.of_keeps sampleStrobes_keeps).comp (.forEach port allPorts)

theorem leverEdgeAt_engineKept (p : PortId) (level : Bool) (s : State) : EngineKept s (leverEdgeAt p level s) :=
  (leverEdgeAt_keepsPost p level).kept (leverEdgeAt_keeps p level) s

theorem sampleAll_engineKept (levels : Bank 8 Lines) (s : State) : EngineKept s (sampleAll levels s) :=
  (sampleAll_keepsPost levels).kept (sampleAll_keeps levels) s

/-! ### The Fetch Unit (R82 to R85, R90) -/

/-- A halt and a stop leave reads in flight alone in the Fetch Queue, each of them stale. -/
theorem Fetch.abandon_queue (f : Fetch) : ∀ q ∈ f.abandon.queue, ∃ r i, q.state = .issued r i true :=
  f.stopped_queue

theorem fetchIssue_engineKept (s : State) : EngineKept s ((issueOne s).getD s) := by
  cases issue : issueOne s with
  | none => exact .refl s
  | some t =>
    obtain ⟨run, -, q, i, n, -, -, rfl⟩ := issueOne_some issue
    exact .of_running run rfl

theorem fillPlace_keepsPost (i : Fin 512) (r : ReadResult) : KeepsPost (fillPlace i r) := by
  intro s
  unfold fillPlace
  split
  · unfold fetchReport
    split
    · split
      exacts [raise_keepsPost _ _, rfl]
    · exact raise_keepsPost _ _
  · rfl
  · rfl

theorem fillPlace_queue (i : Fin 512) (r : ReadResult) (s : State) :
    (fillPlace i r s).fetch.queue = s.fetch.queue := by
  unfold fillPlace
  split
  · rw [(fetchReport_keeps ..).fetch]
  · rfl
  · rfl

/-- Outside RUNNING a completed read leaves the Fetch Queue, and none is issued in its place (R82, R83). -/
theorem fetchComplete_of_not_running (tag : Nat) (r : ReadResult) {s : State} (off : s.engine ≠ .running) :
    fetchComplete tag r s = s ∨ (fetchComplete tag r s).fetch.queue = s.fetch.dropIssued tag ∧
      (fetchComplete tag r s).reports.current = s.reports.current := by
  unfold fetchComplete
  split
  · exact .inl rfl
  · split
    · exact .inl rfl
    · refine .inr ?_
      dsimp only
      split
      · rw [issueAll_of_not_running (by exact off)]
        exact ⟨rfl, rfl⟩
      · rename_i i _ _ _
        let t := { s with fetch := { s.fetch with queue := s.fetch.dropIssued tag } }
        have filled : (fillPlace i r t).engine ≠ .running := by
          rw [State.engine, (fillPlace_keeps i r).area]
          exact off
        rw [issueAll_of_not_running filled]
        exact ⟨fillPlace_queue i r t, fillPlace_keepsPost i r t⟩

theorem fetchComplete_engineKept (tag : Nat) (r : ReadResult) (s : State) :
    EngineKept s (fetchComplete tag r s) := by
  have k := fetchComplete_keeps tag r
  by_cases run : s.engine = .running
  · exact .of_running run (by rw [k.area])
  obtain stands | ⟨queue, post⟩ := fetchComplete_of_not_running tag r run
  · rw [stands]
    exact .refl s
  · exact .of_unmoved (k.area s) (k.exchange s) (fun _ q hq => (List.mem_filter.1 (queue ▸ hq)).1)
      (fun _ _ hp => post ▸ hp)

end Sys2Proof.Machine
end

section
/-! PROOFS. The engine state through each operation of the Area Port, the Exchange Unit, the frame event, the commands
and the Report Unit (R151 to R156, R167), and the three rules that follow for every command. -/

namespace Sys2Proof.Machine

set_option Elab.async false

/-! ### The engine (R152 to R155) -/

/-- What a halt leaves of the post in progress is in phase WRITE, and a further halt leaves it too (R167). -/
theorem PostInProgress.atHalt_atHalt {x p : PostInProgress} (h : x.atHalt = some p) : p.atHalt = some p := by
  obtain ⟨post, phase⟩ := x
  cases phase with
  | read request => cases h
  | write request bytes count =>
    cases h
    rfl

theorem halt_engineKept (cause : HaltCause) (s : State) (some : cause ≠ .none := by decide) :
    EngineKept s (halt cause s) := by
  obtain ⟨-, e⟩ | ⟨on, e⟩ := halt_cases cause s <;> rw [e]
  · exact .refl s
  refine ⟨⟨rfl, rfl⟩, fun _ => ?_, fun _ off => absurd off on⟩
  exact
    { cause := iff_of_false some fun off => off rfl
      start := nofun
      scan := nofun
      exchange := fun works => absurd rfl works
      post := fun p current _ => by
        obtain ⟨x, -, left⟩ := Option.bind_eq_some_iff.1 current
        exact PostInProgress.atHalt_atHalt left
      fetch := fun _ => s.fetch.abandon_queue }

theorem stop_engineKept {s : State} (on : s.engine ≠ .halted) : EngineKept s (stop s) := by
  refine ⟨⟨rfl, rfl⟩, fun h => ?_, fun _ off => absurd off on⟩
  exact
    { cause := iff_of_true (h.cause.2 on) nofun
      start := nofun
      scan := nofun
      exchange := fun works => absurd rfl works
      post := fun _ _ off => nomatch off
      fetch := fun _ => s.fetch.stopped_queue }

theorem startEffects_engineKept {s : State} (off : s.engine = .stopped) : EngineKept s (startEffects s) := by
  have idle : s.engine ≠ .running := by rw [off]; nofun
  refine ⟨⟨rfl, rfl⟩, fun h => ?_, fun _ halted => nomatch off.symm.trans halted⟩
  exact
    { cause := iff_of_true (h.cause.2 (by rw [off]; nofun)) nofun
      start := fun _ => rfl
      scan := fun some => absurd (h.scan some) idle
      exchange := fun works => absurd (h.exchange works) idle
      post := fun _ _ halted => nomatch halted
      fetch := fun _ => h.fetch idle }

theorem beginStart_engineKept {s : State} (off : s.engine = .stopped) : EngineKept s (beginStart s) := by
  refine (startEffects_engineKept off).trans ?_
  unfold beginStart
  dsimp only
  split
  · exact halt_engineKept _ _
  · exact .of_starting rfl rfl id rfl

theorem runWrite_engineKept (run : Bool) (s : State) : EngineKept s (runWrite run s) := by
  unfold runWrite
  split
  case h_1 off => exact beginStart_engineKept off
  case h_4 on => exact stop_engineKept (by rw [on]; nofun)
  case h_6 on => exact stop_engineKept (by rw [on]; nofun)
  all_goals exact .refl s

theorem lookNowWrite_engineKept (s : State) : EngineKept s (lookNowWrite s) := by
  unfold lookNowWrite
  split
  · rename_i run
    simp only [State.running, Bool.and_eq_true, beq_iff_eq] at run
    exact .of_running run.1 rfl
  · exact .refl s

theorem engineCtlWrite_engineKept (run look : Bool) (s : State) : EngineKept s (engineCtlWrite run false look s) := by
  have ran := runWrite_engineKept run s
  cases look with
  | false => exact ran
  | true => exact ran.trans (lookNowWrite_engineKept _)

/-! ### The start sequence (R152) -/

theorem headerDone_engineKept (tag : Nat) (bytes : List Byte) (s : State) : EngineKept s (headerDone tag bytes s) := by
  unfold headerDone
  split
  case h_1 start =>
    split
    · split
      · exact .assuming ⟨rfl, rfl⟩ fun h => .of_starting (h.start (by rw [start]; rfl)) rfl id rfl
      · exact halt_engineKept _ s
    · exact .refl s
  case h_2 => exact .refl s

theorem glyphReadDone_engineKept (tag : Nat) (bytes : List Byte) (s : State) :
    EngineKept s (glyphReadDone tag bytes s) := by
  have moves : ∀ {t : State}, s.area.start.isSome → t.area = { s.area with start := t.area.start } →
      t.exchange = s.exchange → t.fetch = s.fetch → EngineKept s t := fun some area exchange fetch =>
    .assuming (by rw [area]; exact ⟨rfl, rfl⟩) fun h =>
      .of_starting (h.start some) (by rw [area]) (fun idle => exchange.trans idle) fetch
  unfold glyphReadDone
  split
  case h_1 start =>
    split
    · exact moves (by rw [start]; rfl) rfl rfl rfl
    · exact .refl s
  case h_2 start =>
    unfold glyphImageDone
    split
    · exact .refl s
    · dsimp only
      split <;> exact moves (by rw [start]; rfl) rfl rfl rfl
  case h_3 => exact .refl s

/-- A settings take sets nothing on in the Exchange Unit: a channel joins a search in progress alone (R33). -/
theorem settingsTake_idle (block : List Byte) (inStart : Bool) {s : State} (idle : s.exchange = .idle) :
    (settingsTake block inStart s).exchange = .idle := by
  have channel : ∀ old c (t : State), t.exchange = .idle → (channelTake old c t).exchange = .idle := by
    intro old c t h
    unfold channelTake
    dsimp only
    split
    · split
      · unfold joinSearch
        rw [State.modChan_exchange, h]
        exact h
      · unfold leaveSearchList
        dsimp only
        rw [State.modChan_exchange, h]
        rfl
    · exact h
  unfold settingsTake answerTake applySettings
  rw [(raise_keeps _).exchange, (issueWrite_keeps ..).exchange, releasePostponed_keeps.exchange,
    (lampsTake_keeps _).exchange, (timebaseTake_keeps ..).exchange, (Keeps.forEach (portTake_keeps _) _).exchange]
  exact forEach_induct (P := fun t => t.exchange = .idle) _ (fun c _ => channel _ c) _
    (((authorityTake_keeps _).exchange _).trans idle)

theorem startSettingsDone_engineKept (tag : Nat) (bytes : List Byte) (s : State) :
    EngineKept s (startSettingsDone tag bytes s) := by
  unfold startSettingsDone
  split
  case h_1 start =>
    split
    · have area := settingsTake_area bytes true s
      refine .assuming ?_ fun h => .of_starting (h.start (by rw [start]; rfl)) ?_ ?_ ?_
      · exact ⟨(congrArg Area.areaLo area :), (congrArg Area.areaHi area :)⟩
      · unfold beginFullTake
        dsimp only
        rw [area]
      · exact settingsTake_idle bytes true
      · exact (settingsTake_keeps bytes true).fetch s
    · exact .refl s
  case h_2 => exact .refl s

/-- The end of the start sequence: RUNNING (R152 step 5). -/
theorem EngineKept.of_started {s t : State} (starting : s.engine = .starting)
    (area : t.area = { s.area with engine := .running, start := none, commandDone := t.area.commandDone }) :
    EngineKept s t := by
  have engine : t.engine = .running := congrArg Area.engine area
  have start : t.area.start = none := (congrArg Area.start area :)
  have cause : t.area.haltCause = s.area.haltCause := (congrArg Area.haltCause area :)
  refine ⟨⟨(congrArg Area.areaLo area :), (congrArg Area.areaHi area :)⟩, fun h => ?_,
    fun _ off => nomatch starting.symm.trans off⟩
  exact
    { cause := iff_of_true (cause.trans (h.cause.2 (by rw [starting]; nofun))) (by rw [engine]; nofun)
      start := fun some => by rw [start] at some; cases some
      scan := fun _ => engine
      exchange := fun _ => engine
      post := fun _ _ off => nomatch engine.symm.trans off
      fetch := fun off => absurd engine off }

theorem fullTakeDone_engineKept (tag : Nat) (d : FullTakeData) (s : State) :
    EngineKept s (fullTakeDone tag d s) := by
  unfold fullTakeDone
  split
  case h_1 start =>
    split
    · have same : (adoptRundown d.rundown (adoptStories d s)).area = s.area :=
        ((adoptRundown_keeps _).area _).trans ((adoptStories_keeps d).area s)
      have area : (completeFullTake d s).area = { s.area with
          engine := .running, start := none, commandDone := (completeFullTake d s).area.commandDone } := by
        unfold completeFullTake
        dsimp only
        rw [(raise_keeps _).area]
        dsimp only
        rw [same]
      refine .assuming ?_ fun h => .of_started (h.start (by rw [start]; rfl)) area
      exact ⟨(congrArg Area.areaLo area :), (congrArg Area.areaHi area :)⟩
    · exact .refl s
  case h_2 => exact .refl s

theorem startFault_engineKept (tag : Nat) (s : State) : EngineKept s (startFault tag s) :=
  (halt_engineKept _ s).ite _

/-! ### Writes and posts (R154, R166, R167) -/

theorem writeDone_engineKept (tag : Nat) (mine : WriteTarget → Bool) (r : WriteResult) (s : State) :
    EngineKept s (writeDone tag mine r s) := by
  have dropped : EngineKept s (dropWrite tag s) := .of_keeps (dropWrite_keeps tag) s
  obtain ⟨-, e⟩ | ⟨w, -, ⟨-, e⟩ | ⟨-, -, e⟩ | ⟨report, -, -, e⟩⟩ := writeDone_cases tag mine r s <;> rw [e]
  · exact .refl s
  · exact dropped.trans (halt_engineKept _ _)
  · exact dropped
  · exact dropped.trans (raise_engineKept report _)

theorem beginPost_engineKept (s : State) : EngineKept s (beginPost s) := by
  unfold beginPost
  split
  · split
    · exact .refl s
    · rename_i on
      exact .of_unmoved rfl rfl (fun _ _ => id) fun off => absurd (beq_iff_eq.2 off) on
  · exact .refl s

theorem failPost_engineKept (s : State) : EngineKept s (failPost s) := by
  have dropped : EngineKept s { s with reports := { s.reports with current := none } } :=
    .of_unmoved rfl rfl (fun _ _ => id) fun _ _ current => nomatch current
  exact dropped.trans (halt_engineKept .reportWriteFault _)

/-- The slot read of a post completes: there is none in HALTED, where the post would go on to its phase WRITE. -/
theorem postReadDone_engineKept (tag : Nat) (r : ReadResult) (s : State) : EngineKept s (postReadDone tag r s) := by
  unfold postReadDone
  split
  case h_1 current =>
    split
    · split
      · exact failPost_engineKept s
      · exact .assuming ⟨rfl, rfl⟩ fun h => .of_unmoved rfl rfl (fun _ _ => id) fun off => nomatch h.post _ current off
    · exact .refl s
  case h_2 => exact .refl s

theorem finishPost_current (p : Post) (count : Word) (s : State) : (finishPost p count s).reports.current = none := by
  unfold finishPost Reports.notify
  dsimp only
  split <;> rfl

theorem postWriteDone_engineKept (tag : Nat) (r : WriteResult) (s : State) :
    EngineKept s (postWriteDone tag r s) := by
  unfold postWriteDone
  split
  · split
    · split
      · exact failPost_engineKept s
      · exact .of_unmoved rfl rfl (fun _ _ => id) fun _ _ hp => nomatch (finishPost_current ..).symm.trans hp
    · exact .refl s
  · exact .refl s

/-! ### The Exchange Unit (R63 to R69, R74) -/

theorem endDirectTake_engineKept (tag : Nat) (r : ReadResult) (s : State) : EngineKept s (endDirectTake tag r s) :=
  .of_exchange (endDirectTake_keeps tag r) fun idle => by
    unfold endDirectTake
    rw [idle]
    rfl

theorem searchVersionRead_engineKept (tag : Nat) (r : ReadResult) (s : State) :
    EngineKept s (searchVersionRead tag r s) :=
  .of_exchange (searchVersionRead_keeps tag r) fun idle => by
    unfold searchVersionRead
    rw [idle]
    rfl

theorem keyRead_engineKept (tag : Nat) (r : ReadResult) (s : State) : EngineKept s (keyRead tag r s) :=
  .of_exchange (keyRead_keeps tag r) fun idle => by
    unfold keyRead
    rw [idle]
    rfl

theorem rundownRead_engineKept (tag : Nat) (r : ReadResult) (s : State) : EngineKept s (rundownRead tag r s) :=
  .of_exchange (rundownRead_keeps tag r) fun idle => by
    unfold rundownRead
    rw [idle]
    rfl

/-! ### The frame event (R124 to R129) -/

/-- Of the Area Port the work of a frame event in RUNNING changes the scan in progress alone (R156). -/
theorem runningFrame_area (s : State) : ∃ sc : Scan, (runningFrame s).area = { s.area with scan := some sc } := by
  obtain ⟨sc, area, -⟩ := scanFrame_area (exchangeFrame (composeHeads (channelsFrame (announceLock s))))
  rw [exchangeFrame_keeps.area, composeHeads_keeps.area, channelsFrame_keeps.area, announceLock_keeps.area] at area
  exact ⟨sc, area⟩

theorem frameBody_engineKept (s : State) : EngineKept s (frameBody s) := by
  by_cases run : s.engine = .running
  · obtain ⟨sc, area⟩ := runningFrame_area s
    have body : frameBody s = runningFrame s := if_pos (beq_iff_eq.2 run)
    rw [body]
    exact .of_running run (by rw [area])
  · rw [frameBody_of_not_running run]
    exact .of_keeps composeHeads_keeps s

/-- A change of the timebase, before the frame event's body. -/
theorem modTimebase_engineKept (f : Timebase → Timebase) (s : State) : EngineKept s (s.modTimebase f) :=
  .of_keeps (modTimebase_keeps f) s

theorem countFrame_engineKept (s : State) : EngineKept s (countFrame s) := .of_keeps countFrame_keeps s

theorem freeFrame_engineKept (s : State) : EngineKept s (freeFrame s) :=
  ((modTimebase_engineKept _ s).trans ((countFrame_engineKept _).trans (frameBody_engineKept _))).ite _

theorem lockEdge_engineKept (s : State) : EngineKept s (lockEdge s) :=
  (modTimebase_engineKept _ s).trans ((countFrame_engineKept _).trans
    ((raiseRunning_engineKept _ _).trans (frameBody_engineKept _)))

theorem refEdge_engineKept (s : State) : EngineKept s (refEdge s) := by
  unfold refEdge
  split
  · unfold edgeInFree
    split
    · have measured := modTimebase_engineKept (Timebase.measure s.rate) s
      dsimp only
      split
      exacts [measured.trans (lockEdge_engineKept _), measured]
    · exact .refl s
  · unfold edgeInLocked
    split
    · exact (modTimebase_engineKept _ s).trans ((countFrame_engineKept _).trans (frameBody_engineKept _))
    · exact modTimebase_engineKept _ s

theorem announceLock_engineKept (s : State) : EngineKept s (announceLock s) :=
  ((modTimebase_engineKept _ s).trans (raise_engineKept _ _)).ite _

theorem loseLock_engineKept (s : State) : EngineKept s (loseLock s) :=
  (countFrame_engineKept s).trans (((announceLock_engineKept _).ite _).trans ((modTimebase_engineKept _ _).trans
    ((raiseRunning_engineKept _ _).trans (frameBody_engineKept _))))

theorem windowClose_engineKept (s : State) : EngineKept s (windowClose s) := by
  unfold windowClose
  split
  · dsimp only
    split
    · exact (modTimebase_engineKept _ s).trans (loseLock_engineKept _)
    · exact (modTimebase_engineKept _ s).trans ((countFrame_engineKept _).trans (frameBody_engineKept _))
  · exact .refl s

/-! ### Commands and scans (R156, R159) -/

theorem runCommand_engineKept (n : CmdSlot) (request code : Word) {act : State → CommandResult × State}
    (k : CommandKeeps act) (s : State) : EngineKept s (runCommand n request code act s) := by
  obtain ⟨run, -, e⟩ | ⟨-, e⟩ := runCommand_cases n request code act s <;> rw [e]
  · have same : (act s).2.area = s.area := Keeps.area k s
    refine .of_running run ?_
    unfold answerCommand
    rw [(issueWrite_keeps ..).area]
    dsimp only
    rw [same]
  · exact .refl s

theorem rescanCommands_engineKept (d : ScanData) (s : State) : EngineKept s (rescanCommands d s) :=
  forEach_induct (P := EngineKept s) _
    (fun _ _ _ kept => kept.trans (runCommand_engineKept _ _ _ (commandAct_keeps _) _)) s (.refl s)

/-- Of the Area Port a settings take in a scan changes the generation taken alone (R158). -/
theorem rescanSettings_area (d : ScanData) (s : State) :
    ∃ g, (rescanSettings d (rescanShadows d s)).area = { s.area with takenGeneration := g } := by
  unfold rescanSettings
  split
  · exact ⟨_, (rescanShadows_keeps d).area s⟩
  · rw [settingsTake_area, (rescanShadows_keeps d).area]
    exact ⟨_, rfl⟩

theorem completeScan_engineKept (d : ScanData) {s : State} (scan : s.area.scan.isSome) :
    EngineKept s (completeScan d s) := by
  obtain ⟨g, taken⟩ := rescanSettings_area d s
  have base := (rescanCommands_engineKept d (rescanSettings d (rescanShadows d s))).base
  rw [taken] at base
  refine .assuming ?_ fun h => ?_
  · unfold completeScan endScan
    exact base
  have run : s.engine = .running := h.scan scan
  have run' : (rescanSettings d (rescanShadows d s)).engine = .running := by rw [State.engine, taken]; exact run
  refine .of_running run ?_
  unfold completeScan endScan
  dsimp only
  rw [rescanCommands_area d run', taken]

theorem scanCompletion_engineKept (tag : Nat) (d : ScanData) (s : State) :
    EngineKept s (if scanIs tag s then completeScan d s else s) := by
  split
  · rename_i mine
    exact completeScan_engineKept d (Option.isSome_of_any mine)
  · exact .refl s

end Sys2Proof.Machine
end

section
/-! PROOFS. The engine state through every command (R149, R151, R154, R155): the consistency of the engine state, the
ways out of HALTED, and the Area base outside STOPPED. -/

namespace Sys2Proof.Machine

set_option Elab.async false

/-! ### Every command -/

/-- The commands that may set the Area base or reset the part: the resets, and the writes to the register window. -/
inductive SetsAreaBase : Instr → Prop
  | powerOnReset : SetsAreaBase .powerOnReset
  | softReset (run look : Bool) : SetsAreaBase (.softReset run look)
  | areaLo (v : Word) : SetsAreaBase (.areaLoWrite v)
  | areaHi (v : Word) : SetsAreaBase (.areaHiWrite v)
  | window (offset size : Nat) (v : Word) : SetsAreaBase (.registerWriteIgnored offset size v)

/-- An edge that brings the lever's pin to the level that is high after polarity (R97). -/
theorem risingEdge_engineKept (p : PortId) (s : State) : EngineKept s (leverEdgeAt p (s.highPin p) s) :=
  leverEdgeAt_engineKept p _ s

theorem irqCauseClear_engineKept (w : Word) (s : State) : EngineKept s (irqCauseClear w s) := by
  have post : KeepsPost (irqCauseClear w) := fun _ => rfl
  exact post.kept (irqCauseClear_keeps w) s

/-- Every command keeps the engine's consistency, the Area base and HALTED, but those that set the base or reset. -/
theorem exec_engineKept (i : Instr) (s : State) : SetsAreaBase i ∨ ∃ t, exec i s = .next t ∧ EngineKept s t := by
  cases i
  case powerOnReset => exact .inl .powerOnReset
  case softReset => exact .inl (.softReset ..)
  case areaLoWrite => exact .inl (.areaLo _)
  case areaHiWrite => exact .inl (.areaHi _)
  case registerWriteIgnored => exact .inl (.window ..)
  case startSequence => exact .inr ⟨_, rfl, engineCtlWrite_engineKept _ _ s⟩
  case stop => exact .inr ⟨_, rfl, engineCtlWrite_engineKept _ _ s⟩
  case lookNow => exact .inr ⟨_, rfl, engineCtlWrite_engineKept _ _ s⟩
  case irqCauseWrite => exact .inr ⟨_, rfl, irqCauseClear_engineKept _ s⟩
  case areaHeaderReadDone => exact .inr ⟨_, rfl, headerDone_engineKept _ _ s⟩
  case glyphStoreLoadReadDone => exact .inr ⟨_, rfl, glyphReadDone_engineKept _ _ s⟩
  case startSettingsReadDone => exact .inr ⟨_, rfl, startSettingsDone_engineKept _ _ s⟩
  case startReadFault => exact .inr ⟨_, rfl, startFault_engineKept _ s⟩
  case fullTake => exact .inr ⟨_, rfl, fullTakeDone_engineKept _ _ s⟩
  case frameEvent => exact .inr ⟨_, rfl, freeFrame_engineKept s⟩
  case refEdge => exact .inr ⟨_, rfl, refEdge_engineKept s⟩
  case refLock => exact .inr ⟨_, rfl, (refEdge_engineKept s).ite _⟩
  case refWindowClose => exact .inr ⟨_, rfl, windowClose_engineKept s⟩
  case refLossMissed => exact .inr ⟨_, rfl, (windowClose_engineKept s).ite _⟩
  case sampleEvent => exact .inr ⟨_, rfl, sampleAll_engineKept _ s⟩
  case quadratureSample => exact .inr ⟨_, rfl, .of_keeps (quadratureAt_keeps _ _ _) s⟩
  case leverEdge => exact .inr ⟨_, rfl, leverEdgeAt_engineKept _ _ s⟩
  case leverAcquired => exact .inr ⟨_, rfl, (risingEdge_engineKept _ s).ite _⟩
  case leverInvalidLost => exact .inr ⟨_, rfl, (risingEdge_engineKept _ s).ite _⟩
  case leverLossTimeout => exact .inr ⟨_, rfl, (sampleAll_engineKept _ s).ite _⟩
  case buttonDebounceAccept => exact .inr ⟨_, rfl, (sampleAll_engineKept _ s).ite _⟩
  case strobeExpiry => exact .inr ⟨_, rfl, (sampleAll_engineKept _ s).ite _⟩
  case quietRelease => exact .inr ⟨_, rfl, (freeFrame_engineKept s).ite _⟩
  case fetchIssue => exact .inr ⟨_, rfl, fetchIssue_engineKept s⟩
  case fetchCompletion => exact .inr ⟨_, rfl, fetchComplete_engineKept _ _ s⟩
  case statusWriteComplete => exact .inr ⟨_, rfl, writeDone_engineKept _ _ _ s⟩
  case scanCompletion => exact .inr ⟨_, rfl, scanCompletion_engineKept _ _ s⟩
  case scanReadFault tag which =>
    cases which <;> exact .inr ⟨_, rfl, (halt_engineKept .areaReadFault s).ite _⟩
  case settingsWriteComplete => exact .inr ⟨_, rfl, writeDone_engineKept _ _ _ s⟩
  case jump => exact .inr ⟨_, rfl, runCommand_engineKept _ _ _ (jumpCommand_keeps _ _ _) s⟩
  case nudge => exact .inr ⟨_, rfl, runCommand_engineKept _ _ _ (nudgeCommand_keeps _ _) s⟩
  case setDemand => exact .inr ⟨_, rfl, runCommand_engineKept _ _ _ (setDemandCommand_keeps _ _) s⟩
  case go => exact .inr ⟨_, rfl, runCommand_engineKept _ _ _ (goCommand_keeps _) s⟩
  case freeze => exact .inr ⟨_, rfl, runCommand_engineKept _ _ _ (freezeCommand_keeps _ _) s⟩
  case headBlank => exact .inr ⟨_, rfl, runCommand_engineKept _ _ _ (headBlankCommand_keeps _ _) s⟩
  case refreshStory => exact .inr ⟨_, rfl, runCommand_engineKept _ _ _ (refreshStoryCommand_keeps _) s⟩
  case unknownCommand => exact .inr ⟨_, rfl, runCommand_engineKept _ _ _ (refuse_keeps _) s⟩
  case commandResultWriteDone => exact .inr ⟨_, rfl, writeDone_engineKept _ _ _ s⟩
  case directTakeReadDone => exact .inr ⟨_, rfl, endDirectTake_engineKept _ _ s⟩
  case searchVersionReadDone => exact .inr ⟨_, rfl, searchVersionRead_engineKept _ _ s⟩
  case keyReadDone => exact .inr ⟨_, rfl, keyRead_engineKept _ _ s⟩
  case exchangeWriteDone => exact .inr ⟨_, rfl, writeDone_engineKept _ _ _ s⟩
  case rundownListReadDone => exact .inr ⟨_, rfl, rundownRead_engineKept _ _ s⟩
  case rundownWriteDone => exact .inr ⟨_, rfl, writeDone_engineKept _ _ _ s⟩
  case postBegin => exact .inr ⟨_, rfl, beginPost_engineKept s⟩
  case postReadDone => exact .inr ⟨_, rfl, postReadDone_engineKept _ _ s⟩
  case postWriteDone => exact .inr ⟨_, rfl, postWriteDone_engineKept _ _ s⟩

/-! ### The Area base and the resets (R149, R155) -/

/-- AREA_LO is taken in STOPPED alone (R149). -/
theorem areaLoTake_of_not_stopped (v : Word) {s : State} (on : s.engine ≠ .stopped) : areaLoTake v s = s := if_neg on

/-- AREA_HI is taken in STOPPED alone (R149). -/
theorem areaHiTake_of_not_stopped (v : Word) {s : State} (on : s.engine ≠ .stopped) : areaHiTake v s = s := if_neg on

/-- A write that the register window ignores changes nothing (R182). -/
theorem registerWrite_ignored {offset size : Nat} (v : Word) (s : State) (ignored : ignoredWrite offset size = true) :
    registerWrite offset size v s = s := by
  simp only [ignoredWrite, Bool.and_eq_true, Bool.not_eq_true', Bool.and_eq_false_iff, Bool.or_eq_false_iff,
    beq_eq_false_iff_ne] at ignored
  unfold registerWrite
  rw [if_neg (by omega), if_neg (by omega), if_neg (by omega), if_neg (by omega)]

/-- The consistency is asked of the engine state and the work in progress alone, not of the Area base. -/
theorem State.engineConsistent.rebase {s : State} (h : s.engineConsistent) (lo hi : Word) :
    State.engineConsistent { s with area := { s.area with areaLo := lo, areaHi := hi } } :=
  ⟨h.cause, h.start, h.scan, h.exchange, h.post, h.fetch⟩

theorem areaLoTake_engineConsistent (v : Word) {s : State} (h : s.engineConsistent) :
    (areaLoTake v s).engineConsistent := by
  unfold areaLoTake
  split
  exacts [h.rebase _ _, h]

theorem areaHiTake_engineConsistent (v : Word) {s : State} (h : s.engineConsistent) :
    (areaHiTake v s).engineConsistent := by
  unfold areaHiTake
  split
  exacts [h.rebase _ _, h]

/-- A reset is STOPPED with nothing in progress, whatever its Area base (R155). -/
theorem resetWith_engineConsistent (lo hi : Word) (s : State) : (resetWith lo hi s).engineConsistent :=
  have h := reset_engineConsistent
  ⟨h.cause, h.start, h.scan, h.exchange, h.post, h.fetch⟩

theorem registerWrite_engineConsistent (offset size : Nat) (v : Word) {s : State} (h : s.engineConsistent) :
    (registerWrite offset size v s).engineConsistent := by
  unfold registerWrite
  split
  · exact areaLoTake_engineConsistent v h
  split
  · exact areaHiTake_engineConsistent v h
  split
  · cases v.getLsbD 1 with
    | true => exact resetWith_engineConsistent _ _ s
    | false => exact (engineCtlWrite_engineKept _ _ s).consistent h
  split
  · exact (irqCauseClear_engineKept v s).consistent h
  · exact h

theorem exec_engineConsistent {i : Instr} {s t : State} (run : exec i s = .next t) (h : s.engineConsistent) :
    t.engineConsistent := by
  obtain sets | ⟨u, runs, kept⟩ := exec_engineKept i s
  · have answers : ∀ {u : State}, exec i s = .next u → u.engineConsistent → t.engineConsistent := fun runs kept => by
      cases runs.symm.trans run
      exact kept
    cases sets with
    | powerOnReset => exact answers rfl (resetWith_engineConsistent _ _ s)
    | softReset r look => exact answers rfl (resetWith_engineConsistent _ _ s)
    | areaLo v => exact answers rfl (areaLoTake_engineConsistent v h)
    | areaHi v => exact answers rfl (areaHiTake_engineConsistent v h)
    | window offset size v => exact answers rfl (registerWrite_engineConsistent offset size v h)
  · cases runs.symm.trans run
    exact kept.consistent h

/-- Outside STOPPED every command but a reset keeps the Area base and HALTED. -/
theorem exec_engineKept_of_not_stopped {i : Instr} {s t : State} (wf : i.wellFormed = true) (on : s.engine ≠ .stopped)
    (power : i ≠ .powerOnReset) (soft : ∀ run look, i ≠ .softReset run look) (run : exec i s = .next t) :
    EngineKept s t := by
  obtain sets | ⟨u, runs, kept⟩ := exec_engineKept i s
  · have stands : ∀ {u : State}, exec i s = .next u → u = s → EngineKept s t := fun runs same => by
      cases runs.symm.trans run
      rw [same]
      exact .refl s
    cases sets with
    | powerOnReset => exact absurd rfl power
    | softReset r look => exact absurd rfl (soft r look)
    | areaLo v => exact stands rfl (areaLoTake_of_not_stopped v on)
    | areaHi v => exact stands rfl (areaHiTake_of_not_stopped v on)
    | window offset size v => exact stands rfl (registerWrite_ignored v s wf)
  · cases runs.symm.trans run
    exact kept

/-! ### The rules of the whole machine -/

/-- Settles O9: an idle microsecond moves nothing but the capture count, and every command keeps the consistency. -/
theorem stepKeepsEngineConsistency : Obligations.StepKeepsEngineConsistency := by
  unfold Obligations.StepKeepsEngineConsistency
  intro s t h run
  unfold step at run
  split at run
  · cases run
    exact (modTimebase_engineKept _ s).consistent h
  · rename_i c rest _
    exact exec_engineConsistent (s := { s with pending := rest }) run
      ⟨h.cause, h.start, h.scan, h.exchange, h.post, h.fetch⟩

/-- Settles O10: in HALTED the writes to the Area base are ignored, and what every other command keeps includes HALTED
and its cause. -/
theorem onlyAResetLeavesHalted : Obligations.OnlyAResetLeavesHalted := by
  unfold Obligations.OnlyAResetLeavesHalted
  intro c s t wf h off power soft run
  exact (exec_engineKept_of_not_stopped wf (by rw [off]; nofun) power soft run).halted h off

/-- Settles O11: the soft reset keeps the Area base, and so does every other command that finds the engine outside
STOPPED. -/
theorem areaBaseIsFixedOutsideStopped : Obligations.AreaBaseIsFixedOutsideStopped := by
  unfold Obligations.AreaBaseIsFixedOutsideStopped
  intro c s t wf on power run
  by_cases soft : ∃ r look, c = .softReset r look
  · obtain ⟨r, look, rfl⟩ := soft
    cases run
    exact ⟨rfl, rfl⟩
  · exact (exec_engineKept_of_not_stopped wf on power (fun r look e => soft ⟨r, look, e⟩) run).base

end Sys2Proof.Machine
end

section
/-! PROOFS. The writes to ENGINE_CTL and to the Area base (R149, R150, R155), and the start sequence with its faults
(R152, R154, R157). -/

namespace Sys2Proof.Machine

set_option Elab.async false

/-! ### ENGINE_CTL, by the engine state (R150) -/

section
variable {s : State}

theorem lookNowWrite_of_not_running (off : s.engine ≠ .running) : lookNowWrite s = s := by
  refine if_neg ?_
  simp [State.running, off]

theorem lookNowWrite_of_scan (scan : s.area.scan.isSome) : lookNowWrite s = s := by
  refine if_neg ?_
  obtain ⟨sc, some⟩ := Option.isSome_iff_exists.1 scan
  simp [some]

theorem lookNowWrite_of_running (run : s.engine = .running) (idle : s.area.scan = none) :
    lookNowWrite s = beginScan .lookNow s := by
  refine if_pos ?_
  simp [State.running, run, idle]

/-- LOOK_NOW has no effect where the engine is not RUNNING after RUN. -/
theorem engineCtlWrite_of_not_running (run look : Bool) {t : State} (ran : runWrite run s = t)
    (off : t.engine ≠ .running) : engineCtlWrite run false look s = t := by
  subst ran
  cases look with
  | false => rfl
  | true => exact lookNowWrite_of_not_running off

theorem runWrite_stopped (off : s.engine = .stopped) : runWrite true s = beginStart s ∧ runWrite false s = s := by
  unfold runWrite
  rw [off]
  exact ⟨rfl, rfl⟩

theorem runWrite_starting (on : s.engine = .starting) : runWrite true s = s := by
  unfold runWrite
  rw [on]

theorem runWrite_running (on : s.engine = .running) : runWrite true s = s := by
  unfold runWrite
  rw [on]

theorem runWrite_halted (run : Bool) (off : s.engine = .halted) : runWrite run s = s := by
  unfold runWrite
  rw [off]

/-- RUN 1 leaves a RUNNING engine as it is, and LOOK_NOW acts on it. -/
theorem engineCtlWrite_running (look : Bool) (on : s.engine = .running) :
    engineCtlWrite true false look s = if look then lookNowWrite s else s := by
  unfold engineCtlWrite
  rw [runWrite_running on]
  rfl

end

/-- Settles O17: each row by the state that RUN leaves, in which LOOK_NOW acts or does not. -/
theorem lookNowAndTheRowsWithoutEffect : Obligations.LookNowAndTheRowsWithoutEffect := by
  unfold Obligations.LookNowAndTheRowsWithoutEffect
  refine fun run look s => ⟨fun on idle => ?scan, fun on => ⟨?stop, ?still, fun scan => ?busy⟩, fun off => ?halted,
    fun off => ?stopped, fun on => ?starting⟩
  case scan =>
    have begins : engineCtlWrite true false true s = beginScan .lookNow s :=
      (engineCtlWrite_running true on).trans (lookNowWrite_of_running on idle)
    exact congrArg Host.Outcome.next begins
  case stop =>
    have stops := fun look => engineCtlWrite_stop look (.inr on)
    exact congrArg Host.Outcome.next ((stops true).trans (stops false).symm)
  case still => exact congrArg Host.Outcome.next (engineCtlWrite_running false on)
  case busy =>
    have stands : engineCtlWrite true false true s = s :=
      (engineCtlWrite_running true on).trans (lookNowWrite_of_scan scan)
    exact congrArg Host.Outcome.next stands
  case halted =>
    have stands : ∀ run look, engineCtlWrite run false look s = s := fun run look =>
      engineCtlWrite_of_not_running run look (runWrite_halted run off) (by rw [off]; nofun)
    exact ⟨congrArg _ (stands true look), congrArg _ (stands false look), congrArg _ (stands run true)⟩
  case stopped =>
    have stands : ∀ look, engineCtlWrite false false look s = s := fun look =>
      engineCtlWrite_of_not_running false look (runWrite_stopped off).2 (by rw [off]; nofun)
    exact ⟨congrArg _ (stands look), congrArg _ (stands true)⟩
  case starting =>
    have stands : ∀ look, engineCtlWrite true false look s = s := fun look =>
      engineCtlWrite_of_not_running true look (runWrite_starting on) (by rw [on]; nofun)
    exact ⟨congrArg _ (stands look), congrArg _ (stands true)⟩

/-! ### The Area base and the resets (R149, R155) -/

/-- The mask of AREA_LO, bit by bit. -/
theorem areaLoMask_getLsbD : ∀ i < 32, (0xFFFFF000 : Word).getLsbD i = decide (12 ≤ i) := by decide

/-- Settles O18: in STOPPED the mask is read bit by bit, and outside it the write is ignored. -/
theorem areaRegistersAreTakenInStopped : Obligations.AreaRegistersAreTakenInStopped := by
  unfold Obligations.AreaRegistersAreTakenInStopped
  refine fun v s => ⟨fun off => ⟨⟨v &&& 0xFFFFF000, congrArg Host.Outcome.next (if_pos off), fun i small => ?_⟩,
    congrArg Host.Outcome.next (if_pos off)⟩, fun on =>
    ⟨congrArg Host.Outcome.next (areaLoTake_of_not_stopped v on),
      congrArg Host.Outcome.next (areaHiTake_of_not_stopped v on)⟩⟩
  rw [BitVec.getLsbD_and, areaLoMask_getLsbD i small, Bool.and_comm]

/-- Settles O14: a reset is the reset state with the Area base given, and the counts that go on. -/
theorem resetsRestoreEveryBlock : Obligations.ResetsRestoreEveryBlock := by
  unfold Obligations.ResetsRestoreEveryBlock
  have power : ∀ s, exec .powerOnReset s = .next (resetWith 0 0 s) := fun _ => rfl
  have soft : ∀ run look s, exec (.softReset run look) s = .next (resetWith s.area.areaLo s.area.areaHi s) :=
    fun _ _ _ => rfl
  exact ⟨power, soft⟩

/-! ### The start sequence (R152) -/

/-- The frames of a cache entry that the start keeps (R90). -/
theorem Place.zeroFrames_eq (x : Place) : x.zeroFrames =
    match x with
    | .held ⟨k, line, .failed _, m, _, n⟩ => .held ⟨k, line, .failed 0, m, 0, n⟩
    | .held e => .held { e with lastNeeded := 0 }
    | x => x := by
  cases x with
  | free => rfl
  | withdrawn => rfl
  | held e =>
    obtain ⟨k, line, state, m, frame, n⟩ := e
    cases state <;> rfl

theorem beginStart_header {s : State} (base : s.area.base ≠ 0) :
    beginStart s = issueStart .header s.area.base 48 (startEffects s) := if_neg base

theorem beginStart_no_base {s : State} (base : s.area.base = 0) :
    beginStart s = halt .badArea (startEffects s) := if_pos base

/-- Settles O15: the effects of the beginning, and then the header read, or the halt at the Area base 0. -/
theorem runStartsTheSequence : Obligations.RunStartsTheSequence := by
  unfold Obligations.RunStartsTheSequence
  refine fun look s off => ⟨fun base => ?begins, fun base => ?halts⟩
  case begins =>
    have begun := (runWrite_stopped off).1.trans (beginStart_header base)
    refine ⟨_, congrArg Host.Outcome.next (engineCtlWrite_of_not_running true look begun nofun), rfl,
      fun c => Bank.get_map .., fun i => ?_, rfl, rfl, rfl⟩
    exact (Bank.get_map ..).trans (Place.zeroFrames_eq _)
  case halts =>
    have begun := (runWrite_stopped off).1.trans (beginStart_no_base base)
    rw [halt_of_not_halted .badArea (s := startEffects s) nofun] at begun
    exact ⟨_, congrArg Host.Outcome.next (engineCtlWrite_of_not_running true look begun nofun), rfl, rfl, rfl⟩

/-- A good header has the signature and the layout version (R173). -/
theorem headerGood_iff (bytes : List Byte) : headerGood bytes = true ↔ byteAt bytes 0 = 0x4B ∧
    byteAt bytes 1 = 0x53 ∧ byteAt bytes 2 = 0x50 ∧ byteAt bytes 3 = 0x41 ∧ word bytes 4 = 1 := by
  simp only [headerGood, Bool.and_eq_true, beq_iff_eq, and_assoc]

/-- The header that the sequence waits for is checked. -/
theorem headerDone_checked {tag : Nat} {bytes : List Byte} {s : State} {r : Request}
    (start : s.area.start = some (.header r)) (own : r.tag = tag) :
    headerDone tag bytes s = if headerGood bytes then adoptHeader bytes s else halt .badArea s := by
  rw [headerDone, start]
  exact if_pos own

/-- Settles O22: the check of the header that the sequence waits for, and its two outcomes. -/
theorem areaHeaderIsChecked : Obligations.AreaHeaderIsChecked := by
  unfold Obligations.AreaHeaderIsChecked
  refine fun tag bytes s r start own => ⟨headerGood_iff bytes, fun good => ?adopts, fun bad on => ?halts⟩ <;>
    have done := headerDone_checked (bytes := bytes) start own
  case adopts => exact congrArg Host.Outcome.next (done.trans (if_pos good))
  case halts =>
    rw [bad, if_neg nofun, halt_of_not_halted .badArea (s := s) (by rw [on]; nofun)] at done
    exact ⟨_, congrArg Host.Outcome.next done, rfl, rfl, rfl, rfl, rfl⟩

/-- Settles O49: each of these faults is a halt, which changes the Area Port, the Exchange Unit, the Fetch Unit and the
Report Unit alone. -/
theorem areaReadFaultsHalt : Obligations.AreaReadFaultsHalt := by
  unfold Obligations.AreaReadFaultsHalt
  intro tag s halts
  have faults : ∀ i, exec i s = .next (halt .areaReadFault s) → s.engine ≠ .halted → halts i := by
    intro i runs on
    rw [halt_of_not_halted _ on] at runs
    exact ⟨_, runs, rfl, rfl, rfl, rfl⟩
  refine ⟨fun which sc scan own on => faults _ ?scan (by rw [on]; nofun), fun x start own on =>
    faults _ ?start (by rw [on]; nofun)⟩
  case scan =>
    have mine : scanIs tag s = true := by simp [scanIs, scan, own]
    cases which <;> exact congrArg Host.Outcome.next (if_pos mine)
  case start =>
    have mine : s.area.start.any (StartStep.awaits tag) = true := by rw [start]; exact own
    exact congrArg Host.Outcome.next (if_pos mine)

/-! ### The answer of a command (R159) -/

/-- Settles O54: the answer's own effect on the done generations, and the write it issues. -/
theorem commandsAreAnswered : Obligations.CommandsAreAnswered := by
  unfold Obligations.CommandsAreAnswered
  intro n request code r s
  have report : commandDoneReport n request code r = ⟨14, .commandDone, natWord n.val, code, natWord r.code, request⟩ :=
    rfl
  rw [← report]
  rfl

end Sys2Proof.Machine
end

section
/-! PROOFS. What the operations of the part keep of the Report Unit (R164 to R169): raising reports, halts and the
release of the postponed set, and the operations of the ports, the arbiter and the channels, which do no more than
raise. -/

namespace Sys2Proof.Machine

set_option Elab.async false

/-! ### What is kept -/

/-- What every operation but a reset, a write to IRQ_CAUSE and the steps of a post keeps of the Report Unit: its bounds
(R164), the held post counts (R166), and the bits of IRQ_CAUSE that are set (R168). It brings no post to phase WRITE. -/
structure Reports.Kept (r u : Reports) : Prop where
  bounded : r.bounded → u.bounded
  heldCount : u.heldCount = r.heldCount
  writing : ∀ p request bytes count,
    u.current = some ⟨p, .write request bytes count⟩ → r.current = some ⟨p, .write request bytes count⟩
  causes : ∀ k, r.causes.get k = true → u.causes.get k = true
  halt : r.halt = true → u.halt = true

theorem Reports.Kept.refl (r : Reports) : r.Kept r := ⟨id, rfl, fun _ _ _ _ => id, fun _ => id, id⟩

/-- An operation keeps of the Report Unit what was kept before it. -/
def KeepsReports (f : State → State) : Prop := ∀ ⦃r : Reports⦄ s, r.Kept s.reports → r.Kept (f s).reports

/-- An operation that does not change the Report Unit. -/
theorem Keeps.reportsKept {F : Foot} {f : State → State} (k : Keeps F f) {r : Reports} (s : State)
    (h : r.Kept s.reports) (out : F.reports = false := by rfl) : r.Kept (f s).reports := (k.reports s out).symm ▸ h

theorem KeepsReports.of_keeps {F : Foot} {f : State → State} (k : Keeps F f) (out : F.reports = false := by rfl) :
    KeepsReports f := fun _ s h => k.reportsKept s h out

theorem KeepsReports.forEach {α : Type} {f : α → State → State} (k : ∀ x, KeepsReports (f x)) (xs : List α) :
    KeepsReports (forEach xs f) := fun r s h =>
  forEach_induct (P := fun t => r.Kept t.reports) xs (fun x _ t ht => k x t ht) s h

/-- An operation that is made only where a condition on the state holds. -/
theorem KeepsReports.ite {f : State → State} (k : KeepsReports f) (b : State → Prop) [∀ s, Decidable (b s)] :
    KeepsReports fun s => if b s then f s else s := by
  intro r s h
  dsimp only
  split
  exacts [k s h, h]

/-! ### Reports, halts and the postponed set (R154, R165, R168) -/

theorem raise_reportsKept (x : Report) : KeepsReports (raise x) := by
  intro r s h
  obtain ⟨-, e⟩ | ⟨-, room, e⟩ | ⟨-, -, e⟩ := raise_cases x s <;> rw [e]
  · exact h
  · exact { h with bounded := fun b => ⟨by rw [List.length_append]; exact room, (h.bounded b).2⟩ }
  · exact { h with bounded := fun b => ⟨(h.bounded b).1, Nat.min_le_right ..⟩ }

theorem raiseRunning_reportsKept (x : Report) : KeepsReports (raiseRunning x) :=
  (raise_reportsKept x).ite (·.running = true)

/-- A halt leaves a post in phase WRITE as it is, and no other (R167). -/
theorem PostInProgress.atHalt_some {x p : PostInProgress} (h : x.atHalt = some p) : x = p := by
  obtain ⟨post, phase⟩ := x
  cases phase with
  | read request => cases h
  | write request bytes count => exact Option.some.inj h

theorem halt_reportsKept (cause : HaltCause) : KeepsReports (halt cause) := by
  intro r s h
  obtain ⟨-, e⟩ | ⟨-, e⟩ := halt_cases cause s <;> rw [e]
  · exact h
  · refine { h with writing := fun p request bytes count current => ?_, halt := fun _ => rfl }
    obtain ⟨x, found, left⟩ := Option.bind_eq_some_iff.1 current
    exact h.writing p request bytes count (PostInProgress.atHalt_some left ▸ found)

@[simp] theorem ClassFlags.get_zip (op : Bool → Bool → Bool) (f g : ClassFlags) (k : ReportClass) :
    (f.zip op g).get k = op (f.get k) (g.get k) := by
  cases k <;> rfl

theorem releasePostponed_reportsKept : KeepsReports releasePostponed := by
  intro r s h
  refine { h with causes := fun k set => ?_ }
  unfold releasePostponed
  rw [ClassFlags.get_zip, h.causes k set, Bool.true_or]

/-! ### The hand ports (R97 to R105) -/

theorem releaseHolder_reportsKept (c : Chan) (cause : AuthorityCause) : KeepsReports (releaseHolder c cause) := by
  intro r s h
  unfold releaseHolder
  split
  exacts [h, raiseRunning_reportsKept _ _ h]

theorem enterLost_reportsKept (p : PortId) (cause : LossCause) : KeepsReports (enterLost p cause) := by
  intro r s h
  unfold enterLost releasePort
  dsimp only
  split
  · exact releaseHolder_reportsKept _ _ _ (raiseRunning_reportsKept _ _ h)
  · exact raiseRunning_reportsKept _ _ h

theorem afterValid_reportsKept (p : PortId) : KeepsReports (afterValid p) := by
  intro r s h
  unfold afterValid
  dsimp only
  split
  · split <;> exact h
  · split <;> exact h
  · split
    exacts [raiseRunning_reportsKept _ _ h, h]
  · exact h
  · exact h

theorem afterInvalid_reportsKept (p : PortId) : KeepsReports (afterInvalid p) := by
  intro r s h
  have lost := enterLost_reportsKept p .invalid s h
  unfold afterInvalid
  dsimp only
  split
  · split
    exacts [lost, h]
  · split
    exacts [lost, h]
  all_goals exact h

theorem periodCompletion_reportsKept (p : PortId) (high width : Nat) :
    KeepsReports (periodCompletion p high width) := by
  intro r s h
  unfold periodCompletion
  dsimp only
  split
  exacts [afterValid_reportsKept p _ h, afterInvalid_reportsKept p _ h]

theorem leverEdgeAt_reportsKept (p : PortId) (level : Bool) : KeepsReports (leverEdgeAt p level) := by
  have rising : KeepsReports (leverRising p) := by
    intro r s h
    unfold leverRising
    dsimp only
    rw [State.modPort_reports]
    split
    exacts [h, periodCompletion_reportsKept p _ _ s h]
  intro r s h
  unfold leverEdgeAt
  split
  · dsimp only
    split
    exacts [rising _ h, h]
  · exact h

theorem press_reportsKept (p : PortId) (l : LineId) : KeepsReports (press p l) := by
  intro r s h
  unfold press
  dsimp only
  split
  · split
    case h_2 => exact (goChannel_keeps _).reportsKept s h
    case h_9 => exact raise_reportsKept _ s h
    case h_3 | h_4 | h_10 => split <;> exact h
    all_goals exact h
  · exact h

theorem sampleButton_reportsKept (p : PortId) (levels : Lines) (l : LineId) :
    KeepsReports (sampleButton p levels l) := by
  intro r s h
  unfold sampleButton
  split
  · dsimp only
    split
    exacts [h, press_reportsKept p l _ h, (release_keeps p l).reportsKept _ h]
  · exact h

theorem sampleLever_reportsKept (p : PortId) : KeepsReports (sampleLever p) := by
  intro r s h
  unfold sampleLever
  split
  · dsimp only
    split
    exacts [enterLost_reportsKept p _ _ h, h]
  · exact h

theorem sampleAll_reportsKept (levels : Bank 8 Lines) : KeepsReports (sampleAll levels) := fun _ _ h =>
  sampleStrobes_keeps.reportsKept _ (KeepsReports.forEach (fun p _ _ h =>
    KeepsReports.forEach (sampleButton_reportsKept p (levels.get p)) allLines _ (sampleLever_reportsKept p _ h))
    allPorts _ h)

/-! ### The Authority Arbiter (R113 to R119) -/

theorem quietStep_reportsKept (handed : Bank 8 Handed) (c : Chan) : KeepsReports (quietStep handed c) := by
  intro r s h
  unfold quietStep
  split
  · exact h
  split
  · exact h
  dsimp only
  split
  exacts [releaseHolder_reportsKept _ _ s h, h]

theorem takeHolder_reportsKept (c : Chan) (new : Source) (cause : AuthorityCause) :
    KeepsReports (takeHolder c new cause) := fun _ _ h => raiseRunning_reportsKept _ (State.modAuth _ c _) h

theorem claimStep_reportsKept (handed : Bank 8 Handed) (c : Chan) : KeepsReports (claimStep handed c) := by
  intro r s h
  unfold claimStep
  dsimp only
  split
  · split
    exacts [h, takeHolder_reportsKept _ _ _ s h]
  split
  · split
    exacts [h, (disarmPresenters_keeps c).reportsKept _ (takeHolder_reportsKept _ _ _ s h)]
  · exact h

theorem discardJump_reportsKept (handed : Bank 8 Handed) (c : Chan) (admitted : Option PortId) (p : PortId) :
    KeepsReports (discardJump handed c admitted p) := by
  intro r s h
  unfold discardJump
  split
  · exact h
  split
  exacts [raiseRunning_reportsKept _ s h, h]

theorem evaluate_reportsKept (handed : Bank 8 Handed) (c : Chan) :
    KeepsReports fun s => (evaluate handed c s).2 := fun _ _ h =>
  (modAuth_keeps c _).reportsKept _ (KeepsReports.forEach (discardJump_reportsKept handed c _) allPorts _
    (claimStep_reportsKept handed c _ (quietStep_reportsKept handed c _ h)))

/-! ### The stages of a LIVE channel (R26 to R58) -/

theorem reanchor_reportsKept (c : Chan) (a : Option Anchor) (cause : MoveCause) : KeepsReports (reanchor c a cause) :=
  fun _ s h => raise_reportsKept _ (s.modChan c _) h

theorem checkAnchor_reportsKept (c : Chan) (former : List ViewEntry) : KeepsReports (checkAnchor c former) := by
  intro r s h
  unfold checkAnchor
  dsimp only
  split
  · exact h
  · exact h
  · exact reanchor_reportsKept _ _ _ s h
  · split
    · split
      exacts [h, reanchor_reportsKept _ _ _ s h]
    · exact reanchor_reportsKept _ _ _ s h

theorem boundaryStage_reportsKept (c : Chan) : KeepsReports (boundaryStage c) := by
  intro r s h
  unfold boundaryStage
  dsimp only
  split
  · exact h
  split
  · exact h
  split
  · split <;> exact h
  · split
    exacts [h, raise_reportsKept _ _ h]

theorem storyJump_reportsKept (c : Chan) (p : PortId) (j : StoryJump) : KeepsReports (storyJump c p j) := by
  intro r s h
  have refused : ∀ reason, r.Kept (refuseJump c p j reason s).reports := fun _ =>
    raise_reportsKept _ (s.modChan c _) h
  unfold storyJump
  dsimp only
  split
  · exact refused _
  split
  · exact refused _
  split
  exacts [h, refused _]

theorem advanceReports_reportsKept (c : Chan) (old : Channel) (a : Option Anchor) (demand : Int) (adv : Advance) :
    KeepsReports (advanceReports c old a demand adv) := by
  intro r s h
  unfold advanceReports
  split
  · exact raise_reportsKept _ s h
  · exact h
  · exact h
  · split
    exacts [h, raise_reportsKept _ _ h]
  all_goals
    split
    · exact h
    split
    exacts [h, raise_reportsKept _ s h]

theorem stage4_reportsKept (c : Chan) (handing : Handing) : KeepsReports fun s => (stage4 c handing s).2 := by
  intro r s h
  unfold stage4
  dsimp only
  split
  · exact storyJump_reportsKept _ _ _ _ h
  unfold advanceStage
  dsimp only
  split
  exacts [h, advanceReports_reportsKept _ _ _ _ _ _ h]

theorem liveStages_reportsKept (handed : Bank 8 Handed) (c : Chan) :
    KeepsReports fun s => (liveStages handed c s).2 := fun _ s h =>
  (stage5_keeps c).reportsKept _ (stage4_reportsKept c _ _ (boundaryStage_reportsKept c _
    ((joinSearch_keeps c).reportsKept _ (checkAnchor_reportsKept c _ _
      ((takeView_keeps c).reportsKept _ (evaluate_reportsKept handed c s h))))))

/-! ### Publications (R39, R145) -/

theorem publish_reportsKept (c : Chan) (pub : Published) (entered : List Entered) (crossings : List Crossing) :
    KeepsReports (publish c pub entered crossings) := by
  have passed : KeepsReports (cuePassed c crossings) := by
    intro r s h
    unfold cuePassed
    split
    exacts [h, raise_reportsKept _ _ h]
  intro r s h
  exact passed _ ((Keeps.forEach (groupAct_keeps c _) (List.finRange 4)).reportsKept (writeChannelStatus c _) h)

theorem publishChannel_reportsKept (outcomes : Bank 4 Stage4) (c : Chan) :
    KeepsReports (publishChannel outcomes c) := by
  intro r s h
  refine (needUpdate_keeps c).reportsKept _ ?_
  unfold makePublication
  split
  · exact publish_reportsKept _ _ _ _ (s.modChan c _) h
  · exact publish_reportsKept _ _ _ _ (clearConsoleJog c s) h
  · exact publish_reportsKept _ _ _ _ ((clearConsoleJog c s).modChan c _) h

end Sys2Proof.Machine
end

section
/-! PROOFS. What the frame event, the settings take, the engine, the Exchange Unit and the Fetch Unit keep of the Report
Unit (R164 to R169), and so every command but those that reset it, clear its bits, or perform a post. -/

namespace Sys2Proof.Machine

set_option Elab.async false

/-! ### The frame event (R124 to R129) -/

theorem advanced_reportsKept : KeepsReports fun s => (advanced s).2 := by
  intro r s h
  unfold advanced
  dsimp only
  rw [advanceChannels_state]
  exact KeepsReports.forEach (liveStages_reportsKept _) _ _
    ((armPorts_keeps _).reportsKept _ (handAll_keeps.reportsKept s h))

theorem channelsFrame_reportsKept : KeepsReports channelsFrame := by
  intro r s h
  rw [channelsFrame_eq]
  exact (Keeps.forEach (writePortStatus_keeps _) _).reportsKept _
    (KeepsReports.forEach (publishChannel_reportsKept _) _ _ (advanced_reportsKept s h))

theorem announceLock_reportsKept : KeepsReports announceLock := by
  intro r s h
  unfold announceLock
  split
  exacts [raise_reportsKept _ _ h, h]

theorem scanFrame_reportsKept : KeepsReports scanFrame := by
  intro r s h
  unfold scanFrame
  split
  exacts [h, raise_reportsKept _ _ h]

theorem frameBody_reportsKept : KeepsReports frameBody := by
  intro r s h
  unfold frameBody
  split
  · exact scanFrame_reportsKept _ (exchangeFrame_keeps.reportsKept _ (composeHeads_keeps.reportsKept _
      (channelsFrame_reportsKept _ (announceLock_reportsKept s h))))
  · exact composeHeads_keeps.reportsKept s h

theorem freeFrame_reportsKept : KeepsReports freeFrame :=
  KeepsReports.ite (f := fun s => frameBody (countFrame (s.modTimebase (Timebase.nextFree s.rate))))
    (fun _ _ h => frameBody_reportsKept _ h) _

theorem lockEdge_reportsKept : KeepsReports lockEdge := fun _ _ h =>
  frameBody_reportsKept _ (raiseRunning_reportsKept _ _ h)

theorem refEdge_reportsKept : KeepsReports refEdge := by
  intro r s h
  unfold refEdge
  split
  · unfold edgeInFree
    split
    · dsimp only
      split
      exacts [lockEdge_reportsKept _ h, h]
    · exact h
  · unfold edgeInLocked
    split
    exacts [frameBody_reportsKept _ h, h]

theorem loseLock_reportsKept : KeepsReports loseLock := by
  intro r s h
  have announced : r.Kept (if (countFrame s).running then announceLock (countFrame s) else countFrame s).reports :=
    announceLock_reportsKept.ite (·.running = true) (countFrame s) h
  unfold loseLock
  exact frameBody_reportsKept _ (raiseRunning_reportsKept _ _ announced)

theorem windowClose_reportsKept : KeepsReports windowClose := by
  intro r s h
  unfold windowClose
  split
  · dsimp only
    split
    exacts [loseLock_reportsKept _ h, frameBody_reportsKept _ h]
  · exact h

/-! ### The settings take (R158) -/

theorem authorityTake_reportsKept (old : Settings) : KeepsReports (authorityTake old) := by
  have port : ∀ p, KeepsReports (releaseForPort old p) := by
    intro p r s h
    unfold releaseForPort
    dsimp only
    split
    exacts [releaseHolder_reportsKept _ _ s h, h]
  have authority : ∀ c, KeepsReports (releaseForAuthority old c) := fun c =>
    (releaseHolder_reportsKept c _).ite _
  have mode : ∀ c, KeepsReports (releaseForMode old c) := fun c => (releaseHolder_reportsKept c _).ite _
  have console : ∀ c, KeepsReports (clearConsole old c) := by
    intro c r s h
    unfold clearConsole
    split <;> exact h
  exact fun _ _ h => KeepsReports.forEach console _ _ (KeepsReports.forEach mode _ _
    (KeepsReports.forEach authority _ _ (KeepsReports.forEach port _ _ h)))

theorem timebaseTake_reportsKept (rate : FrameRate) (select : RefSelect) :
    KeepsReports (timebaseTake rate select) := by
  intro r s h
  unfold timebaseTake
  split
  · exact h
  split
  exacts [raiseRunning_reportsKept _ _ h, h]

theorem settingsTake_reportsKept (block : List Byte) (inStart : Bool) : KeepsReports (settingsTake block inStart) :=
  fun _ s h => raise_reportsKept _ _ ((issueWrite_keeps ..).reportsKept _ (releasePostponed_reportsKept _
    ((lampsTake_keeps s.settings).reportsKept _ (timebaseTake_reportsKept _ _ _
      ((Keeps.forEach (portTake_keeps s.settings) _).reportsKept _
        ((Keeps.forEach (channelTake_keeps s.settings) _).reportsKept _
          (authorityTake_reportsKept s.settings _ h)))))))

/-! ### The engine and the start sequence (R150 to R154) -/

theorem beginStart_reportsKept : KeepsReports beginStart := by
  intro r s h
  unfold beginStart
  dsimp only
  split
  exacts [halt_reportsKept _ (startEffects s) h, h]

theorem runWrite_reportsKept (run : Bool) : KeepsReports (runWrite run) := by
  intro r s h
  unfold runWrite
  split
  case h_1 => exact beginStart_reportsKept s h
  all_goals exact h

/-- A write to ENGINE_CTL without SOFT_RESET. -/
theorem engineCtlWrite_reportsKept (run look : Bool) : KeepsReports (engineCtlWrite run false look) := by
  intro r s h
  have ran := runWrite_reportsKept run s h
  cases look with
  | false => exact ran
  | true => exact lookNowWrite_keeps.reportsKept _ ran

theorem headerDone_reportsKept (tag : Nat) (bytes : List Byte) : KeepsReports (headerDone tag bytes) := by
  intro r s h
  unfold headerDone
  split
  · split
    · split
      exacts [h, halt_reportsKept _ s h]
    · exact h
  · exact h

theorem startSettingsDone_reportsKept (tag : Nat) (bytes : List Byte) :
    KeepsReports (startSettingsDone tag bytes) := by
  intro r s h
  unfold startSettingsDone
  split
  · split
    exacts [beginFullTake_keeps.reportsKept _ (settingsTake_reportsKept bytes true s h), h]
  · exact h

theorem raiseDuplicates_reportsKept (list : Side) (t : TakenList) : KeepsReports (raiseDuplicates list t) := by
  intro r s h
  unfold raiseDuplicates
  split
  exacts [h, raise_reportsKept _ s h]

theorem fullTakeDone_reportsKept (tag : Nat) (d : FullTakeData) : KeepsReports (fullTakeDone tag d) := by
  have story : ∀ k, KeepsReports (raiseAdopted d k) := by
    intro k r s h
    unfold raiseAdopted
    dsimp only
    split
    exacts [raise_reportsKept _ s h, h]
  have stories : KeepsReports (adoptStories d) := fun _ _ h => KeepsReports.forEach story _ _ h
  have rundown : KeepsReports (adoptRundown d.rundown) := fun _ _ h => raiseDuplicates_reportsKept _ _ _ h
  intro r s h
  unfold fullTakeDone
  split
  · split
    exacts [raise_reportsKept _ _ (rundown _ (stories s h)), h]
  · exact h

theorem startFault_reportsKept (tag : Nat) : KeepsReports (startFault tag) := (halt_reportsKept _).ite _

theorem writeDone_reportsKept (tag : Nat) (mine : WriteTarget → Bool) (x : WriteResult) :
    KeepsReports (writeDone tag mine x) := by
  intro r s h
  obtain ⟨-, e⟩ | ⟨w, -, ⟨-, e⟩ | ⟨-, -, e⟩ | ⟨report, -, -, e⟩⟩ := writeDone_cases tag mine x s <;> rw [e]
  · exact h
  · exact halt_reportsKept _ (dropWrite tag s) h
  · exact h
  · exact raise_reportsKept report (dropWrite tag s) h

/-! ### The Exchange Unit (R63 to R69, R74) -/

/-- A report that is raised only where a condition holds. -/
theorem raiseIf_reportsKept (b : Bool) (x : Report) : KeepsReports fun s => if b then raise x s else s :=
  (raise_reportsKept x).ite fun _ => b = true

theorem endDirectTake_reportsKept (tag : Nat) (x : ReadResult) : KeepsReports (endDirectTake tag x) := by
  intro r s h
  unfold endDirectTake
  split
  · exact h
  dsimp only
  split
  · exact (failTake_keeps ..).reportsKept _ h
  split
  exacts [(flip_keeps ..).reportsKept _ (raiseIf_reportsKept _ _ _ h), h]

theorem reanchorMember_reportsKept (k : Slot) (count : Nat) (m : SearchMember) :
    KeepsReports (reanchorMember k count m) := by
  intro r s h
  unfold reanchorMember
  dsimp only
  split
  · exact h
  split
  exacts [h, raise_reportsKept _ _ h]

theorem failSearch_reportsKept (sr : Searcher) (stage : FailedStage) (line : Word) :
    KeepsReports (failSearch sr stage line) := fun _ _ h =>
  (endSearch_keeps _).reportsKept _ ((failTake_keeps ..).reportsKept _ h)

theorem continueSearch_reportsKept (sr : Searcher) (address : Addr) (count i : Nat) :
    KeepsReports (continueSearch sr address count i) := by
  intro r s h
  unfold continueSearch
  split
  · exact (endSearch_keeps _).reportsKept _ (KeepsReports.forEach (reanchorMember_reportsKept _ _) _ _
      ((flip_keeps ..).reportsKept _ h))
  · exact h

theorem searchVersionRead_reportsKept (tag : Nat) (x : ReadResult) : KeepsReports (searchVersionRead tag x) := by
  intro r s h
  unfold searchVersionRead
  split
  · exact h
  split
  · exact h
  split
  · split
    · exact failSearch_reportsKept _ _ _ s h
    · exact continueSearch_reportsKept _ _ _ _ _ (raiseIf_reportsKept _ _ s h)
  · exact h

theorem keyRead_reportsKept (tag : Nat) (x : ReadResult) : KeepsReports (keyRead tag x) := by
  intro r s h
  unfold keyRead
  split
  · exact h
  split
  · exact h
  split
  · split
    · exact failSearch_reportsKept _ _ _ s h
    · exact continueSearch_reportsKept _ _ _ _ s h
  · exact h

theorem rundownRead_reportsKept (tag : Nat) (x : ReadResult) : KeepsReports (rundownRead tag x) := by
  have taken : ∀ take slots, KeepsReports (takeRundown take slots) := fun take slots _ _ h =>
    (issueWrite_keeps ..).reportsKept _ (raiseDuplicates_reportsKept _ _ _ h)
  have bytes : ∀ take bytes, KeepsReports (rundownBytes take bytes) := by
    intro take bytes r s h
    obtain ⟨-, e⟩ | ⟨-, -, e⟩ | ⟨-, -, e⟩ := rundownBytes_cases take bytes s <;> rw [e]
    exacts [taken _ _ s h, taken _ _ s h, h]
  intro r s h
  unfold rundownRead
  split
  · exact h
  split
  · split
    exacts [raise_reportsKept _ _ h, bytes _ _ s h]
  · exact h

/-! ### The Fetch Unit and the frame scan (R82 to R85, R156) -/

theorem fetchIssue_reportsKept : KeepsReports fun s => (issueOne s).getD s := by
  intro r s h
  dsimp only
  cases issue : issueOne s with
  | none => exact h
  | some t =>
    obtain ⟨-, -, q, i, n, -, -, rfl⟩ := issueOne_some issue
    exact h

theorem fillPlace_reportsKept (i : Fin 512) (x : ReadResult) : KeepsReports (fillPlace i x) := by
  intro r s h
  unfold fillPlace
  split
  · unfold fetchReport
    split
    · split
      exacts [raise_reportsKept _ _ h, h]
    · exact raise_reportsKept _ _ h
  · exact h
  · exact h

theorem fetchComplete_reportsKept (tag : Nat) (x : ReadResult) : KeepsReports (fetchComplete tag x) := by
  intro r s h
  unfold fetchComplete
  split
  · exact h
  split
  · exact h
  dsimp only
  split
  · exact issueAll_keeps.reportsKept _ h
  · exact issueAll_keeps.reportsKept _ (fillPlace_reportsKept _ x _ h)

theorem rescanShadows_reportsKept (d : ScanData) : KeepsReports (rescanShadows d) := by
  have rundown : KeepsReports (rescanRundown d) := by
    intro r s h
    unfold rescanRundown
    split
    exacts [h, raise_reportsKept _ s h]
  have faults : KeepsReports (raiseEntryFaults d) := by
    intro r s h
    obtain e | ⟨x, e⟩ := raiseEntryFaults_raises d s <;> rw [e]
    exacts [h, raise_reportsKept x s h]
  exact fun _ _ h => faults _ (rundown _ h)

theorem completeScan_reportsKept (d : ScanData) : KeepsReports (completeScan d) := by
  have settings : KeepsReports (rescanSettings d) := by
    intro r s h
    unfold rescanSettings
    split
    exacts [h, settingsTake_reportsKept _ _ s h]
  exact fun _ s h => endScan_keeps.reportsKept _ ((rescanCommands_keeps d).reportsKept _
    (settings _ (rescanShadows_reportsKept d s h)))

/-! ### Every other command -/

theorem beginPost_reportsKept : KeepsReports beginPost := by
  intro r s h
  unfold beginPost
  split
  · rename_i rest _ queue
    split
    · exact h
    · refine { h with bounded := fun b => ⟨?_, (h.bounded b).2⟩, writing := nofun }
      have few := (h.bounded b).1
      rw [queue] at few
      exact (Nat.le_succ _).trans few
  · exact h

/-- An edge that brings the lever's pin to the level that is high after polarity (R97). -/
theorem risingEdge_reportsKept (p : PortId) : KeepsReports fun s => leverEdgeAt p (s.highPin p) s := fun _ s =>
  leverEdgeAt_reportsKept p _ s

/-- The commands that may do more to the Report Unit: the resets, the writes to the register window, and the completions
of a post's read and write. -/
inductive SetsReports : Instr → Prop
  | powerOnReset : SetsReports .powerOnReset
  | softReset (run look : Bool) : SetsReports (.softReset run look)
  | irqCauseWrite (v : Word) : SetsReports (.irqCauseWrite v)
  | window (offset size : Nat) (v : Word) : SetsReports (.registerWriteIgnored offset size v)
  | postReadDone (tag : Nat) (x : ReadResult) : SetsReports (.postReadDone tag x)
  | postWriteDone (tag : Nat) (x : WriteResult) : SetsReports (.postWriteDone tag x)

/-- Every other command answers with the state that an operation gives, and the operation keeps the Report Unit. -/
theorem exec_reportsKept (i : Instr) : SetsReports i ∨ ∃ f, KeepsReports f ∧ ∀ s, exec i s = .next (f s) := by
  cases i
  case powerOnReset => exact .inl .powerOnReset
  case softReset => exact .inl (.softReset ..)
  case irqCauseWrite => exact .inl (.irqCauseWrite _)
  case registerWriteIgnored => exact .inl (.window ..)
  case postReadDone => exact .inl (.postReadDone ..)
  case postWriteDone => exact .inl (.postWriteDone ..)
  all_goals refine .inr ?_
  case startSequence => exact ⟨_, engineCtlWrite_reportsKept _ _, fun _ => rfl⟩
  case stop => exact ⟨_, engineCtlWrite_reportsKept _ _, fun _ => rfl⟩
  case lookNow => exact ⟨_, engineCtlWrite_reportsKept _ _, fun _ => rfl⟩
  case areaLoWrite => exact ⟨_, .of_keeps (areaLoTake_keeps _), fun _ => rfl⟩
  case areaHiWrite => exact ⟨_, .of_keeps (areaHiTake_keeps _), fun _ => rfl⟩
  case areaHeaderReadDone => exact ⟨_, headerDone_reportsKept _ _, fun _ => rfl⟩
  case glyphStoreLoadReadDone => exact ⟨_, .of_keeps (glyphReadDone_keeps _ _), fun _ => rfl⟩
  case startSettingsReadDone => exact ⟨_, startSettingsDone_reportsKept _ _, fun _ => rfl⟩
  case startReadFault => exact ⟨_, startFault_reportsKept _, fun _ => rfl⟩
  case fullTake => exact ⟨_, fullTakeDone_reportsKept _ _, fun _ => rfl⟩
  case frameEvent => exact ⟨_, freeFrame_reportsKept, fun _ => rfl⟩
  case refEdge => exact ⟨_, refEdge_reportsKept, fun _ => rfl⟩
  case refLock => exact ⟨_, refEdge_reportsKept.ite (wouldLock · = true), fun _ => rfl⟩
  case refWindowClose => exact ⟨_, windowClose_reportsKept, fun _ => rfl⟩
  case refLossMissed => exact ⟨_, windowClose_reportsKept.ite (wouldLose · = true), fun _ => rfl⟩
  case sampleEvent => exact ⟨_, sampleAll_reportsKept _, fun _ => rfl⟩
  case quadratureSample => exact ⟨_, .of_keeps (quadratureAt_keeps _ _ _), fun _ => rfl⟩
  case leverEdge => exact ⟨_, leverEdgeAt_reportsKept _ _, fun _ => rfl⟩
  case leverAcquired p => exact ⟨_, (risingEdge_reportsKept p).ite (wouldAcquire · p = true), fun _ => rfl⟩
  case leverInvalidLost p => exact ⟨_, (risingEdge_reportsKept p).ite (wouldLosePort · p = true), fun _ => rfl⟩
  case leverLossTimeout p levels => exact ⟨_, (sampleAll_reportsKept levels).ite (timesOut · p = true), fun _ => rfl⟩
  case buttonDebounceAccept p l levels =>
    exact ⟨_, (sampleAll_reportsKept levels).ite (accepts · p l (levels.get p) = true), fun _ => rfl⟩
  case strobeExpiry c levels => exact ⟨_, (sampleAll_reportsKept levels).ite (·.lamps.strobe.get c = 1), fun _ => rfl⟩
  case quietRelease => exact ⟨_, freeFrame_reportsKept.ite (quietDue · _ = true), fun _ => rfl⟩
  case fetchIssue => exact ⟨_, fetchIssue_reportsKept, fun _ => rfl⟩
  case fetchCompletion => exact ⟨_, fetchComplete_reportsKept _ _, fun _ => rfl⟩
  case statusWriteComplete => exact ⟨_, writeDone_reportsKept _ _ _, fun _ => rfl⟩
  case scanCompletion => exact ⟨_, (completeScan_reportsKept _).ite (scanIs _ · = true), fun _ => rfl⟩
  case scanReadFault tag which =>
    cases which <;> exact ⟨_, (halt_reportsKept _).ite (scanIs tag · = true), fun _ => rfl⟩
  case settingsWriteComplete => exact ⟨_, writeDone_reportsKept _ _ _, fun _ => rfl⟩
  case jump => exact ⟨_, .of_keeps (runCommand_keeps _ _ _ (jumpCommand_keeps _ _ _)), fun _ => rfl⟩
  case nudge => exact ⟨_, .of_keeps (runCommand_keeps _ _ _ (nudgeCommand_keeps _ _)), fun _ => rfl⟩
  case setDemand => exact ⟨_, .of_keeps (runCommand_keeps _ _ _ (setDemandCommand_keeps _ _)), fun _ => rfl⟩
  case go => exact ⟨_, .of_keeps (runCommand_keeps _ _ _ (goCommand_keeps _)), fun _ => rfl⟩
  case freeze => exact ⟨_, .of_keeps (runCommand_keeps _ _ _ (freezeCommand_keeps _ _)), fun _ => rfl⟩
  case headBlank => exact ⟨_, .of_keeps (runCommand_keeps _ _ _ (headBlankCommand_keeps _ _)), fun _ => rfl⟩
  case refreshStory => exact ⟨_, .of_keeps (runCommand_keeps _ _ _ (refreshStoryCommand_keeps _)), fun _ => rfl⟩
  case unknownCommand => exact ⟨_, .of_keeps (runCommand_keeps _ _ _ (refuse_keeps _)), fun _ => rfl⟩
  case commandResultWriteDone => exact ⟨_, writeDone_reportsKept _ _ _, fun _ => rfl⟩
  case directTakeReadDone => exact ⟨_, endDirectTake_reportsKept _ _, fun _ => rfl⟩
  case searchVersionReadDone => exact ⟨_, searchVersionRead_reportsKept _ _, fun _ => rfl⟩
  case keyReadDone => exact ⟨_, keyRead_reportsKept _ _, fun _ => rfl⟩
  case exchangeWriteDone => exact ⟨_, writeDone_reportsKept _ _ _, fun _ => rfl⟩
  case rundownListReadDone => exact ⟨_, rundownRead_reportsKept _ _, fun _ => rfl⟩
  case rundownWriteDone => exact ⟨_, writeDone_reportsKept _ _ _, fun _ => rfl⟩
  case postBegin => exact ⟨_, beginPost_reportsKept, fun _ => rfl⟩

end Sys2Proof.Machine
end

section
/-! PROOFS. The steps of a post (R166 to R168), and the rules of the Report Unit that follow for every command: its
bounds, the held post counts, and the bits of IRQ_CAUSE. -/

namespace Sys2Proof.Machine

set_option Elab.async false

/-! ### The classes (R168) -/

@[simp] theorem ClassFlags.get_add (f : ClassFlags) (k x : ReportClass) : (f.add k).get x = (f.get x || x == k) := by
  cases k <;> cases x <;> simp [ClassFlags.add, ClassFlags.get]

/-- The class of a completed post has its IRQ_CAUSE bit set, or joins the postponed set (R168). -/
theorem Reports.notify_eq (enables : ClassFlags) (k : ReportClass) (r : Reports) : r.notify enables k = { r with
    causes := (r.notify enables k).causes, postponed := (r.notify enables k).postponed } := by
  unfold Reports.notify
  split <;> rfl

theorem Reports.notify_causes (enables : ClassFlags) (k x : ReportClass) (r : Reports) :
    (r.notify enables k).causes.get x = (r.causes.get x || (x == k && enables.get x)) := by
  unfold Reports.notify
  by_cases same : x = k
  · subst same
    split <;> simp [*]
  · split <;> simp [beq_false_of_ne same]

theorem Reports.notify_postponed (enables : ClassFlags) (k x : ReportClass) (r : Reports) :
    (r.notify enables k).postponed.get x = (r.postponed.get x || (x == k && !enables.get x)) := by
  unfold Reports.notify
  by_cases same : x = k
  · subst same
    split <;> simp [*]
  · split <;> simp [beq_false_of_ne same]

/-! ### The steps of a post (R166, R167) -/

section
variable {s : State} {p : Post} {r : Request} {tag : Nat}

/-- The slot read of the post in progress completes. -/
theorem postReadDone_reading (current : s.reports.current = some ⟨p, .read r⟩) (own : r.tag = tag) (x : ReadResult) :
    postReadDone tag x s = match x with
      | .busError => failPost s
      | .data slot => writePost p r.address slot s := by
  unfold postReadDone
  rw [current]
  exact if_pos own

/-- The report write of the post in progress completes. -/
theorem postWriteDone_writing {bytes : List Byte} {count : Word}
    (current : s.reports.current = some ⟨p, .write r bytes count⟩) (own : r.tag = tag) (x : WriteResult) :
    postWriteDone tag x s = match x with
      | .busError => failPost s
      | .written => finishPost p count s := by
  unfold postWriteDone
  rw [current]
  exact if_pos own

end

/-- A completed read of the part is of no post, or fails the post in progress, or brings it to phase WRITE. -/
theorem postReadDone_cases (tag : Nat) (x : ReadResult) (s : State) :
    postReadDone tag x s = s ∨ postReadDone tag x s = failPost s ∨
    ∃ p address slot, postReadDone tag x s = writePost p address slot s := by
  unfold postReadDone
  split
  · split
    · cases x with
      | busError => exact .inr (.inl rfl)
      | data slot => exact .inr (.inr ⟨_, _, _, rfl⟩)
    · exact .inl rfl
  · exact .inl rfl

/-- A completed write of the part is of no post, or fails the post in progress, or completes it. -/
theorem postWriteDone_cases (tag : Nat) (x : WriteResult) (s : State) :
    postWriteDone tag x s = s ∨ postWriteDone tag x s = failPost s ∨
    ∃ p r bytes count, x = .written ∧ s.reports.current = some ⟨p, .write r bytes count⟩ ∧
      postWriteDone tag x s = finishPost p count s := by
  unfold postWriteDone
  split
  · rename_i current
    split
    · cases x with
      | busError => exact .inr (.inl rfl)
      | written => exact .inr (.inr ⟨_, _, _, _, rfl, current, rfl⟩)
    · exact .inl rfl
  · exact .inl rfl

theorem failPost_reportsKept : KeepsReports failPost := by
  intro r s h
  refine halt_reportsKept _ { s with reports := { s.reports with current := none } } ?_
  exact { h with writing := nofun }

/-- The Report Unit after a post completes: the held post count of its slot, its class, and no post in progress. -/
theorem finishPost_reports (p : Post) (count : Word) (s : State) : (finishPost p count s).reports =
    { s.reports with
      heldCount := s.reports.heldCount.set p.report.slot count, current := none
      causes := (finishPost p count s).reports.causes, postponed := (finishPost p count s).reports.postponed } :=
  Reports.notify_eq ..

theorem finishPost_causes (p : Post) (count : Word) (s : State) (x : ReportClass) :
    (finishPost p count s).reports.causes.get x =
      (s.reports.causes.get x || (x == slotClass p.report.slot && s.settings.enables.get x)) :=
  Reports.notify_causes ..

theorem finishPost_postponed (p : Post) (count : Word) (s : State) (x : ReportClass) :
    (finishPost p count s).reports.postponed.get x =
      (s.reports.postponed.get x || (x == slotClass p.report.slot && !s.settings.enables.get x)) :=
  Reports.notify_postponed ..

/-! ### The bounds and the post in phase WRITE, through every command (R164 to R166) -/

/-- The invariants of the Report Unit, each on its own, hold of `u` where they hold of `r`. -/
structure Reports.Sound (r u : Reports) : Prop where
  bounded : r.bounded → u.bounded
  counted : r.counted → u.counted

theorem Reports.Sound.refl (r : Reports) : r.Sound r := ⟨id, id⟩

theorem Reports.Kept.sound {r u : Reports} (h : r.Kept u) : r.Sound u where
  bounded := h.bounded
  counted c p request bytes count current := by
    rw [h.heldCount]
    exact c p request bytes count (h.writing p request bytes count current)

theorem KeepsReports.sound {f : State → State} (k : KeepsReports f) (s : State) : s.reports.Sound (f s).reports :=
  (k s (.refl _)).sound

theorem resetWith_reportsSound (lo hi : Word) (s : State) : s.reports.Sound (resetWith lo hi s).reports :=
  ⟨fun _ => resetMeetsTheInvariants.reports, fun _ => resetMeetsTheInvariants.counted⟩

theorem irqCauseClear_reportsSound (v : Word) (s : State) : s.reports.Sound (irqCauseClear v s).reports :=
  ⟨id, id⟩

theorem registerWrite_reportsSound (offset size : Nat) (v : Word) (s : State) :
    s.reports.Sound (registerWrite offset size v s).reports := by
  unfold registerWrite
  split
  · exact (KeepsReports.of_keeps (areaLoTake_keeps v)).sound s
  split
  · exact (KeepsReports.of_keeps (areaHiTake_keeps v)).sound s
  split
  · cases v.getLsbD 1 with
    | true => exact resetWith_reportsSound _ _ s
    | false => exact (engineCtlWrite_reportsKept _ _).sound s
  split
  · exact irqCauseClear_reportsSound v s
  · exact .refl _

theorem postReadDone_reportsSound (tag : Nat) (x : ReadResult) (s : State) :
    s.reports.Sound (postReadDone tag x s).reports := by
  obtain e | e | ⟨p, address, slot, e⟩ := postReadDone_cases tag x s <;> rw [e]
  · exact .refl _
  · exact failPost_reportsKept.sound s
  · refine ⟨id, fun _ q request bytes count current => ?_⟩
    cases current
    rfl

theorem postWriteDone_reportsSound (tag : Nat) (x : WriteResult) (s : State) :
    s.reports.Sound (postWriteDone tag x s).reports := by
  obtain e | e | ⟨p, r, bytes, count, -, -, e⟩ := postWriteDone_cases tag x s <;> rw [e]
  · exact .refl _
  · exact failPost_reportsKept.sound s
  · rw [finishPost_reports]
    exact ⟨id, fun _ => nofun⟩

theorem exec_reportsSound {i : Instr} {s t : State} (run : exec i s = .next t) : s.reports.Sound t.reports := by
  have answers : ∀ {u : State}, exec i s = .next u → s.reports.Sound u.reports → s.reports.Sound t.reports :=
    fun runs sound => by
      cases runs.symm.trans run
      exact sound
  obtain sets | ⟨f, keeps, runs⟩ := exec_reportsKept i
  · cases sets with
    | powerOnReset => exact answers rfl (resetWith_reportsSound _ _ s)
    | softReset r look => exact answers rfl (resetWith_reportsSound _ _ s)
    | irqCauseWrite v => exact answers rfl (irqCauseClear_reportsSound v s)
    | window offset size v => exact answers rfl (registerWrite_reportsSound offset size v s)
    | postReadDone tag x => exact answers rfl (postReadDone_reportsSound tag x s)
    | postWriteDone tag x => exact answers rfl (postWriteDone_reportsSound tag x s)
  · exact answers (runs s) (keeps.sound s)

/-- Settles O5: an idle microsecond leaves the Report Unit as it is, and every command keeps its bounds. -/
theorem stepKeepsReportBounds : Obligations.StepKeepsReportBounds := by
  unfold Obligations.StepKeepsReportBounds
  intro s t h run
  unfold step at run
  split at run
  · cases run
    exact h
  · exact (exec_reportsSound run).bounded h

/-! ### The held post counts and the bits of IRQ_CAUSE (R166, R168, R169) -/

/-- A command that is not a reset keeps what is kept of the Report Unit, clears bits of IRQ_CAUSE, or makes a step of
the post in progress. -/
theorem exec_reports_cases {i : Instr} {s t : State} (wf : i.wellFormed = true) (power : i ≠ .powerOnReset)
    (soft : ∀ run look, i ≠ .softReset run look) (run : exec i s = .next t) :
    s.reports.Kept t.reports ∨
    (∃ v, i = .irqCauseWrite v ∧ t = irqCauseClear v s) ∨
    (∃ p address slot, t = writePost p address slot s) ∨
    ∃ tag p r bytes count, i = .postWriteDone tag .written ∧
      s.reports.current = some ⟨p, .write r bytes count⟩ ∧ t = finishPost p count s := by
  have answer : ∀ {u : State}, exec i s = .next u → t = u := fun runs => by
    cases runs.symm.trans run
    rfl
  obtain sets | ⟨f, keeps, runs⟩ := exec_reportsKept i
  · cases sets with
    | powerOnReset => exact absurd rfl power
    | softReset r look => exact absurd rfl (soft r look)
    | irqCauseWrite v => exact .inr (.inl ⟨v, rfl, answer rfl⟩)
    | window offset size v =>
      rw [(answer rfl).trans (registerWrite_ignored v s wf)]
      exact .inl (.refl _)
    | postReadDone tag x =>
      obtain e | e | ⟨p, address, slot, e⟩ := postReadDone_cases tag x s <;> have e := (answer rfl).trans e
      · exact .inl (e ▸ .refl _)
      · exact .inl (e ▸ failPost_reportsKept s (.refl _))
      · exact .inr (.inr (.inl ⟨p, address, slot, e⟩))
    | postWriteDone tag x =>
      obtain e | e | ⟨p, r, bytes, count, rfl, current, e⟩ := postWriteDone_cases tag x s <;>
        have e := (answer rfl).trans e
      · exact .inl (e ▸ .refl _)
      · exact .inl (e ▸ failPost_reportsKept s (.refl _))
      · exact .inr (.inr (.inr ⟨tag, p, r, bytes, count, rfl, current, e⟩))
  · rw [answer (runs s)]
    exact .inl (keeps s (.refl _))

/-- Settles O12: the steps of a post set bits of IRQ_CAUSE and clear none, and what every other command keeps includes
the bits that are set. -/
theorem onlyTheHostClearsIrqCause : Obligations.OnlyTheHostClearsIrqCause := by
  unfold Obligations.OnlyTheHostClearsIrqCause
  intro c s t wf power soft host run
  obtain kept | ⟨v, rfl, -⟩ | ⟨p, address, slot, rfl⟩ | ⟨tag, p, r, bytes, count, -, -, rfl⟩ :=
    exec_reports_cases wf power soft run
  · exact ⟨kept.causes, kept.halt⟩
  · exact absurd rfl (host v)
  · exact ⟨fun _ => id, id⟩
  · refine ⟨fun k set => ?_, fun set => ?_⟩
    · rw [finishPost_causes, set, Bool.true_or]
    · rw [finishPost_reports]
      exact set

/-- Settles O13: the count that a post in phase WRITE carries becomes the held post count of its slot when the post
completes, and no other command but a reset changes a held post count. -/
theorem postCountsAdvanceByOne : Obligations.PostCountsAdvanceByOne := by
  unfold Obligations.PostCountsAdvanceByOne
  refine fun c s t counted run => ⟨(exec_reportsSound run).counted counted, fun wf power soft => ?_⟩
  obtain kept | ⟨v, -, rfl⟩ | ⟨p, address, slot, rfl⟩ | ⟨tag, p, r, bytes, count, rfl, current, rfl⟩ :=
    exec_reports_cases wf power soft run
  · exact .inl kept.heldCount
  · exact .inl rfl
  · exact .inl rfl
  · refine .inr ⟨tag, p, r, bytes, count, rfl, current, ?_⟩
    rw [finishPost_reports, counted p r bytes count current]

end Sys2Proof.Machine
end

section
/-! PROOFS. What each step of a post does (R166 to R168), the write to IRQ_CAUSE (R169), and the interrupt (R170). -/

namespace Sys2Proof.Machine

set_option Elab.async false

/-! ### The performance of a post (R166 to R168) -/

/-- The oldest entry begins outside HALTED, with no post in progress (R166 step 1). -/
theorem beginPost_begins {s : State} {p : Post} {rest : List Post} (idle : s.reports.current = none)
    (queue : s.reports.queue = p :: rest) (on : s.engine ≠ .halted) : beginPost s = { s with
      reports := { s.reports with
        queue := rest
        current := some ⟨p, .read ⟨s.nextTag, s.reportAddress p.report.slot, 32⟩⟩ }
      nextTag := s.nextTag + 1 } := by
  unfold beginPost
  rw [idle, queue]
  exact if_neg (by simpa [State.halted] using on)

/-- The overwritten count is the slot's, or one higher where the host has not taken the last report, and holds at 255
(R166 step 2). -/
theorem overwrittenCount_toNat (held : Word) (slot : List Byte) : (overwrittenCount held slot).toNat =
    if word slot 28 = held then (byteAt slot 6).toNat else min ((byteAt slot 6).toNat + 1) 255 := by
  unfold overwrittenCount
  split
  · rfl
  · split
    · rename_i full
      rw [full]
      rfl
    · rename_i room
      bv_omega

/-- A post is lost to a bus error, and the engine halts (R167). -/
theorem failPost_halts {s : State} (on : s.engine ≠ .halted) :
    (failPost s).engine = .halted ∧ (failPost s).area.haltCause = .reportWriteFault ∧
      (failPost s).reports = { s.reports with current := none, halt := true } := by
  have halts := halt_of_not_halted .reportWriteFault (s := { s with reports := { s.reports with current := none } }) on
  unfold failPost
  rw [halts]
  exact ⟨rfl, rfl, rfl⟩

/-- Settles O58: the begin, the read, the write and the two faults of a post. -/
theorem postsArePerformed : Obligations.PostsArePerformed := by
  unfold Obligations.PostsArePerformed
  intro tag s p rest r slot bytes count
  refine ⟨fun idle queue on => ?begins, fun current own => ⟨overwrittenCount _ slot, overwrittenCount_toNat .., ?reads⟩,
    fun current own => ⟨_, rfl, ?writes, fun x => ?classes⟩, fun on => ⟨fun current own => ⟨_, rfl, ?readFault⟩,
      fun current own => ⟨_, rfl, ?writeFault⟩⟩⟩
  case begins => exact congrArg Host.Outcome.next (beginPost_begins idle queue on)
  case reads => exact congrArg Host.Outcome.next (postReadDone_reading current own (.data slot))
  case writes =>
    have rest := mask_eq ((finishPost_keeps p count).same s)
    rw [postWriteDone_writing current own, ← finishPost_reports]
    exact rest
  case classes =>
    rw [postWriteDone_writing current own]
    exact ⟨finishPost_causes .., finishPost_postponed ..⟩
  case readFault =>
    rw [postReadDone_reading current own]
    obtain ⟨halted, cause, reports⟩ := failPost_halts on
    refine ⟨halted, cause, ?_, ?_⟩ <;> rw [reports]
  case writeFault =>
    rw [postWriteDone_writing current own]
    obtain ⟨halted, cause, reports⟩ := failPost_halts on
    refine ⟨halted, cause, ?_, ?_, ?_⟩ <;> rw [reports]

/-! ### IRQ_CAUSE (R168, R169) -/

/-- The bits of IRQ_CAUSE, lowest first: the classes, and HALT. -/
def Reports.causeBits (r : Reports) : List Bool :=
  [r.causes.input, r.causes.motion, r.causes.script, r.causes.control, r.causes.timing, r.halt]

theorem causeWord_getLsbD : ∀ (a b c d e h : Bool) (i : Fin 6),
    (natWord (ClassFlags.bits ⟨a, b, c, d, e⟩ + boolBit h 32)).getLsbD i = [a, b, c, d, e, h][i] := by
  decide

theorem irqCauseWord_getLsbD (s : State) (i : Fin 6) : (irqCauseWord s).getLsbD i = s.reports.causeBits[i] :=
  causeWord_getLsbD _ _ _ _ _ _ i

/-- Settles O19: the bits written as 1 leave the causes, bit by bit. -/
theorem irqCauseWriteClearsItsOnes : Obligations.IrqCauseWriteClearsItsOnes := by
  unfold Obligations.IrqCauseWriteClearsItsOnes
  refine fun v s => ⟨irqCauseClear v s, rfl, fun i small => ?_, rfl⟩
  have old := irqCauseWord_getLsbD s ⟨i, small⟩
  have new := irqCauseWord_getLsbD (irqCauseClear v s) ⟨i, small⟩
  rw [new, old]
  interval_cases i <;> rfl

/-! ### The interrupt (R170) -/

theorem irqAsserted_iff (s : State) : irqAsserted s = true ↔ registerRead s 0x14 4 ≠ 0 := by
  have words : ∀ a b c d e h : Bool, (ClassFlags.any ⟨a, b, c, d, e⟩ || h) = true ↔
      natWord (ClassFlags.bits ⟨a, b, c, d, e⟩ + boolBit h 32) ≠ 0 := by decide
  exact words _ _ _ _ _ _

theorem irqAsserted_eq_false_iff (s : State) : irqAsserted s = false ↔ registerRead s 0x14 4 = 0 := by
  rw [← Bool.not_eq_true, irqAsserted_iff, not_not]

/-- An assertion is sent exactly when the request becomes asserted. -/
theorem irqMessage_assertion (s t : State) :
    irqMessage s t = some .assertion ↔ irqAsserted s = false ∧ irqAsserted t = true := by
  unfold irqMessage
  cases irqAsserted s <;> cases irqAsserted t <;> simp

/-- A withdrawal is sent exactly when the request is no longer asserted. -/
theorem irqMessage_withdrawal (s t : State) :
    irqMessage s t = some .withdrawal ↔ irqAsserted s = true ∧ irqAsserted t = false := by
  unfold irqMessage
  cases irqAsserted s <;> cases irqAsserted t <;> simp

/-- A reset withdraws the interrupt request. -/
theorem resetWith_irq (lo hi : Word) (s : State) :
    registerRead (resetWith lo hi s) 0x14 4 = 0 ∧ irqAsserted (resetWith lo hi s) = false := ⟨rfl, rfl⟩

/-- Settles O21: the request follows IRQ_CAUSE, and the messages follow the request. -/
theorem interruptFollowsIrqCause : Obligations.InterruptFollowsIrqCause := by
  unfold Obligations.InterruptFollowsIrqCause
  refine fun s t => ⟨irqAsserted_iff s, ?_, ?_, ⟨_, rfl, resetWith_irq _ _ s⟩, fun _ _ => ⟨_, rfl, resetWith_irq _ _ s⟩⟩
  · rw [irqMessage_assertion, irqAsserted_eq_false_iff, irqAsserted_iff]
  · rw [irqMessage_withdrawal, irqAsserted_eq_false_iff, irqAsserted_iff]

end Sys2Proof.Machine
end

section
/-! PROOFS. The step, and what every command leaves of the queue of waiting commands. -/

namespace Sys2Proof.Machine

set_option Elab.async false

/-! ### The step -/

theorem step_of_command {c : Instr} {rest : List Instr} {s : State} (front : s.pending = c :: rest) :
    step s = exec c { s with pending := rest } := by
  unfold step
  rw [front]

theorem step_of_empty {s : State} (empty : s.pending = []) : step s = .next (idle s) := by
  unfold step
  rw [empty]

/-- Settles O1: by the queue's front. -/
theorem stepRunsTheFrontCommand : Obligations.StepRunsTheFrontCommand := by
  unfold Obligations.StepRunsTheFrontCommand
  exact ⟨fun _ _ _ => step_of_command rfl, fun _ empty => step_of_empty empty⟩

/-! ### The queue of waiting commands -/

/-- An operation leaves the queue of waiting commands as it is. -/
def KeepsQueue (f : State → State) : Prop := ∀ s, (f s).pending = s.pending

theorem KeepsQueue.of_keeps {F : Foot} {f : State → State} (k : Keeps F f) (out : F.pending = false := by rfl) :
    KeepsQueue f := fun s => k.pending s out

/-- An operation that is made only where a condition on the state holds. -/
theorem KeepsQueue.ite {f : State → State} (k : KeepsQueue f) (b : State → Prop) [∀ s, Decidable (b s)] :
    KeepsQueue fun s => if b s then f s else s := by
  intro s
  dsimp only
  split
  exacts [k s, rfl]

/-- A reset leaves the queue, which is the model's own and no block of the part. -/
theorem resetWith_pending (lo hi : Word) (s : State) : (resetWith lo hi s).pending = s.pending := rfl

theorem engineCtlWrite_queue (run reset look : Bool) : KeepsQueue (engineCtlWrite run reset look) := by
  cases reset with
  | true => exact fun s => resetWith_pending _ _ s
  | false => exact .of_keeps (engineCtlWrite_keeps run look)

theorem registerWrite_queue (offset size : Nat) (v : Word) : KeepsQueue (registerWrite offset size v) := by
  intro s
  unfold registerWrite
  split
  · exact (areaLoTake_keeps v).pending s
  split
  · exact (areaHiTake_keeps v).pending s
  split
  · exact engineCtlWrite_queue _ _ _ s
  split
  · exact (irqCauseClear_keeps v).pending s
  · rfl

theorem fetchIssue_queue : KeepsQueue fun s => (issueOne s).getD s := by
  intro s
  dsimp only
  cases issue : issueOne s with
  | none => rfl
  | some t =>
    obtain ⟨-, -, q, i, n, -, -, rfl⟩ := issueOne_some issue
    exact (issueInto_keeps q i n).pending s

theorem sampleAll_queue (levels : Bank 8 Lines) : KeepsQueue (sampleAll levels) := .of_keeps (sampleAll_keeps levels)

/-- An edge that brings the lever's pin to the level that is high after polarity (R97). -/
theorem risingEdge_queue (p : PortId) : KeepsQueue fun s => leverEdgeAt p (s.highPin p) s := fun s =>
  (leverEdgeAt_keeps p _).pending s

/-- Every command answers with the state that an operation gives, and the operation leaves the queue. -/
theorem exec_queue (i : Instr) : ∃ f, KeepsQueue f ∧ ∀ s, exec i s = .next (f s) := by
  cases i
  case powerOnReset => exact ⟨_, resetWith_pending _ _, fun _ => rfl⟩
  case startSequence | stop | softReset | lookNow => exact ⟨_, engineCtlWrite_queue _ _ _, fun _ => rfl⟩
  case areaLoWrite => exact ⟨_, .of_keeps (areaLoTake_keeps _), fun _ => rfl⟩
  case areaHiWrite => exact ⟨_, .of_keeps (areaHiTake_keeps _), fun _ => rfl⟩
  case irqCauseWrite => exact ⟨_, .of_keeps (irqCauseClear_keeps _), fun _ => rfl⟩
  case registerWriteIgnored => exact ⟨_, registerWrite_queue _ _ _, fun _ => rfl⟩
  case areaHeaderReadDone => exact ⟨_, .of_keeps (headerDone_keeps _ _), fun _ => rfl⟩
  case glyphStoreLoadReadDone => exact ⟨_, .of_keeps (glyphReadDone_keeps _ _), fun _ => rfl⟩
  case startSettingsReadDone => exact ⟨_, .of_keeps (startSettingsDone_keeps _ _), fun _ => rfl⟩
  case startReadFault => exact ⟨_, .of_keeps (startFault_keeps _), fun _ => rfl⟩
  case fullTake => exact ⟨_, .of_keeps (fullTakeDone_keeps _ _), fun _ => rfl⟩
  case frameEvent => exact ⟨_, .of_keeps freeFrame_keeps, fun _ => rfl⟩
  case quietRelease => exact ⟨_, .ite (.of_keeps freeFrame_keeps) (quietDue · _ = true), fun _ => rfl⟩
  case refEdge => exact ⟨_, .of_keeps refEdge_keeps, fun _ => rfl⟩
  case refLock => exact ⟨_, .ite (.of_keeps refEdge_keeps) (wouldLock · = true), fun _ => rfl⟩
  case refWindowClose => exact ⟨_, .of_keeps windowClose_keeps, fun _ => rfl⟩
  case refLossMissed => exact ⟨_, .ite (.of_keeps windowClose_keeps) (wouldLose · = true), fun _ => rfl⟩
  case sampleEvent => exact ⟨_, sampleAll_queue _, fun _ => rfl⟩
  case leverLossTimeout p levels => exact ⟨_, (sampleAll_queue levels).ite (timesOut · p = true), fun _ => rfl⟩
  case buttonDebounceAccept p l levels =>
    exact ⟨_, (sampleAll_queue levels).ite (accepts · p l (levels.get p) = true), fun _ => rfl⟩
  case strobeExpiry c levels => exact ⟨_, (sampleAll_queue levels).ite (·.lamps.strobe.get c = 1), fun _ => rfl⟩
  case quadratureSample => exact ⟨_, .of_keeps (quadratureAt_keeps _ _ _), fun _ => rfl⟩
  case leverEdge => exact ⟨_, .of_keeps (leverEdgeAt_keeps _ _), fun _ => rfl⟩
  case leverAcquired p => exact ⟨_, (risingEdge_queue p).ite (wouldAcquire · p = true), fun _ => rfl⟩
  case leverInvalidLost p => exact ⟨_, (risingEdge_queue p).ite (wouldLosePort · p = true), fun _ => rfl⟩
  case fetchIssue => exact ⟨_, fetchIssue_queue, fun _ => rfl⟩
  case fetchCompletion => exact ⟨_, .of_keeps (fetchComplete_keeps _ _), fun _ => rfl⟩
  case statusWriteComplete | settingsWriteComplete | commandResultWriteDone | exchangeWriteDone | rundownWriteDone =>
    exact ⟨_, .of_keeps (writeDone_keeps _ _ _), fun _ => rfl⟩
  case scanCompletion tag d => exact ⟨_, .ite (.of_keeps (completeScan_keeps d)) (scanIs tag · = true), fun _ => rfl⟩
  case scanReadFault tag which =>
    cases which <;> exact ⟨_, .ite (.of_keeps (halt_keeps _)) (scanIs tag · = true), fun _ => rfl⟩
  case jump => exact ⟨_, .of_keeps (runCommand_keeps _ _ _ (jumpCommand_keeps _ _ _)), fun _ => rfl⟩
  case nudge => exact ⟨_, .of_keeps (runCommand_keeps _ _ _ (nudgeCommand_keeps _ _)), fun _ => rfl⟩
  case setDemand => exact ⟨_, .of_keeps (runCommand_keeps _ _ _ (setDemandCommand_keeps _ _)), fun _ => rfl⟩
  case go => exact ⟨_, .of_keeps (runCommand_keeps _ _ _ (goCommand_keeps _)), fun _ => rfl⟩
  case freeze => exact ⟨_, .of_keeps (runCommand_keeps _ _ _ (freezeCommand_keeps _ _)), fun _ => rfl⟩
  case headBlank => exact ⟨_, .of_keeps (runCommand_keeps _ _ _ (headBlankCommand_keeps _ _)), fun _ => rfl⟩
  case refreshStory => exact ⟨_, .of_keeps (runCommand_keeps _ _ _ (refreshStoryCommand_keeps _)), fun _ => rfl⟩
  case unknownCommand => exact ⟨_, .of_keeps (runCommand_keeps _ _ _ (refuse_keeps _)), fun _ => rfl⟩
  case directTakeReadDone => exact ⟨_, .of_keeps (endDirectTake_keeps _ _), fun _ => rfl⟩
  case searchVersionReadDone => exact ⟨_, .of_keeps (searchVersionRead_keeps _ _), fun _ => rfl⟩
  case keyReadDone => exact ⟨_, .of_keeps (keyRead_keeps _ _), fun _ => rfl⟩
  case rundownListReadDone => exact ⟨_, .of_keeps (rundownRead_keeps _ _), fun _ => rfl⟩
  case postBegin => exact ⟨_, .of_keeps beginPost_keeps, fun _ => rfl⟩
  case postReadDone => exact ⟨_, .of_keeps (postReadDone_keeps _ _), fun _ => rfl⟩
  case postWriteDone => exact ⟨_, .of_keeps (postWriteDone_keeps _ _), fun _ => rfl⟩

/-- Settles O2: each command is an operation on the state whose footprint leaves out the queue. -/
theorem everyCommandCompletesAndKeepsTheQueue : Obligations.EveryCommandCompletesAndKeepsTheQueue := by
  unfold Obligations.EveryCommandCompletesAndKeepsTheQueue
  intro c s
  obtain ⟨f, keeps, answers⟩ := exec_queue c
  exact ⟨f s, answers s, keeps s⟩

end Sys2Proof.Machine
end

section
/-! PROOFS. The accesses to the register window that do nothing (R182). -/

namespace Sys2Proof.Machine

set_option Elab.async false

/-- A write that is not one word of AREA_LO, AREA_HI, ENGINE_CTL or IRQ_CAUSE changes nothing. -/
theorem registerWrite_outside {offset size : Nat} (v : Word) (s : State)
    (outside : size ≠ 4 ∨ offset ∉ [0x04, 0x08, 0x0C, 0x14]) : registerWrite offset size v s = s := by
  simp only [List.mem_cons, List.not_mem_nil, or_false, not_or] at outside
  unfold registerWrite
  rw [if_neg (by omega), if_neg (by omega), if_neg (by omega), if_neg (by omega)]

/-- A read that is not one word of KS_ID, AREA_LO, AREA_HI, ENGINE_STATE or IRQ_CAUSE returns 0. -/
theorem registerRead_outside {offset size : Nat} (s : State)
    (outside : size ≠ 4 ∨ offset ∉ [0x00, 0x04, 0x08, 0x10, 0x14]) : registerRead s offset size = 0 := by
  unfold registerRead
  obtain other | unused := outside
  · exact if_pos other
  · simp only [List.mem_cons, List.not_mem_nil, or_false, not_or] at unused
    obtain ⟨ksId, areaLo, areaHi, engineState, irqCause⟩ := unused
    rw [if_neg ksId, if_neg areaLo, if_neg areaHi, if_neg engineState, if_neg irqCause, ite_self]

theorem registerRead_ksId (s : State) : registerRead s 0 4 = 0x00010612 := rfl

/-- Settles O20: an access outside the registers' words does nothing. -/
theorem registerWindowIgnoresTheRest : Obligations.RegisterWindowIgnoresTheRest := by
  unfold Obligations.RegisterWindowIgnoresTheRest
  exact fun offset size v s => ⟨fun outside => congrArg Host.Outcome.next (registerWrite_outside v s outside),
    registerRead_outside s, registerRead_ksId s⟩

end Sys2Proof.Machine
end
